-- ==== Sys2Proof/Word.lean ====
section
/-! DEFINITION. The machine's word types and the two plainest operations on their fields (00_scope.md R10). -/

namespace Sys2Proof

/-- A register or MMIO word (20_memory.md R80). -/
abbrev Word := BitVec 32

/-- A message-bus datum, or one byte of a byte-addressed store. -/
abbrev Byte := BitVec 8

/-- The bit pattern of an IEEE 754 binary64 value (00_scope.md R11, 30_encoding.md R113). -/
abbrev B64 := BitVec 64

/-- A point or a length of the abstract time base, in microseconds (00_scope.md R14). -/
abbrev Time := Nat

/-- `v[lo+width-1 : lo]`, as an unsigned integer (00_scope.md R10). -/
def fieldGet (v : Word) (lo width : Nat) : Nat :=
  (v.toNat / 2 ^ lo) % 2 ^ width

/-- `field_put(v, mask, shift, x)` of 00_scope.md R10. -/
def fieldPut (v mask : Word) (shift x : Nat) : Word :=
  (v &&& ~~~mask) ||| ((BitVec.ofNat 32 x <<< shift) &&& mask)

/-- A field placed in a word with its lowest bit at `lo` (00_scope.md R10). -/
def place {n : Nat} (x : BitVec n) (lo : Nat) : Word := x.setWidth 32 <<< lo

/-- `(hi << 8) | lo` (20_memory.md R84). -/
def joinBytes (hi lo : Byte) : BitVec 16 := (hi.setWidth 16 <<< 8) ||| lo.setWidth 16

/-- A bit as a one-bit field. -/
def bit (b : Bool) : BitVec 1 := BitVec.ofBool b

/-- The mask of a field of `width` bits whose lowest bit is `lo`. -/
def fieldMask (lo width : Nat) : Word :=
  BitVec.ofNat 32 ((2 ^ width - 1) * 2 ^ lo)

end Sys2Proof
end

