-- ==== Sys2Proof/Syntax.lean ====
section
/-! DEFINITION. The instructions: one constructor for each row of spec/opcode_table.json. A host
command's 64-bit operands stand in ARG0 to ARG4, not in the command word (30_encoding.md R110). -/

namespace Sys2Proof

/-- The 22 host commands (30_encoding.md R119), the 3 internal operations (R120) and the 6 wire words
(R125). A flag is the CMD bit of its letter: M, C, R, K. `port` is a port number, `lanes` a lane mask. -/
inductive Instr where
  | construct
  | release
  | readRegisters
  | calcPllClock (m : Bool)
  | calcFeedbackDividers
  | programMmio (m : Bool)
  | printRegisters
  | getCached
  | programPhy (c r : Bool)
  | setPllClock (c : Bool)
  | getPllClock
  | waitUntilDone
  | rollback
  | mbWaitClear
  | mbReadOnce (port : Nat) (lanes : BitVec 2)
  | mbRead (port : Nat) (lanes : BitVec 2)
  | mbWriteOnce (port : Nat) (lanes : BitVec 2) (k : Bool)
  | mbWrite (port : Nat) (lanes : BitVec 2) (k : Bool)
  | mbRmw (port : Nat) (lanes : BitVec 2) (k : Bool)
  | mbReset (port : Nat) (lanes : BitVec 2)
  | sramRead (port : Nat) (lanes : BitVec 2)
  | sramWrite (port : Nat) (lanes : BitVec 2)
  | timerArm
  | timerCancel
  | timerFire
  | m2pWriteUncommitted (addr : BitVec 12) (data : Byte)
  | m2pWriteCommitted (addr : BitVec 12) (data : Byte)
  | m2pRead (addr : BitVec 12) (data : Byte)
  | m2pBusReset
  | p2mReadAck (data : Byte)
  | p2mWriteAck (data : Byte)
  deriving DecidableEq, Repr

end Sys2Proof
end

