-- ==== Sys2Proof/WellFormed.lean ====
section
/-! DEFINITION. When an instruction is well-formed: its PORT fits the six bits of CMD[27:22]
(30_encoding.md R110). Every other operand's type already has the width of its field. -/

namespace Sys2Proof

/-- The port number an instruction carries in its command word, if it carries one. -/
def Instr.port? : Instr → Option Nat
  | .mbReadOnce p _ | .mbRead p _ | .mbReset p _ | .sramRead p _ | .sramWrite p _ => some p
  | .mbWriteOnce p _ _ | .mbWrite p _ _ | .mbRmw p _ _ => some p
  | .construct | .release | .readRegisters | .calcPllClock _ | .calcFeedbackDividers => none
  | .programMmio _ | .printRegisters | .getCached | .programPhy _ _ | .setPllClock _ => none
  | .getPllClock | .waitUntilDone | .rollback | .mbWaitClear => none
  | .timerArm | .timerCancel | .timerFire | .m2pWriteUncommitted _ _ | .m2pWriteCommitted _ _ => none
  | .m2pRead _ _ | .m2pBusReset | .p2mReadAck _ | .p2mWriteAck _ => none

/-- The instruction can be encoded: its port is a 6-bit number (30_encoding.md R110). -/
def Instr.wellFormed (i : Instr) : Bool :=
  match i.port? with
  | none => true
  | some p => decide (p < 64)

end Sys2Proof
end

