-- ==== Sys2Proof/Decode.lean ====
section
/-! DEFINITION. The decoders of the three encoded interfaces (the host's CMD word, the internal
operation codes, the wire words), total on any word, and the encoder written from the same tables
(30_encoding.md R110 to R125, spec/opcode_table.json). -/

namespace Sys2Proof

/-! ### Command-word fields (30_encoding.md R110) -/

/-- `C` (COMMIT), CMD[16]. -/
def cmdC (w : Word) : Bool := w.getLsbD 16
/-- `R` (AUTO_RESET), CMD[17]. -/
def cmdR (w : Word) : Bool := w.getLsbD 17
/-- `M` (USE_MOD), CMD[18]. -/
def cmdM (w : Word) : Bool := w.getLsbD 18
/-- `K` (COMMITTED), CMD[19]. -/
def cmdK (w : Word) : Bool := w.getLsbD 19
/-- `LANES`, CMD[21:20]. -/
def cmdLanes (w : Word) : BitVec 2 := w.extractLsb' 20 2
/-- `PORT`, CMD[27:22]. -/
def cmdPort (w : Word) : Nat := (w.extractLsb' 22 6).toNat

/-- The CMD bits of the fields C, R, M, K, and of PORT with LANES. -/
def maskC : Word := 0x00010000#32
/-- The bit of R. -/
def maskR : Word := 0x00020000#32
/-- The bit of M. -/
def maskM : Word := 0x00040000#32
/-- The bit of K. -/
def maskK : Word := 0x00080000#32
/-- The bits of PORT and LANES. -/
def maskBus : Word := 0x0FF00000#32

/-- 30_encoding.md R111: `i`, if every bit outside the opcode and the fields the command uses is 0. -/
def onlyFields (w fields : Word) (i : Instr) : Option Instr :=
  if w &&& ~~~(0xFF#32 ||| fields) = 0#32 then some i else none

/-- The command a host's CMD word selects (30_encoding.md R111, R119); none is `ILLEGAL_COMMAND`. -/
def decodeHost (w : Word) : Option Instr :=
  match (w.extractLsb' 0 8).toNat with
  | 0x01 => onlyFields w 0 .construct
  | 0x02 => onlyFields w 0 .release
  | 0x03 => onlyFields w 0 .readRegisters
  | 0x04 => onlyFields w maskM (.calcPllClock (cmdM w))
  | 0x05 => onlyFields w 0 .calcFeedbackDividers
  | 0x06 => onlyFields w maskM (.programMmio (cmdM w))
  | 0x07 => onlyFields w 0 .printRegisters
  | 0x08 => onlyFields w 0 .getCached
  | 0x10 => onlyFields w (maskC ||| maskR) (.programPhy (cmdC w) (cmdR w))
  | 0x11 => onlyFields w maskC (.setPllClock (cmdC w))
  | 0x12 => onlyFields w 0 .getPllClock
  | 0x13 => onlyFields w 0 .waitUntilDone
  | 0x14 => onlyFields w 0 .rollback
  | 0x20 => onlyFields w 0 .mbWaitClear
  | 0x21 => onlyFields w maskBus (.mbReadOnce (cmdPort w) (cmdLanes w))
  | 0x22 => onlyFields w maskBus (.mbRead (cmdPort w) (cmdLanes w))
  | 0x23 => onlyFields w (maskBus ||| maskK) (.mbWriteOnce (cmdPort w) (cmdLanes w) (cmdK w))
  | 0x24 => onlyFields w (maskBus ||| maskK) (.mbWrite (cmdPort w) (cmdLanes w) (cmdK w))
  | 0x25 => onlyFields w (maskBus ||| maskK) (.mbRmw (cmdPort w) (cmdLanes w) (cmdK w))
  | 0x26 => onlyFields w maskBus (.mbReset (cmdPort w) (cmdLanes w))
  | 0x27 => onlyFields w maskBus (.sramRead (cmdPort w) (cmdLanes w))
  | 0x28 => onlyFields w maskBus (.sramWrite (cmdPort w) (cmdLanes w))
  | _ => none

/-- An internal operation's code (30_encoding.md R120). The table fixes the low byte only, so the
other bits are ignored. DEDUCED, log 16. Safe. -/
def decodeInternal (w : Word) : Option Instr :=
  match (w.extractLsb' 0 8).toNat with
  | 0x30 => some .timerArm
  | 0x31 => some .timerCancel
  | 0x32 => some .timerFire
  | _ => none

/-! ### Wire words (30_encoding.md R122 to R125, 10_state.md R53) -/

/-- `ADDR`, bits 11:0 of an M2P word. -/
def m2pAddr (w : Word) : BitVec 12 := w.extractLsb' 0 12
/-- `DATA`, bits 23:16 of an M2P or P2M word. -/
def wireData (w : Word) : Byte := w.extractLsb' 16 8
/-- `CMD`, bits 30:27 of an M2P or P2M word. -/
def wireType (w : Word) : Nat := (w.extractLsb' 27 4).toNat
/-- `PENDING` of an M2P word, `READY` of a P2M word: bit 31. -/
def wireTop (w : Word) : Bool := w.getLsbD 31
/-- `RESET` of an M2P word, `ERROR` of a P2M word: bit 15. -/
def wireBit15 (w : Word) : Bool := w.getLsbD 15

/-- `m2p(cmd, addr, data)` (30_encoding.md R122). -/
def m2pWord (cmd : BitVec 4) (addr : BitVec 12) (data : Byte) : Word :=
  0x80000000#32 ||| place cmd 27 ||| place data 16 ||| place addr 0

/-- `m2p_reset` (30_encoding.md R122). -/
def m2pReset : Word := 0x00008000#32

/-- A P2M word with READY set, the given type and data, and every other bit 0 (30_encoding.md R123). -/
def p2mWord (type : BitVec 4) (data : Byte) : Word :=
  0x80000000#32 ||| place type 27 ||| place data 16

/-- The wire command of a word on M2P_CTL: PENDING with code 1, 2 or 3 and reserved bits 0, or the
bus-reset word (30_encoding.md R122, R125). -/
def decodeM2p (w : Word) : Option Instr :=
  if w = m2pReset then some .m2pBusReset
  else if wireTop w && w.extractLsb' 24 3 == 0#3 && w.extractLsb' 12 4 == 0#4 then
    match wireType w with
    | 1 => some (.m2pWriteUncommitted (m2pAddr w) (wireData w))
    | 2 => some (.m2pWriteCommitted (m2pAddr w) (wireData w))
    | 3 => some (.m2pRead (m2pAddr w) (wireData w))
    | _ => none
  else none

/-- The response of a word on P2M_STS: READY without ERROR, type 4 or 5, other bits ignored
(30_encoding.md R123, R125). -/
def decodeP2m (w : Word) : Option Instr :=
  if wireTop w && !wireBit15 w then
    match wireType w with
    | 4 => some (.p2mReadAck (wireData w))
    | 5 => some (.p2mWriteAck (wireData w))
    | _ => none
  else none

/-- A wire word of either direction; the two directions share no type code. -/
def decodeWire (w : Word) : Option Instr := (decodeM2p w).or (decodeP2m w)

/-! ### All channels -/

/-- Where a word enters the machine. -/
inductive Channel where
  | host | internal | wire
  deriving DecidableEq, Repr

/-- The channel of a word of spec/opcode_table.json: a wire word first (its fixed bits are the most),
then an internal code, else a host's command. DEDUCED, log 16. Safe. -/
def channelOf (w : Word) : Channel :=
  if (decodeWire w).isSome then .wire
  else if (decodeInternal w).isSome then .internal
  else .host

/-- The instruction of a word on its channel. -/
def decodeOn (c : Channel) (w : Word) : Option Instr :=
  match c with
  | .host => decodeHost w
  | .internal => decodeInternal w
  | .wire => decodeWire w

/-- The instruction of a word of spec/opcode_table.json. -/
def decode (w : Word) : Option Instr := decodeOn (channelOf w) w

/-- The instruction the decoder reads from a word numbered as spec/opcode_table.json numbers it. Every
instruction is one 32-bit word, or an 8-bit internal code whose higher bits are 0. -/
def decodeTableWord (nbits w : Nat) : Option Instr :=
  if nbits ≤ 32 ∧ w < 2 ^ 32 then decode (BitVec.ofNat 32 w) else none

/-! ### The encoder -/

/-- A CMD word from its fields (30_encoding.md R110). -/
def cmdWord (op : BitVec 8) (c r m k : Bool) (lanes : BitVec 2) (port : Nat) : Word :=
  place op 0 ||| place (bit c) 16 ||| place (bit r) 17 ||| place (bit m) 18 ||| place (bit k) 19
    ||| place lanes 20 ||| place (BitVec.ofNat 6 port) 22

/-- A CMD word without PORT and LANES. -/
def plainCmd (op : BitVec 8) (c r m : Bool) : Word := cmdWord op c r m false 0#2 0

/-- A CMD word with PORT, LANES and K. -/
def busCmd (op : BitVec 8) (port : Nat) (lanes : BitVec 2) (k : Bool) : Word :=
  cmdWord op false false false k lanes port

/-- The word of an instruction (30_encoding.md R110, R119, R120, R122, R123). -/
def encode : Instr → Word
  | .construct => plainCmd 0x01 false false false
  | .release => plainCmd 0x02 false false false
  | .readRegisters => plainCmd 0x03 false false false
  | .calcPllClock m => plainCmd 0x04 false false m
  | .calcFeedbackDividers => plainCmd 0x05 false false false
  | .programMmio m => plainCmd 0x06 false false m
  | .printRegisters => plainCmd 0x07 false false false
  | .getCached => plainCmd 0x08 false false false
  | .programPhy c r => plainCmd 0x10 c r false
  | .setPllClock c => plainCmd 0x11 c false false
  | .getPllClock => plainCmd 0x12 false false false
  | .waitUntilDone => plainCmd 0x13 false false false
  | .rollback => plainCmd 0x14 false false false
  | .mbWaitClear => plainCmd 0x20 false false false
  | .mbReadOnce p l => busCmd 0x21 p l false
  | .mbRead p l => busCmd 0x22 p l false
  | .mbWriteOnce p l k => busCmd 0x23 p l k
  | .mbWrite p l k => busCmd 0x24 p l k
  | .mbRmw p l k => busCmd 0x25 p l k
  | .mbReset p l => busCmd 0x26 p l false
  | .sramRead p l => busCmd 0x27 p l false
  | .sramWrite p l => busCmd 0x28 p l false
  | .timerArm => 0x00000030#32
  | .timerCancel => 0x00000031#32
  | .timerFire => 0x00000032#32
  | .m2pWriteUncommitted a d => m2pWord 1 a d
  | .m2pWriteCommitted a d => m2pWord 2 a d
  | .m2pRead a d => m2pWord 3 a d
  | .m2pBusReset => m2pReset
  | .p2mReadAck d => p2mWord 4 d
  | .p2mWriteAck d => p2mWord 5 d

end Sys2Proof
end

