-- ==== Sys2Proof/Config.lean ====
section
/-! DEFINITION. The configuration of 00_scope.md R7 to R9 as plain data, the check of
70_reset_and_hazards.md R412 on it, the platform of the spec's test vectors, and the model's free
values. -/

namespace Sys2Proof

/-- The five PHY variants (00_scope.md R2). -/
inductive Variant where
  | combo | dkl | c10 | c20 | dpmn
  deriving DecidableEq, Repr

/-- `P_COMBO_REGS` and `P_COMBO_FIELDS` (41_phy_datapath.md R210). -/
structure ComboLayout where
  cfg0 : Word
  cfg1 : Word
  /-- lowest bit of the 10-bit integer in CFG0 -/
  intLo : Nat := 0
  /-- lowest bit of the 15-bit fraction in CFG0 -/
  fracLo : Nat := 10
  deriving DecidableEq, Repr

/-- One entry of `P_DKL_AUX`: register, mask, forced value (41_phy_datapath.md R220). -/
structure AuxField where
  reg : Word
  mask : Word
  value : Word
  deriving DecidableEq, Repr

/-- `P_DKL_REGS`, `P_DKL_FIELDS` and `P_DKL_AUX` (41_phy_datapath.md R220). -/
structure DklLayout where
  div0 : Word
  bias : Word
  aux : List AuxField
  /-- lowest bit of the 4-bit prediv in DIV0 -/
  predivLo : Nat := 8
  /-- lowest bit of the 8-bit integer in DIV0 -/
  intLo : Nat := 0
  /-- lowest bit of the 22-bit fraction in BIAS -/
  fracLo : Nat := 8
  deriving DecidableEq, Repr

/-- `P_C10_FIELDS`: which slot holds each byte of a field, and the lowest bit of the two fields that
are narrower than a slot (41_phy_datapath.md R230). -/
structure C10Fields where
  mLo : Nat := 2
  mHi : Nat := 3
  /-- lowest bit, in slot `mHi`, of the multiplier's upper 4 bits -/
  mHiBit : Nat := 0
  dLo : Nat := 9
  dHi : Nat := 10
  qLo : Nat := 11
  qHi : Nat := 12
  rLo : Nat := 13
  rHi : Nat := 14
  tx : Nat := 15
  /-- lowest bit, in slot `tx`, of the 3-bit txclkdiv -/
  txBit : Nat := 0
  deriving DecidableEq, Repr

/-- The default `P_C10_SLOT_ADDR(k) = 0xC00 + k`, k = 0 to 19 (00_scope.md R9). -/
def defaultC10SlotAddr : List (BitVec 12) :=
  (List.range 20).map fun k => BitVec.ofNat 12 (0xC00 + k)

/-- A C10 selector's port, lanes and slot layout (00_scope.md R8, 41_phy_datapath.md R230). -/
structure C10Layout where
  port : Nat
  lanes : BitVec 2
  slotAddr : List (BitVec 12) := defaultC10SlotAddr
  fields : C10Fields := {}
  deriving DecidableEq, Repr

/-- Where a field of a C20 block lies: the position of its word in the block's list, and its lowest bit. -/
structure FieldPos where
  word : Nat
  lo : Nat
  deriving DecidableEq, Repr

/-- One of MPLLA and MPLLB in `P_C20_LAYOUT` (41_phy_datapath.md R240): the SRAM word addresses of the
snapshot in order, and the position of every field. -/
structure C20Block where
  words : List (BitVec 16)
  fracEn : FieldPos
  txClkDiv : FieldPos
  refDiv : FieldPos
  multiplier : FieldPos
  txRate : FieldPos
  txRateMult : FieldPos
  fbClkDiv4En : FieldPos
  /-- position of `Wq` in `words` -/
  q : Nat
  /-- position of `Wr` in `words` -/
  r : Nat
  /-- position of `Wd` in `words` -/
  d : Nat
  deriving DecidableEq, Repr

/-- A C20 selector's port, lanes and `P_C20_LAYOUT` (41_phy_datapath.md R240). -/
structure C20Layout where
  port : Nat
  lanes : BitVec 2
  ctxReg : BitVec 12
  ctxBit : Nat
  mplla : C20Block
  mpllb : C20Block
  deriving DecidableEq, Repr

/-- `P_DPMN_REGS` and `P_DPMN_M_MASK` (41_phy_datapath.md R250). -/
structure DpmnLayout where
  m : Word
  n : Word
  mMask : Word := 0xFFFFFFFF#32
  deriving DecidableEq, Repr

/-- The register layout of a selector; its constructor is the selector's variant (00_scope.md R8, R9). -/
inductive Layout where
  | combo (l : ComboLayout)
  | dkl (l : DklLayout)
  | c10 (l : C10Layout)
  | c20 (l : C20Layout)
  | dpmn (l : DpmnLayout)
  deriving DecidableEq, Repr

/-- A selector record (00_scope.md R8). `discover` with `discoverElse` is `P_PLL_DISCOVER` for this
selector as a finite table: a value of the clock-select register, the PLL index it selects, and the
index every other value selects. DESIGN CHOICE, log 25: a table is plain data and every function of a
32-bit value is one. Safe. -/
structure Selector where
  id : Nat
  clkselReg : Word
  clkselBit : Nat
  discover : List (Word × Nat)
  discoverElse : Nat
  layout : Layout
  deriving DecidableEq, Repr

/-- `sel.variant` (00_scope.md R8). -/
def Selector.variant (s : Selector) : Variant :=
  match s.layout with
  | .combo _ => .combo
  | .dkl _ => .dkl
  | .c10 _ => .c10
  | .c20 _ => .c20
  | .dpmn _ => .dpmn

/-- `P_MB_CTL` and `P_MB_STS` of one lane (00_scope.md R7, 10_state.md R53). -/
structure LaneRegs where
  ctl : Word
  sts : Word
  deriving DecidableEq, Repr

/-- The `P_NUM_LANES` = 2 lanes of a message-bus port (00_scope.md R7). -/
structure PortRegs where
  lane0 : LaneRegs
  lane1 : LaneRegs
  deriving DecidableEq, Repr

/-- `P_C20_WINDOW`, the eight registers of the SRAM window (40_message_bus.md R174). -/
structure C20Window where
  wrAddrH : BitVec 12 := 0xC02#12
  wrAddrL : BitVec 12 := 0xC03#12
  wrDataH : BitVec 12 := 0xC04#12
  wrDataL : BitVec 12 := 0xC05#12
  rdAddrH : BitVec 12 := 0xC06#12
  rdAddrL : BitVec 12 := 0xC07#12
  rdDataH : BitVec 12 := 0xC08#12
  rdDataL : BitVec 12 := 0xC09#12
  deriving DecidableEq, Repr

/-- The configuration (00_scope.md R7 to R9), fixed while the machine runs. It is plain data that State
carries, so a statement about every state holds for every configuration. -/
structure Platform where
  numInstances : Nat
  numPll : Nat
  /-- the lanes' registers, one entry per port: `P_NUM_PORTS` is the length -/
  busPorts : List PortRegs
  tPendUs : Nat
  tAckUs : Nat
  tRstUs : Nat
  pollUs : Nat
  donePollMs : Nat
  refclkComboKhz : Nat
  refclkDklMhz : B64
  refclkC10Khz : Nat
  refclkC20Khz : Nat
  c20Window : C20Window := {}
  selectors : List Selector
  deriving DecidableEq, Repr

/-- `P_NUM_LANES` (00_scope.md R7, D52). -/
def numLanes : Nat := 2

/-- `P_MB_ATTEMPTS` (00_scope.md R7, D27). -/
def mbAttempts : Nat := 3

/-- `P_TIMER_MAX_MS` (00_scope.md R7, D7). -/
def timerMaxMs : Nat := 2 ^ 32 - 1

/-- `P_STEP_MAX` (00_scope.md R7, D9). -/
def stepMax : Nat := 2 ^ 32 - 1

namespace Platform

/-- `P_NUM_PORTS` (00_scope.md R7). -/
def numPorts (p : Platform) : Nat := p.busPorts.length

/-- The registers of lane `l` of port `n`; none where there is no such lane. -/
def laneRegs? (p : Platform) (n l : Nat) : Option LaneRegs :=
  match p.busPorts[n]? with
  | none => none
  | some r => if l = 0 then some r.lane0 else if l = 1 then some r.lane1 else none

/-- `P_MB_CTL(n, l)`. -/
def ctl (p : Platform) (n l : Nat) : Word := ((p.laneRegs? n l).map (·.ctl)).getD 0

/-- `P_MB_STS(n, l)`. -/
def sts (p : Platform) (n l : Nat) : Word := ((p.laneRegs? n l).map (·.sts)).getD 0

/-- Every lane with its port and number, in order. -/
def lanesOf : Nat → List PortRegs → List (Nat × Nat × LaneRegs)
  | _, [] => []
  | n, r :: rest => (n, 0, r.lane0) :: (n, 1, r.lane1) :: lanesOf (n + 1) rest

/-- Every lane of the platform with its port and number. -/
def allLanes (p : Platform) : List (Nat × Nat × LaneRegs) := lanesOf 0 p.busPorts

/-- The selector an id names; id 0 is the null selector and names none (00_scope.md R8, D55). -/
def selector? (p : Platform) (id : Nat) : Option Selector :=
  if id = 0 then none else p.selectors.find? fun s => s.id == id

/-- `P_PLL_DISCOVER(s, v)` (00_scope.md R7, D50). -/
def pllDiscover (s : Selector) (v : Word) : Nat :=
  (s.discover.lookup v).getD s.discoverElse

end Platform

/-! ### The configuration check (70_reset_and_hazards.md R412; 93_implementation_defined.md section 2) -/

/-- An MMIO offset is a multiple of 4 (20_memory.md R85). -/
def alignedOffset (w : Word) : Bool := w.toNat % 4 == 0

/-- The DKL slot registers: DIV0, BIAS, then each distinct aux register that is neither
(10_state.md R34). -/
def DklLayout.regs (l : DklLayout) : List Word :=
  l.aux.foldl (fun acc a => if acc.contains a.reg then acc else acc ++ [a.reg]) [l.div0, l.bias]

/-- The bits of `reg` that hold a divider field of the DKL layout. -/
def DklLayout.dividerMask (l : DklLayout) (reg : Word) : Word :=
  (if reg = l.div0 then fieldMask l.predivLo 4 ||| fieldMask l.intLo 8 else 0) |||
  (if reg = l.bias then fieldMask l.fracLo 22 else 0)

/-- Every field of a C20 block fits its word (93_implementation_defined.md section 2). -/
def C20Block.valid (b : C20Block) : Bool :=
  let fits (f : FieldPos) (width : Nat) := decide (f.word < b.words.length) && decide (f.lo + width ≤ 16)
  fits b.fracEn 1 && fits b.txClkDiv 3 && fits b.refDiv 3 && fits b.multiplier 12 && fits b.txRate 3
    && fits b.txRateMult 1 && fits b.fbClkDiv4En 1
    && decide (b.q < b.words.length) && decide (b.r < b.words.length) && decide (b.d < b.words.length)

/-- Every slot number of the C10 fields is one of the twenty, and the narrow fields fit their slot. -/
def C10Fields.valid (f : C10Fields) : Bool :=
  [f.mLo, f.mHi, f.dLo, f.dHi, f.qLo, f.qHi, f.rLo, f.rHi, f.tx].all (fun k => decide (k < 20))
    && decide (f.mHiBit + 4 ≤ 8) && decide (f.txBit + 3 ≤ 8)

/-- The checks on one selector's layout (70_reset_and_hazards.md R412, 93_implementation_defined.md
section 2): aligned offsets, lanes that are not 0, four aux fields with masks clear of the divider fields,
C20 fields inside their words, C20 contexts that do not overlap; a C10 has twenty slots (41_phy_datapath.md
R230). DESIGN CHOICE, log 26: refused as well, though neither R412 nor that section has the check, are a C10
or C20 port that is not below `P_NUM_PORTS`, Combo, DKL and C10 fields outside their words, a C20 context bit
above 7, and an M mask of 0. Safe. Registers, fields or slots of one layout may coincide: no rule forbids it
(log 26). -/
def Layout.valid (numPorts : Nat) : Layout → Bool
  | .combo l => alignedOffset l.cfg0 && alignedOffset l.cfg1
      && decide (l.intLo + 10 ≤ 32) && decide (l.fracLo + 15 ≤ 32)
  | .dkl l => l.regs.all alignedOffset && l.aux.length == 4
      && decide (l.predivLo + 4 ≤ 32) && decide (l.intLo + 8 ≤ 32) && decide (l.fracLo + 22 ≤ 32)
      && l.aux.all fun a => (a.mask &&& l.dividerMask a.reg) == 0
  | .c10 l => decide (l.port < numPorts) && l.lanes != 0 && l.slotAddr.length == 20 && l.fields.valid
  | .c20 l => decide (l.port < numPorts) && l.lanes != 0 && decide (l.ctxBit < 8)
      && l.mplla.valid && l.mpllb.valid && l.mplla.words.all fun w => !l.mpllb.words.contains w
  | .dpmn l => alignedOffset l.m && alignedOffset l.n && l.mMask != 0

/-- The port and lanes a selector's layout uses, if it is on the message bus. -/
def Layout.lanes? : Layout → Option (Nat × BitVec 2)
  | .c10 l => some (l.port, l.lanes)
  | .c20 l => some (l.port, l.lanes)
  | _ => none

/-- Every PLL index a selector can discover. -/
def Selector.indices (s : Selector) : List Nat := s.discoverElse :: s.discover.map (·.2)

/-- Two selectors can discover two different PLL indices: with two instances both can be bound. -/
def Selector.mayBothBind (a b : Selector) : Bool :=
  a.indices.any fun i => b.indices.any fun j => i != j

/-- Two selectors share a message-bus port and lane while both may be bound (70_reset_and_hazards.md
R412, R436). -/
def Selector.sharesLane (a b : Selector) : Bool :=
  match a.layout.lanes?, b.layout.lanes? with
  | some (p, l), some (p', l') => p == p' && (l &&& l') != 0 && a.mayBothBind b
  | _, _ => false

/-- No element of the list stands in relation `r` with a later one. -/
def noPair {α : Type} (r : α → α → Bool) : List α → Bool
  | [] => true
  | a :: rest => rest.all (fun b => !r a b) && noPair r rest

/-- A binary64 pattern is finite and greater than zero. DESIGN CHOICE, log 26: 00_scope.md R9 and
93_implementation_defined.md section 2 ask of `P_REFCLK_DKL_MHZ` only that it is greater than 0 and leave open
whether +infinity is admissible; the model refuses it. Safe. -/
def positiveB64 (x : B64) : Bool :=
  decide (0 < x.toNat) && decide (x.toNat < 0x7FF0000000000000)

/-- The counts, time limits and reference clocks are positive (00_scope.md R7, R9); that the DKL clock is also
finite is the model's choice (`positiveB64`, log 26). -/
def Platform.countsOk (p : Platform) : Bool :=
  [decide (1 ≤ p.numInstances), decide (1 ≤ p.numPll), decide (1 ≤ p.numPorts), decide (0 < p.tPendUs),
    decide (0 < p.tAckUs), decide (0 < p.tRstUs), decide (0 < p.pollUs), decide (0 < p.donePollMs),
    decide (0 < p.refclkComboKhz), positiveB64 p.refclkDklMhz, decide (0 < p.refclkC10Khz),
    decide (0 < p.refclkC20Khz)].all fun b => b

/-- The lanes' registers are aligned and distinct (70_reset_and_hazards.md R412; log 26). -/
def Platform.lanesOk (p : Platform) : Bool :=
  (p.allLanes.all fun x => alignedOffset x.2.2.ctl && alignedOffset x.2.2.sts)
    && noPair (fun a b : Word => a == b) (p.allLanes.flatMap fun x => [x.2.2.ctl, x.2.2.sts])

/-- Every selector is admissible, ids are distinct, and no two that may be bound together share a lane
(70_reset_and_hazards.md R412; log 26); with one instance no two are ever bound together. DESIGN CHOICE, log 26: only
two different selectors are compared, as R412 and R436 say two selectors; a C10 or C20 selector that can discover two
PLL indices, and so can be bound by two instances at once, which then share its lanes (20_memory.md R91), is
accepted. DESIGN CHOICE, log 26: 92_eei_decisions.md D54 wants distinct registers for distinct PLL indices (R435) and
R412 lists no check of it; selectors of different PLL indices that name the same MMIO registers are accepted, and so is
one selector that can discover several indices. Safe. -/
def Platform.selectorsOk (p : Platform) : Bool :=
  (p.selectors.all fun s => s.id != 0 && alignedOffset s.clkselReg && s.layout.valid p.numPorts
          && s.indices.all fun k => decide (k < p.numPll))
    && noPair (fun a b : Selector => a.id == b.id) p.selectors
    && (decide (p.numInstances < 2) || noPair Selector.sharesLane p.selectors)

/-- The configuration is admissible (70_reset_and_hazards.md R412, 00_scope.md R7 to R9,
93_implementation_defined.md section 2). DESIGN CHOICE, log 26: what else is refused, here selector ids that
are repeated or 0, and what is accepted where no check is stated, among it a P_C20_WINDOW whose eight addresses are
not all different (00_scope.md R9, 40_message_bus.md R174), for which logs 8 and 26 and `State.phyWrite` say what a
write does; a PLL or clock-select register at the offset of an M2P_CTL or P2M_STS (`State.mmioWrite`); and registers of
different selectors that coincide (`Platform.selectorsOk`). Safe. -/
def Platform.valid (p : Platform) : Bool := p.countsOk && p.lanesOk && p.selectorsOk

/-! ### Free values

Opaque: no proof can use what they are. -/

/-- The sign (bit 51) and the payload (bits 50 to 0) of the NaN a binary64 operation produces from two
operands: 00_scope.md R11 asks for IEEE 754 operations, which leave them open. DESIGN CHOICE, log 9:
free. Safe. -/
opaque Config.nanBits : B64 → B64 → BitVec 52

/-- The integer taken from a NaN, where a rule rounds one: 00_scope.md R11 defines `to_int` and the
roundings for finite values only. The user of it reduces it to the width of the register or field
written. DESIGN CHOICE, log 10: free. Safe. -/
opaque Config.nanToNat : B64 → Nat

/-! ### The platform of the spec's test vectors -/

namespace Config

/-- Message-bus ports 0 to 3 of the reference platform: `P_NUM_PORTS` = 4 (95_test_vectors.md); the
offsets are chosen. -/
def referencePorts : List PortRegs :=
  [ ⟨⟨0x1000, 0x1004⟩, ⟨0x1008, 0x100C⟩⟩
  , ⟨⟨0x1010, 0x1014⟩, ⟨0x1018, 0x101C⟩⟩
  , ⟨⟨0x1020, 0x1024⟩, ⟨0x1028, 0x102C⟩⟩
  , ⟨⟨0x1030, 0x1034⟩, ⟨0x1038, 0x103C⟩⟩ ]

/-- `P_DKL_AUX` of program P5 (95_test_vectors.md). -/
def referenceAux : List AuxField :=
  [ ⟨0x108, 0x00000001, 0x1⟩, ⟨0x108, 0x00000002, 0x0⟩, ⟨0x108, 0x00000100, 0x100⟩
  , ⟨0x108, 0x00010000, 0x0⟩ ]

/-- A C20 block whose snapshot is five SRAM words from `base`: two of packed fields, then q, r, d. -/
def referenceBlock (base : Nat) : C20Block :=
  { words := (List.range 5).map fun k => BitVec.ofNat 16 (base + k)
    fracEn := ⟨0, 12⟩, multiplier := ⟨0, 0⟩, txClkDiv := ⟨1, 0⟩, refDiv := ⟨1, 3⟩
    txRate := ⟨1, 6⟩, txRateMult := ⟨1, 9⟩, fbClkDiv4En := ⟨1, 10⟩, q := 2, r := 3, d := 4 }

/-- A C20 layout on port 1, lane 0. -/
def referenceC20 : C20Layout :=
  { port := 1, lanes := 0b01, ctxReg := 0xD00, ctxBit := 0
    mplla := referenceBlock 0x100, mpllb := referenceBlock 0x200 }

/-- The selectors of programs P1 to P5 (95_test_vectors.md), a second Combo selector on PLL 1 (P4), and
a C20 selector. -/
def referenceSelectors : List Selector :=
  [ ⟨3, 0x400, 0, [], 1, .combo { cfg0 := 0x200, cfg1 := 0x204 }⟩
  , ⟨4, 0x404, 0, [], 1, .combo { cfg0 := 0x208, cfg1 := 0x20C }⟩
  , ⟨5, 0x408, 0, [], 2, .c10 { port := 0, lanes := 0b01 }⟩
  , ⟨7, 0x40C, 0, [], 0, .dpmn { m := 0x300, n := 0x304 }⟩
  , ⟨9, 0x410, 0, [], 3, .dkl { div0 := 0x100, bias := 0x104, aux := referenceAux }⟩
  , ⟨11, 0x414, 0, [], 4, .c20 referenceC20⟩ ]

/-- The platform `State.reset` carries: the values 95_test_vectors.md and D32 suggest, and chosen ones
where neither does. DESIGN CHOICE, log 4. Unsafe for statements about `State.reset` only. -/
def reference : Platform :=
  { numInstances := 2, numPll := 8, busPorts := referencePorts
    tPendUs := 1000, tAckUs := 1000, tRstUs := 1000, pollUs := 500, donePollMs := 10
    refclkComboKhz := 19200, refclkDklMhz := 0x4043333333333333, refclkC10Khz := 38400
    refclkC20Khz := 38400, selectors := referenceSelectors }

end Config

end Sys2Proof
end

