-- ==== Sys2Proof/Machine/State.lean ====
section
/-! DEFINITION. The state of the PFSC and of its environment as plain data, what a step may stop
with, and the state after a block reset (10_state.md, 70_reset_and_hazards.md R410). -/

namespace Sys2Proof.Machine

/-! ### Values -/

/-- The stepping controller's states (10_state.md R31). -/
inductive Fsm where
  | unbound | idle | captured | targetComputed | stepping | armedForRollback | rollingBack | done
  deriving DecidableEq, Repr

/-- The status codes (60_exceptions.md R370). -/
inductive Status where
  | ok | invalidArgument | busTimeout | busProtocolError | resourceConflict | hwReadAnomaly
  | cancelled | busy | invalidState | illegalCommand | dividerError
  deriving DecidableEq, Repr

/-- One captured register (10_state.md R34): its address, its two copies, and whether any rule but
PROGRAM_MMIO may write it. `orig` and `mod` have the variant's width W and are held in 32 bits. -/
structure Slot where
  addr : Nat
  orig : Word
  mod : Word
  writable : Bool
  deriving DecidableEq, Repr

/-- `c20_ctx` (10_state.md R41). -/
inductive C20Ctx where
  | mplla | mpllb
  deriving DecidableEq, Repr

/-- The C20 context and cached fields (10_state.md R41), each of the width named there. -/
structure C20Cache where
  ctx : C20Ctx
  fracEn : BitVec 1
  txClkDiv : BitVec 3
  refDiv : BitVec 3
  multiplier : BitVec 12
  txRate : BitVec 3
  txRateMult : BitVec 1
  fbClkDiv4En : BitVec 1
  deriving DecidableEq, Repr

/-- The eight C20 registers of a bank (10_state.md R41), each written by itself; `none` is "no value". -/
structure C20Regs where
  ctx : Option C20Ctx := none
  fracEn : Option (BitVec 1) := none
  txClkDiv : Option (BitVec 3) := none
  refDiv : Option (BitVec 3) := none
  multiplier : Option (BitVec 12) := none
  txRate : Option (BitVec 3) := none
  txRateMult : Option (BitVec 1) := none
  fbClkDiv4En : Option (BitVec 1) := none
  deriving DecidableEq, Repr

/-- A write of one of the C20 registers, with the value it takes or with none. -/
inductive C20Write where
  | ctx (x : Option C20Ctx)
  | fracEn (x : Option (BitVec 1))
  | txClkDiv (x : Option (BitVec 3))
  | refDiv (x : Option (BitVec 3))
  | multiplier (x : Option (BitVec 12))
  | txRate (x : Option (BitVec 3))
  | txRateMult (x : Option (BitVec 1))
  | fbClkDiv4En (x : Option (BitVec 1))
  deriving DecidableEq, Repr

/-- A slot whose `orig` is written and whose `mod` has no value yet (10_state.md R35). -/
structure HalfSlot where
  addr : Nat
  orig : Word
  writable : Bool
  deriving DecidableEq, Repr

/-- The datapath registers of the stepping controller (10_state.md R42); `none` is "no value". -/
structure Datapath where
  cur : Option B64 := none
  tgt : Option B64 := none
  pdiff : Option B64 := none
  ssize : Option B64 := none
  nsteps : Option (BitVec 32) := none
  istep : Option (BitVec 32) := none
  fi : Option B64 := none
  s : Option B64 := none
  fs : Option B64 := none
  eff : Option B64 := none
  tms : Option (BitVec 32) := none
  delta : Option B64 := none
  deriving DecidableEq, Repr

/-- The binary64 registers among the datapath registers (10_state.md R42). -/
inductive DpReg where
  | cur | tgt | pdiff | ssize | fi | s | fs | eff | delta
  deriving DecidableEq, Repr

/-- The u32 registers among the datapath registers (10_state.md R42). -/
inductive DpCount where
  | nsteps | istep | tms
  deriving DecidableEq, Repr

/-- The registers of one instance bank (10_state.md R31 to R46, R54). Where a field is an Option, "no
value" is the spec's own reset value (70_reset_and_hazards.md R410). -/
structure Core where
  fsm : Fsm := .unbound
  sel : Option Selector := none
  pllIndex : Option Nat := none
  slots : Option (List Slot) := none
  /-- the slot of the snapshot that READ_REGISTERS is filling, between its two writes
  (41_phy_datapath.md R201) -/
  filling : Option HalfSlot := none
  captured : Bool := false
  appliedMod : Bool := false
  done : Bool := true
  pllFreqOrig : Option B64 := none
  pllFreqMod : Option B64 := none
  usedShift : Option B64 := none
  c20 : C20Regs := {}
  dp : Datapath := {}
  armed : Bool := false
  deadline : Option Time := none
  cmd : Word := 0
  arg0 : BitVec 64 := 0
  arg1 : BitVec 64 := 0
  arg2 : BitVec 64 := 0
  arg3 : BitVec 64 := 0
  arg4 : BitVec 64 := 0
  /-- `STATUS.code` -/
  code : Status := .ok
  /-- `STATUS.busy` -/
  busy : Bool := false
  /-- `STATUS.overrun` -/
  overrun : Bool := false
  result : BitVec 64 := 0
  rbStatus : Status := .ok
  deriving DecidableEq, Repr

/-- What an atomic action answers the agent that made it. -/
inductive Resp where
  | unit
  | word (w : Word)
  | time (t : Time)
  | flag (b : Bool)
  | status (st : Status)
  /-- the test-and-clear of 43_rollback_scheduler.md R346 was won: the bank's selector and snapshot -/
  | owner (sel : Option Selector) (slots : List Slot)
  deriving DecidableEq, Repr

/-- A command in progress that waits or that another agent has overtaken (10_state.md R32): the
command (none for a word that decodes to no command, 30_encoding.md R111), the bank as it was when the
command was accepted (70_reset_and_hazards.md R437), and the answers its atomic actions have had so far.
The remaining pseudocode is the command's pseudocode from the first action after these. -/
structure Task where
  cmd : Option Instr
  view : Core
  hist : List Resp
  deriving DecidableEq, Repr

/-- An instance bank: its registers, and where its two agents stand
(70_reset_and_hazards.md R433: the command sequencer and the rollback path). -/
structure Bank where
  core : Core := {}
  /-- the sequencer's suspended command -/
  seq : Option Task := none
  /-- the rollback path's answers so far, once TIMER_FIRE has started it -/
  path : Option (List Resp) := none
  deriving DecidableEq, Repr

/-- One move of the environment, of the host, or of another agent (60_exceptions.md R395,
70_reset_and_hazards.md R433). `n` numbers an instance. -/
inductive Event where
  /-- ends the moves before one atomic action of the running command -/
  | go
  /-- time passes (60_exceptions.md R395 item 3) -/
  | tick (d : Time)
  /-- the shutdown driver sets the input (60_exceptions.md R395 item 4) -/
  | shutdown (b : Bool)
  /-- the environment changes an MMIO word (60_exceptions.md R395 item 1) -/
  | poke (off v : Word)
  /-- the environment changes a PHY register -/
  | pokePhy (port lane : Nat) (addr : BitVec 12) (v : Byte)
  /-- the environment changes an SRAM word -/
  | pokeSram (port lane : Nat) (addr v : BitVec 16)
  /-- the PHY of a lane takes the word on its M2P_CTL as the conforming responder of
  40_message_bus.md R154 does -/
  | phy (port lane : Nat)
  /-- the host writes ARG`k` -/
  | hostArg (n k : Nat) (v : BitVec 64)
  /-- the host writes CMD -/
  | hostCmd (n : Nat) (w : Word)
  /-- an internal operation of the PFSC, by its code (30_encoding.md R120) -/
  | internal (n : Nat) (w : Word)
  /-- a word on the wires of a lane -/
  | wire (port lane : Nat) (w : Word)
  /-- TIMER_FIRE (43_rollback_scheduler.md R345) -/
  | fire (n : Nat)
  /-- the suspended command of an instance makes one atomic action -/
  | agentSeq (n : Nat)
  /-- the rollback path of an instance makes one atomic action -/
  | agentPath (n : Nat)
  /-- block reset (70_reset_and_hazards.md R410) -/
  | reset
  deriving DecidableEq, Repr

/-- The record of what the PFSC did, by which properties about accesses are stated (00_scope.md R13). -/
inductive Record where
  | read (off v : Word)
  | write (off v : Word)
  | sleep (us : Time)
  | arm (n : Nat) (ms : Nat)
  | cancel (n : Nat)
  | fire (n : Nat)
  deriving DecidableEq, Repr

/-- A byte-addressed store in canonical form: addresses strictly rising, no entry equal to 0, which is
what an unlisted address reads as. DESIGN CHOICE, log 2. Unsafe. -/
abbrev Memory := List Host.Cell

/-- The machine and its environment. -/
structure State where
  /-- the instance banks (10_state.md R30) -/
  banks : List Bank
  /-- the ownership table (10_state.md R50) -/
  enabled : List Bool
  /-- the shutdown input (10_state.md R51) -/
  shutdown : Bool
  /-- the abstract time base (00_scope.md R14) -/
  now : Time
  /-- the MMIO space, by byte offset (20_memory.md R80) -/
  mmio : Memory
  /-- the PHY message-bus space (20_memory.md R81) -/
  phy : Memory
  /-- the C20 SRAM space (20_memory.md R82) -/
  sram : Memory
  /-- model's own, inside the PHY: the message-bus registers, as port, lane and address, that an uncommitted
  write has written since the last committed write of their lane (log 8) -/
  uncommitted : List (Nat × Nat × BitVec 12)
  /-- the configuration (00_scope.md R7 to R9) -/
  plat : Platform
  /-- model's own: the conforming PHY answers each request at once (log 7) -/
  phyAuto : Bool
  /-- model's own: what the host and the environment do next, oldest first (log 3) -/
  inputs : List Event
  /-- model's own: what happens between the atomic actions of a running command (log 1) -/
  sched : List Event
  /-- model's own: whose turn it is when nothing is scheduled (log 6) -/
  turn : Nat
  /-- model's own: how many block resets there were (log 27) -/
  epoch : Nat
  /-- model's own: the instance the command being run was written to (log 18) -/
  cur : Nat
  /-- model's own: the lane the wire word being run is on (log 18) -/
  busPort : Nat
  /-- model's own: see `busPort` -/
  busLane : Nat
  /-- model's own: what the PFSC did, newest first (log 17) -/
  trace : List Record
  deriving DecidableEq, Repr

/-! ### Stops -/

/-- Why a step stops the machine. -/
inductive Fault where
  /-- raised by the fetch and by every meaning when the instance addressed is not one of the
  P_NUM_INSTANCES banks: there is no such bank to write (10_state.md R30). Safe. -/
  | noSuchInstance
  /-- raised by the meanings of the wire words when the lane addressed does not exist
  (00_scope.md R7). Safe. -/
  | noSuchLane
  deriving DecidableEq, Repr

/-- Why a step is refused. -/
inductive Refusal where
  /-- raised by exec for an instruction that has no meaning yet. Safe. -/
  | notModelled (mnemonic : String)
  /-- raised by the fetch when the configuration breaks a check of 70_reset_and_hazards.md R412: the
  block does not leave reset and accepts no command. Safe. -/
  | badConfiguration
  deriving DecidableEq, Repr

/-! ### Reset -/

/-- The machine right after reset (70_reset_and_hazards.md R410) on a given configuration: every bank
and the ownership table at the reset values, nothing in progress. The environment's parts, which have
no reset value, are at the values of logs 2, 7, 8, 24 and 32. -/
def State.resetOn (p : Platform) : State where
  banks := List.replicate p.numInstances {}
  enabled := List.replicate p.numPll false
  shutdown := false
  now := 0
  mmio := []
  phy := []
  sram := []
  uncommitted := []
  plat := p
  phyAuto := true
  inputs := []
  sched := []
  turn := 0
  epoch := 0
  cur := 0
  busPort := 0
  busLane := 0
  trace := []

/-- The machine right after reset, on the platform of the spec's test vectors (log 4). -/
def State.reset : State := State.resetOn Config.reference

end Sys2Proof.Machine
end

