-- ==== Sys2Proof/Machine/Ops.lean ====
section
/-! DEFINITION. The named operations over the stores, the banks and the MMIO space; the end of a
command with a status, which is all this machine has for an exception (60_exceptions.md R371, R380:
nothing is saved, no control is transferred, and there is no return from it, R381); the conforming
PHY of 40_message_bus.md R154; block reset. -/

namespace Sys2Proof.Machine

/-! ### Byte stores -/

/-- The byte at an address; an unlisted address reads as 0. DESIGN CHOICE, log 2. Unsafe. -/
def Memory.read : Memory → Nat → Byte
  | [], _ => 0
  | (a', b') :: rest, a => if a = a' then b' else Memory.read rest a

/-- The store with one byte written, in canonical form again. -/
def Memory.put : Memory → Nat → Byte → Memory
  | [], a, b => if b = 0 then [] else [(a, b)]
  | (a', b') :: rest, a, b =>
    if a < a' then (if b = 0 then (a', b') :: rest else (a, b) :: (a', b') :: rest)
    else if a = a' then (if b = 0 then rest else (a, b) :: rest)
    else (a', b') :: Memory.put rest a b

/-- Every address of the store lies above `lo`, the addresses rise strictly, and no byte is 0. -/
def Memory.sortedFrom : Option Nat → Memory → Bool
  | _, [] => true
  | lo, (a, b) :: rest =>
    (match lo with
      | none => true
      | some l => decide (l < a)) && b != 0 && Memory.sortedFrom (some a) rest

/-- The store is in canonical form, so equal stores are equal lists. -/
def Memory.wf (m : Memory) : Bool := Memory.sortedFrom none m

/-- Byte `k` of the 32-bit word at `off` has this address; a word is little-endian (20_memory.md R84). -/
def byteAddr (off : Word) (k : Nat) : Nat := (off + BitVec.ofNat 32 k).toNat

/-- The 32-bit word at a byte offset, little-endian (20_memory.md R84). -/
def Memory.readWord (m : Memory) (off : Word) : Word :=
  place (m.read (byteAddr off 0)) 0 ||| place (m.read (byteAddr off 1)) 8
    ||| place (m.read (byteAddr off 2)) 16 ||| place (m.read (byteAddr off 3)) 24

/-- The store with the 32-bit word at a byte offset written, little-endian (20_memory.md R84). -/
def Memory.putWord (m : Memory) (off v : Word) : Memory :=
  (((m.put (byteAddr off 0) (v.extractLsb' 0 8)).put (byteAddr off 1) (v.extractLsb' 8 8)).put
    (byteAddr off 2) (v.extractLsb' 16 8)).put (byteAddr off 3) (v.extractLsb' 24 8)

/-! ### Banks -/

/-- The bank of an instance, if there is one (10_state.md R30). -/
def State.bank? (s : State) (n : Nat) : Option Bank := s.banks[n]?

/-- The registers of an instance's bank. -/
def State.core? (s : State) (n : Nat) : Option Core := (s.bank? n).map (·.core)

/-- The state with one bank changed; an instance that does not exist changes nothing. -/
def State.modifyBank (s : State) (n : Nat) (f : Bank → Bank) : State :=
  { s with banks := s.banks.modify n f }

/-- The state with one bank's registers changed. -/
def State.modifyCore (s : State) (n : Nat) (f : Core → Core) : State :=
  s.modifyBank n fun b => { b with core := f b.core }

/-- The state with a record added to the trace. -/
def State.record (s : State) (r : Record) : State := { s with trace := r :: s.trace }

/-! ### Ending a command (60_exceptions.md R371, R380; 30_encoding.md R112) -/

/-- `raise S` first writes `STATUS.code` (60_exceptions.md R371). Nothing else of the machine changes by it:
there is no trap entry and no return from one (60_exceptions.md R380, R381). -/
def Core.setCode (st : Status) (c : Core) : Core := { c with code := st }

/-- Then `STATUS.busy` falls (60_exceptions.md R371, 30_encoding.md R112). -/
def Core.clearBusy (c : Core) : Core := { c with busy := false }

/-- The sequencer of an instance holds no command any more. -/
def State.endCommand (s : State) (n : Nat) : State := s.modifyBank n fun b => { b with seq := none }

/-- Acceptance of a CMD write (30_encoding.md R112): CMD takes the word, `STATUS.busy` rises,
`STATUS.overrun` falls. -/
def Core.accept (w : Word) (c : Core) : Core := { c with cmd := w, busy := true, overrun := false }

/-- A CMD write while `STATUS.busy` = 1 (30_encoding.md R112): dropped, `STATUS.overrun` rises. -/
def Core.setOverrun (c : Core) : Core := { c with overrun := true }

/-- The host writes ARG`k` (10_state.md R45); there are five of them. -/
def Core.writeArg (k : Nat) (v : BitVec 64) (c : Core) : Core :=
  match k with
  | 0 => { c with arg0 := v }
  | 1 => { c with arg1 := v }
  | 2 => { c with arg2 := v }
  | 3 => { c with arg3 := v }
  | 4 => { c with arg4 := v }
  | _ => c

/-! ### The ownership table (10_state.md R50) -/

/-- Whether a PLL index is claimed; an index the table does not have cannot be claimed, so it counts as
held (70_reset_and_hazards.md R412 keeps it from being discovered). -/
def State.isEnabled (s : State) (k : Nat) : Bool := s.enabled.getD k true

/-- The ownership table with one entry written. -/
def State.setEnabled (s : State) (k : Nat) (b : Bool) : State := { s with enabled := s.enabled.set k b }

/-- One of the C20 registers takes a value, or has none any more (10_state.md R41). -/
def C20Regs.put (w : C20Write) (r : C20Regs) : C20Regs :=
  match w with
  | .ctx x => { r with ctx := x }
  | .fracEn x => { r with fracEn := x }
  | .txClkDiv x => { r with txClkDiv := x }
  | .refDiv x => { r with refDiv := x }
  | .multiplier x => { r with multiplier := x }
  | .txRate x => { r with txRate := x }
  | .txRateMult x => { r with txRateMult := x }
  | .fbClkDiv4En x => { r with fbClkDiv4En := x }

/-- The C20 registers as READ_REGISTERS leaves them (41_phy_datapath.md R241). -/
def C20Regs.holding (c : C20Cache) : C20Regs where
  ctx := some c.ctx
  fracEn := some c.fracEn
  txClkDiv := some c.txClkDiv
  refDiv := some c.refDiv
  multiplier := some c.multiplier
  txRate := some c.txRate
  txRateMult := some c.txRateMult
  fbClkDiv4En := some c.fbClkDiv4En

/-- The context and the cached fields, once each has a value. -/
def C20Regs.cache? : C20Regs → Option C20Cache
  | ⟨some ctx, some fe, some tcd, some rd, some m, some tr, some trm, some fb⟩ => some ⟨ctx, fe, tcd, rd, m, tr, trm, fb⟩
  | _ => none

/-- The writes that record the context and the cached fields (41_phy_datapath.md R241). -/
def C20Cache.writes (c : C20Cache) : List C20Write :=
  [.ctx (some c.ctx), .fracEn (some c.fracEn), .txClkDiv (some c.txClkDiv), .refDiv (some c.refDiv),
    .multiplier (some c.multiplier), .txRate (some c.txRate), .txRateMult (some c.txRateMult),
    .fbClkDiv4En (some c.fbClkDiv4En)]

/-- The writes that take every C20 register's value away. -/
def c20Clears : List C20Write :=
  [.ctx none, .fracEn none, .txClkDiv none, .refDiv none, .multiplier none, .txRate none, .txRateMult none,
    .fbClkDiv4En none]

/-- The registers CONSTRUCT leaves (42_stepping_controller.md R271): bound to selector `sel` and PLL
index `k`, nothing captured, nothing armed. The datapath and port registers are not among them. -/
def Core.bind (sel : Selector) (k : Nat) (c : Core) : Core :=
  { c with
    sel := some sel, pllIndex := some k, slots := none, filling := none, c20 := {}
    pllFreqOrig := none, pllFreqMod := none, usedShift := none
    captured := false, appliedMod := false, armed := false, done := true, rbStatus := .ok
    fsm := .idle }

/-- The atomic claim of 42_stepping_controller.md R273 with the binding that follows it, made in UNBOUND
(R278): false, and nothing changed, if the index is held. -/
def State.claim (s : State) (n : Nat) (sel : Selector) (k : Nat) : Bool × State :=
  if s.isEnabled k then (false, s)
  else
    match s.core? n with
    | some c =>
      if c.fsm != .unbound then (false, s)
      else (true, (s.setEnabled k true).modifyCore n (Core.bind sel k))
    | none => (false, s)

/-- The states RELEASE releases in (42_stepping_controller.md R320); from ARMED_FOR_ROLLBACK its restore has
gone to DONE before (R274). -/
def Fsm.mayRelease : Fsm → Bool
  | .idle | .captured | .done => true
  | .unbound | .armedForRollback | .targetComputed | .stepping | .rollingBack => false

/-- `pll_index <- no value`, in the action that clears `enabled[pll_index]`. -/
def Core.dropIndex (c : Core) : Core := { c with pllIndex := none }

/-- The atomic release of 42_stepping_controller.md R274, with `pll_index` losing its value, since
10_state.md R52 ties the two; nothing in a state without it, which no command reaches but ROLLING_BACK, where
RELEASE waits (log 36). -/
def State.release (s : State) (n : Nat) : State :=
  match s.core? n with
  | some c =>
    match c.pllIndex with
    | some k => if c.fsm.mayRelease then (s.setEnabled k false).modifyCore n Core.dropIndex else s
    | none => s
  | none => s

/-- The PLL is released and the instance is not unbound yet: the writes of RELEASE after the release
(42_stepping_controller.md R274) are made only then. DEDUCED, log 12. Safe. -/
def Core.releasing (c : Core) : Bool := c.pllIndex.isNone && c.fsm.mayRelease

/-- `sel <- no value` (42_stepping_controller.md R274). -/
def Core.dropSel (c : Core) : Core := if c.releasing then { c with sel := none } else c

/-- `slots <- no value` (42_stepping_controller.md R274). -/
def Core.dropSlots (c : Core) : Core := if c.releasing then { c with slots := none, filling := none } else c

/-- `captured <- 0` (42_stepping_controller.md R274). -/
def Core.dropCaptured (c : Core) : Core := if c.releasing then { c with captured := false } else c

/-- `armed <- 0` (42_stepping_controller.md R274); the deadline has no value, as whenever `armed` = 0
(10_state.md R43). DEDUCED, log 23. Safe. -/
def Core.dropArmed (c : Core) : Core := if c.releasing then { c with armed := false, deadline := none } else c

/-! ### Transitions of `fsm` (42_stepping_controller.md R320) -/

/-- The transitions a plain `fsm <- f` makes (42_stepping_controller.md R320; R274, R280, R291, R315,
41_phy_datapath.md R201, 43_rollback_scheduler.md R346). CONSTRUCT, arming and the test-and-clear have operations
of their own. -/
def stepTransition : Fsm → Fsm → Bool
  | .captured, .targetComputed | .done, .targetComputed => true
  | .targetComputed, .targetComputed | .targetComputed, .stepping | .targetComputed, .done => true
  | .stepping, .done | .captured, .done | .done, .done => true
  | .idle, .captured | .rollingBack, .done => true
  | .idle, .unbound | .captured, .unbound | .done, .unbound => true
  | _, _ => false

/-- A bank whose binding and snapshot RELEASE has taken away (42_stepping_controller.md R274). -/
def Core.isEmpty (c : Core) : Bool := c.pllIndex.isNone && c.sel.isNone && c.slots.isNone && !c.captured

/-- A transition is made after the writes that precede it in its rule: into CAPTURED with `captured` = 1
(41_phy_datapath.md R201), out of ROLLING_BACK with `done` = 1 (43_rollback_scheduler.md R346), into UNBOUND with
no binding and no snapshot (42_stepping_controller.md R274). -/
def Core.mayEnter (f : Fsm) (c : Core) : Bool :=
  stepTransition c.fsm f && (f != .captured || c.captured) && (c.fsm != .rollingBack || c.done) &&
    (f != .unbound || c.isEmpty)

/-- `fsm <- f`; a transition that 42_stepping_controller.md R320 does not have is not made. No command
reaches one. DEDUCED, log 12. Safe. -/
def Core.enter (f : Fsm) (c : Core) : Core := if c.mayEnter f then { c with fsm := f } else c

/-- READ_REGISTERS may write the snapshot: it is not held yet (10_state.md R36). -/
def Core.mayFill (c : Core) : Bool := c.fsm == .idle && !c.captured

/-- `orig` of the next slot of the snapshot takes its value (41_phy_datapath.md R201, in slot order); a
snapshot that is held is not written. DEDUCED, log 12. Safe. -/
def Core.addOrig (h : HalfSlot) (c : Core) : Core := if c.mayFill then { c with filling := some h } else c

/-- `mod` of the slot whose `orig` was written takes its value (41_phy_datapath.md R201). -/
def Core.addMod (v : Word) (c : Core) : Core :=
  match c.filling with
  | some h =>
    if c.mayFill then
      { c with slots := some (c.slots.getD [] ++ [⟨h.addr, h.orig, v, h.writable⟩]), filling := none }
    else c
  | none => c

/-- `captured <- 1` (41_phy_datapath.md R201), after the slots; a snapshot without any is empty. DEDUCED,
log 12. Safe. -/
def Core.setCaptured (c : Core) : Core :=
  if c.fsm = .idle then { c with captured := true, slots := some (c.slots.getD []), filling := none } else c

/-- `mod` of slot `k` takes a word (10_state.md R37). -/
def Core.setMod (k : Nat) (v : Word) (c : Core) : Core :=
  { c with slots := c.slots.map fun ss => ss.modify k fun y => { y with mod := v } }

/-- A binary64 datapath register takes a value (10_state.md R42). -/
def Datapath.put (r : DpReg) (v : B64) (d : Datapath) : Datapath :=
  match r with
  | .cur => { d with cur := some v }
  | .tgt => { d with tgt := some v }
  | .pdiff => { d with pdiff := some v }
  | .ssize => { d with ssize := some v }
  | .fi => { d with fi := some v }
  | .s => { d with s := some v }
  | .fs => { d with fs := some v }
  | .eff => { d with eff := some v }
  | .delta => { d with delta := some v }

/-- A u32 datapath register takes a value (10_state.md R42). -/
def Datapath.putCount (r : DpCount) (v : Nat) (d : Datapath) : Datapath :=
  match r with
  | .nsteps => { d with nsteps := some (BitVec.ofNat 32 v) }
  | .istep => { d with istep := some (BitVec.ofNat 32 v) }
  | .tms => { d with tms := some (BitVec.ofNat 32 v) }

/-! ### The timer (43_rollback_scheduler.md) -/

/-- TIMER_ARM(ms) at time `now` (43_rollback_scheduler.md R342). -/
def Core.timerArm (now : Time) (ms : Nat) (c : Core) : Core :=
  { c with armed := true, deadline := some (now + ms * 1000) }

/-- TIMER_CANCEL (43_rollback_scheduler.md R343). -/
def Core.timerCancel (c : Core) : Core := { c with armed := false, deadline := none }

/-- TIMER_ARM(ms), `done <- 0` and `fsm <- ARMED_FOR_ROLLBACK` as one step (43_rollback_scheduler.md
R353); PROGRAM_PHY makes it in DONE (42_stepping_controller.md R280). -/
def Core.arm (now : Time) (ms : Nat) (c : Core) : Core :=
  if c.fsm = .done then { c.timerArm now ms with done := false, fsm := .armedForRollback } else c

/-- The test-and-clear of 43_rollback_scheduler.md R346 with `armed` = 1. -/
def Core.startRestore (c : Core) : Core := { c.timerCancel with fsm := .rollingBack }

/-- `done <- 1` at the end of a restore (43_rollback_scheduler.md R346, R348) and in RELEASE
(42_stepping_controller.md R274); it is made in ROLLING_BACK and after the release only. DEDUCED, log 12. Safe. -/
def Core.setDone (c : Core) : Core := if c.fsm = .rollingBack || c.releasing then { c with done := true } else c

/-- The timer of a bank is due: armed, and its deadline has come (43_rollback_scheduler.md R345). -/
def Core.timerDue (now : Time) (c : Core) : Bool :=
  c.armed && (match c.deadline with
    | none => false
    | some d => decide (d ≤ now))

/-- TIMER_ARM as an internal operation on an instance (43_rollback_scheduler.md R342): `ms` is the `tms`
register; with no value or 0 there nothing is armed. DEDUCED, log 14. Safe. -/
def State.timerArm (s : State) (n : Nat) : State :=
  match (s.core? n).bind (·.dp.tms) with
  | some ms => if ms = 0 then s else (s.modifyCore n (Core.timerArm s.now ms.toNat)).record (.arm n ms.toNat)
  | none => s

/-- TIMER_CANCEL as an internal operation on an instance (43_rollback_scheduler.md R343): it is not
performed when `armed` = 0. -/
def State.timerCancel (s : State) (n : Nat) : State :=
  if ((s.core? n).map (·.armed)).getD false then (s.modifyCore n Core.timerCancel).record (.cancel n) else s

/-- The timer of a bank fires: it is due, and it has not fired yet, which a rollback path that has not made
its test-and-clear shows (43_rollback_scheduler.md R345: at most once per arming). A path that waits for
`done` is no bar: it has lost the test-and-clear of an earlier arming (R346). -/
def Bank.fires (now : Time) (b : Bank) : Bool := b.core.timerDue now && b.path != some []

/-- TIMER_FIRE for an instance (43_rollback_scheduler.md R345): if its timer is due and has not fired, the
rollback path starts; otherwise nothing. DEDUCED, log 35: a path still waiting from an earlier arming ends
with it, since nothing it has left to do has an effect (R346, R351). Safe. -/
def State.timerFire (s : State) (n : Nat) : State :=
  match s.bank? n with
  | some b =>
    if b.fires s.now then
      (s.modifyBank n fun b => { b with path := some [] }).record (.fire n)
    else s
  | none => s

/-! ### The PHY spaces and the conforming PHY (20_memory.md R81, R82; 40_message_bus.md R154) -/

/-- Where a PHY register lies in the store of the message-bus space. -/
def phyKey (p l : Nat) (a : BitVec 12) : Nat := (p * 2 + l) * 4096 + a.toNat

/-- Where the low byte of an SRAM word lies in the store of the SRAM space; the high byte is next. -/
def sramKey (p l : Nat) (a : BitVec 16) : Nat := ((p * 2 + l) * 65536 + a.toNat) * 2

/-- A PHY register's stored byte. -/
def State.phyReg (s : State) (p l : Nat) (a : BitVec 12) : Byte := s.phy.read (phyKey p l a)

/-- The state with a PHY register stored. -/
def State.setPhyReg (s : State) (p l : Nat) (a : BitVec 12) (v : Byte) : State :=
  { s with phy := s.phy.put (phyKey p l a) v }

/-- An SRAM word. -/
def State.sramWord (s : State) (p l : Nat) (a : BitVec 16) : BitVec 16 :=
  joinBytes (s.sram.read (sramKey p l a + 1)) (s.sram.read (sramKey p l a))

/-- The state with an SRAM word stored. -/
def State.setSramWord (s : State) (p l : Nat) (a v : BitVec 16) : State :=
  { s with sram := (s.sram.put (sramKey p l a) (v.extractLsb' 0 8)).put (sramKey p l a + 1) (v.extractLsb' 8 8) }

/-- What the conforming PHY reads at an address: its register (20_memory.md R81). -/
def State.phyRead (s : State) (p l : Nat) (a : BitVec 12) : Byte := s.phyReg p l a

/-- The two read-data registers of the SRAM window take the bytes of the SRAM word that the read-address
registers name (20_memory.md R82, 40_message_bus.md R176). -/
def State.loadReadData (s : State) (p l : Nat) : State :=
  let w := s.plat.c20Window
  let word := s.sramWord p l (joinBytes (s.phyReg p l w.rdAddrH) (s.phyReg p l w.rdAddrL))
  (s.setPhyReg p l w.rdDataH (word.extractLsb' 8 8)).setPhyReg p l w.rdDataL (word.extractLsb' 0 8)

/-- The SRAM word that the write-address registers of the window name takes the bytes of its write-data
registers (20_memory.md R82, 40_message_bus.md R177). -/
def State.storeWriteData (s : State) (p l : Nat) : State :=
  let w := s.plat.c20Window
  s.setSramWord p l (joinBytes (s.phyReg p l w.wrAddrH) (s.phyReg p l w.wrAddrL))
    (joinBytes (s.phyReg p l w.wrDataH) (s.phyReg p l w.wrDataL))

/-- A register an uncommitted write has written, and no committed write of its lane has followed. -/
def State.isUncommitted (s : State) (p l : Nat) (a : BitVec 12) : Bool := s.uncommitted.contains (p, l, a)

/-- The register is one of those from now on. -/
def State.setUncommitted (s : State) (p l : Nat) (a : BitVec 12) : State :=
  { s with uncommitted := if s.isUncommitted p l a then s.uncommitted else s.uncommitted ++ [(p, l, a)] }

/-- No register of the lane is one of those any more. -/
def State.clearUncommitted (s : State) (p l : Nat) : State :=
  { s with uncommitted := s.uncommitted.filter fun x => !(x.1 == p && x.2.1 == l) }

/-- A committed write of `a` ends an SRAM_WRITE: `a` is the low write-data register of the window, and the
three registers that SRAM_WRITE writes before it are written and uncommitted (40_message_bus.md R177). -/
def State.endsSramWrite (s : State) (p l : Nat) (a : BitVec 12) : Bool :=
  let w := s.plat.c20Window
  a == w.wrDataL && s.isUncommitted p l w.wrAddrH && s.isUncommitted p l w.wrAddrL && s.isUncommitted p l w.wrDataH

/-- A committed write of `a` ends the addressing of an SRAM_READ: `a` is the low read-address register of the
window, and the high one is written and uncommitted (40_message_bus.md R176). -/
def State.endsSramSelect (s : State) (p l : Nat) (a : BitVec 12) : Bool :=
  let w := s.plat.c20Window
  a == w.rdAddrL && s.isUncommitted p l w.rdAddrH

/-- A committed write in the conforming PHY of any lane: the register takes the byte; where the write ends an
SRAM_WRITE the SRAM word is stored, and where it ends the addressing of an SRAM_READ the read-data registers are
loaded; nothing of the lane is uncommitted any more. -/
def State.commitWrite (s : State) (p l : Nat) (a : BitVec 12) (d : Byte) : State :=
  let s1 := s.setPhyReg p l a d
  let s2 := if s.endsSramWrite p l a then s1.storeWriteData p l else s1
  let s3 := if s.endsSramSelect p l a then s2.loadReadData p l else s2
  s3.clearUncommitted p l

/-- What a write to an address does in the conforming PHY of any lane. An uncommitted one stores the byte in the
register, which is uncommitted then. A committed one that ends no group of window writes as 40_message_bus.md R176 and R177
make them stores the byte in the register and does nothing else: to write a register the value it holds leaves
the hardware unchanged (20_memory.md R87), as a C10 restore does, all of whose writes are committed
(41_phy_datapath.md R234), also where its slots have addresses of the window. DEDUCED from 20_memory.md R82, R87
and 40_message_bus.md R174 to R177, log 8. Unsafe. DESIGN CHOICE, log 8: no check of the spec keeps the eight
addresses of P_C20_WINDOW apart, and the model accepts equal ones (log 26). Registers with one address are one
register, which holds the byte last stored, of the two read-data bytes the low one; where WR_DATA_L is RD_ADDR_L, a
committed write there first stores the word, if it ends an SRAM_WRITE, and then loads the read-data registers, if it
ends the addressing of an SRAM_READ. -/
def State.phyWrite (s : State) (p l : Nat) (a : BitVec 12) (d : Byte) (committed : Bool) : State :=
  if committed then s.commitWrite p l a d else (s.setPhyReg p l a d).setUncommitted p l a

/-- The word a raw change of the MMIO space leaves, without any side effect. -/
def State.pokeWord (s : State) (off v : Word) : State := { s with mmio := s.mmio.putWord off v }

/-- The PHY posts a response on P2M_STS: READY, the type and the data, every other bit 0
(40_message_bus.md R154). DESIGN CHOICE, log 7: 0 in the bits 10_state.md R53 leaves unspecified,
which the PFSC ignores. -/
def State.postResponse (s : State) (r : LaneRegs) (type : BitVec 4) (d : Byte) : State :=
  s.pokeWord r.sts (p2mWord type d)

/-- The word `w` on M2P_CTL with PENDING and RESET cleared: the PHY has taken it
(40_message_bus.md R154). -/
def State.clearPending (s : State) (r : LaneRegs) (w : Word) : State :=
  s.pokeWord r.ctl (w &&& 0x7FFF7FFF#32)

/-- The conforming PHY takes a READ of `a` (40_message_bus.md R154): PENDING falls, and the register's
value is posted with type 4. -/
def State.takeRead (s : State) (p l : Nat) (r : LaneRegs) (a : BitVec 12) (d : Byte) : State :=
  (s.clearPending r (m2pWord 3 a d)).postResponse r 4 (s.phyRead p l a)

/-- The conforming PHY takes a committed WRITE (40_message_bus.md R154): PENDING falls, the write is
performed, type 5 is posted. -/
def State.takeWriteCommitted (s : State) (p l : Nat) (r : LaneRegs) (a : BitVec 12) (d : Byte) : State :=
  ((s.clearPending r (m2pWord 2 a d)).phyWrite p l a d true).postResponse r 5 0

/-- The conforming PHY takes an uncommitted WRITE (40_message_bus.md R154): PENDING falls, the write is
performed, nothing is posted. -/
def State.takeWriteUncommitted (s : State) (p l : Nat) (r : LaneRegs) (a : BitVec 12) (d : Byte) : State :=
  (s.clearPending r (m2pWord 1 a d)).phyWrite p l a d false

/-- The conforming PHY takes a bus reset (40_message_bus.md R154): RESET and PENDING fall. -/
def State.takeBusReset (s : State) (r : LaneRegs) : State := s.clearPending r m2pReset

/-- The conforming PHY of a lane takes the word on its M2P_CTL; a word that is no request is left. -/
def State.phyTake (s : State) (p l : Nat) (r : LaneRegs) : State :=
  match decodeM2p (s.mmio.readWord r.ctl) with
  | some (.m2pRead a d) => s.takeRead p l r a d
  | some (.m2pWriteCommitted a d) => s.takeWriteCommitted p l r a d
  | some (.m2pWriteUncommitted a d) => s.takeWriteUncommitted p l r a d
  | some .m2pBusReset => s.takeBusReset r
  | _ => s

/-- A wire word of a lane acts (30_encoding.md R125, 40_message_bus.md R154): the PHY takes an M2P word,
a P2M word is posted on P2M_STS. DEDUCED, log 15. Safe. -/
def State.wireAct (s : State) (p l : Nat) (r : LaneRegs) (i : Instr) : State :=
  match i with
  | .m2pRead a d => s.takeRead p l r a d
  | .m2pWriteCommitted a d => s.takeWriteCommitted p l r a d
  | .m2pWriteUncommitted a d => s.takeWriteUncommitted p l r a d
  | .m2pBusReset => s.takeBusReset r
  | .p2mReadAck d => s.postResponse r 4 d
  | .p2mWriteAck d => s.postResponse r 5 d
  | _ => s

/-! ### MMIO accesses (20_memory.md R80, R87) -/

/-- The value of an MMIO word; a read has no side effect (20_memory.md R87). -/
def State.mmioRead (s : State) (off : Word) : Word := s.mmio.readWord off

/-- The P2M_STS offsets of the platform. -/
def isStsOffset (p : Platform) (off : Word) : Bool := p.allLanes.any fun x => x.2.2.sts == off

/-- The lane whose M2P_CTL has an offset. -/
def laneOfCtl? (p : Platform) (off : Word) : Option (Nat × Nat × LaneRegs) :=
  p.allLanes.find? fun x => x.2.2.ctl == off

/-- What an MMIO word holds after a write: P2M_STS loses READY and ERROR where a 1 is written and keeps
the rest, every other register takes the word (20_memory.md R87; 40_message_bus.md R154, R155).
DEDUCED, log 19: the other bits of P2M_STS are the PHY's to write (10_state.md R53). Safe. -/
def State.written (s : State) (off v : Word) : Word :=
  if isStsOffset s.plat off then s.mmioRead off &&& ~~~(v &&& 0x80008000#32) else v

/-- An MMIO write with its side effects (20_memory.md R87): a write to M2P_CTL is taken at once where
the conforming PHY answers at once. DESIGN CHOICE, log 26: no check of the spec keeps the PLL and clock-select
registers off the offsets of M2P_CTL and P2M_STS, and the model accepts them there; the offset decides what a write
does, so PROGRAM_MMIO of such a register writes a PLL value to the bus register, beside the words of 30_encoding.md
R122 and R123. Safe. -/
def State.mmioWrite (s : State) (off v : Word) : State :=
  let s1 := s.pokeWord off (s.written off v)
  if s.phyAuto then
    match laneOfCtl? s.plat off with
    | some (p, l, r) => s1.phyTake p l r
    | none => s1
  else s1

/-! ### Block reset (70_reset_and_hazards.md R410, R411) -/

/-- Every bank and the ownership table take their reset values, and every agent's work is abandoned;
the environment, the configuration and the record are untouched. DEDUCED, log 27. Safe. -/
def State.blockReset (s : State) : State :=
  { s with
    banks := List.replicate s.plat.numInstances {}
    enabled := List.replicate s.plat.numPll false
    epoch := s.epoch + 1 }

end Sys2Proof.Machine
end

