-- ==== Sys2Proof/Machine/Flags.lean ====
section
/-! DEFINITION. The status bits: the numeric codes, the STATUS word (10_state.md R45) and the state
legality of a command (42_stepping_controller.md R278). The PFSC has no condition codes (R48). -/

namespace Sys2Proof.Machine

/-- The numeric value of `fsm` (10_state.md R31). -/
def Fsm.code : Fsm → BitVec 3
  | .unbound => 0
  | .idle => 1
  | .captured => 2
  | .targetComputed => 3
  | .stepping => 4
  | .armedForRollback => 5
  | .rollingBack => 6
  | .done => 7

/-- The numeric value of a status code (60_exceptions.md R370). -/
def Status.code : Status → BitVec 8
  | .ok => 0x00
  | .invalidArgument => 0x01
  | .busTimeout => 0x02
  | .busProtocolError => 0x03
  | .resourceConflict => 0x04
  | .hwReadAnomaly => 0x05
  | .cancelled => 0x06
  | .busy => 0x07
  | .invalidState => 0x08
  | .illegalCommand => 0x09
  | .dividerError => 0x0A

/-- The STATUS register as the host reads it (10_state.md R45): code [7:0], busy [8], overrun [9],
captured [10], done [11], fsm [14:12], zeros above. -/
def Core.statusWord (c : Core) : Word :=
  place c.code.code 0 ||| place (bit c.busy) 8 ||| place (bit c.overrun) 9 ||| place (bit c.captured) 10
    ||| place (bit c.done) 11 ||| place c.fsm.code 12

/-- What the legality table gives a command in a state (42_stepping_controller.md R278): the command's
rule runs, or it ends `INVALID_STATE`, `BUSY` or OK with no effect. -/
inductive Legal where
  | run | invalidState | busy | noop
  deriving DecidableEq, Repr

/-- A row of the table that is `IS` in UNBOUND and IDLE and `run` in every captured state. -/
def legalCaptured : Fsm → Legal
  | .captured | .done | .armedForRollback | .rollingBack => .run
  | .unbound | .idle | .targetComputed | .stepping => .invalidState

/-- A row that is `IS` in UNBOUND and IDLE, `run` in CAPTURED and DONE, and `BZ` while a rollback owns
the hardware. -/
def legalHardware : Fsm → Legal
  | .captured | .done => .run
  | .armedForRollback | .rollingBack => .busy
  | .unbound | .idle | .targetComputed | .stepping => .invalidState

/-- The row of the MB_* and SRAM_* commands. -/
def legalBus : Fsm → Legal
  | .unbound | .idle | .captured | .done => .run
  | .armedForRollback | .rollingBack => .busy
  | .targetComputed | .stepping => .invalidState

/-- A row that is `IS` in UNBOUND only. -/
def legalBound : Fsm → Legal
  | .idle | .captured | .done | .armedForRollback | .rollingBack => .run
  | .unbound | .targetComputed | .stepping => .invalidState

/-- The row of CONSTRUCT. -/
def legalConstruct : Fsm → Legal
  | .unbound => .run
  | .idle | .captured | .done | .armedForRollback | .rollingBack | .targetComputed | .stepping =>
    .invalidState

/-- The row of RELEASE. -/
def legalRelease : Fsm → Legal
  | .idle | .captured | .done | .armedForRollback => .run
  | .rollingBack => .busy
  | .unbound | .targetComputed | .stepping => .invalidState

/-- The row of READ_REGISTERS. -/
def legalRead : Fsm → Legal
  | .idle => .run
  | .captured | .done | .armedForRollback | .rollingBack => .noop
  | .unbound | .targetComputed | .stepping => .invalidState

/-- The legality table (42_stepping_controller.md R278). TARGET_COMPUTED and STEPPING have no column:
no command is accepted in them (R270). DEDUCED, log 13: `INVALID_STATE` there, "a command not legal
in the current fsm" (60_exceptions.md R370). Safe. The internal operations and the wire words are no
host commands and are not checked. -/
def legality (i : Instr) (f : Fsm) : Legal :=
  match i with
  | .construct => legalConstruct f
  | .release => legalRelease f
  | .readRegisters => legalRead f
  | .calcPllClock _ => legalCaptured f
  | .calcFeedbackDividers => legalHardware f
  | .programMmio _ => legalHardware f
  | .printRegisters => legalCaptured f
  | .getCached => legalBound f
  | .programPhy _ _ => legalHardware f
  | .setPllClock _ => legalHardware f
  | .getPllClock => legalCaptured f
  | .waitUntilDone => legalBound f
  | .rollback => legalCaptured f
  | .mbWaitClear => legalBus f
  | .mbReadOnce _ _ => legalBus f
  | .mbRead _ _ => legalBus f
  | .mbWriteOnce _ _ _ => legalBus f
  | .mbWrite _ _ _ => legalBus f
  | .mbRmw _ _ _ => legalBus f
  | .mbReset _ _ => legalBus f
  | .sramRead _ _ => legalBus f
  | .sramWrite _ _ => legalBus f
  | .timerArm | .timerCancel | .timerFire => .run
  | .m2pWriteUncommitted _ _ | .m2pWriteCommitted _ _ | .m2pRead _ _ | .m2pBusReset => .run
  | .p2mReadAck _ | .p2mWriteAck _ => .run

end Sys2Proof.Machine
end

