-- ==== Sys2Proof/Machine/Binary64.lean ====
section
/-! DEFINITION. IEEE 754 binary64 arithmetic on bit patterns, round to nearest, ties to even
(00_scope.md R11). A finite value is held exactly as an integer number of units of 2^-1074, an
operation is computed exactly, and one function rounds. -/

namespace Sys2Proof.Machine

namespace B64

/-- The sign bit. -/
def sign (x : B64) : Bool := x.getLsbD 63

/-- The pattern without its sign, which orders the magnitudes of values that are no NaN. -/
def mag (x : B64) : Nat := x.toNat % 2 ^ 63

/-- The magnitude pattern of infinity. -/
def infMag : Nat := 0x7FF0000000000000

/-- A NaN. -/
def isNaN (x : B64) : Bool := decide (infMag < mag x)

/-- An infinity of either sign. -/
def isInf (x : B64) : Bool := decide (mag x = infMag)

/-- Neither a NaN nor an infinity. -/
def isFinite (x : B64) : Bool := decide (mag x < infMag)

/-- A zero of either sign. -/
def isZero (x : B64) : Bool := decide (mag x = 0)

/-- A value from its sign and magnitude pattern. -/
def ofParts (neg : Bool) (m : Nat) : B64 := BitVec.ofNat 64 ((if neg then 2 ^ 63 else 0) + m)

/-- The magnitude of a finite value in units of 2^-1074. -/
def units (x : B64) : Nat :=
  let e := mag x / 2 ^ 52
  let f := mag x % 2 ^ 52
  if e = 0 then f else (f + 2 ^ 52) * 2 ^ (e - 1)

/-- A finite value in units of 2^-1074. -/
def unitsInt (x : B64) : Int := if sign x then -(units x : Int) else (units x : Int)

/-- The units of 1.0. -/
def one : Nat := 2 ^ 1074

/-- The magnitude pattern of `n / d` units rounded to nearest, ties to even: an overflow gives
infinity. -/
def roundMag (n d : Nat) : Nat :=
  let sh := Nat.log2 (n / d) - 52
  let den := d * 2 ^ sh
  let q := n / den
  let r := n % den
  let q' := if 2 * r > den ∨ (2 * r = den ∧ q % 2 = 1) then q + 1 else q
  min infMag (sh * 2 ^ 52 + q')

/-- `± n / d` units, rounded. -/
def round (neg : Bool) (n d : Nat) : B64 := ofParts neg (roundMag n d)

/-- An integer number of units, rounded; `zeroNeg` is the sign of a zero result. -/
def roundInt (zeroNeg : Bool) (k : Int) : B64 :=
  if k = 0 then ofParts zeroNeg 0 else round (decide (k < 0)) k.natAbs 1

/-- The NaN an operation gives for two operands: quiet, its sign and payload free (log 9). -/
def nan (x y : B64) : B64 :=
  let b := Config.nanBits x y
  ofParts (b.getLsbD 51) (infMag + 2 ^ 51 + b.toNat % 2 ^ 51)

/-- The nearest value of a natural number: exact below 2^53 (00_scope.md R11, 30_encoding.md R117). -/
def ofNat (n : Nat) : B64 := round false (n * one) 1

/-- The nearest value of an integer. -/
def ofInt (k : Int) : B64 := roundInt false (k * one)

/-- `-x`. -/
def neg (x : B64) : B64 := ofParts (!sign x) (mag x)

/-- `fabs(x)`. -/
def abs (x : B64) : B64 := ofParts false (mag x)

/-- `x + y`. -/
def add (x y : B64) : B64 :=
  if isNaN x || isNaN y then nan x y
  else if isInf x && isInf y then (if sign x == sign y then x else nan x y)
  else if isInf x then x
  else if isInf y then y
  else roundInt (sign x && sign y) (unitsInt x + unitsInt y)

/-- `x - y`. -/
def sub (x y : B64) : B64 := if isNaN y then nan x y else add x (neg y)

/-- `x * y`. -/
def mul (x y : B64) : B64 :=
  let s := sign x != sign y
  if isNaN x || isNaN y then nan x y
  else if isInf x || isInf y then
    (if isZero x || isZero y then nan x y else ofParts s infMag)
  else round s (units x * units y) one

/-- `x / y`. -/
def div (x y : B64) : B64 :=
  let s := sign x != sign y
  if isNaN x || isNaN y then nan x y
  else if isInf x then (if isInf y then nan x y else ofParts s infMag)
  else if isInf y then ofParts s 0
  else if isZero y then (if isZero x then nan x y else ofParts s infMag)
  else round s (units x * one) (units y)

/-- The order of the values that are no NaN; the two zeros are equal. -/
def key (x : B64) : Int := if sign x then -(mag x : Int) else (mag x : Int)

/-- `x < y`. -/
def lt (x y : B64) : Bool := !isNaN x && !isNaN y && decide (key x < key y)

/-- `x <= y`. -/
def le (x y : B64) : Bool := !isNaN x && !isNaN y && decide (key x ≤ key y)

/-- `x == y` as IEEE 754 compares. -/
def eq (x y : B64) : Bool := !isNaN x && !isNaN y && decide (key x = key y)

/-- The positive zero. -/
def zero : B64 := 0

/-! ### Rounding to an integer -/

/-- The directions of `floor`, `ceil`, `trunc` and of `round` with halves away from zero
(00_scope.md R11). -/
inductive Rounding where
  | floor | ceil | trunc | nearest
  deriving DecidableEq, Repr

/-- A finite value as an integer. -/
def toInt (r : Rounding) (x : B64) : Int :=
  let u := units x
  let down := u / one
  let up := (u + (one - 1)) / one
  match r with
  | .floor => if sign x then -(up : Int) else (down : Int)
  | .ceil => if sign x then -(down : Int) else (up : Int)
  | .trunc => if sign x then -(down : Int) else (down : Int)
  | .nearest =>
    let m := (2 * u + one) / (2 * one)
    if sign x then -(m : Int) else (m : Int)

/-- `clamp(round(x), 0, hi)` for one of the roundings (00_scope.md R11): an infinity clamps to the end
of the range it lies beyond, as the saturation of 41_phy_datapath.md R262 and 42_stepping_controller.md R282 has it;
what a NaN gives is free within the range (log 10). -/
def clampTo (r : Rounding) (hi : Nat) (x : B64) : Nat :=
  if isNaN x then Config.nanToNat x % (hi + 1)
  else if isInf x then (if sign x then 0 else hi)
  else min hi (toInt r x).toNat

/-- `round4(x) = round(x * 10000.0) / 10000.0` (00_scope.md R11). DESIGN CHOICE, log 37: R11 says what `round` gives
where there is a nearest integer; of an infinite product, and of a NaN, the model's `round` gives the operand itself,
so the result is that infinity, or a NaN. Unsafe. -/
def round4 (x : B64) : B64 :=
  let y := mul x (ofNat 10000)
  let z := if isFinite y then (if (toInt .nearest y) = 0 then ofParts (sign y) 0 else ofInt (toInt .nearest y)) else y
  div z (ofNat 10000)

end B64

end Sys2Proof.Machine
end

