-- ==== Sys2Proof/Machine/Operands.lean ====
section
/-! DEFINITION. The operand forms of the host commands (30_encoding.md R113 to R117) and the checks on
them, made after the legality check and before the command's own (60_exceptions.md R372). -/

namespace Sys2Proof.Machine

/-- A `uN` operand fits N bits (30_encoding.md R113). -/
def fitsU (n : Nat) (x : BitVec 64) : Bool := decide (x.toNat < 2 ^ n)

/-- The lanes set in a lane mask, ascending (30_encoding.md R116). -/
def setLanes (lanes : BitVec 2) : List Nat := (List.range numLanes).filter fun l => lanes.getLsbD l

/-- The lowest-numbered lane set in a lane mask (30_encoding.md R116). -/
def lowestLane (lanes : BitVec 2) : Nat := if lanes.getLsbD 0 then 0 else 1

/-- The PORT and LANES checks of 30_encoding.md R111: the port exists and at least one lane is set. A
two-bit mask names no lane beyond P_NUM_LANES. -/
def busOperandsOk (p : Platform) (port : Nat) (lanes : BitVec 2) : Bool :=
  decide (port < p.numPorts) && lanes != 0

/-- The operand checks of a command (30_encoding.md R111, R113; 40_message_bus.md R151): every `uN`
operand fits, every `b64` operand is finite, PORT and LANES name lanes, an MB_WAIT_CLEAR offset is a
multiple of 4. A failure is `INVALID_ARGUMENT`. -/
def operandsOk (p : Platform) (i : Instr) (c : Core) : Bool :=
  match i with
  | .construct | .release | .readRegisters | .calcPllClock _ | .programMmio _ | .printRegisters => true
  | .getPllClock | .waitUntilDone | .rollback => true
  | .calcFeedbackDividers => B64.isFinite c.arg0
  | .getCached => fitsU 2 c.arg0
  | .programPhy _ _ => B64.isFinite c.arg0 && B64.isFinite c.arg1 && B64.isFinite c.arg2
  | .setPllClock _ => B64.isFinite c.arg0 && B64.isFinite c.arg1
  | .mbWaitClear => fitsU 32 c.arg0 && fitsU 32 c.arg1 && decide (c.arg0.toNat % 4 = 0)
  | .mbReadOnce n l | .mbRead n l => busOperandsOk p n l && fitsU 12 c.arg0
  | .mbWriteOnce n l _ | .mbWrite n l _ => busOperandsOk p n l && fitsU 12 c.arg0 && fitsU 8 c.arg1
  | .mbRmw n l _ => busOperandsOk p n l && fitsU 12 c.arg0 && fitsU 8 c.arg1 && fitsU 8 c.arg2
  | .mbReset n l => busOperandsOk p n l
  | .sramRead n l => busOperandsOk p n l && fitsU 16 c.arg0
  | .sramWrite n l => busOperandsOk p n l && fitsU 16 c.arg0 && fitsU 16 c.arg1
  | .timerArm | .timerCancel | .timerFire => true
  | .m2pWriteUncommitted _ _ | .m2pWriteCommitted _ _ | .m2pRead _ _ | .m2pBusReset => true
  | .p2mReadAck _ | .p2mWriteAck _ => true

/-- A u12 operand as a message-bus address (30_encoding.md R117). -/
def operandAddr (x : BitVec 64) : BitVec 12 := x.setWidth 12

/-- A u8 operand as a datum (30_encoding.md R117). -/
def operandByte (x : BitVec 64) : Byte := x.setWidth 8

/-- A u16 operand (30_encoding.md R117). -/
def operandHalf (x : BitVec 64) : BitVec 16 := x.setWidth 16

/-- A u32 operand. -/
def operandWord (x : BitVec 64) : Word := x.setWidth 32

/-- `hi = v[15:8]` (30_encoding.md R117). -/
def hiByte (v : BitVec 16) : Byte := v.extractLsb' 8 8

/-- `lo = v[7:0]` (30_encoding.md R117). -/
def loByte (v : BitVec 16) : Byte := v.extractLsb' 0 8

end Sys2Proof.Machine
end

