-- ==== Sys2Proof/Machine/Prog.lean ====
section
/-! DEFINITION. The language the rules' pseudocode is written in (00_scope.md R12): the atomic actions
an agent makes (70_reset_and_hazards.md R433), a program as the tree of actions and what follows each
answer, and `Code`, in which `raise` ends the command. -/

namespace Sys2Proof.Machine

/-- One atomic action of an agent on the machine (70_reset_and_hazards.md R433). Each acts on the bank
of the agent's own instance. -/
inductive Req where
  /-- `MemRead(off, 4)` -/
  | read (off : Word)
  /-- `MemWrite(off, 4, v)` -/
  | write (off v : Word)
  /-- `now()` -/
  | time
  /-- `sleep_us(d)` -/
  | sleep (us : Time)
  /-- a sample of `shutdown` -/
  | sampleShutdown
  /-- a sample of `done` -/
  | sampleDone
  /-- a round of a done poll: sleep, then sample `done`. With `done` = 0 the agent goes on to the sample of
  `shutdown` where the poll makes one, and otherwise stays where it is -/
  | awaitDone (orShutdown : Bool)
  /-- the sample of `shutdown` that ends such a round: with 0 the agent goes back to the round's start -/
  | pollShutdown
  /-- read `rb_status` -/
  | readRbStatus
  /-- the claim of 42_stepping_controller.md R273 with the binding that follows it -/
  | claim (sel : Selector) (k : Nat)
  /-- the release of 42_stepping_controller.md R274, of `enabled[pll_index]` and `pll_index`; in ROLLING_BACK the
  agent stays where it is (log 36) -/
  | release
  /-- `sel <- no value` (42_stepping_controller.md R274) -/
  | dropSel
  /-- `slots <- no value` (42_stepping_controller.md R274) -/
  | dropSlots
  /-- `captured <- 0` (42_stepping_controller.md R274) -/
  | dropCaptured
  /-- `armed <- 0` (42_stepping_controller.md R274) -/
  | dropArmed
  /-- the test-and-clear of 43_rollback_scheduler.md R346; `fired` says that the rollback path makes it,
  which only a due timer starts (R345) -/
  | testAndClear (fired : Bool)
  /-- `rb_status <- st` (43_rollback_scheduler.md R346) -/
  | setRbStatus (st : Status)
  /-- `done <- 1` (43_rollback_scheduler.md R346, R348; 42_stepping_controller.md R274) -/
  | setDone
  /-- TIMER_ARM with `done <- 0` and `fsm <- ARMED_FOR_ROLLBACK` (43_rollback_scheduler.md R353) -/
  | arm (ms : Nat)
  /-- `fsm <- f` -/
  | setFsm (f : Fsm)
  /-- `applied_mod <- b` -/
  | setApplied (b : Bool)
  /-- `orig` of the next slot of the snapshot takes its value (41_phy_datapath.md R201) -/
  | addOrig (h : HalfSlot)
  /-- `mod` of that slot takes its value (41_phy_datapath.md R201) -/
  | addMod (v : Word)
  /-- a write of one of the C20 registers (41_phy_datapath.md R241, 42_stepping_controller.md R274) -/
  | setC20 (w : C20Write)
  /-- `captured <- 1` (41_phy_datapath.md R201) -/
  | setCaptured
  /-- `pll_freq_orig <- f`, or no value (41_phy_datapath.md R201, 42_stepping_controller.md R274) -/
  | setFreqOrig (f : Option B64)
  /-- a write of `mod` of slot `k` (10_state.md R37) -/
  | setMod (k : Nat) (v : Word)
  /-- `RESULT <- v` -/
  | setResult (v : BitVec 64)
  /-- `pll_freq_mod <- f`, or no value -/
  | setFreqMod (f : Option B64)
  /-- `used_shift <- x`, or no value -/
  | setUsedShift (x : Option B64)
  /-- a binary64 datapath register (10_state.md R42) -/
  | setReg (r : DpReg) (v : B64)
  /-- a u32 datapath register (10_state.md R42) -/
  | setCount (r : DpCount) (v : Nat)
  /-- `STATUS.code <- st` (60_exceptions.md R371) -/
  | setCode (st : Status)
  /-- `STATUS.busy <- 0` (60_exceptions.md R371, 30_encoding.md R112) -/
  | clearBusy
  deriving DecidableEq, Repr

/-- Whether the action is one of the atomic steps of 70_reset_and_hazards.md R433, just before which another
agent or the environment may move: every access, sample, write of a state element and atomic block is. Reading
the clock, a sleep and reading `rb_status` belong to the action before them. DESIGN CHOICE, log 5. Safe. -/
def Req.visible : Req → Bool
  | .read _ | .write _ _ | .sampleShutdown | .sampleDone | .awaitDone _ | .pollShutdown => true
  | .claim _ _ | .release | .testAndClear _ | .arm _ => true
  | .dropSel | .dropSlots | .dropCaptured | .dropArmed => true
  | .setFsm _ | .setApplied _ | .setDone | .setRbStatus _ | .addOrig _ | .addMod _ | .setC20 _ | .setCaptured => true
  | .setFreqOrig _ | .setMod _ _ | .setResult _ | .setFreqMod _ | .setUsedShift _ => true
  | .setReg _ _ | .setCount _ _ | .setCode _ | .clearBusy => true
  | .time | .sleep _ | .readRbStatus => false

/-- Pseudocode as a tree: it has ended with a status, or it makes an action and goes on from the
answer. -/
inductive Prog where
  | ret (st : Status)
  | act (r : Req) (k : Resp → Prog)

/-- What is left of a program after some answers (10_state.md R32). -/
def Prog.after : Prog → List Resp → Prog
  | .ret st, _ => .ret st
  | .act r k, [] => .act r k
  | .act _ k, a :: rest => Prog.after (k a) rest

/-- Every action the program can make, whatever the answers, satisfies `P`. -/
def Prog.All (P : Req → Prop) : Prog → Prop
  | .ret _ => True
  | .act r k => P r ∧ ∀ a, Prog.All P (k a)

/-- A piece of pseudocode that gives a value to what follows it, or ends the command by `raise`. -/
abbrev Code (α : Type) : Type := ContT Unit (fun _ : Type => Prog) α

/-- The end of a command with a status (60_exceptions.md R371, 30_encoding.md R112): `STATUS.code` takes the
status, and then `STATUS.busy` falls. -/
def Prog.ending (st : Status) : Prog := .act (.setCode st) fun _ => .act .clearBusy fun _ => .ret st

/-- The program of a command whose pseudocode gives its status. -/
def Code.prog (c : Code Status) : Prog := c Prog.ending

/-- `raise S` (00_scope.md R12, 60_exceptions.md R371): nothing of the pseudocode after it runs. -/
def raise {α : Type} (st : Status) : Code α := fun _ => Prog.ending st

/-- `if b: c`, with nothing otherwise. -/
def onlyIf (b : Bool) (c : Code Unit) : Code Unit := if b then c else pure ()

/-- An action whose answer is not used. -/
def perform (r : Req) : Code Unit := fun k => .act r fun _ => k ()

/-- Such actions one after the other. -/
def performAll : List Req → Code Unit
  | [] => pure ()
  | r :: rest => do
    perform r
    performAll rest

/-- The word of an answer. -/
def Resp.asWord : Resp → Word
  | .word w => w
  | _ => 0

/-- The time of an answer. -/
def Resp.asTime : Resp → Time
  | .time t => t
  | _ => 0

/-- The bit of an answer. -/
def Resp.asFlag : Resp → Bool
  | .flag b => b
  | _ => false

/-- The status of an answer. -/
def Resp.asStatus : Resp → Status
  | .status st => st
  | _ => .ok

/-- The selector and snapshot of an answer, if the test-and-clear was won. -/
def Resp.asOwner : Resp → Option (Option Selector × List Slot)
  | .owner sel slots => some (sel, slots)
  | _ => none

/-- `MemRead(off, 4)` (00_scope.md R12). -/
def memRead (off : Word) : Code Word := fun k => .act (.read off) fun a => k a.asWord

/-- `MemWrite(off, 4, v)` (00_scope.md R12). -/
def memWrite (off v : Word) : Code Unit := perform (.write off v)

/-- `now()` (00_scope.md R14). -/
def readTime : Code Time := fun k => .act .time fun a => k a.asTime

/-- `sleep_us(d)` (70_reset_and_hazards.md R430). -/
def sleepUs (d : Time) : Code Unit := perform (.sleep d)

/-- `sleep_ms(d)` (70_reset_and_hazards.md R430). -/
def sleepMs (d : Nat) : Code Unit := perform (.sleep (d * 1000))

/-- A sample of `shutdown` (10_state.md R51). -/
def sampleShutdown : Code Bool := fun k => .act .sampleShutdown fun a => k a.asFlag

/-- A sample of `done` (10_state.md R39). -/
def sampleDone : Code Bool := fun k => .act .sampleDone fun a => k a.asFlag

/-- A round of a done poll: true once `done` = 1; with `done` = 0 it goes on only where the poll looks at
`shutdown` as well, with false. -/
def awaitDone (orShutdown : Bool) : Code Bool := fun k => .act (.awaitDone orShutdown) fun a => k a.asFlag

/-- The sample of `shutdown` that ends a round of a done poll: what follows it runs once `shutdown` = 1. -/
def pollShutdown : Code Unit := perform .pollShutdown

/-- Read `rb_status` (10_state.md R54). -/
def readRbStatus : Code Status := fun k => .act .readRbStatus fun a => k a.asStatus

/-- The claim of 42_stepping_controller.md R273: whether it was won. -/
def claim (sel : Selector) (i : Nat) : Code Bool := fun k => .act (.claim sel i) fun a => k a.asFlag

/-- The test-and-clear of 43_rollback_scheduler.md R346: the selector and snapshot to restore, if this
caller owns the restore. -/
def testAndClear (fired : Bool) : Code (Option (Option Selector × List Slot)) :=
  fun k => .act (.testAndClear fired) fun a => k a.asOwner

end Sys2Proof.Machine
end

