-- ==== Sys2Proof/Machine/Bus.lean ====
section
/-! DEFINITION. The message-bus transceiver (40_message_bus.md): its primitives, and the pseudocode of
the MB_* and SRAM_* commands. `p` and `l` are a port and a lane, `a` a 12-bit address, `d` a datum. -/

namespace Sys2Proof.Machine

/-- Bit 31, PENDING of M2P_CTL and READY of P2M_STS (10_state.md R53). -/
def bit31 : Word := 0x80000000#32

/-- Bit 15, RESET of M2P_CTL and ERROR of P2M_STS (10_state.md R53). -/
def bit15 : Word := 0x00008000#32

/-- What `clear_response` writes (40_message_bus.md R155). -/
def clearResponseWord : Word := 0x80008000#32

/-- How many polls a wait can make before its time is up: each one but the last sleeps the poll
interval (40_message_bus.md R151, R178). -/
def pollBound (plat : Platform) (timeout : Time) : Nat := timeout / plat.pollUs + 2

/-- The loop of `wait_clear`. -/
def waitClearFrom (plat : Platform) (reg mask : Word) (timeout t0 : Time) : Nat → Code Status
  | 0 => pure .busTimeout
  | n + 1 => do
    let v ← memRead reg
    if v &&& mask = 0 then return .ok
    let t ← readTime
    if t - t0 ≥ timeout then return .busTimeout
    sleepUs plat.pollUs
    waitClearFrom plat reg mask timeout t0 n

/-- `wait_clear(reg, mask, timeout_us)` (40_message_bus.md R151). -/
def waitClear (plat : Platform) (reg mask : Word) (timeout : Time) : Code Status := do
  let t0 ← readTime
  waitClearFrom plat reg mask timeout t0 (pollBound plat timeout)

/-- The check of a P2M word that has READY set: the error flag first, then the type
(40_message_bus.md R153). -/
def ackStatus (expected : Nat) (v : Word) : Status :=
  if wireBit15 v then .busProtocolError
  else if wireType v ≠ expected then .busProtocolError
  else .ok

/-- The loop of `wait_ack`. -/
def waitAckFrom (plat : Platform) (sts : Word) (expected : Nat) (t0 : Time) : Nat → Code (Status × Word)
  | 0 => pure (.busTimeout, 0)
  | n + 1 => do
    let v ← memRead sts
    if wireTop v then return (ackStatus expected v, v)
    let t ← readTime
    if t - t0 ≥ plat.tAckUs then return (.busTimeout, v)
    sleepUs plat.pollUs
    waitAckFrom plat sts expected t0 n

/-- `wait_ack(p, l, expected)` (40_message_bus.md R153). -/
def waitAck (plat : Platform) (p l expected : Nat) : Code (Status × Word) := do
  let t0 ← readTime
  waitAckFrom plat (plat.sts p l) expected t0 (pollBound plat plat.tAckUs)

/-- `clear_response(p, l)` (40_message_bus.md R155). -/
def clearResponse (plat : Platform) (p l : Nat) : Code Unit := memWrite (plat.sts p l) clearResponseWord

/-- `bus_reset(p, l)` (40_message_bus.md R156); the wait's outcome is discarded. -/
def busReset (plat : Platform) (p l : Nat) : Code Unit := do
  memWrite (plat.ctl p l) m2pReset
  let _ ← waitClear plat (plat.ctl p l) bit15 plat.tRstUs
  clearResponse plat p l

/-- `read_attempt(p, l, a)` (40_message_bus.md R162). -/
def readAttempt (plat : Platform) (p l : Nat) (a : BitVec 12) : Code (Status × Byte) := do
  let idle ← waitClear plat (plat.ctl p l) bit31 plat.tPendUs
  if idle ≠ .ok then
    busReset plat p l
    return (.busTimeout, 0)
  clearResponse plat p l
  memWrite (plat.ctl p l) (m2pWord 3 a 0)
  let (st, v) ← waitAck plat p l 4
  if st ≠ .ok then
    busReset plat p l
    return (st, 0)
  clearResponse plat p l
  return (.ok, wireData v)

/-- `mb_read(p, l, a)` with `n` more attempts after the first (40_message_bus.md R164). -/
def mbReadFrom (plat : Platform) (p l : Nat) (a : BitVec 12) : Nat → Code (Status × Byte)
  | 0 => do
    let (st, d) ← readAttempt plat p l a
    if st = .ok then return (.ok, d)
    return (st, 0)
  | n + 1 => do
    let (st, d) ← readAttempt plat p l a
    if st = .ok then return (.ok, d)
    mbReadFrom plat p l a n

/-- `mb_read(p, l, a)`: at most P_MB_ATTEMPTS attempts in all (40_message_bus.md R160, R164). -/
def mbRead (plat : Platform) (p l : Nat) (a : BitVec 12) : Code (Status × Byte) :=
  mbReadFrom plat p l a (mbAttempts - 1)

/-- `write_attempt(p, l, a, d, committed)` (40_message_bus.md R166). -/
def writeAttempt (plat : Platform) (p l : Nat) (a : BitVec 12) (d : Byte) (committed : Bool) : Code Status := do
  let idle ← waitClear plat (plat.ctl p l) bit31 plat.tPendUs
  if idle ≠ .ok then
    busReset plat p l
    return .busTimeout
  clearResponse plat p l
  memWrite (plat.ctl p l) (m2pWord (if committed then 2 else 1) a d)
  let taken ← waitClear plat (plat.ctl p l) bit31 plat.tPendUs
  if taken ≠ .ok then
    busReset plat p l
    return .busTimeout
  if committed then
    let (st, _) ← waitAck plat p l 5
    if st ≠ .ok then
      busReset plat p l
      return st
    clearResponse plat p l
    return .ok
  else
    let v ← memRead (plat.sts p l)
    if wireBit15 v then
      busReset plat p l
      return .busProtocolError
    clearResponse plat p l
    return .ok

/-- `mb_write` with `n` more attempts after the first (40_message_bus.md R168). -/
def mbWriteFrom (plat : Platform) (p l : Nat) (a : BitVec 12) (d : Byte) (committed : Bool) : Nat → Code Status
  | 0 => writeAttempt plat p l a d committed
  | n + 1 => do
    let st ← writeAttempt plat p l a d committed
    if st = .ok then return .ok
    mbWriteFrom plat p l a d committed n

/-- `mb_write(p, l, a, d, committed)` (40_message_bus.md R160, R168). -/
def mbWrite (plat : Platform) (p l : Nat) (a : BitVec 12) (d : Byte) (committed : Bool) : Code Status :=
  mbWriteFrom plat p l a d committed (mbAttempts - 1)

/-- The value MB_RMW writes (40_message_bus.md R170): a bit in both masks ends set. -/
def rmwValue (old clr set : Byte) : Byte := (old &&& ~~~clr) ||| set

/-- `mb_rmw(p, l, a, clr, set, committed)` (40_message_bus.md R170). -/
def mbRmw (plat : Platform) (p l : Nat) (a : BitVec 12) (clr set : Byte) (committed : Bool) : Code Status := do
  let (st, old) ← mbRead plat p l a
  if st ≠ .ok then return st
  if rmwValue old clr set = old then return .ok
  mbWrite plat p l a (rmwValue old clr set) committed

/-- `sram_read(p, l, addr)` (40_message_bus.md R176): a failure gives its status and the datum 0. -/
def sramRead (plat : Platform) (p l : Nat) (addr : BitVec 16) : Code (Status × BitVec 16) := do
  let w := plat.c20Window
  let st ← mbWrite plat p l w.rdAddrH (hiByte addr) false
  if st ≠ .ok then return (st, 0)
  let st ← mbWrite plat p l w.rdAddrL (loByte addr) true
  if st ≠ .ok then return (st, 0)
  let (st, h) ← mbRead plat p l w.rdDataH
  if st ≠ .ok then return (st, 0)
  let (st, lo) ← mbRead plat p l w.rdDataL
  if st ≠ .ok then return (st, 0)
  return (.ok, joinBytes h lo)

/-- `sram_write(p, l, addr, data)` on one lane (40_message_bus.md R177). -/
def sramWrite (plat : Platform) (p l : Nat) (addr data : BitVec 16) : Code Status := do
  let w := plat.c20Window
  let st ← mbWrite plat p l w.wrAddrH (hiByte addr) false
  if st ≠ .ok then return st
  let st ← mbWrite plat p l w.wrAddrL (loByte addr) false
  if st ≠ .ok then return st
  let st ← mbWrite plat p l w.wrDataH (hiByte data) false
  if st ≠ .ok then return st
  mbWrite plat p l w.wrDataL (loByte data) true

/-- A single-lane operation on each lane of a list in turn; the first failure ends it
(30_encoding.md R116, D30). -/
def onLanes (op : Nat → Code Status) : List Nat → Code Status
  | [] => pure .ok
  | l :: rest => do
    let st ← op l
    if st ≠ .ok then return st
    onLanes op rest

/-! ### The commands' pseudocode -/

/-- MB_WAIT_CLEAR (40_message_bus.md R151): no bus reset. -/
def mbWaitClearCode (plat : Platform) (c : Core) : Code Status :=
  waitClear plat (operandWord c.arg0) (operandWord c.arg1) c.arg2.toNat

/-- MB_READ_ONCE (40_message_bus.md R163): one attempt on the lowest set lane. -/
def mbReadOnceCode (port : Nat) (lanes : BitVec 2) (plat : Platform) (c : Core) : Code Status := do
  let (st, d) ← readAttempt plat port (lowestLane lanes) (operandAddr c.arg0)
  perform (.setResult (d.setWidth 64))
  return st

/-- MB_READ (40_message_bus.md R165). -/
def mbReadCode (port : Nat) (lanes : BitVec 2) (plat : Platform) (c : Core) : Code Status := do
  let (st, d) ← mbRead plat port (lowestLane lanes) (operandAddr c.arg0)
  perform (.setResult (d.setWidth 64))
  return st

/-- MB_WRITE_ONCE (40_message_bus.md R167). -/
def mbWriteOnceCode (port : Nat) (lanes : BitVec 2) (k : Bool) (plat : Platform) (c : Core) : Code Status :=
  onLanes (fun l => writeAttempt plat port l (operandAddr c.arg0) (operandByte c.arg1) k) (setLanes lanes)

/-- MB_WRITE (40_message_bus.md R169). -/
def mbWriteCode (port : Nat) (lanes : BitVec 2) (k : Bool) (plat : Platform) (c : Core) : Code Status :=
  onLanes (fun l => mbWrite plat port l (operandAddr c.arg0) (operandByte c.arg1) k) (setLanes lanes)

/-- MB_RMW (40_message_bus.md R171). -/
def mbRmwCode (port : Nat) (lanes : BitVec 2) (k : Bool) (plat : Platform) (c : Core) : Code Status :=
  onLanes (fun l => mbRmw plat port l (operandAddr c.arg0) (operandByte c.arg1) (operandByte c.arg2) k)
    (setLanes lanes)

/-- MB_RESET (40_message_bus.md R173): always OK. -/
def mbResetCode (port : Nat) (lanes : BitVec 2) (plat : Platform) (_ : Core) : Code Status :=
  onLanes (fun l => do busReset plat port l; return .ok) (setLanes lanes)

/-- SRAM_READ (40_message_bus.md R176): RESULT is the datum, or 0 on a failure. -/
def sramReadCode (port : Nat) (lanes : BitVec 2) (plat : Platform) (c : Core) : Code Status := do
  let (st, v) ← sramRead plat port (lowestLane lanes) (operandHalf c.arg0)
  perform (.setResult (v.setWidth 64))
  return st

/-- SRAM_WRITE (40_message_bus.md R177). -/
def sramWriteCode (port : Nat) (lanes : BitVec 2) (plat : Platform) (c : Core) : Code Status :=
  onLanes (fun l => sramWrite plat port l (operandHalf c.arg0) (operandHalf c.arg1)) (setLanes lanes)

end Sys2Proof.Machine
end

