-- ==== Sys2Proof/Machine/Dividers.lean ====
section
/-! DEFINITION. The divider datapath (41_phy_datapath.md): each variant's frequency, inverse, capture
and write, and the pseudocode of the five commands over them. A copy of the snapshot is the list of
its words in slot order (R206). -/

namespace Sys2Proof.Machine

/-! ### Copies (41_phy_datapath.md R206) -/

/-- A copy of the snapshot: `mod`, or `orig`. -/
def copyOf (useMod : Bool) (slots : List Slot) : List Word :=
  slots.map fun s => if useMod then s.mod else s.orig

/-- Word `k` of a copy. -/
def copyWord (copy : List Word) (k : Nat) : Word := copy.getD k 0

/-- The layout of the bound selector. -/
def layoutOf (sel : Option Selector) : Option Layout := sel.map fun s => s.layout

/-- A copy with words of it written one after the other, each a slot and its word (10_state.md R37). -/
def applyPuts (copy : List Word) (puts : List (Nat × Word)) : List Word :=
  puts.foldl (fun m p => m.set p.1 p.2) copy

/-- The snapshot of a bank; empty before the capture. -/
def Core.snapshot (c : Core) : List Slot := c.slots.getD []

/-! ### Combo (41_phy_datapath.md R210 to R215) -/

/-- `freq_COMBO` in kHz (R212). -/
def freqCombo (refclk : Nat) (l : ComboLayout) (copy : List Word) : Nat :=
  let i := fieldGet (copyWord copy 0) l.intLo 10
  let fr := fieldGet (copyWord copy 0) l.fracLo 15
  i * refclk + (fr * 2 * refclk) / 32768

/-- The integer and fraction of `inv_COMBO` (R213). -/
def comboDividers (refclk : Nat) (t : B64) : Nat × Nat :=
  let r := B64.ofNat refclk
  let i := B64.clampTo .floor 1023 (B64.div t r)
  let fr := B64.clampTo .nearest 32767
    (B64.div (B64.mul (B64.sub t (B64.mul (B64.ofNat i) r)) (B64.ofNat 16384)) r)
  (i, fr)

/-- The writes of `inv_COMBO` on the `mod` copy (R213): CFG0 with the integer, then with the fraction. -/
def invCombo (refclk : Nat) (l : ComboLayout) (mods : List Word) (t : B64) : List (Nat × Word) :=
  let d := comboDividers refclk t
  let w := fieldPut (copyWord mods 0) (fieldMask l.intLo 10) l.intLo d.1
  [(0, w), (0, fieldPut w (fieldMask l.fracLo 15) l.fracLo d.2)]

/-! ### DKL (41_phy_datapath.md R220 to R225) -/

/-- The prediv of a copy (R220). -/
def dklPrediv (l : DklLayout) (copy : List Word) : Nat := fieldGet (copyWord copy 0) l.predivLo 4

/-- `freq_DKL` in MHz (R222). -/
def freqDkl (refclk : B64) (l : DklLayout) (copy : List Word) : B64 :=
  let p := B64.ofNat (dklPrediv l copy)
  let i := B64.ofNat (fieldGet (copyWord copy 0) l.intLo 8)
  let fr := B64.ofNat (fieldGet (copyWord copy 1) l.fracLo 22)
  B64.mul (B64.mul refclk p) (B64.add i (B64.div fr (B64.ofNat 4194304)))

/-- The integer and fraction of `inv_DKL` for a nonzero prediv (R223). -/
def dklDividers (refclk : B64) (p : Nat) (t : B64) : Nat × Nat :=
  let f := B64.div t (B64.mul refclk (B64.ofNat p))
  let i := B64.clampTo .floor 255 f
  let fr := B64.clampTo .nearest 0x3FFFFF (B64.mul (B64.sub f (B64.ofNat i)) (B64.ofNat 4194304))
  (i, fr)

/-- The slots of a register: one, but where DIV0 and BIAS are one register (R220). -/
def dklSlotsOf (l : DklLayout) (reg : Word) : List Nat :=
  (List.range l.regs.length).filter fun k => l.regs[k]? == some reg

/-- The writes that force the auxiliary fields in the `mod` copy, in list order, each in every slot of its
register (R223). -/
def forceAux (l : DklLayout) (mods : List Word) : List AuxField → List (Nat × Word)
  | [] => []
  | a :: rest =>
    let puts := (dklSlotsOf l a.reg).map fun k => (k, (copyWord mods k &&& ~~~a.mask) ||| (a.value &&& a.mask))
    puts ++ forceAux l (applyPuts mods puts) rest

/-- The writes of `inv_DKL` on the `mod` copy (R223): the prediv is kept, the auxiliary fields are forced
last. -/
def invDkl (refclk : B64) (l : DklLayout) (mods : List Word) (t : B64) : Status × List (Nat × Word) :=
  if dklPrediv l mods = 0 then (.dividerError, [])
  else
    let d := dklDividers refclk (dklPrediv l mods) t
    let puts := [(0, fieldPut (copyWord mods 0) (fieldMask l.intLo 8) l.intLo d.1),
      (1, fieldPut (copyWord mods 1) (fieldMask l.fracLo 22) l.fracLo d.2)]
    (.ok, puts ++ forceAux l (applyPuts mods puts) l.aux)

/-! ### C10 (41_phy_datapath.md R230 to R236) -/

/-- A 16-bit field from the slots of its high and low bytes (20_memory.md R84). -/
def c10Pair (copy : List Word) (hi lo : Nat) : Nat :=
  fieldGet (copyWord copy hi) 0 8 * 256 + fieldGet (copyWord copy lo) 0 8

/-- `m` (R230). -/
def c10M (f : C10Fields) (copy : List Word) : Nat :=
  fieldGet (copyWord copy f.mHi) f.mHiBit 4 * 256 + fieldGet (copyWord copy f.mLo) 0 8
/-- `d` (R230). -/
def c10D (f : C10Fields) (copy : List Word) : Nat := c10Pair copy f.dHi f.dLo
/-- `q` (R230). -/
def c10Q (f : C10Fields) (copy : List Word) : Nat := c10Pair copy f.qHi f.qLo
/-- `r` (R230). -/
def c10R (f : C10Fields) (copy : List Word) : Nat := c10Pair copy f.rHi f.rLo
/-- `D = 10 << (tx + 16)` (R232). -/
def c10Scale (f : C10Fields) (copy : List Word) : Nat :=
  10 * 2 ^ (fieldGet (copyWord copy f.tx) f.txBit 3 + 16)

/-- `round(n / d)` of naturals, halves away from zero (R232). -/
def roundQuot (n d : Nat) : Nat := (2 * n + d) / (2 * d)

/-- `freq_C10` in kHz (R232). -/
def freqC10 (refclk : Nat) (f : C10Fields) (copy : List Word) : Status × Nat :=
  if c10D f copy = 0 then (.dividerError, 0)
  else
    (.ok, (refclk * (c10M f copy * 65536 + c10Q f copy) + roundQuot (refclk * c10R f copy) (c10D f copy))
      / c10Scale f copy)

/-- The quotient of `inv_C10` for a nonzero denominator (R233). -/
def c10Quotient (refclk : Nat) (f : C10Fields) (copy : List Word) (t : B64) : Nat :=
  let rt := roundQuot (refclk * c10R f copy) (c10D f copy)
  let x := B64.sub
    (B64.div (B64.sub (B64.mul t (B64.ofNat (c10Scale f copy))) (B64.ofNat rt)) (B64.ofNat refclk))
    (B64.mul (B64.ofNat (c10M f copy)) (B64.ofNat 65536))
  B64.clampTo .floor 65535 x

/-- The writes of `inv_C10` on the `mod` copy: only the quotient's two slots change (R233, R236). -/
def invC10 (refclk : Nat) (f : C10Fields) (mods : List Word) (t : B64) : Status × List (Nat × Word) :=
  if c10D f mods = 0 then (.dividerError, [])
  else
    let q := c10Quotient refclk f mods t
    (.ok, [(f.qLo, BitVec.ofNat 32 (q % 256)), (f.qHi, BitVec.ofNat 32 (q / 256))])

/-! ### C20 (41_phy_datapath.md R240 to R245) -/

/-- The block of the active context (R240). -/
def c20Block (l : C20Layout) : C20Ctx → C20Block
  | .mplla => l.mplla
  | .mpllb => l.mpllb

/-- A field of the captured words. -/
def c20Field (pos : FieldPos) (width : Nat) (values : List Word) : BitVec width :=
  BitVec.ofNat width (fieldGet (copyWord values pos.word) pos.lo width)

/-- The context and the cached fields of a capture (R241, 10_state.md R41). -/
def c20CacheOf (ctx : C20Ctx) (b : C20Block) (values : List Word) : C20Cache where
  ctx := ctx
  fracEn := c20Field b.fracEn 1 values
  txClkDiv := c20Field b.txClkDiv 3 values
  refDiv := c20Field b.refDiv 3 values
  multiplier := c20Field b.multiplier 12 values
  txRate := c20Field b.txRate 3 values
  txRateMult := c20Field b.txRateMult 1 values
  fbClkDiv4En := c20Field b.fbClkDiv4En 1 values

/-- `ref` (R242). -/
def c20Ref (refclk : Nat) (c : C20Cache) : Nat :=
  (refclk * 2 ^ (1 + c.fbClkDiv4En.toNat)) / 2 ^ c.refDiv.toNat

/-- A fraction word of a copy, 16 bits (R240). -/
def c20Word (copy : List Word) (k : Nat) : Nat := fieldGet (copyWord copy k) 0 16

/-- `vco` (R242): the exact rational, floored. -/
def c20Vco (refclk : Nat) (b : C20Block) (c : C20Cache) (copy : List Word) : Nat :=
  let ref := c20Ref refclk c
  let m := c.multiplier.toNat * 32768
  if c.fracEn = 1 then
    let d := c20Word copy b.d
    (ref * ((m + c20Word copy b.q) * d + c20Word copy b.r)) / (1310720 * d)
  else (ref * m) / 1310720

/-- `freq_C20` in kHz (R242). -/
def freqC20 (refclk : Nat) (b : C20Block) (c : C20Cache) (copy : List Word) : Status × Nat :=
  if c.fracEn = 1 ∧ c20Word copy b.d = 0 then (.dividerError, 0)
  else
    (.ok, (c20Vco refclk b c copy / 2 ^ (c.txRate.toNat + c.txClkDiv.toNat)) * 2 ^ c.txRateMult.toNat)

/-- The fraction quotient and remainder of `inv_C20` (R243). -/
def c20Fraction (refclk : Nat) (b : C20Block) (c : C20Cache) (copy : List Word) (t : B64) : Nat × Nat :=
  let vt := B64.div (B64.mul t (B64.ofNat (2 ^ (c.txRate.toNat + c.txClkDiv.toNat))))
    (B64.ofNat (2 ^ c.txRateMult.toNat))
  let f := B64.sub (B64.div (B64.mul vt (B64.ofNat 1310720)) (B64.ofNat (c20Ref refclk c)))
    (B64.mul (B64.ofNat c.multiplier.toNat) (B64.ofNat 32768))
  let q := B64.clampTo .floor 65535 f
  let r := B64.clampTo .nearest 65535 (B64.mul (B64.sub f (B64.ofNat q)) (B64.ofNat (c20Word copy b.d)))
  (q, r)

/-- The writes of `inv_C20` on the `mod` copy: only `Wq` and `Wr` change (R243). A reference the capture
divides down to 0 is a division by zero of the inverse, so `DIVIDER_ERROR` (R203). DEDUCED, log 33. Safe. -/
def invC20 (refclk : Nat) (b : C20Block) (c : C20Cache) (mods : List Word) (t : B64) : Status × List (Nat × Word) :=
  if c.fracEn = 0 then (.dividerError, [])
  else if c20Ref refclk c = 0 then (.dividerError, [])
  else
    let f := c20Fraction refclk b c mods t
    (.ok, [(b.q, BitVec.ofNat 32 f.1), (b.r, BitVec.ofNat 32 f.2)])

/-! ### DP M/N (41_phy_datapath.md R250 to R254) -/

/-- The position of the lowest set bit of a mask, among the bits from `k` on. -/
def lowestBitFrom (mask : Word) (k : Nat) : Nat → Nat
  | 0 => k
  | n + 1 => if mask.getLsbD k then k else lowestBitFrom mask (k + 1) n

/-- `sh`: the mask's lowest set bit (R250). -/
def maskShift (mask : Word) : Nat := lowestBitFrom mask 0 31

/-- `freq_DPMN`: the raw M value (R252). -/
def freqDpmn (l : DpmnLayout) (copy : List Word) : Nat :=
  (copyWord copy 0 &&& l.mMask).toNat / 2 ^ maskShift l.mMask

/-- The M value of `inv_DPMN` (R253). -/
def dpmnValue (l : DpmnLayout) (t : B64) : Nat :=
  B64.clampTo .trunc (l.mMask.toNat / 2 ^ maskShift l.mMask) t

/-- The write of `inv_DPMN` on the `mod` copy (R253): N is not written. -/
def invDpmn (l : DpmnLayout) (mods : List Word) (t : B64) : List (Nat × Word) :=
  [(0, fieldPut (copyWord mods 0) l.mMask (maskShift l.mMask) (dpmnValue l t))]

/-! ### Dispatch on the variant (41_phy_datapath.md R200) -/

/-- An integer frequency as a binary64 value (R206); a failure gives 0.0. -/
def freqOfNat (x : Status × Nat) : Status × B64 :=
  (x.1, if x.1 = .ok then B64.ofNat x.2 else B64.zero)

/-- `freq_v(copy)` (R200). A bank with no selector, or a C20 bank with no cached fields, has no
frequency; no command that reaches this is legal there (42_stepping_controller.md R278). DESIGN
CHOICE, log 12: `INVALID_STATE`. Safe. -/
def freqV (plat : Platform) (sel : Option Selector) (c20 : Option C20Cache) (copy : List Word) : Status × B64 :=
  match layoutOf sel with
  | some (.combo l) => freqOfNat (.ok, freqCombo plat.refclkComboKhz l copy)
  | some (.dkl l) => (.ok, freqDkl plat.refclkDklMhz l copy)
  | some (.c10 l) => freqOfNat (freqC10 plat.refclkC10Khz l.fields copy)
  | some (.c20 l) =>
    match c20 with
    | some c => freqOfNat (freqC20 plat.refclkC20Khz (c20Block l c.ctx) c copy)
    | none => (.invalidState, B64.zero)
  | some (.dpmn l) => freqOfNat (.ok, freqDpmn l copy)
  | none => (.invalidState, B64.zero)

/-- `inv_v(t)` on the `mod` copy (R200): its status, and its writes in order; none where it fails. -/
def invPuts (plat : Platform) (sel : Option Selector) (c20 : Option C20Cache) (mods : List Word) (t : B64) :
    Status × List (Nat × Word) :=
  match layoutOf sel with
  | some (.combo l) => (.ok, invCombo plat.refclkComboKhz l mods t)
  | some (.dkl l) => invDkl plat.refclkDklMhz l mods t
  | some (.c10 l) => invC10 plat.refclkC10Khz l.fields mods t
  | some (.c20 l) =>
    match c20 with
    | some c => invC20 plat.refclkC20Khz (c20Block l c.ctx) c mods t
    | none => (.invalidState, [])
  | some (.dpmn l) => (.ok, invDpmn l mods t)
  | none => (.invalidState, [])

/-- `inv_v(t)` on the `mod` copy (R200): its status, and the copy it leaves. -/
def invV (plat : Platform) (sel : Option Selector) (c20 : Option C20Cache) (mods : List Word) (t : B64) :
    Status × List Word :=
  let x := invPuts plat sel c20 mods t
  (x.1, applyPuts mods x.2)

/-- The writes of `mod` (10_state.md R37) as actions. -/
def writeMod (puts : List (Nat × Word)) : Code Unit := performAll (puts.map fun p => .setMod p.1 p.2)

/-- Frequency of a copy of a bank's snapshot. -/
def Core.freq (plat : Platform) (c : Core) (useMod : Bool) : Status × B64 :=
  freqV plat c.sel c.c20.cache? (copyOf useMod c.snapshot)

/-- `get_pll_clock()` (42_stepping_controller.md R277): the frequency of the applied copy. -/
def Core.pllClock (plat : Platform) (c : Core) : Status × B64 := c.freq plat c.appliedMod

/-! ### Capture (41_phy_datapath.md R211, R221, R231, R241, R251) -/

/-- A slot as READ_REGISTERS fills it: `mod` equal to `orig` (R201). -/
def newSlot (addr : Nat) (v : Word) (writable : Bool) : Slot := ⟨addr, v, v, writable⟩

/-- A `MemRead` of each offset in order. -/
def readOffsets : List Word → Code (List Word)
  | [] => pure []
  | a :: rest => do
    let v ← memRead a
    let vs ← readOffsets rest
    return v :: vs

/-- An `mb_read` of each address in order; the first failure ends it (R231). -/
def readBusSlots (plat : Platform) (p l : Nat) : List (BitVec 12) → Code (Status × List Word)
  | [] => pure (.ok, [])
  | a :: rest => do
    let (st, v) ← mbRead plat p l a
    if st ≠ .ok then return (st, [])
    let (st, vs) ← readBusSlots plat p l rest
    return (st, v.setWidth 32 :: vs)

/-- An `sram_read` of each word in order; the first failure ends it (R241). -/
def readSramWords (plat : Platform) (p l : Nat) : List (BitVec 16) → Code (Status × List Word)
  | [] => pure (.ok, [])
  | a :: rest => do
    let (st, v) ← sramRead plat p l a
    if st ≠ .ok then return (st, [])
    let (st, vs) ← readSramWords plat p l rest
    return (st, v.setWidth 32 :: vs)

/-- `capture_v()` (R200): its status, and on success the slots and, for a C20, the context and cached
fields. -/
def captureV (plat : Platform) (sel : Option Selector) : Code (Status × List Slot × Option C20Cache) := do
  match layoutOf sel with
  | some (.combo l) =>
    let v0 ← memRead l.cfg0
    let v1 ← memRead l.cfg1
    return (.ok, [newSlot l.cfg0.toNat v0 true, newSlot l.cfg1.toNat v1 false], none)
  | some (.dkl l) =>
    let vs ← readOffsets l.regs
    if vs.contains 0xFFFFFFFF#32 then return (.hwReadAnomaly, [], none)
    return (.ok, List.zipWith (fun (a v : Word) => newSlot a.toNat v true) l.regs vs, none)
  | some (.c10 l) =>
    let (st, vs) ← readBusSlots plat l.port (lowestLane l.lanes) l.slotAddr
    return (st, List.zipWith (fun (a : BitVec 12) (v : Word) => newSlot a.toNat v true) l.slotAddr vs, none)
  | some (.c20 l) =>
    let (st, t) ← mbRead plat l.port (lowestLane l.lanes) l.ctxReg
    if st ≠ .ok then return (st, [], none)
    let ctx := if t.getLsbD l.ctxBit then C20Ctx.mpllb else C20Ctx.mplla
    let b := c20Block l ctx
    let (st, vs) ← readSramWords plat l.port (lowestLane l.lanes) b.words
    return (st, List.zipWith (fun (a : BitVec 16) (v : Word) => newSlot a.toNat v true) b.words vs,
      some (c20CacheOf ctx b vs))
  | some (.dpmn l) =>
    let v0 ← memRead l.m
    let v1 ← memRead l.n
    return (.ok, [newSlot l.m.toNat v0 true, newSlot l.n.toNat v1 false], none)
  | none => return (.invalidState, [], none)

/-! ### Write (41_phy_datapath.md R214, R224, R234, R244, R254) -/

/-- A `MemWrite` of each word to its offset in order. -/
def writeOffsets : List (Nat × Word) → Code Unit
  | [] => pure ()
  | (a, v) :: rest => do
    memWrite (BitVec.ofNat 32 a) v
    writeOffsets rest

/-- A committed `mb_write` of each slot in order on one lane; the first failure ends it (R234). -/
def writeBusSlots (plat : Platform) (p l : Nat) : List (Nat × Word) → Code Status
  | [] => pure .ok
  | (a, v) :: rest => do
    let st ← mbWrite plat p l (BitVec.ofNat 12 a) (v.setWidth 8) true
    if st ≠ .ok then return st
    writeBusSlots plat p l rest

/-- An `sram_write` of each word in order on one lane; the first failure ends it (R244). -/
def writeSramWords (plat : Platform) (p l : Nat) : List (Nat × Word) → Code Status
  | [] => pure .ok
  | (a, v) :: rest => do
    let st ← sramWrite plat p l (BitVec.ofNat 16 a) (v.setWidth 16)
    if st ≠ .ok then return st
    writeSramWords plat p l rest

/-- `write_v(copy)` (R200), the copy given as address and word, slot by slot: all slots, but of DP M/N
only M (R254). -/
def writeV (plat : Platform) (sel : Option Selector) (copy : List (Nat × Word)) : Code Status := do
  match layoutOf sel with
  | some (.combo _) =>
    writeOffsets copy
    return .ok
  | some (.dkl _) =>
    writeOffsets copy
    return .ok
  | some (.c10 l) => onLanes (fun lane => writeBusSlots plat l.port lane copy) (setLanes l.lanes)
  | some (.c20 l) => onLanes (fun lane => writeSramWords plat l.port lane copy) (setLanes l.lanes)
  | some (.dpmn _) =>
    writeOffsets (copy.take 1)
    return .ok
  | none => return .invalidState

/-- A copy with the addresses of its slots. -/
def addressed (slots : List Slot) (copy : List Word) : List (Nat × Word) :=
  List.zipWith (fun (s : Slot) (v : Word) => (s.addr, v)) slots copy

/-- `write_v(orig)` of a snapshot: the restore (43_rollback_scheduler.md R347). -/
def writeOrig (plat : Platform) (sel : Option Selector) (slots : List Slot) : Code Status :=
  writeV plat sel (addressed slots (copyOf false slots))

/-! ### The commands' pseudocode -/

/-- The writes of the slots, each its `orig` and then its `mod` (41_phy_datapath.md R201). -/
def fillWrites (slots : List Slot) : List Req :=
  slots.flatMap fun y => [.addOrig ⟨y.addr, y.orig, y.writable⟩, .addMod y.mod]

/-- READ_REGISTERS (41_phy_datapath.md R201); of a C20 it records the context and the seven fields (R241) after
the slots they are read from. -/
def readRegistersCode (plat : Platform) (c : Core) : Code Status := do
  if c.captured then return .ok
  let (st, slots, c20) ← captureV plat c.sel
  if st ≠ .ok then return st
  let (st2, f) := freqV plat c.sel c20 (copyOf false slots)
  performAll (fillWrites slots)
  performAll ((c20.elim [] C20Cache.writes).map .setC20)
  perform .setCaptured
  perform (.setApplied false)
  perform (.setFreqOrig (some (if st2 = .ok then f else B64.zero)))
  perform (.setFsm .captured)
  return .ok

/-- CALC_PLL_CLOCK (41_phy_datapath.md R202). -/
def calcPllClockCode (m : Bool) (plat : Platform) (c : Core) : Code Status := do
  let (st, f) := c.freq plat m
  perform (.setResult f)
  return st

/-- CALC_FEEDBACK_DIVIDERS (41_phy_datapath.md R203). -/
def calcFeedbackDividersCode (plat : Platform) (c : Core) : Code Status := do
  if B64.le c.arg0 B64.zero then return .invalidArgument
  let (st, puts) := invPuts plat c.sel c.c20.cache? (copyOf true c.snapshot) c.arg0
  writeMod puts
  return st

/-- PROGRAM_MMIO (41_phy_datapath.md R204). -/
def programMmioCode (m : Bool) (plat : Platform) (c : Core) : Code Status := do
  let st ← writeV plat c.sel (addressed c.snapshot (copyOf m c.snapshot))
  if st ≠ .ok then return st
  perform (.setApplied m)
  return .ok

/-- PRINT_REGISTERS (41_phy_datapath.md R205): a logging operation, without effect. -/
def printRegistersCode (_ : Platform) (_ : Core) : Code Status := pure .ok

end Sys2Proof.Machine
end

