-- ==== Sys2Proof/Machine/Rollback.lean ====
section
/-! DEFINITION. The rollback scheduler's restore (43_rollback_scheduler.md R346 to R353) and the
pseudocode of the commands that wait for or force it (42_stepping_controller.md section 5). -/

namespace Sys2Proof.Machine

/-- `rollback_now()` (43_rollback_scheduler.md R346). The caller that wins the test-and-clear restores
the bank's snapshot as it is then (log 28), records the status and completes (R348); any other waits
for `done` (R351). `fired` says that the caller is the rollback path. -/
def rollbackNow (fired : Bool) (plat : Platform) : Code Status := do
  match ← testAndClear fired with
  | some (sel, slots) =>
    let st ← writeOrig plat sel slots
    onlyIf (st = .ok) (perform (.setApplied false))
    perform (.setRbStatus st)
    perform .setDone
    perform (.setFsm .done)
    return st
  | none =>
    if ← sampleDone then readRbStatus
    else do
      let _ ← awaitDone false
      readRbStatus

/-- The rollback path TIMER_FIRE starts (43_rollback_scheduler.md R345). -/
def rollbackPathCode (plat : Platform) : Code Status := rollbackNow true plat

/-- WAIT_UNTIL_DONE (42_stepping_controller.md R310, R312): the first round, then the rounds that begin with
the sleep (log 29). -/
def waitUntilDoneCode (plat : Platform) (_ : Core) : Code Status := do
  if ← sampleDone then return .ok
  if ← sampleShutdown then rollbackNow false plat
  else if ← awaitDone true then readRbStatus
  else
    pollShutdown
    rollbackNow false plat

/-- ROLLBACK (42_stepping_controller.md R315). -/
def rollbackCode (plat : Platform) (c : Core) : Code Status := do
  if c.fsm = .armedForRollback ∨ c.fsm = .rollingBack then rollbackNow false plat
  else
    let st ← writeOrig plat c.sel c.snapshot
    onlyIf (st = .ok) (perform (.setApplied false))
    perform (.setFsm .done)
    return st

/-- The writes of RELEASE after the release of the PLL, in the order of 42_stepping_controller.md R274. DEDUCED,
log 23: the C20 registers are among the cached values. Safe. -/
def unbindWrites : List Req :=
  [.dropSel, .dropSlots] ++ c20Clears.map .setC20 ++
    [.setFreqOrig none, .setFreqMod none, .setUsedShift none, .dropCaptured, .setApplied false, .dropArmed, .setDone,
      .setFsm .unbound]

/-- RELEASE (42_stepping_controller.md R274). -/
def releaseCode (plat : Platform) (c : Core) : Code Status := do
  let st ← if c.fsm = .armedForRollback then rollbackNow false plat else pure .ok
  perform .release
  performAll unbindWrites
  return st

end Sys2Proof.Machine
end

