-- ==== Sys2Proof/Machine/Stepping.lean ====
section
/-! DEFINITION. The stepping controller (42_stepping_controller.md): the pseudocode of CONSTRUCT,
GET_CACHED, GET_PLL_CLOCK, SET_PLL_CLOCK and PROGRAM_PHY. -/

namespace Sys2Proof.Machine

/-! ### Lifecycle and reads -/

/-- CONSTRUCT (42_stepping_controller.md R271 to R273). -/
def constructCode (plat : Platform) (c : Core) : Code Status := do
  match plat.selector? c.arg0.toNat with
  | none => return .invalidArgument
  | some s =>
    let v ← memRead s.clkselReg
    let won ← claim s (Platform.pllDiscover s v)
    return if won then .ok else .resourceConflict

/-- The cached value GET_CACHED names (30_encoding.md R114). -/
def Core.cached (c : Core) (which : Nat) : Option B64 :=
  match which with
  | 0 => c.pllFreqOrig
  | 1 => c.pllFreqMod
  | _ => c.usedShift

/-- GET_CACHED (42_stepping_controller.md R276). -/
def getCachedCode (_ : Platform) (c : Core) : Code Status := do
  if c.arg0.toNat > 2 then return .invalidArgument
  match c.cached c.arg0.toNat with
  | none => return .invalidState
  | some x =>
    perform (.setResult x)
    return .ok

/-- GET_PLL_CLOCK (42_stepping_controller.md R277). -/
def getPllClockCode (plat : Platform) (c : Core) : Code Status := do
  let (st, f) := c.pllClock plat
  perform (.setResult f)
  return st

/-! ### The stepping primitive (42_stepping_controller.md R291) -/

/-- `pdiff`: the percent difference, rounded to 4 decimals (R291 step 1); of an infinity or a NaN: log 37. -/
def percentDiff (c target : B64) : B64 :=
  B64.round4 (B64.mul (B64.div (B64.abs (B64.sub target c)) c) (B64.ofNat 100))

/-- The step size `shift` percent of `c` in the direction of `total` (R291 step 3). -/
def firstStepSize (c shift total : B64) : B64 :=
  B64.mul (B64.div (B64.mul c shift) (B64.ofNat 100))
    (if B64.lt B64.zero total then B64.ofNat 1 else B64.neg (B64.ofNat 1))

/-- `ceil(fabs(x))` as a step count, unless it exceeds P_STEP_MAX (R291 step 3). DESIGN CHOICE, log 37: an infinity
does. Unsafe. What a NaN gives is free among the u32 values (log 10). -/
def stepCount (x : B64) : Option Nat :=
  if B64.isNaN x then some (Config.nanToNat x % (stepMax + 1))
  else if B64.isInf x then none
  else if (B64.toInt .ceil (B64.abs x)).toNat ≤ stepMax then some (B64.toInt .ceil (B64.abs x)).toNat
  else none

/-- `raise-or-fail S` (R291): from PROGRAM_PHY the state goes to DONE first. -/
def raiseOrFail {α : Type} (fromPhy : Bool) (st : Status) : Code α := do
  onlyIf fromPhy (perform (.setFsm .done))
  raise st

/-- `fail(S)` (42_stepping_controller.md, opening). -/
def fail {α : Type} (st : Status) : Code α := raiseOrFail true st

/-- `cancel()` (R300): exactly one `write_v(orig)`, whose own failure is not reported. -/
def cancelStepping {α : Type} (plat : Platform) (c : Core) : Code α := do
  let st ← writeOrig plat c.sel c.snapshot
  onlyIf (st = .ok) (perform (.setApplied false))
  fail .cancelled

/-- What one run of the stepping works with: the bank at acceptance, the target, the step size, the
inter-step sleep, whether to program the hardware, and the number of steps. -/
structure StepRun where
  view : Core
  target : B64
  ssize : B64
  wait : Nat
  commit : Bool
  nsteps : Nat

/-- The commit of one step (R291 step 4): `write_v(mod)`, then `applied_mod <- 1`. -/
def commitStep (plat : Platform) (r : StepRun) (mods : List Word) : Code Unit := do
  let st ← writeV plat r.view.sel (addressed r.view.snapshot mods)
  onlyIf (st ≠ .ok) (fail st)
  perform (.setApplied true)

/-- The steps of R291 step 4, with as many still to make as the last argument says: `fi` is the
intermediate frequency, `mods` the `mod` copy. The loop writes `istep` before the step's sample of
`shutdown`. -/
def stepFrom (plat : Platform) (r : StepRun) (fi : B64) (mods : List Word) : Nat → Code Unit
  | 0 => pure ()
  | left + 1 => do
    perform (.setCount .istep (r.nsteps - left))
    let down ← sampleShutdown
    onlyIf down (cancelStepping plat r.view)
    let fi' := if left = 0 then r.target else B64.add fi r.ssize
    perform (.setReg .fi fi')
    let (st, puts) := invPuts plat r.view.sel r.view.c20.cache? mods fi'
    writeMod puts
    onlyIf (st ≠ .ok) (fail st)
    onlyIf r.commit (commitStep plat r (applyPuts mods puts))
    onlyIf (left ≠ 0) (sleepMs r.wait)
    stepFrom plat r fi' (applyPuts mods puts) left

/-- `nsteps` and `ssize` take the step count and the step size. -/
def setPlan (n : Nat) (size : B64) : Code (Nat × B64) := do
  perform (.setCount .nsteps n)
  perform (.setReg .ssize size)
  return (n, size)

/-- The step count and step size of R291 steps 2 and 3; the registers written on the way stay written
where an argument is refused. -/
def planSteps (fromPhy : Bool) (c target shift : B64) : Code (Nat × B64) := do
  let total := B64.sub target c
  if B64.le (percentDiff c target) shift then setPlan 1 total
  else
    onlyIf (B64.eq shift B64.zero) (raiseOrFail fromPhy .invalidArgument)
    let first := firstStepSize c shift total
    perform (.setReg .ssize first)
    match stepCount (B64.div total first) with
    | none => raiseOrFail fromPhy .invalidArgument
    | some n => setPlan n (B64.div total (B64.ofNat n))

/-- `set_pll_clock(target, shift, wait, commit)` (42_stepping_controller.md R291 to R301): it ends the
command unless it succeeds. -/
def setPllClock (plat : Platform) (view : Core) (target shift : B64) (wait : Nat) (commit fromPhy : Bool) :
    Code Unit := do
  onlyIf (B64.le target B64.zero || B64.lt shift B64.zero) (raiseOrFail fromPhy .invalidArgument)
  let (st, c) := view.pllClock plat
  onlyIf (st ≠ .ok) (raiseOrFail fromPhy st)
  onlyIf (B64.le c B64.zero) (raiseOrFail fromPhy .invalidArgument)
  performAll [.setReg .cur c, .setReg .tgt target, .setReg .pdiff (percentDiff c target)]
  let (n, size) ← planSteps fromPhy c target shift
  performAll [.setFsm .targetComputed, .setFsm .stepping, .setReg .fi c]
  stepFrom plat ⟨view, target, size, wait, commit, n⟩ c (copyOf true view.snapshot) n
  perform (.setFreqMod (some target))
  perform (.setFsm .done)

/-- SET_PLL_CLOCK (42_stepping_controller.md R290). -/
def setPllClockCode (commit : Bool) (plat : Platform) (c : Core) : Code Status := do
  setPllClock plat c c.arg0 c.arg1 c.arg2.toNat commit false
  return .ok

/-! ### PROGRAM_PHY (42_stepping_controller.md R280 to R285) -/

/-- The effective shift (R281). -/
def effectiveShift (td s fs thr : B64) : B64 :=
  if !B64.eq fs B64.zero && B64.le thr (B64.mul (B64.abs td) (B64.ofNat 1000)) then fs else s

/-- `tms`, the timer duration in milliseconds (R282). -/
def timerMs (td eff : B64) : Nat :=
  if B64.eq eff B64.zero then 0
  else B64.clampTo .floor timerMaxMs (B64.div (B64.mul (B64.abs td) (B64.ofNat 100)) eff)

/-- `delta` (R283). -/
def nudgeDelta (td eff cur : B64) : B64 :=
  B64.mul (B64.div (B64.mul eff cur) (B64.ofNat 100))
    (if B64.lt B64.zero td then B64.neg (B64.ofNat 1) else B64.ofNat 1)

/-- PROGRAM_PHY (42_stepping_controller.md R280). -/
def programPhyCode (commit autoReset : Bool) (plat : Platform) (c : Core) : Code Status := do
  let td := c.arg0
  let s := B64.abs c.arg1
  let fs := B64.abs c.arg2
  let eff := effectiveShift td s fs (B64.ofNat c.arg3.toNat)
  let tms := timerMs td eff
  let (st, cur) := c.pllClock plat
  performAll [.setReg .s s, .setReg .fs fs, .setReg .eff eff, .setCount .tms tms, .setReg .cur cur]
  if st ≠ .ok then return st
  if B64.le cur B64.zero then return .invalidArgument
  let delta := nudgeDelta td eff cur
  let tgt := B64.add cur delta
  performAll [.setReg .delta delta, .setReg .tgt tgt, .setUsedShift (some eff), .setFsm .targetComputed]
  if !commit || tms = 0 then
    perform (.setFsm .done)
    return .ok
  setPllClock plat c tgt eff c.arg4.toNat true true
  onlyIf autoReset (perform (.arm tms))
  return .ok

end Sys2Proof.Machine
end

