-- ==== Sys2Proof/Machine/Program.lean ====
section
/-! DEFINITION. The program of a host command: the state check, the operand check, then its rule's
pseudocode (60_exceptions.md R372). -/

namespace Sys2Proof.Machine

/-- The pseudocode of a command behind its checks (60_exceptions.md R372 items 2 and 3, after decode):
state legality (42_stepping_controller.md R278), then the operands. DESIGN CHOICE, log 34: a command reads
`fsm` and the registers of its bank at its acceptance, in one action; the rules do not say when, and
70_reset_and_hazards.md R433 names no such action. Unsafe. -/
def guarded (i : Instr) (code : Platform → Core → Code Status) (plat : Platform) (view : Core) : Prog :=
  match legality i view.fsm with
  | .invalidState => .ending .invalidState
  | .busy => .ending .busy
  | .noop => .ending .ok
  | .run => if operandsOk plat i view then (code plat view).prog else .ending .invalidArgument

/-- The pseudocode of each host command, by which a suspended command is taken up again
(10_state.md R32). The internal operations and the wire words are no commands and have none. -/
def codeOf (i : Instr) : Platform → Core → Code Status :=
  match i with
  | .construct => constructCode
  | .release => releaseCode
  | .readRegisters => readRegistersCode
  | .calcPllClock m => calcPllClockCode m
  | .calcFeedbackDividers => calcFeedbackDividersCode
  | .programMmio m => programMmioCode m
  | .printRegisters => printRegistersCode
  | .getCached => getCachedCode
  | .programPhy c r => programPhyCode c r
  | .setPllClock c => setPllClockCode c
  | .getPllClock => getPllClockCode
  | .waitUntilDone => waitUntilDoneCode
  | .rollback => rollbackCode
  | .mbWaitClear => mbWaitClearCode
  | .mbReadOnce p l => mbReadOnceCode p l
  | .mbRead p l => mbReadCode p l
  | .mbWriteOnce p l k => mbWriteOnceCode p l k
  | .mbWrite p l k => mbWriteCode p l k
  | .mbRmw p l k => mbRmwCode p l k
  | .mbReset p l => mbResetCode p l
  | .sramRead p l => sramReadCode p l
  | .sramWrite p l => sramWriteCode p l
  | .timerArm | .timerCancel | .timerFire => fun _ _ => pure .ok
  | .m2pWriteUncommitted _ _ | .m2pWriteCommitted _ _ | .m2pRead _ _ | .m2pBusReset => fun _ _ => pure .ok
  | .p2mReadAck _ | .p2mWriteAck _ => fun _ _ => pure .ok

/-- The program of a command accepted with the bank as `view` shows it; a word that decodes to no command ends
ILLEGAL_COMMAND (30_encoding.md R111). -/
def commandProg (plat : Platform) (cmd : Option Instr) (view : Core) : Prog :=
  match cmd with
  | some i => guarded i (codeOf i) plat view
  | none => .ending .illegalCommand

/-- The program of the rollback path (43_rollback_scheduler.md R345): it ends without a command's status. -/
def pathProg (plat : Platform) : Prog := rollbackPathCode plat Prog.ret

end Sys2Proof.Machine
end

