-- ==== Sys2Proof/Machine/Sched.lean ====
section
/-! DEFINITION. The agents (70_reset_and_hazards.md R433): what each atomic action does, a run of a
command with the moves of the others between its actions, and the moves of the suspended agents. -/

namespace Sys2Proof.Machine

/-! ### One atomic action -/

/-- The registers of an instance; the reset values for an instance that does not exist. -/
def State.coreAt (s : State) (n : Nat) : Core := (s.core? n).getD {}

/-- `now` moves by the length of a sleep; a longer one is an event of the environment
(70_reset_and_hazards.md R431; log 24). -/
def State.sleep (s : State) (d : Time) : State := { s with now := s.now + d }.record (.sleep d)

/-- A round of the done poll (42_stepping_controller.md R310, 43_rollback_scheduler.md R346): it sleeps, then
samples `done`; with 0 it goes on where `shutdown` is to be sampled next, and otherwise the agent stays where
it is. -/
def State.awaitDone (s : State) (n : Nat) (orShutdown : Bool) : Option Resp × State :=
  let s1 := s.sleep (s.plat.donePollMs * 1000)
  if (s.coreAt n).done then (some (.flag true), s1)
  else if orShutdown then (some (.flag false), s1)
  else (none, s1)

/-- The release (42_stepping_controller.md R274): it waits in ROLLING_BACK, where R320 has no release, until
the owner of the restore has written DONE (43_rollback_scheduler.md R348, R350). DEDUCED, log 36. Safe. -/
def State.tryRelease (s : State) (n : Nat) : Option Resp × State :=
  if (s.coreAt n).fsm = .rollingBack then (none, s) else (some .unit, s.release n)

/-- Whether a caller of the test-and-clear finds `armed` = 1 (43_rollback_scheduler.md R346). The rollback
path finds it only where the timer is due: a fire whose arming is over does nothing (R345), so a path that
has lost to another caller does not take a later arming before its deadline. DEDUCED, log 35. Safe. -/
def Core.canClear (now : Time) (fired : Bool) (c : Core) : Bool := if fired then c.timerDue now else c.armed

/-- The test-and-clear of 43_rollback_scheduler.md R346. -/
def State.testAndClear (s : State) (n : Nat) (fired : Bool) : Resp × State :=
  let c := s.coreAt n
  if c.canClear s.now fired then (.owner c.sel c.snapshot, (s.modifyCore n Core.startRestore).record (.cancel n))
  else (.flag false, s)

/-- What an action that writes only registers of the agent's own bank does to them. -/
def Req.effect (r : Req) (now : Time) (c : Core) : Core :=
  match r with
  | .setRbStatus st => { c with rbStatus := st }
  | .setDone => c.setDone
  | .arm ms => c.arm now ms
  | .setFsm f => c.enter f
  | .setApplied b => { c with appliedMod := b }
  | .addOrig h => c.addOrig h
  | .addMod v => c.addMod v
  | .setC20 w => { c with c20 := c.c20.put w }
  | .setCaptured => c.setCaptured
  | .setFreqOrig f => { c with pllFreqOrig := f }
  | .setMod k v => c.setMod k v
  | .setResult v => { c with result := v }
  | .setFreqMod f => { c with pllFreqMod := f }
  | .setUsedShift x => { c with usedShift := x }
  | .setReg r v => { c with dp := c.dp.put r v }
  | .setCount r v => { c with dp := c.dp.putCount r v }
  | .setCode st => c.setCode st
  | .clearBusy => c.clearBusy
  | .dropSel => c.dropSel
  | .dropSlots => c.dropSlots
  | .dropCaptured => c.dropCaptured
  | .dropArmed => c.dropArmed
  | .read _ | .write _ _ | .time | .sleep _ | .sampleShutdown | .sampleDone | .awaitDone _ | .pollShutdown => c
  | .readRbStatus | .claim _ _ | .release | .testAndClear _ => c

/-- One atomic action of an agent of instance `n`: its answer, and the state after it; no answer where
the agent stays where it is. -/
def performReq (n : Nat) (r : Req) (s : State) : Option Resp × State :=
  match r with
  | .read off => (some (.word (s.mmioRead off)), s.record (.read off (s.mmioRead off)))
  | .write off v => (some .unit, (s.mmioWrite off v).record (.write off v))
  | .time => (some (.time s.now), s)
  | .sleep d => (some .unit, s.sleep d)
  | .sampleShutdown => (some (.flag s.shutdown), s)
  | .sampleDone => (some (.flag (s.coreAt n).done), s)
  | .awaitDone orShutdown => s.awaitDone n orShutdown
  | .pollShutdown => (if s.shutdown then some .unit else none, s)
  | .readRbStatus => (some (.status (s.coreAt n).rbStatus), s)
  | .claim sel k => (some (.flag (s.claim n sel k).1), (s.claim n sel k).2)
  | .release => s.tryRelease n
  | .testAndClear fired => (some (s.testAndClear n fired).1, (s.testAndClear n fired).2)
  | .arm ms => (some .unit, (s.modifyCore n (Req.effect (.arm ms) s.now)).record (.arm n ms))
  | .setRbStatus _ | .setDone | .setFsm _ | .setApplied _ | .addOrig _ | .addMod _ | .setC20 _ | .setCaptured =>
    (some .unit, s.modifyCore n (r.effect s.now))
  | .setMod _ _ | .setResult _ | .setFreqOrig _ | .setFreqMod _ | .setUsedShift _ | .setReg _ _ | .setCount _ _ =>
    (some .unit, s.modifyCore n (r.effect s.now))
  | .setCode _ | .clearBusy | .dropSel | .dropSlots | .dropCaptured | .dropArmed => (some .unit, s.modifyCore n (r.effect s.now))

/-! ### Agents -/

/-- An agent at work: the sequencer of an instance on a command accepted with the bank as `view` shows
it (none for a word that decodes to no command), or its rollback path (70_reset_and_hazards.md R433). -/
inductive Runner where
  | seq (n : Nat) (cmd : Option Instr) (view : Core)
  | path (n : Nat)
  deriving DecidableEq, Repr

/-- The instance an agent belongs to. -/
def Runner.inst : Runner → Nat
  | .seq n _ _ => n
  | .path n => n

/-- The agent's program has ended: the sequencer holds no command any more, or the rollback path is over. The
status went to STATUS before (60_exceptions.md R371), or to `rb_status` (43_rollback_scheduler.md R345). -/
def State.finish (s : State) (who : Runner) : State :=
  match who with
  | .seq n _ _ => s.endCommand n
  | .path n => s.modifyBank n fun b => { b with path := none }

/-- The answers after which an agent that stays takes its program up again: those it has had, or, where the
sample of `shutdown` in a done poll is 0, those before the round of the poll
(42_stepping_controller.md R310). -/
def Req.heldAt (r : Req) (hist : List Resp) : List Resp :=
  match r with
  | .pollShutdown => hist.dropLast
  | _ => hist

/-- The agent waits with the answers it has had so far. -/
def State.suspend (s : State) (who : Runner) (hist : List Resp) : State :=
  match who with
  | .seq n cmd view => s.modifyBank n fun b => { b with seq := some ⟨cmd, view, hist⟩ }
  | .path n => s.modifyBank n fun b => { b with path := some hist }

/-- The actions of an agent up to the next visible one. -/
def runInvisible (who : Runner) (hist : List Resp) : Prog → State → State
  | .ret _, s => s.finish who
  | .act r k, s =>
    if r.visible then s.suspend who hist
    else
      match performReq who.inst r s with
      | (none, s') => s'.suspend who (r.heldAt hist)
      | (some a, s') => runInvisible who (hist ++ [a]) (k a) s'

/-- One visible action of an agent, with the invisible ones on either side of it (log 5). -/
def moveAgent (who : Runner) (hist : List Resp) : Prog → State → State
  | .ret _, s => s.finish who
  | .act r k, s =>
    match performReq who.inst r s with
    | (none, s') => s'.suspend who (r.heldAt hist)
    | (some a, s') =>
      if r.visible then runInvisible who (hist ++ [a]) (k a) s'
      else moveAgent who (hist ++ [a]) (k a) s'

/-- The suspended command of an instance moves. -/
def State.moveSeq (s : State) (n : Nat) : State :=
  match (s.bank? n).bind (·.seq) with
  | some t => moveAgent (.seq n t.cmd t.view) t.hist ((commandProg s.plat t.cmd t.view).after t.hist) s
  | none => s

/-- The rollback path of an instance moves. -/
def State.movePath (s : State) (n : Nat) : State :=
  match (s.bank? n).bind (·.path) with
  | some hist => moveAgent (.path n) hist ((pathProg s.plat).after hist) s
  | none => s

/-! ### Events (60_exceptions.md R395) -/

/-- A CMD write while another agent runs (30_encoding.md R112): accepted with its command at its first
action, or, where it does not decode, at the end with ILLEGAL_COMMAND (30_encoding.md R111); dropped if the
instance is busy. -/
def State.acceptSuspended (s : State) (n : Nat) (w : Word) : State :=
  match s.core? n with
  | none => s
  | some c =>
    if c.busy then s.modifyCore n Core.setOverrun
    else
      s.modifyBank n fun b =>
        { b with core := b.core.accept w, seq := some ⟨decodeHost w, b.core.accept w, []⟩ }

/-- An internal operation of the PFSC on an instance (30_encoding.md R120). -/
def State.internalAct (s : State) (n : Nat) (i : Instr) : State :=
  match i with
  | .timerArm => s.timerArm n
  | .timerCancel => s.timerCancel n
  | .timerFire => s.timerFire n
  | _ => s

/-- The move an event stands for. -/
def State.applyEvent (s : State) (e : Event) : State :=
  match e with
  | .go => s
  | .tick d => { s with now := s.now + d }
  | .shutdown b => { s with shutdown := b }
  | .poke off v => s.pokeWord off v
  | .pokePhy p l a v => if (s.plat.laneRegs? p l).isSome then s.setPhyReg p l a v else s
  | .pokeSram p l a v => if (s.plat.laneRegs? p l).isSome then s.setSramWord p l a v else s
  | .phy p l =>
    match s.plat.laneRegs? p l with
    | some r => s.phyTake p l r
    | none => s
  | .hostArg n k v => s.modifyCore n (Core.writeArg k v)
  | .hostCmd n w => s.acceptSuspended n w
  | .internal n w =>
    match decodeInternal w with
    | some i => s.internalAct n i
    | none => s
  | .wire p l w =>
    match s.plat.laneRegs? p l, decodeWire w with
    | some r, some i => s.wireAct p l r i
    | _, _ => s
  | .fire n => s.timerFire n
  | .agentSeq n => s.moveSeq n
  | .agentPath n => s.movePath n
  | .reset => s.blockReset

/-- The scheduled moves up to the next `go`, and what is scheduled after it. -/
def interfereFrom : List Event → State → State
  | [], s => { s with sched := [] }
  | .go :: rest, s => { s with sched := rest }
  | e :: rest, s => interfereFrom rest (s.applyEvent e)

/-- What happens before one visible action of the running command (70_reset_and_hazards.md R433;
log 1). -/
def State.interfere (s : State) : State := interfereFrom s.sched s

/-! ### Running a command -/

/-- A command runs from its acceptance (42_stepping_controller.md R270): to its end, or to a done poll
that does not end, where it is left suspended, or to a block reset, which abandons it
(70_reset_and_hazards.md R411). -/
def run (who : Runner) (hist : List Resp) : Prog → State → State
  | .ret _, s => s.finish who
  | .act r k, s =>
    let s1 := if r.visible then s.interfere else s
    if s1.epoch ≠ s.epoch then s1
    else
      match performReq who.inst r s1 with
      | (none, s2) => s2.suspend who (r.heldAt hist)
      | (some a, s2) => run who (hist ++ [a]) (k a) s2

/-- A host command with the given pseudocode, on the instance it was written to. -/
def State.runCommand (s : State) (i : Instr) (code : Platform → Core → Code Status) :
    Host.Outcome State Fault Refusal :=
  match s.core? s.cur with
  | none => .fault .noSuchInstance
  | some view => .next (run (.seq s.cur (some i) view) [] (guarded i code s.plat view) s)

/-! ### When nothing is scheduled -/

/-- The rollback path's turn: the timer fires if it is due and has not fired; otherwise the path moves
(43_rollback_scheduler.md R345: required eventually). -/
def State.pathTurn (s : State) (n : Nat) : State :=
  match s.bank? n with
  | some b => if b.fires s.now then s.timerFire n else s.movePath n
  | none => s

/-- With nothing in `inputs` the agents take turns, and a millisecond passes with each round. DESIGN
CHOICE, log 6. Unsafe. -/
def State.idle (s : State) : State :=
  let k := s.turn % (2 * s.banks.length)
  let s1 := if k % 2 = 0 then s.moveSeq (k / 2) else s.pathTurn (k / 2)
  if k + 1 < 2 * s.banks.length then { s1 with turn := k + 1 }
  else { s1 with turn := 0, now := s1.now + 1000 }

end Sys2Proof.Machine
end

