-- ==== Sys2Proof/Machine/ControllerCommands.lean ====
section
/-! DEFINITION. The meanings of the stepping-controller commands (42_stepping_controller.md). -/

namespace Sys2Proof.Machine

/-- CONSTRUCT (42_stepping_controller.md R271). -/
def execConstruct (s : State) : Host.Outcome State Fault Refusal := s.runCommand .construct constructCode

/-- RELEASE (42_stepping_controller.md R274). -/
def execRelease (s : State) : Host.Outcome State Fault Refusal := s.runCommand .release releaseCode

/-- GET_CACHED (42_stepping_controller.md R276). -/
def execGetCached (s : State) : Host.Outcome State Fault Refusal := s.runCommand .getCached getCachedCode

/-- PROGRAM_PHY (42_stepping_controller.md R280). -/
def execProgramPhy (c r : Bool) (s : State) : Host.Outcome State Fault Refusal := s.runCommand (.programPhy c r) (programPhyCode c r)

/-- SET_PLL_CLOCK (42_stepping_controller.md R290). -/
def execSetPllClock (c : Bool) (s : State) : Host.Outcome State Fault Refusal := s.runCommand (.setPllClock c) (setPllClockCode c)

/-- GET_PLL_CLOCK (42_stepping_controller.md R277). -/
def execGetPllClock (s : State) : Host.Outcome State Fault Refusal := s.runCommand .getPllClock getPllClockCode

/-- WAIT_UNTIL_DONE (42_stepping_controller.md R310). Where a rollback is pending and does not end during
the first poll, the command stays suspended in `Bank.seq` and goes on in later steps. -/
def execWaitUntilDone (s : State) : Host.Outcome State Fault Refusal := s.runCommand .waitUntilDone waitUntilDoneCode

/-- ROLLBACK (42_stepping_controller.md R315). -/
def execRollback (s : State) : Host.Outcome State Fault Refusal := s.runCommand .rollback rollbackCode

end Sys2Proof.Machine
end

