-- ==== Sys2Proof/Machine/DatapathCommands.lean ====
section
/-! DEFINITION. The meanings of the divider-datapath commands (41_phy_datapath.md R201 to R205). -/

namespace Sys2Proof.Machine

/-- READ_REGISTERS (41_phy_datapath.md R201). -/
def execReadRegisters (s : State) : Host.Outcome State Fault Refusal := s.runCommand .readRegisters readRegistersCode

/-- CALC_PLL_CLOCK (41_phy_datapath.md R202). -/
def execCalcPllClock (m : Bool) (s : State) : Host.Outcome State Fault Refusal := s.runCommand (.calcPllClock m) (calcPllClockCode m)

/-- CALC_FEEDBACK_DIVIDERS (41_phy_datapath.md R203). -/
def execCalcFeedbackDividers (s : State) : Host.Outcome State Fault Refusal := s.runCommand .calcFeedbackDividers calcFeedbackDividersCode

/-- PROGRAM_MMIO (41_phy_datapath.md R204). -/
def execProgramMmio (m : Bool) (s : State) : Host.Outcome State Fault Refusal := s.runCommand (.programMmio m) (programMmioCode m)

/-- PRINT_REGISTERS (41_phy_datapath.md R205). -/
def execPrintRegisters (s : State) : Host.Outcome State Fault Refusal := s.runCommand .printRegisters printRegistersCode

end Sys2Proof.Machine
end

