-- ==== Sys2Proof/Machine/InternalOps.lean ====
section
/-! DEFINITION. The meanings of the internal timer operations (30_encoding.md R120) and of the wire words
(30_encoding.md R125). -/

namespace Sys2Proof.Machine

/-- An internal operation on the instance it is issued for. -/
def State.onInstance (s : State) (f : State → Nat → State) : Host.Outcome State Fault Refusal :=
  if s.cur < s.banks.length then .next (f s s.cur) else .fault .noSuchInstance

/-- A wire word on the lane it is put on. -/
def State.onLane (s : State) (f : Nat → Nat → LaneRegs → State) : Host.Outcome State Fault Refusal :=
  match s.plat.laneRegs? s.busPort s.busLane with
  | some r => .next (f s.busPort s.busLane r)
  | none => .fault .noSuchLane

/-- TIMER_ARM (43_rollback_scheduler.md R342; log 14). -/
def execTimerArm (s : State) : Host.Outcome State Fault Refusal := s.onInstance State.timerArm

/-- TIMER_CANCEL (43_rollback_scheduler.md R343). -/
def execTimerCancel (s : State) : Host.Outcome State Fault Refusal := s.onInstance State.timerCancel

/-- TIMER_FIRE (43_rollback_scheduler.md R345). -/
def execTimerFire (s : State) : Host.Outcome State Fault Refusal := s.onInstance State.timerFire

/-- M2P_WRITE_UNCOMMITTED: the PHY takes the word (40_message_bus.md R154). -/
def execM2pWriteUncommitted (a : BitVec 12) (d : Byte) (s : State) : Host.Outcome State Fault Refusal :=
  s.onLane fun p l r => s.takeWriteUncommitted p l r a d

/-- M2P_WRITE_COMMITTED: the PHY takes the word and acknowledges it (40_message_bus.md R154). -/
def execM2pWriteCommitted (a : BitVec 12) (d : Byte) (s : State) : Host.Outcome State Fault Refusal :=
  s.onLane fun p l r => s.takeWriteCommitted p l r a d

/-- M2P_READ: the PHY takes the word and answers with the register (40_message_bus.md R154). -/
def execM2pRead (a : BitVec 12) (d : Byte) (s : State) : Host.Outcome State Fault Refusal :=
  s.onLane fun p l r => s.takeRead p l r a d

/-- M2P_BUS_RESET: the PHY takes the reset (40_message_bus.md R154). -/
def execM2pBusReset (s : State) : Host.Outcome State Fault Refusal := s.onLane fun _ _ r => s.takeBusReset r

/-- P2M_READ_ACK: the response is posted on P2M_STS (30_encoding.md R125, 10_state.md R53). -/
def execP2mReadAck (d : Byte) (s : State) : Host.Outcome State Fault Refusal :=
  s.onLane fun _ _ r => s.postResponse r 4 d

/-- P2M_WRITE_ACK: the response is posted on P2M_STS (30_encoding.md R125, 10_state.md R53). -/
def execP2mWriteAck (d : Byte) (s : State) : Host.Outcome State Fault Refusal :=
  s.onLane fun _ _ r => s.postResponse r 5 d

end Sys2Proof.Machine
end

