-- ==== Sys2Proof/Machine/TransceiverCommands.lean ====
section
/-! DEFINITION. The meanings of the message-bus and SRAM commands (40_message_bus.md section 2). -/

namespace Sys2Proof.Machine

/-- MB_WAIT_CLEAR (40_message_bus.md R151). -/
def execMbWaitClear (s : State) : Host.Outcome State Fault Refusal := s.runCommand .mbWaitClear mbWaitClearCode

/-- MB_READ_ONCE (40_message_bus.md R163). -/
def execMbReadOnce (port : Nat) (lanes : BitVec 2) (s : State) : Host.Outcome State Fault Refusal := s.runCommand (.mbReadOnce port lanes) (mbReadOnceCode port lanes)

/-- MB_READ (40_message_bus.md R165). -/
def execMbRead (port : Nat) (lanes : BitVec 2) (s : State) : Host.Outcome State Fault Refusal := s.runCommand (.mbRead port lanes) (mbReadCode port lanes)

/-- MB_WRITE_ONCE (40_message_bus.md R167). -/
def execMbWriteOnce (port : Nat) (lanes : BitVec 2) (k : Bool) (s : State) : Host.Outcome State Fault Refusal := s.runCommand (.mbWriteOnce port lanes k) (mbWriteOnceCode port lanes k)

/-- MB_WRITE (40_message_bus.md R169). -/
def execMbWrite (port : Nat) (lanes : BitVec 2) (k : Bool) (s : State) : Host.Outcome State Fault Refusal := s.runCommand (.mbWrite port lanes k) (mbWriteCode port lanes k)

/-- MB_RMW (40_message_bus.md R171). -/
def execMbRmw (port : Nat) (lanes : BitVec 2) (k : Bool) (s : State) : Host.Outcome State Fault Refusal := s.runCommand (.mbRmw port lanes k) (mbRmwCode port lanes k)

/-- MB_RESET (40_message_bus.md R173). -/
def execMbReset (port : Nat) (lanes : BitVec 2) (s : State) : Host.Outcome State Fault Refusal := s.runCommand (.mbReset port lanes) (mbResetCode port lanes)

/-- SRAM_READ (40_message_bus.md R176). -/
def execSramRead (port : Nat) (lanes : BitVec 2) (s : State) : Host.Outcome State Fault Refusal := s.runCommand (.sramRead port lanes) (sramReadCode port lanes)

/-- SRAM_WRITE (40_message_bus.md R177). -/
def execSramWrite (port : Nat) (lanes : BitVec 2) (s : State) : Host.Outcome State Fault Refusal := s.runCommand (.sramWrite port lanes) (sramWriteCode port lanes)

end Sys2Proof.Machine
end

