-- ==== Sys2Proof/Machine/Dispatch.lean ====
section
/-! DEFINITION. The dispatch from an instruction to its meaning. -/

namespace Sys2Proof.Machine

def exec (i : Instr) (s : State) : Host.Outcome State Fault Refusal :=
  match i with
  | .construct => Sys2Proof.Machine.execConstruct s
  | .release => Sys2Proof.Machine.execRelease s
  | .readRegisters => Sys2Proof.Machine.execReadRegisters s
  | .calcPllClock m => Sys2Proof.Machine.execCalcPllClock m s
  | .calcFeedbackDividers => Sys2Proof.Machine.execCalcFeedbackDividers s
  | .programMmio m => Sys2Proof.Machine.execProgramMmio m s
  | .printRegisters => Sys2Proof.Machine.execPrintRegisters s
  | .getCached => Sys2Proof.Machine.execGetCached s
  | .programPhy c r => Sys2Proof.Machine.execProgramPhy c r s
  | .setPllClock c => Sys2Proof.Machine.execSetPllClock c s
  | .getPllClock => Sys2Proof.Machine.execGetPllClock s
  | .waitUntilDone => Sys2Proof.Machine.execWaitUntilDone s
  | .rollback => Sys2Proof.Machine.execRollback s
  | .mbWaitClear => Sys2Proof.Machine.execMbWaitClear s
  | .mbReadOnce port lanes => Sys2Proof.Machine.execMbReadOnce port lanes s
  | .mbRead port lanes => Sys2Proof.Machine.execMbRead port lanes s
  | .mbWriteOnce port lanes k => Sys2Proof.Machine.execMbWriteOnce port lanes k s
  | .mbWrite port lanes k => Sys2Proof.Machine.execMbWrite port lanes k s
  | .mbRmw port lanes k => Sys2Proof.Machine.execMbRmw port lanes k s
  | .mbReset port lanes => Sys2Proof.Machine.execMbReset port lanes s
  | .sramRead port lanes => Sys2Proof.Machine.execSramRead port lanes s
  | .sramWrite port lanes => Sys2Proof.Machine.execSramWrite port lanes s
  | .timerArm => Sys2Proof.Machine.execTimerArm s
  | .timerCancel => Sys2Proof.Machine.execTimerCancel s
  | .timerFire => Sys2Proof.Machine.execTimerFire s
  | .m2pWriteUncommitted addr data => Sys2Proof.Machine.execM2pWriteUncommitted addr data s
  | .m2pWriteCommitted addr data => Sys2Proof.Machine.execM2pWriteCommitted addr data s
  | .m2pRead addr data => Sys2Proof.Machine.execM2pRead addr data s
  | .m2pBusReset => Sys2Proof.Machine.execM2pBusReset s
  | .p2mReadAck data => Sys2Proof.Machine.execP2mReadAck data s
  | .p2mWriteAck data => Sys2Proof.Machine.execP2mWriteAck data s

end Sys2Proof.Machine
end

