-- ==== Sys2Proof/Machine/Fetch.lean ====
section
/-! DEFINITION. What a step does next: the PFSC fetches no instruction from memory (20_memory.md R93),
so the next command is the oldest event of `inputs` (log 3). -/

namespace Sys2Proof.Machine

/-- What the fetch finds: the machine stops, the step is done, or an instruction is to be run. -/
inductive Fetched where
  | fault (f : Fault)
  | refused (r : Refusal)
  | moved (s : State)
  | instr (i : Instr) (s : State)
  deriving DecidableEq, Repr

/-- A CMD write (30_encoding.md R111, R112): dropped while busy, else accepted; a word that does not
decode ends `ILLEGAL_COMMAND`, any other is run. -/
def State.fetchHost (s : State) (n : Nat) (w : Word) : Fetched :=
  match s.core? n with
  | none => .fault .noSuchInstance
  | some c =>
    if c.busy then .moved (s.modifyCore n Core.setOverrun)
    else
      let s1 := { s.modifyCore n (Core.accept w) with cur := n }
      match decodeHost w with
      | none => .moved (run (.seq n none (c.accept w)) [] (.ending .illegalCommand) s1)
      | some i => .instr i s1

/-- One event of `inputs`. -/
def State.fetchEvent (s : State) (e : Event) : Fetched :=
  match e with
  | .hostCmd n w => s.fetchHost n w
  | .internal n w =>
    match decodeInternal w with
    | some i => .instr i { s with cur := n }
    | none => .moved s
  | .wire p l w =>
    match decodeWire w with
    | some i => .instr i { s with busPort := p, busLane := l }
    | none => .moved s
  | .go | .tick _ | .shutdown _ | .poke _ _ | .pokePhy _ _ _ _ | .pokeSram _ _ _ _ | .phy _ _
  | .hostArg _ _ _ | .fire _ | .agentSeq _ | .agentPath _ | .reset => .moved (s.applyEvent e)

/-- The next instruction or move. A configuration that 70_reset_and_hazards.md R412 does not admit
leaves the block in reset. -/
def State.fetch (s : State) : Fetched :=
  if s.plat.valid then
    match s.inputs with
    | [] => .moved s.idle
    | e :: rest => { s with inputs := rest }.fetchEvent e
  else .refused .badConfiguration

/-- The event by which a word of spec/opcode_table.json is issued: on instance `n`, or on a lane. -/
def issueEvent (n p l : Nat) (w : Word) : Event :=
  match channelOf w with
  | .host => .hostCmd n w
  | .internal => .internal n w
  | .wire => .wire p l w

/-- The state with a word issued next, to an instance that runs no command. -/
def State.issue (s : State) (w : Word) : State :=
  { s.modifyBank s.cur fun b => { b with core := { b.core with busy := false }, seq := none } with
    inputs := issueEvent s.cur s.busPort s.busLane w :: s.inputs }

end Sys2Proof.Machine
end

