-- ==== Sys2Proof/Machine/Step.lean ====
section
/-! DEFINITION. One step of the machine, and the word it is to run next. -/

namespace Sys2Proof.Machine

/-- One step: the next instruction or event of `inputs`, or a move of an agent. -/
def step (s : State) : Host.Outcome State Fault Refusal :=
  match s.fetch with
  | .fault f => .fault f
  | .refused r => .refused r
  | .moved s' => .next s'
  | .instr i s' => exec i s'

/-- The state whose next step runs the instruction word `w`; every instruction is one word, so `nbits`
is not needed (log 3). -/
def State.withFetchWord (s : State) (_nbits w : Nat) : State := s.issue (BitVec.ofNat 32 w)

end Sys2Proof.Machine
end

