-- ==== Sys2Proof/Safety.lean ====
section
/-! DEFINITION. The terms in which statements about the machine are made: canonical stores, the owners of
the PLLs, the life of an instance, a lane with a conforming PHY, the effects of a command. -/

namespace Sys2Proof.Machine

/-! ### Tables of the spec -/

/-- The opcodes of 30_encoding.md R119, each with the CMD bits its command uses beside OP
(spec/opcode_table.json, 30_encoding.md R110). -/
def hostRows : List (Nat × Word) :=
  [(0x01, 0), (0x02, 0), (0x03, 0), (0x04, 0x00040000), (0x05, 0), (0x06, 0x00040000), (0x07, 0), (0x08, 0)]
  ++ [(0x10, 0x00030000), (0x11, 0x00010000), (0x12, 0), (0x13, 0), (0x14, 0), (0x20, 0)]
  ++ [(0x21, 0x0FF00000), (0x22, 0x0FF00000), (0x23, 0x0FF80000), (0x24, 0x0FF80000), (0x25, 0x0FF80000)]
  ++ [(0x26, 0x0FF00000), (0x27, 0x0FF00000), (0x28, 0x0FF00000)]

/-- The columns of the table of 42_stepping_controller.md R278, in its order. -/
def legalityColumns : List Fsm := [.unbound, .idle, .captured, .done, .armedForRollback, .rollingBack]

/-- The row of a host command in the table of 42_stepping_controller.md R278: `run` is none, and where
the command does not run, the status it ends with. -/
def legalityRow : Instr → List (Option Status)
  | .construct => [none, some .invalidState, some .invalidState, some .invalidState, some .invalidState, some .invalidState]
  | .release => [some .invalidState, none, none, none, none, some .busy]
  | .readRegisters => [some .invalidState, none, some .ok, some .ok, some .ok, some .ok]
  | .calcPllClock _ | .printRegisters | .getPllClock | .rollback =>
    [some .invalidState, some .invalidState, none, none, none, none]
  | .calcFeedbackDividers | .programMmio _ | .programPhy _ _ | .setPllClock _ =>
    [some .invalidState, some .invalidState, none, none, some .busy, some .busy]
  | .getCached | .waitUntilDone => [some .invalidState, none, none, none, none, none]
  | .mbWaitClear | .mbReadOnce _ _ | .mbRead _ _ | .mbWriteOnce _ _ _ | .mbWrite _ _ _ | .mbRmw _ _ _
  | .mbReset _ _ | .sramRead _ _ | .sramWrite _ _ => [none, none, none, none, some .busy, some .busy]
  | .timerArm | .timerCancel | .timerFire | .m2pWriteUncommitted _ _ | .m2pWriteCommitted _ _ | .m2pRead _ _
  | .m2pBusReset | .p2mReadAck _ | .p2mWriteAck _ => []

/-- What the table of 42_stepping_controller.md R278 says of a command in a state: nothing where it has no
entry, else the entry. -/
def legalityEntry (i : Instr) (f : Fsm) : Option (Option Status) :=
  ((legalityColumns.zip (legalityRow i)).find? fun x => x.1 == f).map (·.2)

/-- A `b64` operand that is a NaN or an infinity: its exponent field is all ones (30_encoding.md R113). -/
def notFinite (x : BitVec 64) : Prop := (x.toNat / 2 ^ 52) % 2 ^ 11 = 0x7FF

/-- An operand fails a check of 30_encoding.md R111 or R113, or of the table of R115. -/
def badOperand (p : Platform) (i : Instr) (c : Core) : Prop :=
  match i with
  | .calcFeedbackDividers => notFinite c.arg0
  | .getCached => 2 ^ 2 ≤ c.arg0.toNat
  | .programPhy _ _ => notFinite c.arg0 ∨ notFinite c.arg1 ∨ notFinite c.arg2
  | .setPllClock _ => notFinite c.arg0 ∨ notFinite c.arg1
  | .mbWaitClear => 2 ^ 32 ≤ c.arg0.toNat ∨ 2 ^ 32 ≤ c.arg1.toNat ∨ c.arg0.toNat % 4 ≠ 0
  | .mbReadOnce n l | .mbRead n l => p.busPorts.length ≤ n ∨ l = 0#2 ∨ 2 ^ 12 ≤ c.arg0.toNat
  | .mbWriteOnce n l _ | .mbWrite n l _ =>
    p.busPorts.length ≤ n ∨ l = 0#2 ∨ 2 ^ 12 ≤ c.arg0.toNat ∨ 2 ^ 8 ≤ c.arg1.toNat
  | .mbRmw n l _ => p.busPorts.length ≤ n ∨ l = 0#2 ∨ 2 ^ 12 ≤ c.arg0.toNat ∨ 2 ^ 8 ≤ c.arg1.toNat ∨
      2 ^ 8 ≤ c.arg2.toNat
  | .mbReset n l => p.busPorts.length ≤ n ∨ l = 0#2
  | .sramRead n l => p.busPorts.length ≤ n ∨ l = 0#2 ∨ 2 ^ 16 ≤ c.arg0.toNat
  | .sramWrite n l => p.busPorts.length ≤ n ∨ l = 0#2 ∨ 2 ^ 16 ≤ c.arg0.toNat ∨ 2 ^ 16 ≤ c.arg1.toNat
  | .construct | .release | .readRegisters | .calcPllClock _ | .programMmio _ | .printRegisters => False
  | .getPllClock | .waitUntilDone | .rollback | .timerArm | .timerCancel | .timerFire => False
  | .m2pWriteUncommitted _ _ | .m2pWriteCommitted _ _ | .m2pRead _ _ | .m2pBusReset => False
  | .p2mReadAck _ | .p2mWriteAck _ => False

/-- The 22 host commands (30_encoding.md R119). -/
def isHost (i : Instr) : Bool := (legalityRow i).length == 6

/-- A configuration that breaks a check of 70_reset_and_hazards.md R412. -/
def breaksCheck (p : Platform) : Prop :=
  (∃ (n : Nat) (r : PortRegs), p.busPorts[n]? = some r ∧
    ∃ o ∈ ([r.lane0.ctl, r.lane0.sts, r.lane1.ctl, r.lane1.sts] : List Word), o.toNat % 4 ≠ 0) ∨
  (∃ s ∈ p.selectors, s.clkselReg.toNat % 4 ≠ 0 ∨ (∃ k ∈ s.discoverElse :: s.discover.map (·.2), p.numPll ≤ k) ∨
    match s.layout with
    | .combo l => l.cfg0.toNat % 4 ≠ 0 ∨ l.cfg1.toNat % 4 ≠ 0
    | .dpmn l => l.m.toNat % 4 ≠ 0 ∨ l.n.toNat % 4 ≠ 0
    | .dkl l => l.div0.toNat % 4 ≠ 0 ∨ l.bias.toNat % 4 ≠ 0 ∨ ∃ a ∈ l.aux, a.reg.toNat % 4 ≠ 0 ∨
        (a.reg = l.div0 ∧ a.mask &&& (fieldMask l.predivLo 4 ||| fieldMask l.intLo 8) ≠ 0) ∨
        (a.reg = l.bias ∧ a.mask &&& fieldMask l.fracLo 22 ≠ 0)
    | .c10 l => l.lanes = 0#2
    | .c20 l => l.lanes = 0#2) ∨
  (2 ≤ p.numInstances ∧ ∃ (i j : Nat) (a b : Selector) (x y : Nat × BitVec 2), i < j ∧ p.selectors[i]? = some a ∧ p.selectors[j]? = some b ∧
    a.layout.lanes? = some x ∧ b.layout.lanes? = some y ∧ x.1 = y.1 ∧ x.2 &&& y.2 ≠ 0#2 ∧
    ∃ k ∈ a.indices, ∃ k' ∈ b.indices, k ≠ k')

/-! ### Invariants -/

/-- The three stores are in canonical form. -/
def State.StoresWf (s : State) : Prop := s.mmio.wf = true ∧ s.phy.wf = true ∧ s.sram.wf = true

/-- An instance holds a PLL index: it is bound (10_state.md R33, R52). -/
def State.holds (s : State) (n k : Nat) : Prop :=
  ∃ c, s.core? n = some c ∧ c.fsm ≠ .unbound ∧ c.pllIndex = some k

/-- 10_state.md R52: an entry of the table is 1 exactly while exactly one instance holds the index, and
no two bound instances have the same index. -/
def State.SingleOwner (s : State) : Prop :=
  (∀ k, s.enabled[k]? = some true ↔ ∃ n, s.holds n k ∧ ∀ m, s.holds m k → m = n) ∧
  ∀ n m k, s.holds n k → s.holds m k → n = m

/-- The states of `fsm` in which the snapshot is held (42_stepping_controller.md R270, R320). -/
def Fsm.isCaptured (f : Fsm) : Bool := f != .unbound && f != .idle

/-- How the registers of a bank belong together, at every atomic action: bound or not (10_state.md R33), and while
the PLL is held, no state is a captured one before `captured` = 1, which comes after the snapshot (10_state.md R35,
R36, 41_phy_datapath.md R201; RELEASE takes these away once the PLL is free, 42_stepping_controller.md R274); the
timer (43_rollback_scheduler.md R341, 10_state.md R43); `done` is 0 from the
arming on, and only until the restore ends (10_state.md R39, 43_rollback_scheduler.md R348). -/
structure Core.Lifecycle (c : Core) : Prop where
  unboundEmpty : c.fsm = .unbound → c.pllIndex = none ∧ c.sel = none ∧ c.captured = false ∧ c.slots = none
  selector : c.pllIndex.isSome = true → c.sel.isSome = true
  capturedState : c.pllIndex.isSome = true → c.fsm.isCaptured = true → c.captured = true
  snapshot : c.pllIndex.isSome = true → c.captured = true → c.slots.isSome = true
  timer : c.armed = (c.fsm == .armedForRollback)
  deadlineHeld : c.deadline.isSome = c.armed
  armedPending : c.fsm = .armedForRollback → c.done = false
  pendingOwned : c.done = false → c.fsm = .armedForRollback ∨ c.fsm = .rollingBack

/-- The transitions of the table of 42_stepping_controller.md R320, the one from STEPPING to ARMED_FOR_ROLLBACK
made by way of DONE as the pseudocode of R280 and R291 makes it (log 38); a write of the state it has already is none. -/
def listedTransition : Fsm → Fsm → Bool
  | .unbound, .idle | .idle, .captured | .captured, .targetComputed | .done, .targetComputed => true
  | .targetComputed, .done | .targetComputed, .stepping | .stepping, .done | .done, .armedForRollback => true
  | .armedForRollback, .rollingBack | .rollingBack, .done | .captured, .done => true
  | .idle, .unbound | .captured, .unbound | .done, .unbound | .armedForRollback, .unbound => true
  | f, g => f == g

/-- Every bank's registers belong together. -/
def State.Lifecycle (s : State) : Prop := ∀ n c, s.core? n = some c → c.Lifecycle

/-- No internal timer operation is scheduled as a raw event: only the PFSC issues them
(30_encoding.md R120). -/
def State.noRawTimer (s : State) : Prop := ∀ e ∈ s.inputs ++ s.sched, ∀ n w, e ≠ .internal n w

/-- The banks and the ownership table have the sizes the configuration gives (10_state.md R30, R50). -/
def State.Sized (s : State) : Prop :=
  s.banks.length = s.plat.numInstances ∧ s.enabled.length = s.plat.numPll

/-- A record of a memory access (00_scope.md R13). -/
def Record.isAccess : Record → Bool
  | .read _ _ | .write _ _ => true
  | _ => false

/-- A sleep, or an access of one of a lane's two registers. -/
def Record.isOnLane (r : LaneRegs) : Record → Bool
  | .read off _ | .write off _ => off == r.ctl || off == r.sts
  | .sleep _ => true
  | .arm _ _ | .cancel _ | .fire _ => false

/-- How often a record stands in the trace. -/
def State.count (s : State) (r : Record) : Nat := s.trace.countP fun x => x == r

/-- An arming of a timer, whatever its length. -/
def Record.isArm (n : Nat) : Record → Bool
  | .arm m _ => m == n
  | _ => false

/-- Every arming of an instance's timer is ended by at most one test-and-clear
(43_rollback_scheduler.md R349): those there were, with the one still to come, are no more than the
armings. -/
def State.RestoresBalanced (s : State) : Prop :=
  ∀ n c, s.core? n = some c →
    s.count (.cancel n) + (if c.armed then 1 else 0) ≤ s.trace.countP (Record.isArm n)

/-- The values of 70_reset_and_hazards.md R410 on a configuration, with nothing in progress. -/
def State.afterReset (s : State) (p : Platform) : Prop :=
  s.banks.length = p.numInstances ∧ s.enabled.length = p.numPll ∧ (∀ k : Nat, s.enabled[k]? ≠ some true) ∧
  ∀ (n : Nat) (b : Bank), s.banks[n]? = some b →
    b.seq = none ∧ b.path = none ∧ b.core.fsm = .unbound ∧ b.core.sel = none ∧ b.core.pllIndex = none ∧
    b.core.slots = none ∧ b.core.captured = false ∧ b.core.appliedMod = false ∧ b.core.done = true ∧
    b.core.pllFreqOrig = none ∧ b.core.pllFreqMod = none ∧ b.core.usedShift = none ∧
    b.core.filling = none ∧ b.core.c20 = ⟨none, none, none, none, none, none, none, none⟩ ∧
    b.core.dp = ⟨none, none, none, none, none, none, none, none, none, none, none, none⟩ ∧
    b.core.armed = false ∧ b.core.deadline = none ∧ b.core.cmd = 0 ∧ b.core.arg0 = 0 ∧ b.core.arg1 = 0 ∧
    b.core.arg2 = 0 ∧ b.core.arg3 = 0 ∧ b.core.arg4 = 0 ∧ b.core.result = 0 ∧ b.core.rbStatus = .ok ∧
    b.core.code = .ok ∧ b.core.busy = false ∧ b.core.overrun = false ∧ b.core.statusWord = 0x00000800

/-! ### The end of a command -/

/-- Instance `n`, whose bank is `b`, has ended its command with a status, its registers otherwise `c`;
nothing else is different. -/
def State.ended (s : State) (n : Nat) (b : Bank) (c : Core) (st : Status) : State :=
  { s with banks := s.banks.set n { b with core := { c with code := st, busy := false }, seq := none } }

/-- The trace with more records, the newest first. -/
def State.traced (s : State) (rs : List Record) : State := { s with trace := rs ++ s.trace }

/-- Nothing else moves while a command runs. -/
def State.quiet (s : State) : Prop := s.sched = []

/-! ### MMIO words -/

/-- An offset that is no message-bus register, so that a write to it only stores the word. -/
def plainOffset (p : Platform) (off : Word) : Bool := !isStsOffset p off && (laneOfCtl? p off).isNone

/-- The address is one of the four bytes of the word at an offset. -/
def inWord (off : Word) (a : Nat) : Prop := ∃ k, k < 4 ∧ a = byteAddr off k

/-! ### A lane -/

/-- Lane `l` of port `p` exists, its PHY is conforming and answers at once (40_message_bus.md R154), its
M2P_CTL holds no pending transaction, the MMIO store is canonical and the configuration admissible. -/
def State.laneReady (s : State) (p l : Nat) (r : LaneRegs) : Prop :=
  s.plat.valid = true ∧ s.mmio.wf = true ∧ s.phyAuto = true ∧ s.plat.laneRegs? p l = some r ∧
    wireTop (s.mmioRead r.ctl) = false

/-- An address of an MMIO byte that belongs to a lane's two registers. -/
def onLaneRegs (r : LaneRegs) (a : Nat) : Prop := inWord r.ctl a ∨ inWord r.sts a

/-- Every lane of a list is ready. -/
def State.lanesReady (s : State) (p : Nat) (lanes : List Nat) : Prop :=
  s.mmio.wf = true ∧ s.phyAuto = true ∧ ∀ l ∈ lanes, ∃ r, s.laneReady p l r

/-- The address belongs to the registers of one of the lanes. -/
def State.onLanes (s : State) (p : Nat) (lanes : List Nat) (a : Nat) : Prop :=
  ∃ l ∈ lanes, ∃ r, s.plat.laneRegs? p l = some r ∧ onLaneRegs r a

/-- `m` is a canonical MMIO store that differs from the state's in the registers of these lanes at most. -/
def State.touched (s : State) (p : Nat) (lanes : List Nat) (m : Memory) : Prop :=
  m.wf = true ∧ ∀ a, ¬ s.onLanes p lanes a → m.read a = s.mmio.read a

/-- The state with another MMIO store and with more records in the trace: what is left of bus
transactions once their effect on the PHY is set aside. -/
def State.after (s : State) (m : Memory) (rs : List Record) : State := { s with mmio := m, trace := rs ++ s.trace }

/-! ### What bus operations do to the PHY of a lane -/

/-- The four writes of an SRAM_WRITE (40_message_bus.md R177). -/
def State.sramStore (s : State) (p l : Nat) (a v : BitVec 16) : State :=
  let w := s.plat.c20Window
  (((s.phyWrite p l w.wrAddrH (hiByte a) false).phyWrite p l w.wrAddrL (loByte a) false).phyWrite p l w.wrDataH
    (hiByte v) false).phyWrite p l w.wrDataL (loByte v) true

/-- The two writes that open an SRAM_READ (40_message_bus.md R176). -/
def State.sramSelect (s : State) (p l : Nat) (a : BitVec 16) : State :=
  let w := s.plat.c20Window
  (s.phyWrite p l w.rdAddrH (hiByte a) false).phyWrite p l w.rdAddrL (loByte a) true

/-- What the two reads that end an SRAM_READ give (40_message_bus.md R176). -/
def State.sramData (s : State) (p l : Nat) : BitVec 16 :=
  joinBytes (s.phyRead p l s.plat.c20Window.rdDataH) (s.phyRead p l s.plat.c20Window.rdDataL)

/-- A word on P2M_STS that is no good answer to a transaction that expects `expected`: READY with ERROR, or
with another type (40_message_bus.md R153, R157). -/
def badAck (expected : Nat) (v : Word) : Prop :=
  wireTop v = true ∧ (wireBit15 v = true ∨ wireType v ≠ expected)

/-- The moves of a PHY that changes its status word, once for each word of the list, just before an attempt
reads it: an attempt makes `lead` accesses before that read, and with it and the three of the bus reset four
more (40_message_bus.md R156, R162, R166). -/
def badAnswers (sts : Word) (lead : Nat) (vs : List Word) : List Event :=
  vs.flatMap fun v => List.replicate lead .go ++ .poke sts v :: List.replicate 4 .go

/-- The registers of the SRAM window have eight different addresses (40_message_bus.md R174). -/
def windowDistinct (w : C20Window) : Prop :=
  [w.wrAddrH, w.wrAddrL, w.wrDataH, w.wrDataL, w.rdAddrH, w.rdAddrL, w.rdDataH, w.rdDataL].Nodup

/-- SRAM words read one after the other, and the state the reads leave in the PHY. -/
def State.sramReads (s : State) (p l : Nat) : List (BitVec 16) → List Word × State
  | [] => ([], s)
  | a :: rest =>
    let t := s.sramSelect p l a
    let x := t.sramReads p l rest
    ((t.sramData p l).setWidth 32 :: x.1, x.2)

/-! ### What programming a copy does -/

/-- The lanes `write_v` of a selector writes (41_phy_datapath.md R207); none for the MMIO variants. -/
def busLanes (sel : Selector) : Nat × List Nat :=
  match sel.layout with
  | .c10 l => (l.port, setLanes l.lanes)
  | .c20 l => (l.port, setLanes l.lanes)
  | .combo _ | .dkl _ | .dpmn _ => (0, [])

/-- The variant is programmed by MMIO writes (20_memory.md R83). -/
def onMmio (sel : Selector) : Bool :=
  match sel.layout with
  | .combo _ | .dkl _ | .dpmn _ => true
  | .c10 _ | .c20 _ => false

/-- The slots `write_v` writes, as address and word: all of them, but of DP M/N the first
(10_state.md R34). -/
def slotWrites (sel : Selector) (slots : List Slot) (copy : List Word) : List (Nat × Word) :=
  match sel.layout with
  | .dpmn _ => (List.zipWith (fun (x : Slot) v => (x.addr, v)) slots copy).take 1
  | .combo _ | .dkl _ | .c10 _ | .c20 _ => List.zipWith (fun (x : Slot) v => (x.addr, v)) slots copy

/-- The hardware after `write_v` of a copy (41_phy_datapath.md R214, R224, R234, R244, R254): each MMIO
word stored, or, lane by lane, each PHY register or SRAM word written. -/
def State.programmed (s : State) (sel : Selector) (ws : List (Nat × Word)) : State :=
  match sel.layout with
  | .combo _ | .dkl _ | .dpmn _ =>
    { s with mmio := ws.foldl (fun m w => m.putWord (BitVec.ofNat 32 w.1) w.2) s.mmio }
  | .c10 l => (setLanes l.lanes).foldl (fun t lane =>
      ws.foldl (fun t w => t.phyWrite l.port lane (BitVec.ofNat 12 w.1) (w.2.setWidth 8) true) t) s
  | .c20 l => (setLanes l.lanes).foldl (fun t lane =>
      ws.foldl (fun t w => t.sramStore l.port lane (BitVec.ofNat 16 w.1) (w.2.setWidth 16)) t) s

/-- The PHY of the first lane `l` a bus selector uses never moves by itself, and the configuration is
admissible: a programming of the selector fails at its first bus write (40_message_bus.md R157). -/
def State.silentLane (s : State) (sel : Selector) (l : Nat) (r : LaneRegs) : Prop :=
  s.plat.valid = true ∧ s.mmio.wf = true ∧ s.phyAuto = false ∧ onMmio sel = false ∧
    (busLanes sel).2.head? = some l ∧ s.plat.laneRegs? (busLanes sel).1 l = some r

/-- Between the first and the `k`-th move of its rollback path an instance is in ROLLING_BACK with no timer
armed (43_rollback_scheduler.md R350). -/
def State.rollsBack (s : State) (n k : Nat) : Prop :=
  ∀ i, 0 < i → i < k → ∃ b, ((fun t : State => t.movePath n)^[i] s).banks[n]? = some b ∧
    b.core.fsm = .rollingBack ∧ b.core.armed = false ∧ b.core.deadline = none ∧ b.path ≠ none

/-- The hardware a selector programs holds these words at their addresses, on every lane of a bus variant. -/
def State.holdsWords (s : State) (sel : Selector) (ws : List (Nat × Word)) : Prop :=
  match sel.layout with
  | .combo _ | .dkl _ | .dpmn _ => ∀ w ∈ ws, s.mmioRead (BitVec.ofNat 32 w.1) = w.2
  | .c10 l => ∀ lane ∈ setLanes l.lanes, ∀ w ∈ ws, s.phyReg l.port lane (BitVec.ofNat 12 w.1) = w.2.setWidth 8
  | .c20 l => ∀ lane ∈ setLanes l.lanes, ∀ w ∈ ws, s.sramWord l.port lane (BitVec.ofNat 16 w.1) = w.2.setWidth 16

/-- No uncommitted write is left over on the lanes of a C10, and the window of a C20 has eight different
addresses. -/
def State.settled (s : State) (sel : Selector) : Prop :=
  match sel.layout with
  | .combo _ | .dkl _ | .dpmn _ => True
  | .c10 l => ∀ lane ∈ setLanes l.lanes, ∀ a, (l.port, lane, a) ∉ s.uncommitted
  | .c20 _ => windowDistinct s.plat.c20Window

/-- The states are the same, or, for a C20, the same in the SRAM: the window's registers have taken part. -/
def State.sameHardware (s : State) (sel : Selector) (t : State) : Prop :=
  match sel.layout with
  | .combo _ | .dkl _ | .dpmn _ | .c10 _ => t = s
  | .c20 _ => t.sram = s.sram

/-- Run by an agent from `s`, the code ends with the answer `a` in `t`, whatever comes after it; `hist` and `hist'`
are the answers the agent has had before and after. -/
def Code.endsIn {α : Type} (c : Code α) (who : Runner) (hist : List Resp) (s : State) (a : α) (hist' : List Resp)
    (t : State) : Prop :=
  ∀ k : α → Prog, run who hist (c k) s = run who hist' (k a) t

/-- The accesses of `write_v` of an MMIO variant, oldest first. -/
def mmioRecords (ws : List (Nat × Word)) : List Record := ws.map fun w => .write (BitVec.ofNat 32 w.1) w.2

/-- A selector's hardware takes `write_v` of a snapshot: the MMIO slots are no message-bus registers, or
the lanes are ready. -/
def State.writable (s : State) (sel : Selector) (slots : List Slot) : Prop :=
  if onMmio sel then ∀ x ∈ slots, plainOffset s.plat (BitVec.ofNat 32 x.addr) = true
  else s.lanesReady (busLanes sel).1 (busLanes sel).2

/-- The state `t` is `u` after the accesses of one or more `write_v`: for an MMIO variant exactly the
records given, oldest first; for a bus variant the lanes' registers and the trace may differ. -/
def State.wrote (u : State) (sel : Selector) (rs : List Record) (t : State) : Prop :=
  if onMmio sel then t = u.after u.mmio rs.reverse
  else ∃ m tr, u.touched (busLanes sel).1 (busLanes sel).2 m ∧ t = u.after m tr

/-! ### What commands leave alone -/

/-- The commands that return a value in RESULT (10_state.md R46). -/
def returnsValue : Instr → Bool
  | .calcPllClock _ | .getCached | .getPllClock | .mbReadOnce _ _ | .mbRead _ _ | .sramRead _ _ => true
  | _ => false

/-- The commands that make no access and no sleep (41_phy_datapath.md R202, R203, R205;
42_stepping_controller.md R276, R277). -/
def touchesNothing : Instr → Bool
  | .calcPllClock _ | .calcFeedbackDividers | .printRegisters | .getCached | .getPllClock => true
  | _ => false

/-- The bits of slot `k` an inverse may write (41_phy_datapath.md R213, R223, R233, R243, R253). -/
def inverseBits (x : Selector) (c20 : Option C20Cache) (k : Nat) : Word :=
  match x.layout with
  | .combo l => if k = 0 then fieldMask l.intLo 10 ||| fieldMask l.fracLo 15 else 0
  | .dkl l => (if k = 0 then fieldMask l.intLo 8 else 0) ||| (if k = 1 then fieldMask l.fracLo 22 else 0) |||
      l.aux.foldl (fun m a => if l.regs[k]? = some a.reg then m ||| a.mask else m) 0
  | .c10 l => if k = l.fields.qLo ∨ k = l.fields.qHi then 0xFFFFFFFF else 0
  | .c20 l =>
    match c20 with
    | some c =>
      let b := match c.ctx with
        | .mplla => l.mplla
        | .mpllb => l.mpllb
      if k = b.q ∨ k = b.r then 0xFFFFFFFF else 0
    | none => 0
  | .dpmn l => if k = 0 then l.mMask else 0

/-- The slot width W of a variant (10_state.md R34). -/
def slotWidth (x : Selector) : Nat :=
  match x.layout with
  | .combo _ | .dkl _ | .dpmn _ => 32
  | .c10 _ => 8
  | .c20 _ => 16

/-! ### The stepping (42_stepping_controller.md R291) -/

/-- The percent difference of R291 step 1; where it is infinite or a NaN it is the model's choice (log 37). -/
def stepPercent (c target : B64) : B64 :=
  B64.round4 (B64.mul (B64.div (B64.abs (B64.sub target c)) c) (B64.ofNat 100))

/-- The number of steps and the step size of R291 steps 2 and 3 from frequency `c`: one step where the
percent difference is within the shift, else as many as the shift asks for. -/
def stepPlan (c target shift : B64) (n : Nat) (size : B64) : Prop :=
  (B64.le (stepPercent c target) shift = true ∧ n = 1 ∧ size = B64.sub target c) ∨
  (B64.le (stepPercent c target) shift = false ∧ B64.eq shift B64.zero = false ∧ n < 2 ^ 32 ∧
    B64.isFinite (B64.div (B64.sub target c) (B64.mul (B64.div (B64.mul c shift) (B64.ofNat 100))
      (if B64.lt B64.zero (B64.sub target c) then B64.ofNat 1 else B64.neg (B64.ofNat 1)))) = true ∧
    B64.toInt .ceil (B64.abs (B64.div (B64.sub target c) (B64.mul (B64.div (B64.mul c shift) (B64.ofNat 100))
      (if B64.lt B64.zero (B64.sub target c) then B64.ofNat 1 else B64.neg (B64.ofNat 1))))) = (n : Int) ∧
    size = B64.div (B64.sub target c) (B64.ofNat n))

/-- The first step size of R291 step 3: the shift, in percent of `c`, in the direction of the target. -/
def stepFirst (c target shift : B64) : B64 :=
  B64.mul (B64.div (B64.mul c shift) (B64.ofNat 100))
    (if B64.lt B64.zero (B64.sub target c) then B64.ofNat 1 else B64.neg (B64.ofNat 1))

/-- The number of steps `ceil(fabs(q))` exceeds P_STEP_MAX = 2^32 - 1 (R291 step 3). DESIGN CHOICE, log 37: where `q`
is infinite it does, for R11 gives no `ceil` of an infinity. Unsafe. -/
def tooManySteps (q : B64) : Prop :=
  B64.isNaN q = false ∧ (B64.isInf q = true ∨ (2 ^ 32 : Int) ≤ B64.toInt .ceil (B64.abs q))

/-- The intermediate frequencies of R291 step 4 after `f`: each is the one before plus the step size, the
last is the target (R294). -/
def stepTargets (target size : B64) : B64 → Nat → List B64
  | _, 0 => []
  | _, 1 => [target]
  | f, n + 2 => B64.add f size :: stepTargets target size (B64.add f size) (n + 1)

/-- The `mod` copies the inverse gives for frequencies one after the other, if it never fails. -/
def stepCopies (p : Platform) (sel : Option Selector) (c20 : Option C20Cache) :
    List Word → List B64 → Option (List (List Word))
  | _, [] => some []
  | mods, t :: ts =>
    match invV p sel c20 mods t with
    | (.ok, mods') => (stepCopies p sel c20 mods' ts).map fun rest => mods' :: rest
    | _ => none

/-- The accesses and sleeps of a committed stepping of an MMIO variant, oldest first: a sleep between two
steps, none after the last. -/
def stepRecords (us : Time) : List (List (Nat × Word)) → List Record
  | [] => []
  | [ws] => mmioRecords ws
  | ws :: ws' :: rest => mmioRecords ws ++ .sleep us :: stepRecords us (ws' :: rest)

/-- A stepping as its command starts it: whether it programs the hardware, the frequency at entry, the target, the
shift, the inter-step wait in ms, the registers the command has written before it, and the number of atomic steps
(70_reset_and_hazards.md R433) it has made before it. -/
structure Stepping where
  commit : Bool
  cur : B64
  target : B64
  shift : B64
  wait : Nat
  dp : Datapath
  usedShift : Option B64
  lead : Nat

/-- The stepping of SET_PLL_CLOCK from a frequency (42_stepping_controller.md R290). -/
def Core.setStepping (c : Core) (commit : Bool) (cur : B64) : Stepping :=
  ⟨commit, cur, c.arg0, c.arg1, c.arg2.toNat, c.dp, c.usedShift, 0⟩

/-- The stepping of PROGRAM_PHY with COMMIT from a frequency, for an effective shift and a timer duration
(42_stepping_controller.md R280, R283). -/
def Core.nudgeStepping (c : Core) (cur eff : B64) (tms : Nat) : Stepping :=
  let delta := B64.mul (B64.div (B64.mul eff cur) (B64.ofNat 100))
    (if B64.lt B64.zero c.arg0 then B64.neg (B64.ofNat 1) else B64.ofNat 1)
  ⟨true, cur, B64.add cur delta, eff, c.arg4.toNat,
    { c.dp with
      s := some (B64.abs c.arg1), fs := some (B64.abs c.arg2), eff := some eff, tms := some (BitVec.ofNat 32 tms)
      cur := some cur, delta := some delta, tgt := some (B64.add cur delta) },
    some eff, 9⟩

/-- The command, SET_PLL_CLOCK or a PROGRAM_PHY with COMMIT whose timer duration is not 0, passes its argument checks
and makes this stepping (42_stepping_controller.md R280 to R284, R290, R291). -/
def Core.steps (c : Core) (p : Platform) (i : Instr) (y : Stepping) : Prop :=
  (c.fsm = .captured ∨ c.fsm = .done) ∧ ¬ notFinite c.arg0 ∧ ¬ notFinite c.arg1 ∧
  c.pllClock p = (.ok, y.cur) ∧ B64.le y.cur B64.zero = false ∧ B64.le y.target B64.zero = false ∧
  ((∃ commit, i = .setPllClock commit ∧ B64.lt c.arg1 B64.zero = false ∧ y = c.setStepping commit y.cur) ∨
    ∃ (reset : Bool) (eff : B64) (tms : Nat), i = .programPhy true reset ∧ ¬ notFinite c.arg2 ∧
      (eff = if B64.eq (B64.abs c.arg2) B64.zero = false ∧
          B64.le (B64.ofNat c.arg3.toNat) (B64.mul (B64.abs c.arg0) (B64.ofNat 1000)) = true
        then B64.abs c.arg2 else B64.abs c.arg1) ∧ B64.eq eff B64.zero = false ∧
      tms = B64.clampTo .floor (2 ^ 32 - 1) (B64.div (B64.mul (B64.abs c.arg0) (B64.ofNat 100)) eff) ∧ 0 < tms ∧
      y = c.nudgeStepping y.cur eff tms)

/-- The datapath registers in step `j` of a stepping of `n` steps of a size, at intermediate frequency `f`. -/
def Stepping.regs (y : Stepping) (n : Nat) (size : B64) (j : Nat) (f : B64) : Datapath :=
  { y.dp with
    cur := some y.cur, tgt := some y.target, pdiff := some (stepPercent y.cur y.target), ssize := some size
    nsteps := some (BitVec.ofNat 32 n), istep := some (BitVec.ofNat 32 j), fi := some f }

/-- The slots with `mod` copies in order. -/
def withMods (ss : List Slot) (mods : List Word) : List Slot := List.zipWith (fun (y : Slot) v => { y with mod := v }) ss mods

/-- The state after time has passed. -/
def State.later (s : State) (us : Time) : State := { s with now := s.now + us }

end Sys2Proof.Machine
end

