-- ==== Sys2Proof/Certificates/Slice0/Obligations.lean ====
section
/-! DEFINITION. The statements about the machine, for the provers. -/

open Sys2Proof Sys2Proof.Machine

/-! ### Encoding -/

/-- Decoding the word of a well-formed instruction gives the instruction back, with every operand at every
value its field admits (30_encoding.md R110, R119, R120, R122, R123, R125). -/
def Obligations.DecodeEncode : Prop :=
  ∀ i : Instr, i.wellFormed = true → decodeTableWord 32 (encode i).toNat = some i

/-- A CMD word or an M2P word that decodes is the word of the instruction it decodes to: no two words mean
the same, and no bit of one is ignored (30_encoding.md R110, R111, R122). -/
def Obligations.EncodeDecode : Prop :=
  ∀ (w : Word) (i : Instr), decodeHost w = some i ∨ decodeM2p w = some i → i.wellFormed = true ∧ encode i = w

/-- The command words of 30_encoding.md R128. -/
def Obligations.CommandWords : Prop :=
  decodeHost 0x00030010 = some (.programPhy true true) ∧ decodeHost 0x00010010 = some (.programPhy true false) ∧
  decodeHost 0x00010011 = some (.setPllClock true) ∧ decodeHost 0x00000006 = some (.programMmio false) ∧
  decodeHost 0x00040006 = some (.programMmio true) ∧ decodeHost 0x00580024 = some (.mbWrite 1 0b01 true) ∧
  decodeHost 0x00300022 = some (.mbRead 0 0b11) ∧ decodeHost 0x00A00028 = some (.sramWrite 2 0b10) ∧
  decodeHost 0x00000014 = some .rollback ∧ decodeHost 0x00010006 = none

/-- The wire words of 30_encoding.md R124. -/
def Obligations.WireWords : Prop :=
  m2pWord 3 0xC0B 0 = 0x98000C0B ∧ decodeM2p 0x98000C0B = some (.m2pRead 0xC0B 0) ∧
  m2pWord 2 0xC0B 0x5A = 0x905A0C0B ∧ decodeM2p 0x905A0C0B = some (.m2pWriteCommitted 0xC0B 0x5A) ∧
  decodeM2p 0x885A0C0B = some (.m2pWriteUncommitted 0xC0B 0x5A) ∧ decodeM2p 0x00008000 = some .m2pBusReset ∧
  decodeP2m 0xA0A50000 = some (.p2mReadAck 0xA5) ∧ wireTop 0xA0A50000 = true ∧ wireType 0xA0A50000 = 4 ∧
  wireData 0xA0A50000 = 0xA5 ∧ wireBit15 0xA0A50000 = false ∧
  (∃ d, decodeP2m 0xA8000000 = some (.p2mWriteAck d)) ∧ wireBit15 0xA0008000 = true ∧
  ∀ (w : Word) (expected : Nat), wireBit15 w = true → decodeP2m w = none ∧ ackStatus expected w = .busProtocolError

/-- A CMD word is illegal exactly if its opcode is reserved or a bit outside its command's fields is set
(30_encoding.md R111, R119). -/
def Obligations.IllegalWords : Prop :=
  ∀ w : Word, decodeHost w = none ↔
    ∀ row ∈ hostRows, ¬ ((w &&& 0xFF#32).toNat = row.1 ∧ w &&& ~~~(0xFF#32 ||| row.2) = 0#32)

/-- An illegal CMD word written to an instance that is not busy ends ILLEGAL_COMMAND and does nothing else
but what acceptance does, where nothing else moves (30_encoding.md R111, R112, R119). That CMD keeps the word is
log 22. -/
def Obligations.IllegalCommandEnds : Prop :=
  ∀ (s : State) (n : Nat) (w : Word) (rest : List Event) (b : Bank), s.plat.valid = true → s.quiet →
    s.inputs = .hostCmd n w :: rest → s.banks[n]? = some b → b.core.busy = false →
    (∀ row ∈ hostRows, ¬ ((w &&& 0xFF#32).toNat = row.1 ∧ w &&& ~~~(0xFF#32 ||| row.2) = 0#32)) →
    step s = .next { s with
      inputs := rest
      cur := n
      banks := s.banks.set n
        { b with core := { b.core with cmd := w, code := .illegalCommand, busy := false, overrun := false }, seq := none } }

/-! ### Steps -/

/-- A step runs the decoded instruction: a CMD write is accepted (30_encoding.md R112) and its command run on
its instance; an internal operation is run on its instance and a wire word on its lane, which is the model's
choice: that they are instructions, issued as events (logs 3, 15, 16), and that `cur`, `busPort` and `busLane`
name the instance and the lane (log 18). -/
def Obligations.StepRunsDecoded : Prop :=
  (∀ (s : State) (n : Nat) (w : Word) (rest : List Event) (b : Bank) (i : Instr), s.plat.valid = true →
    s.inputs = .hostCmd n w :: rest → s.banks[n]? = some b → b.core.busy = false → decodeHost w = some i →
    step s = exec i { s with
      inputs := rest
      cur := n
      banks := s.banks.set n { b with core := { b.core with cmd := w, busy := true, overrun := false } } }) ∧
  (∀ (s : State) (n : Nat) (w : Word) (rest : List Event) (i : Instr), s.plat.valid = true →
    s.inputs = .internal n w :: rest → decodeInternal w = some i →
    step s = exec i { s with inputs := rest, cur := n }) ∧
  (∀ (s : State) (p l : Nat) (w : Word) (rest : List Event) (i : Instr), s.plat.valid = true →
    s.inputs = .wire p l w :: rest → decodeWire w = some i →
    step s = exec i { s with inputs := rest, busPort := p, busLane := l })

/-- A CMD write to a busy instance is dropped and sets `overrun` (30_encoding.md R112); a write of an
operand register stores it (10_state.md R45). -/
def Obligations.PortWrites : Prop :=
  (∀ (s : State) (n : Nat) (w : Word) (rest : List Event) (b : Bank), s.plat.valid = true →
    s.inputs = .hostCmd n w :: rest → s.banks[n]? = some b → b.core.busy = true →
    step s = .next { s with
      inputs := rest, banks := s.banks.set n { b with core := { b.core with overrun := true } } }) ∧
  (∀ (s : State) (n : Nat) (v : BitVec 64) (rest : List Event) (b : Bank), s.plat.valid = true →
    s.banks[n]? = some b →
    (s.inputs = .hostArg n 0 v :: rest →
      step s = .next { s with inputs := rest, banks := s.banks.set n { b with core := { b.core with arg0 := v } } }) ∧
    (s.inputs = .hostArg n 1 v :: rest →
      step s = .next { s with inputs := rest, banks := s.banks.set n { b with core := { b.core with arg1 := v } } }) ∧
    (s.inputs = .hostArg n 2 v :: rest →
      step s = .next { s with inputs := rest, banks := s.banks.set n { b with core := { b.core with arg2 := v } } }) ∧
    (s.inputs = .hostArg n 3 v :: rest →
      step s = .next { s with inputs := rest, banks := s.banks.set n { b with core := { b.core with arg3 := v } } }) ∧
    (s.inputs = .hostArg n 4 v :: rest →
      step s = .next { s with inputs := rest, banks := s.banks.set n { b with core := { b.core with arg4 := v } } }))

/-- A configuration that breaks a check of 70_reset_and_hazards.md R412 is refused. When two selectors may
be bound at the same time is read from R412 and R436 (log 26). -/
def Obligations.BadConfigurationRefused : Prop :=
  ∀ s : State, breaksCheck s.plat → step s = .refused .badConfiguration

/-- Host commands and internal operations of an instance that does not exist, and wire words of a lane that
does not exist, fault (10_state.md R30, 00_scope.md R7; log 21). -/
def Obligations.NothingThereFaults : Prop :=
  (∀ (s : State) (i : Instr), s.banks.length ≤ s.cur →
    (isHost i = true ∨ i = .timerArm ∨ i = .timerCancel ∨ i = .timerFire) → exec i s = .fault .noSuchInstance) ∧
  (∀ (s : State) (a : BitVec 12) (d : Byte), (s.plat.busPorts.length ≤ s.busPort ∨ 2 ≤ s.busLane) →
    ∀ i ∈ [Instr.m2pWriteUncommitted a d, .m2pWriteCommitted a d, .m2pRead a d, .m2pBusReset, .p2mReadAck d,
      .p2mWriteAck d], exec i s = .fault .noSuchLane)

/-! ### Reset and invariants -/

/-- Reset sets every state element to its value and performs no access (70_reset_and_hazards.md R410): the
state after reset on any configuration, and a reset event in any state. -/
def Obligations.ResetValues : Prop :=
  (∀ p : Platform, (State.resetOn p).afterReset p) ∧
  ∀ (s : State) (rest : List Event), s.plat.valid = true → s.inputs = .reset :: rest →
    ∃ t, step s = .next t ∧ t.afterReset s.plat ∧ t.shutdown = s.shutdown ∧ t.mmio = s.mmio ∧ t.phy = s.phy ∧
      t.sram = s.sram ∧ t.uncommitted = s.uncommitted ∧ t.trace = s.trace ∧ t.now = s.now

/-- The state after reset meets every invariant stated below, on any configuration. -/
def Obligations.ResetMeetsInvariants : Prop :=
  ∀ p : Platform, (State.resetOn p).StoresWf ∧ (State.resetOn p).SingleOwner ∧ (State.resetOn p).Lifecycle ∧
    (State.resetOn p).noRawTimer ∧ (State.resetOn p).Sized ∧ (State.resetOn p).RestoresBalanced

/-- Every step keeps the three stores in canonical form: the MMIO space, the PHY space, the SRAM space
(20_memory.md R80 to R82; the form is the model's, log 2). -/
def Obligations.StoresKept : Prop :=
  ∀ s t : State, s.StoresWf → step s = .next t → t.StoresWf

/-- Every step keeps the single-owner invariant (10_state.md R52), whatever the other agents and the
environment do meanwhile, given how the registers of a bank belong together; it holds after reset. -/
def Obligations.SingleOwnerKept : Prop :=
  (∀ p : Platform, (State.resetOn p).SingleOwner ∧ (State.resetOn p).Lifecycle ∧ (State.resetOn p).noRawTimer) ∧
  ∀ s t : State, s.SingleOwner → s.Lifecycle → s.noRawTimer → step s = .next t →
    t.SingleOwner ∧ t.Lifecycle ∧ t.noRawTimer

/-- Every step keeps how the registers of a bank belong together at every atomic action: nothing is bound in UNBOUND
(10_state.md R33), and while the PLL is held the selector, the snapshot, `captured` and the captured states agree
(R35, R36); `armed`, `deadline` and ARMED_FOR_ROLLBACK (R43, 43_rollback_scheduler.md R341), `done` (R39). And no
atomic action of an agent makes a
transition of `fsm` that the table of 42_stepping_controller.md R320 does not have, but for one: the table has
STEPPING to ARMED_FOR_ROLLBACK, which the pseudocode of R280 and R291 makes by way of DONE, so that DONE to
ARMED_FOR_ROLLBACK stands in its place here (log 38). The release waits in ROLLING_BACK (log 36). -/
def Obligations.LifecycleKept : Prop :=
  (∀ s t : State, s.Lifecycle → s.noRawTimer → step s = .next t → t.Lifecycle ∧ t.noRawTimer) ∧
  (∀ (n : Nat) (r : Req) (s : State) (m : Nat) (c c' : Core), s.Lifecycle → s.core? m = some c →
    (performReq n r s).2.core? m = some c' → listedTransition c.fsm c'.fsm = true) ∧
  ∀ (n : Nat) (s : State) (c : Core), s.core? n = some c → c.fsm = .rollingBack →
    performReq n .release s = (none, s)

/-- Every step keeps: the timers cleared by a won test-and-clear (or by TIMER_CANCEL), with one that is still
armed, are no more than the armings of the instance: for each arming at most one caller of `rollback_now` sees
`was` = 1 (43_rollback_scheduler.md R349). It counts the clears, not the writes of the restores. -/
def Obligations.RestoresKept : Prop :=
  ∀ s t : State, s.Sized → s.RestoresBalanced → step s = .next t → t.Sized ∧ t.RestoresBalanced

/-- Every step keeps the configuration and the sizes it gives (60_exceptions.md R397, 10_state.md R30, R50),
and time does not go back (00_scope.md R14). -/
def Obligations.ConfigurationKept : Prop :=
  ∀ s t : State, step s = .next t → t.plat = s.plat ∧ (s.Sized → t.Sized) ∧ s.now ≤ t.now ∧ s.epoch ≤ t.epoch

/-- No atomic action of an agent writes an `orig` of a captured instance: the snapshot's addresses and
originals stand until RELEASE, which has released the PLL before, takes the slots away (10_state.md R36,
41_phy_datapath.md R263, 42_stepping_controller.md R274). -/
def Obligations.OrigNeverWritten : Prop :=
  ∀ (n : Nat) (r : Req) (s : State) (m : Nat) (c : Core) (ss : List Slot), s.core? m = some c →
    c.captured = true → c.slots = some ss →
    ∃ c', (performReq n r s).2.core? m = some c' ∧ (c'.captured = true →
      (r = .dropSlots ∧ m = n ∧ c.pllIndex = none ∧ c'.slots = none) ∨
      ∃ ss', c'.slots = some ss' ∧ ss'.map (fun x => (x.addr, x.orig)) = ss.map (fun x => (x.addr, x.orig)))

/-! ### The status register and the checks of a command -/

/-- The fields of STATUS as the host reads it (10_state.md R45), with the numeric values of the status codes
(60_exceptions.md R370) and of `fsm` (10_state.md R31). -/
def Obligations.StatusWord : Prop :=
  (∀ c : Core, (c.statusWord &&& 0xFF#32).toNat = c.code.code.toNat ∧ c.statusWord.getLsbD 8 = c.busy ∧
    c.statusWord.getLsbD 9 = c.overrun ∧ c.statusWord.getLsbD 10 = c.captured ∧ c.statusWord.getLsbD 11 = c.done ∧
    (c.statusWord.extractLsb' 12 3).toNat = c.fsm.code.toNat ∧ c.statusWord &&& 0xFFFF8000#32 = 0#32) ∧
  (∀ (c : Core) (k : Nat), (c.statusWord &&& 0xFF#32).toNat = k ↔
    [Status.ok, .invalidArgument, .busTimeout, .busProtocolError, .resourceConflict, .hwReadAnomaly, .cancelled,
      .busy, .invalidState, .illegalCommand, .dividerError][k]? = some c.code) ∧
  ∀ (c : Core) (k : Nat), (c.statusWord.extractLsb' 12 3).toNat = k ↔
    [Fsm.unbound, .idle, .captured, .targetComputed, .stepping, .armedForRollback, .rollingBack, .done][k]? =
      some c.fsm

/-- A command that the table of 42_stepping_controller.md R278 does not run ends with the status the table
gives, and has no other effect: `IS`, `BZ`, `noop`. -/
def Obligations.LegalityTable : Prop :=
  ∀ (s : State) (b : Bank) (i : Instr) (st : Status), s.banks[s.cur]? = some b → s.quiet →
    legalityEntry i b.core.fsm = some (some st) → exec i s = .next (s.ended s.cur b b.core st)

/-- A command the table runs, with an operand outside its form, ends INVALID_ARGUMENT and has no other effect
(30_encoding.md R111, R113; 40_message_bus.md R151; 60_exceptions.md R372). -/
def Obligations.OperandChecks : Prop :=
  ∀ (s : State) (b : Bank) (i : Instr), s.banks[s.cur]? = some b → s.quiet →
    legalityEntry i b.core.fsm = some none → badOperand s.plat i b.core → exec i s = .next (s.ended s.cur b b.core .invalidArgument)

/-- The argument checks of the commands' own rules. Before any access and any state write: CONSTRUCT's
selector (42_stepping_controller.md R271), GET_CACHED's number (R276), CALC_FEEDBACK_DIVIDERS's target
(41_phy_datapath.md R203), SET_PLL_CLOCK's target, shift and present frequency (42_stepping_controller.md
R291, R292). Before any access, with the datapath registers written so far: SET_PLL_CLOCK's zero shift that
needs steps and its step count above P_STEP_MAX (R291); from PROGRAM_PHY a target that is not positive and a
step count above P_STEP_MAX end the command in DONE (R291, 60_exceptions.md R375). That an infinite step count is
above P_STEP_MAX, and what `pdiff` is where its product is infinite or a NaN, is the model's choice (log 37). -/
def Obligations.ArgumentChecks : Prop :=
  ∀ (s : State) (b : Bank), s.banks[s.cur]? = some b → s.quiet →
    (b.core.fsm = .unbound → (b.core.arg0 = 0 ∨ ∀ x ∈ s.plat.selectors, x.id ≠ b.core.arg0.toNat) →
      exec .construct s = .next (s.ended s.cur b b.core .invalidArgument)) ∧
    (legalityEntry .getCached b.core.fsm = some none → b.core.arg0 = 3 →
      exec .getCached s = .next (s.ended s.cur b b.core .invalidArgument)) ∧
    (b.core.fsm = .captured ∨ b.core.fsm = .done → B64.le b.core.arg0 B64.zero = true →
      exec .calcFeedbackDividers s = .next (s.ended s.cur b b.core .invalidArgument)) ∧
    ∀ commit : Bool, b.core.fsm = .captured ∨ b.core.fsm = .done → ¬ notFinite b.core.arg0 → ¬ notFinite b.core.arg1 →
      (B64.le b.core.arg0 B64.zero = true ∨ B64.lt b.core.arg1 B64.zero = true ∨
        ((b.core.pllClock s.plat).1 = .ok ∧ B64.le (b.core.pllClock s.plat).2 B64.zero = true) →
        exec (.setPllClock commit) s = .next (s.ended s.cur b b.core .invalidArgument)) ∧
      (B64.le b.core.arg0 B64.zero = false → B64.lt b.core.arg1 B64.zero = false →
        (b.core.pllClock s.plat).1 ≠ .ok →
        exec (.setPllClock commit) s = .next (s.ended s.cur b b.core (b.core.pllClock s.plat).1)) ∧
      (∀ (target shift cur first : B64) (dp : Datapath), target = b.core.arg0 → shift = b.core.arg1 →
        B64.le target B64.zero = false → B64.lt shift B64.zero = false → b.core.pllClock s.plat = (.ok, cur) →
        B64.le cur B64.zero = false → B64.le (stepPercent cur target) shift = false →
        dp = { b.core.dp with cur := some cur, tgt := some target, pdiff := some (stepPercent cur target) } →
        (B64.eq shift B64.zero = true →
          exec (.setPllClock commit) s = .next (s.ended s.cur b { b.core with dp := dp } .invalidArgument)) ∧
        (B64.eq shift B64.zero = false → first = stepFirst cur target shift →
          tooManySteps (B64.div (B64.sub target cur) first) →
          exec (.setPllClock commit) s = .next (s.ended s.cur b
            { b.core with dp := { dp with ssize := some first } } .invalidArgument))) ∧
      (∀ (td sh fs eff cur target first : B64) (tms : Nat) (dp : Datapath), ¬ notFinite b.core.arg2 →
        td = b.core.arg0 → sh = B64.abs b.core.arg1 → fs = B64.abs b.core.arg2 →
        (eff = if B64.eq fs B64.zero = false ∧
            B64.le (B64.ofNat b.core.arg3.toNat) (B64.mul (B64.abs td) (B64.ofNat 1000)) = true then fs else sh) →
        B64.eq eff B64.zero = false →
        tms = B64.clampTo .floor (2 ^ 32 - 1) (B64.div (B64.mul (B64.abs td) (B64.ofNat 100)) eff) → 0 < tms →
        b.core.pllClock s.plat = (.ok, cur) → B64.le cur B64.zero = false →
        target = B64.add cur (nudgeDelta td eff cur) →
        dp = { b.core.dp with
          s := some sh, fs := some fs, eff := some eff, tms := some (BitVec.ofNat 32 tms), cur := some cur
          delta := some (nudgeDelta td eff cur), tgt := some target } →
        (B64.le target B64.zero = true → exec (.programPhy true commit) s = .next (s.ended s.cur b
          { b.core with dp := dp, usedShift := some eff, fsm := .done } .invalidArgument)) ∧
        (B64.le target B64.zero = false → B64.le (stepPercent cur target) eff = false →
          first = stepFirst cur target eff → tooManySteps (B64.div (B64.sub target cur) first) →
          exec (.programPhy true commit) s = .next (s.ended s.cur b
            { b.core with
              dp := { dp with pdiff := some (stepPercent cur target), ssize := some first }
              usedShift := some eff, fsm := .done } .invalidArgument)))

/-- What no host command changes, where nothing else moves: the configuration, the inputs of the block, the
other instances, the command port but STATUS, the rollback path; RESULT unless the command returns a value;
the binding and the ownership table unless it is CONSTRUCT or RELEASE; and for a command without accesses, the
three stores, the time and the record of accesses (10_state.md R46, R49, R51). -/
def Obligations.CommandFrame : Prop :=
  ∀ (s t : State) (b : Bank) (i : Instr), s.banks[s.cur]? = some b → s.quiet → isHost i = true → exec i s = .next t →
    t.plat = s.plat ∧ t.shutdown = s.shutdown ∧ t.inputs = s.inputs ∧ t.quiet ∧ t.cur = s.cur ∧
    (∀ m : Nat, m ≠ s.cur → t.banks[m]? = s.banks[m]?) ∧
    (touchesNothing i = true → t.mmio = s.mmio ∧ t.phy = s.phy ∧ t.sram = s.sram ∧ t.uncommitted = s.uncommitted ∧
      t.trace = s.trace ∧ t.now = s.now) ∧
    (i ≠ .construct → i ≠ .release → t.enabled = s.enabled) ∧
    ∃ b', t.banks[s.cur]? = some b' ∧ b'.path = b.path ∧ b'.core.cmd = b.core.cmd ∧ b'.core.arg0 = b.core.arg0 ∧
      b'.core.arg1 = b.core.arg1 ∧ b'.core.arg2 = b.core.arg2 ∧ b'.core.arg3 = b.core.arg3 ∧
      b'.core.arg4 = b.core.arg4 ∧ b'.core.overrun = b.core.overrun ∧
      (returnsValue i = false → b'.core.result = b.core.result) ∧
      (i ≠ .construct → i ≠ .release → b'.core.sel = b.core.sel ∧ b'.core.pllIndex = b.core.pllIndex)

/-! ### Lifecycle -/

/-- CONSTRUCT reads the clock-select register, and if the PLL index it discovers is free, claims it and binds
the instance (42_stepping_controller.md R271, R273); if it is held, it ends RESOURCE_CONFLICT and the bank and
the table are unchanged (R272). -/
def Obligations.ConstructClaims : Prop :=
  ∀ (s : State) (b : Bank) (x : Selector) (k : Nat), s.banks[s.cur]? = some b → s.quiet → s.plat.valid = true →
    b.core.fsm = .unbound → x ∈ s.plat.selectors → x.id = b.core.arg0.toNat →
    k = (x.discover.lookup (s.mmioRead x.clkselReg)).getD x.discoverElse →
    (s.enabled[k]? = some false → exec .construct s = .next
      ({ s.traced [.read x.clkselReg (s.mmioRead x.clkselReg)] with enabled := s.enabled.set k true }.ended s.cur b
        { b.core with
          sel := some x, pllIndex := some k, slots := none, filling := none, c20 := {}, pllFreqOrig := none
          pllFreqMod := none, usedShift := none, captured := false, appliedMod := false, armed := false, done := true, rbStatus := .ok
          fsm := .idle } .ok)) ∧
    (s.enabled[k]? = some true → exec .construct s = .next
      ((s.traced [.read x.clkselReg (s.mmioRead x.clkselReg)]).ended s.cur b b.core .resourceConflict))

/-- RELEASE of an instance with no rollback pending: no access; the PLL is free, the instance unbound and
without values (42_stepping_controller.md R274; the deadline and the C20 fields are log 23). -/
def Obligations.ReleaseUnbinds : Prop :=
  ∀ (s : State) (b : Bank) (k : Nat), s.banks[s.cur]? = some b → s.quiet →
    b.core.fsm = .idle ∨ b.core.fsm = .captured ∨ b.core.fsm = .done → b.core.pllIndex = some k →
    exec .release s = .next ({ s with enabled := s.enabled.set k false }.ended s.cur b
      { b.core with
        sel := none, pllIndex := none, slots := none, filling := none, c20 := {}, pllFreqOrig := none
        pllFreqMod := none, usedShift := none, captured := false, appliedMod := false, armed := false, deadline := none, done := true
        fsm := .unbound } .ok)

/-- GET_CACHED gives the cached value its operand names (42_stepping_controller.md R276, 30_encoding.md R114);
a value that is absent is INVALID_STATE. -/
def Obligations.CachedValues : Prop :=
  ∀ (s : State) (b : Bank), s.banks[s.cur]? = some b → s.quiet → legalityEntry .getCached b.core.fsm = some none →
    ∀ y : Option B64, (b.core.arg0 = 0 ∧ y = b.core.pllFreqOrig) ∨ (b.core.arg0 = 1 ∧ y = b.core.pllFreqMod) ∨
        (b.core.arg0 = 2 ∧ y = b.core.usedShift) →
      (∀ f, y = some f → exec .getCached s = .next (s.ended s.cur b { b.core with result := f } .ok)) ∧
      (y = none → exec .getCached s = .next (s.ended s.cur b b.core .invalidState))

/-- PRINT_REGISTERS has no effect (41_phy_datapath.md R205); WAIT_UNTIL_DONE with no rollback pending ends at
once (42_stepping_controller.md R310). -/
def Obligations.ImmediateCommands : Prop :=
  ∀ (s : State) (b : Bank), s.banks[s.cur]? = some b → s.quiet →
    (legalityEntry .printRegisters b.core.fsm = some none →
      exec .printRegisters s = .next (s.ended s.cur b b.core .ok)) ∧
    (legalityEntry .waitUntilDone b.core.fsm = some none → b.core.done = true →
      exec .waitUntilDone s = .next (s.ended s.cur b b.core .ok))

/-! ### Capture -/

/-- READ_REGISTERS of a Combo and of a DP M/N instance: both registers are read in order, `orig` and `mod`
take the values, and the frequency is that of the values (41_phy_datapath.md R201, R211, R212, R251, R252). -/
def Obligations.CaptureMmio : Prop :=
  ∀ (s : State) (b : Bank) (x : Selector), s.banks[s.cur]? = some b → s.quiet → b.core.fsm = .idle →
    b.core.captured = false → b.core.slots = none → b.core.sel = some x →
    (∀ (l : ComboLayout) (v0 v1 : Word), x.layout = .combo l → v0 = s.mmioRead l.cfg0 → v1 = s.mmioRead l.cfg1 →
      exec .readRegisters s = .next ((s.traced [.read l.cfg1 v1, .read l.cfg0 v0]).ended s.cur b
        { b.core with
          slots := some [⟨l.cfg0.toNat, v0, v0, true⟩, ⟨l.cfg1.toNat, v1, v1, false⟩]
          filling := none, captured := true, appliedMod := false, fsm := .captured
          pllFreqOrig := some (B64.ofNat (fieldGet v0 l.intLo 10 * s.plat.refclkComboKhz +
            (fieldGet v0 l.fracLo 15 * 2 * s.plat.refclkComboKhz) / 32768)) } .ok)) ∧
    (∀ (l : DpmnLayout) (v0 v1 : Word), x.layout = .dpmn l → v0 = s.mmioRead l.m → v1 = s.mmioRead l.n →
      exec .readRegisters s = .next ((s.traced [.read l.n v1, .read l.m v0]).ended s.cur b
        { b.core with
          slots := some [⟨l.m.toNat, v0, v0, true⟩, ⟨l.n.toNat, v1, v1, false⟩]
          filling := none, captured := true, appliedMod := false, fsm := .captured
          pllFreqOrig := some (B64.ofNat ((v0 &&& l.mMask).toNat / 2 ^ maskShift l.mMask)) } .ok))

/-- READ_REGISTERS of a DKL instance: every slot is read in order; if a value is all ones the command ends
HW_READ_ANOMALY and nothing is captured, else `orig` and `mod` take the values (41_phy_datapath.md R201, R220
to R222). -/
def Obligations.CaptureDkl : Prop :=
  ∀ (s : State) (b : Bank) (x : Selector) (l : DklLayout), s.banks[s.cur]? = some b → s.quiet → b.core.fsm = .idle →
    b.core.captured = false → b.core.slots = none → b.core.sel = some x → x.layout = .dkl l →
    ((∃ a ∈ l.regs, s.mmioRead a = 0xFFFFFFFF) → exec .readRegisters s = .next
      ((s.traced (l.regs.map fun a => .read a (s.mmioRead a)).reverse).ended s.cur b b.core .hwReadAnomaly)) ∧
    ((∀ a ∈ l.regs, s.mmioRead a ≠ 0xFFFFFFFF) → exec .readRegisters s = .next
      ((s.traced (l.regs.map fun a => .read a (s.mmioRead a)).reverse).ended s.cur b
        { b.core with
          slots := some (l.regs.map fun a => ⟨a.toNat, s.mmioRead a, s.mmioRead a, true⟩)
          filling := none, captured := true, appliedMod := false, fsm := .captured
          pllFreqOrig := some (B64.mul
            (B64.mul s.plat.refclkDklMhz (B64.ofNat (fieldGet (s.mmioRead l.div0) l.predivLo 4)))
            (B64.add (B64.ofNat (fieldGet (s.mmioRead l.div0) l.intLo 8))
              (B64.div (B64.ofNat (fieldGet (s.mmioRead l.bias) l.fracLo 22)) (B64.ofNat 4194304)))) } .ok))

/-- READ_REGISTERS of a C10 instance on a ready lane: the twenty slots are read from the lowest lane in order,
`orig` and `mod` take the bytes (41_phy_datapath.md R201, R207, R230, R231); a frequency that divides by zero
is cached as 0.0. A capture that fails, at whichever read and whatever moves meanwhile, ends the command with its
status and writes nothing of the bank; on a PHY that never answers the first slot's three attempts end it
BUS_TIMEOUT. -/
def Obligations.CaptureC10 : Prop :=
  (∀ (s : State) (b : Bank) (x : Selector) (l : C10Layout) (vs : List Word), s.banks[s.cur]? = some b → s.quiet →
    b.core.fsm = .idle → b.core.captured = false → b.core.slots = none → b.core.sel = some x → x.layout = .c10 l →
    s.lanesReady l.port [lowestLane l.lanes] →
    vs = l.slotAddr.map (fun a => (s.phyRead l.port (lowestLane l.lanes) a).setWidth 32) →
    ∃ m tr, s.touched l.port [lowestLane l.lanes] m ∧ exec .readRegisters s = .next ((s.after m tr).ended s.cur b
      { b.core with
        slots := some (List.zipWith (fun (a : BitVec 12) (v : Word) => ⟨a.toNat, v, v, true⟩) l.slotAddr vs)
        filling := none, captured := true, appliedMod := false, fsm := .captured
        pllFreqOrig := some (if (freqC10 s.plat.refclkC10Khz l.fields vs).1 = .ok
          then B64.ofNat (freqC10 s.plat.refclkC10Khz l.fields vs).2 else B64.zero) } .ok)) ∧
  (∀ (s t : State) (b : Bank) (st : Status) (vals : List Slot) (c20 : Option C20Cache) (hist : List Resp),
    s.banks[s.cur]? = some b → b.core.fsm = .idle → b.core.captured = false → st ≠ .ok →
    (captureV s.plat b.core.sel).endsIn (.seq s.cur (some .readRegisters) b.core) [] s (st, vals, c20) hist t →
    t.quiet → t.banks[s.cur]? = some b → exec .readRegisters s = .next (t.ended s.cur b b.core st)) ∧
  ∀ (s : State) (b : Bank) (x : Selector) (l : C10Layout) (lane : Nat) (r : LaneRegs), s.banks[s.cur]? = some b →
    s.quiet → b.core.fsm = .idle → b.core.captured = false → b.core.sel = some x → x.layout = .c10 l →
    l.slotAddr ≠ [] → s.silentLane x lane r →
    ∃ t, exec .readRegisters s = .next t ∧ t.phy = s.phy ∧ t.sram = s.sram ∧ t.uncommitted = s.uncommitted ∧
      t.count (.write r.ctl 0x00008000) = s.count (.write r.ctl 0x00008000) + 3 ∧
      t.banks[s.cur]? = some { b with seq := none, core := { b.core with code := .busTimeout, busy := false } }

/-- READ_REGISTERS of a C20 instance on a ready lane: the context register selects a block, whose SRAM words
are read in order through the window; `orig` and `mod` take the words, the context and the seven fields are
cached (41_phy_datapath.md R201, R207, R240 to R242; 10_state.md R41). On a PHY that never answers the three attempts
of the context read end the command BUS_TIMEOUT and nothing is captured. -/
def Obligations.CaptureC20 : Prop :=
  (∀ (s : State) (b : Bank) (x : Selector) (l : C20Layout) (ctx : C20Ctx) (blk : C20Block) (vs : List Word),
    s.banks[s.cur]? = some b → s.quiet → b.core.fsm = .idle → b.core.captured = false → b.core.slots = none →
    b.core.sel = some x → x.layout = .c20 l → s.lanesReady l.port [lowestLane l.lanes] →
    (ctx = if (s.phyRead l.port (lowestLane l.lanes) l.ctxReg).getLsbD l.ctxBit then .mpllb else .mplla) →
    blk = (match ctx with
      | .mplla => l.mplla
      | .mpllb => l.mpllb) →
    vs = (s.sramReads l.port (lowestLane l.lanes) blk.words).1 →
    ∃ m tr, s.touched l.port [lowestLane l.lanes] m ∧ exec .readRegisters s = .next
      (((s.sramReads l.port (lowestLane l.lanes) blk.words).2.after m tr).ended s.cur b
        { b.core with
          slots := some (List.zipWith (fun (a : BitVec 16) (v : Word) => ⟨a.toNat, v, v, true⟩) blk.words vs)
          filling := none, captured := true, appliedMod := false, fsm := .captured
          c20 := .holding {
            ctx := ctx
            fracEn := BitVec.ofNat 1 (fieldGet (vs.getD blk.fracEn.word 0) blk.fracEn.lo 1)
            txClkDiv := BitVec.ofNat 3 (fieldGet (vs.getD blk.txClkDiv.word 0) blk.txClkDiv.lo 3)
            refDiv := BitVec.ofNat 3 (fieldGet (vs.getD blk.refDiv.word 0) blk.refDiv.lo 3)
            multiplier := BitVec.ofNat 12 (fieldGet (vs.getD blk.multiplier.word 0) blk.multiplier.lo 12)
            txRate := BitVec.ofNat 3 (fieldGet (vs.getD blk.txRate.word 0) blk.txRate.lo 3)
            txRateMult := BitVec.ofNat 1 (fieldGet (vs.getD blk.txRateMult.word 0) blk.txRateMult.lo 1)
            fbClkDiv4En := BitVec.ofNat 1 (fieldGet (vs.getD blk.fbClkDiv4En.word 0) blk.fbClkDiv4En.lo 1) }
          pllFreqOrig := some (if (freqC20 s.plat.refclkC20Khz blk (c20CacheOf ctx blk vs) vs).1 = .ok
            then B64.ofNat (freqC20 s.plat.refclkC20Khz blk (c20CacheOf ctx blk vs) vs).2 else B64.zero) } .ok)) ∧
  ∀ (s : State) (b : Bank) (x : Selector) (l : C20Layout) (lane : Nat) (r : LaneRegs), s.banks[s.cur]? = some b →
    s.quiet → b.core.fsm = .idle → b.core.captured = false → b.core.sel = some x → x.layout = .c20 l →
    s.silentLane x lane r →
    ∃ t, exec .readRegisters s = .next t ∧ t.phy = s.phy ∧ t.sram = s.sram ∧ t.uncommitted = s.uncommitted ∧
      t.count (.write r.ctl 0x00008000) = s.count (.write r.ctl 0x00008000) + 3 ∧
      t.banks[s.cur]? = some { b with seq := none, core := { b.core with code := .busTimeout, busy := false } }

/-! ### Frequency and inverse -/

/-- CALC_PLL_CLOCK gives the frequency of the copy its flag names, GET_PLL_CLOCK that of the copy last applied
(41_phy_datapath.md R202, R212, R222, R252; 42_stepping_controller.md R277): Combo, DKL, DP M/N. -/
def Obligations.FrequencyMmio : Prop :=
  ∀ (s : State) (b : Bank) (x : Selector) (ss : List Slot) (m : Bool) (v0 v1 a0 a1 : Word),
    s.banks[s.cur]? = some b → s.quiet → legalityEntry .getPllClock b.core.fsm = some none → b.core.sel = some x →
    b.core.slots = some ss →
    v0 = (ss.map fun y => if m then y.mod else y.orig).getD 0 0 →
    v1 = (ss.map fun y => if m then y.mod else y.orig).getD 1 0 →
    a0 = (ss.map fun y => if b.core.appliedMod then y.mod else y.orig).getD 0 0 →
    a1 = (ss.map fun y => if b.core.appliedMod then y.mod else y.orig).getD 1 0 →
    ∀ f : Word → Word → B64,
      ((∃ l, x.layout = .combo l ∧ f = fun w _ => B64.ofNat (fieldGet w l.intLo 10 * s.plat.refclkComboKhz +
          (fieldGet w l.fracLo 15 * 2 * s.plat.refclkComboKhz) / 32768)) ∨
        (∃ l, x.layout = .dkl l ∧ f = fun w w' => B64.mul
          (B64.mul s.plat.refclkDklMhz (B64.ofNat (fieldGet w l.predivLo 4)))
          (B64.add (B64.ofNat (fieldGet w l.intLo 8))
            (B64.div (B64.ofNat (fieldGet w' l.fracLo 22)) (B64.ofNat 4194304)))) ∨
        (∃ l, x.layout = .dpmn l ∧ f = fun w _ => B64.ofNat ((w &&& l.mMask).toNat / 2 ^ maskShift l.mMask))) →
      exec (.calcPllClock m) s = .next (s.ended s.cur b { b.core with result := f v0 v1 } .ok) ∧
      exec .getPllClock s = .next (s.ended s.cur b { b.core with result := f a0 a1 } .ok)

/-- The same for C10 and C20 (41_phy_datapath.md R232, R242): a division by a zero denominator is
DIVIDER_ERROR with RESULT 0.0 (R202). -/
def Obligations.FrequencyBus : Prop :=
  ∀ (s : State) (b : Bank) (x : Selector) (ss : List Slot) (m : Bool), s.banks[s.cur]? = some b → s.quiet →
    legalityEntry .getPllClock b.core.fsm = some none → b.core.sel = some x → b.core.slots = some ss →
    ∀ F : List Word → Status × B64,
      ((∃ l, x.layout = .c10 l ∧ F = fun copy =>
          if c10D l.fields copy = 0 then (.dividerError, B64.zero)
          else (.ok, B64.ofNat ((s.plat.refclkC10Khz * (c10M l.fields copy * 65536 + c10Q l.fields copy) +
            (2 * (s.plat.refclkC10Khz * c10R l.fields copy) + c10D l.fields copy) / (2 * c10D l.fields copy)) /
            (10 * 2 ^ (fieldGet (copy.getD l.fields.tx 0) l.fields.txBit 3 + 16))))) ∨
        (∃ l c blk, x.layout = .c20 l ∧ b.core.c20 = .holding c ∧ blk = (match c.ctx with
            | .mplla => l.mplla
            | .mpllb => l.mpllb) ∧ F = fun copy =>
          if c.fracEn = 1 ∧ fieldGet (copy.getD blk.d 0) 0 16 = 0 then (.dividerError, B64.zero)
          else (.ok, B64.ofNat ((
            (if c.fracEn = 1 then
              ((s.plat.refclkC20Khz * 2 ^ (1 + c.fbClkDiv4En.toNat)) / 2 ^ c.refDiv.toNat *
                ((c.multiplier.toNat * 32768 + fieldGet (copy.getD blk.q 0) 0 16) * fieldGet (copy.getD blk.d 0) 0 16 +
                  fieldGet (copy.getD blk.r 0) 0 16)) / (1310720 * fieldGet (copy.getD blk.d 0) 0 16)
            else ((s.plat.refclkC20Khz * 2 ^ (1 + c.fbClkDiv4En.toNat)) / 2 ^ c.refDiv.toNat *
                (c.multiplier.toNat * 32768)) / 1310720)
            / 2 ^ (c.txRate.toNat + c.txClkDiv.toNat)) * 2 ^ c.txRateMult.toNat)))) →
      exec (.calcPllClock m) s = .next (s.ended s.cur b
        { b.core with result := (F (ss.map fun y => if m then y.mod else y.orig)).2 }
        (F (ss.map fun y => if m then y.mod else y.orig)).1) ∧
      exec .getPllClock s = .next (s.ended s.cur b
        { b.core with result := (F (ss.map fun y => if b.core.appliedMod then y.mod else y.orig)).2 }
        (F (ss.map fun y => if b.core.appliedMod then y.mod else y.orig)).1)

/-- CALC_FEEDBACK_DIVIDERS of Combo, DKL and DP M/N: the fields the inverse computes, clamped, in `mod`, and
nothing else; a DKL prediv of 0 is DIVIDER_ERROR with nothing written (41_phy_datapath.md R203, R213, R223,
R253). -/
def Obligations.FeedbackMmio : Prop :=
  ∀ (s : State) (b : Bank) (x : Selector) (y z : Slot) (rest : List Slot) (t : B64), s.banks[s.cur]? = some b →
    s.quiet → b.core.fsm = .captured ∨ b.core.fsm = .done → b.core.sel = some x → b.core.slots = some (y :: z :: rest) →
    t = b.core.arg0 → ¬ notFinite t → B64.le t B64.zero = false →
    (∀ (l : ComboLayout) (i fr : Nat), x.layout = .combo l →
      i = B64.clampTo .floor 1023 (B64.div t (B64.ofNat s.plat.refclkComboKhz)) →
      fr = B64.clampTo .nearest 32767 (B64.div (B64.mul
        (B64.sub t (B64.mul (B64.ofNat i) (B64.ofNat s.plat.refclkComboKhz))) (B64.ofNat 16384))
        (B64.ofNat s.plat.refclkComboKhz)) →
      exec .calcFeedbackDividers s = .next (s.ended s.cur b
        { b.core with
          slots := some ({ y with
            mod := fieldPut (fieldPut y.mod (fieldMask l.intLo 10) l.intLo i) (fieldMask l.fracLo 15) l.fracLo fr }
            :: z :: rest) } .ok)) ∧
    (∀ (l : DklLayout) (f : B64) (i fr : Nat), x.layout = .dkl l →
      (y :: z :: rest).map (·.addr) = l.regs.map BitVec.toNat →
      (fieldGet y.mod l.predivLo 4 = 0 →
        exec .calcFeedbackDividers s = .next (s.ended s.cur b b.core .dividerError)) ∧
      (fieldGet y.mod l.predivLo 4 ≠ 0 →
        f = B64.div t (B64.mul s.plat.refclkDklMhz (B64.ofNat (fieldGet y.mod l.predivLo 4))) →
        i = B64.clampTo .floor 255 f →
        fr = B64.clampTo .nearest 0x3FFFFF (B64.mul (B64.sub f (B64.ofNat i)) (B64.ofNat 4194304)) →
        exec .calcFeedbackDividers s = .next (s.ended s.cur b
          { b.core with
            slots := some (l.aux.foldl (fun (ss : List Slot) a => ss.map fun w =>
                if w.addr = a.reg.toNat then { w with mod := (w.mod &&& ~~~a.mask) ||| (a.value &&& a.mask) } else w)
              ({ y with mod := fieldPut y.mod (fieldMask l.intLo 8) l.intLo i } ::
                { z with mod := fieldPut z.mod (fieldMask l.fracLo 22) l.fracLo fr } :: rest)) } .ok))) ∧
    (∀ l : DpmnLayout, x.layout = .dpmn l →
      exec .calcFeedbackDividers s = .next (s.ended s.cur b
        { b.core with
          slots := some ({ y with
            mod := fieldPut y.mod l.mMask (maskShift l.mMask)
              (B64.clampTo .trunc (l.mMask.toNat / 2 ^ maskShift l.mMask) t) } :: z :: rest) } .ok))

/-- CALC_FEEDBACK_DIVIDERS of C10 and C20: only the quotient's two slots, and only the words q and r, are
written; a zero denominator, and a disabled fraction, are DIVIDER_ERROR with nothing written
(41_phy_datapath.md R203, R233, R243); the reference divided down to 0 is log 33. -/
def Obligations.FeedbackBus : Prop :=
  ∀ (s : State) (b : Bank) (x : Selector) (ss : List Slot) (copy : List Word) (t : B64), s.banks[s.cur]? = some b →
    s.quiet → b.core.fsm = .captured ∨ b.core.fsm = .done → b.core.sel = some x → b.core.slots = some ss →
    copy = ss.map (·.mod) → t = b.core.arg0 → ¬ notFinite t → B64.le t B64.zero = false →
    (∀ (l : C10Layout) (rt q : Nat), x.layout = .c10 l →
      (c10D l.fields copy = 0 → exec .calcFeedbackDividers s = .next (s.ended s.cur b b.core .dividerError)) ∧
      (c10D l.fields copy ≠ 0 →
        rt = (2 * (s.plat.refclkC10Khz * c10R l.fields copy) + c10D l.fields copy) / (2 * c10D l.fields copy) →
        q = B64.clampTo .floor 65535 (B64.sub (B64.div (B64.sub (B64.mul t (B64.ofNat (c10Scale l.fields copy)))
          (B64.ofNat rt)) (B64.ofNat s.plat.refclkC10Khz)) (B64.mul (B64.ofNat (c10M l.fields copy)) (B64.ofNat 65536))) →
        exec .calcFeedbackDividers s = .next (s.ended s.cur b
          { b.core with
            slots := some (ss.mapIdx fun k y =>
              if k = l.fields.qHi then { y with mod := BitVec.ofNat 32 (q / 256) }
              else if k = l.fields.qLo then { y with mod := BitVec.ofNat 32 (q % 256) } else y) } .ok))) ∧
    (∀ (l : C20Layout) (c : C20Cache) (blk : C20Block) (ref : Nat) (f : B64) (q r : Nat), x.layout = .c20 l →
      b.core.c20 = .holding c →
      blk = (match c.ctx with
        | .mplla => l.mplla
        | .mpllb => l.mpllb) →
      ref = (s.plat.refclkC20Khz * 2 ^ (1 + c.fbClkDiv4En.toNat)) / 2 ^ c.refDiv.toNat →
      (c.fracEn = 0 ∨ ref = 0 → exec .calcFeedbackDividers s = .next (s.ended s.cur b b.core .dividerError)) ∧
      (c.fracEn = 1 → ref ≠ 0 →
        f = B64.sub (B64.div (B64.mul (B64.div (B64.mul t (B64.ofNat (2 ^ (c.txRate.toNat + c.txClkDiv.toNat))))
          (B64.ofNat (2 ^ c.txRateMult.toNat))) (B64.ofNat 1310720)) (B64.ofNat ref))
          (B64.mul (B64.ofNat c.multiplier.toNat) (B64.ofNat 32768)) →
        q = B64.clampTo .floor 65535 f →
        r = B64.clampTo .nearest 65535 (B64.mul (B64.sub f (B64.ofNat q)) (B64.ofNat (fieldGet (copy.getD blk.d 0) 0 16))) →
        exec .calcFeedbackDividers s = .next (s.ended s.cur b
          { b.core with
            slots := some (ss.mapIdx fun k y =>
              if k = blk.r then { y with mod := BitVec.ofNat 32 r }
              else if k = blk.q then { y with mod := BitVec.ofNat 32 q } else y) } .ok)))

/-- Whatever the target and the snapshot, CALC_FEEDBACK_DIVIDERS leaves every address and original, writes no
bit of `mod` outside the fields of the variant's inverse, and writes no value wider than the slot
(41_phy_datapath.md R262, 10_state.md R37). -/
def Obligations.InverseFieldsOnly : Prop :=
  ∀ (s t : State) (b : Bank) (x : Selector) (ss : List Slot), s.banks[s.cur]? = some b → s.quiet →
    b.core.sel = some x → b.core.slots = some ss → exec .calcFeedbackDividers s = .next t →
    ∃ b' ss', t.banks[s.cur]? = some b' ∧ b'.core.slots = some ss' ∧ ss'.length = ss.length ∧
      ∀ (k : Nat) (y y' : Slot), ss[k]? = some y → ss'[k]? = some y' →
        y'.addr = y.addr ∧ y'.orig = y.orig ∧ y'.writable = y.writable ∧
        (y'.mod ^^^ y.mod) &&& ~~~ inverseBits x b.core.c20.cache? k = 0 ∧ (y' = y ∨ y'.mod.toNat < 2 ^ slotWidth x)

/-! ### Programming -/

/-- PROGRAM_MMIO writes the copy its flag names to the hardware, slot by slot and lane by lane, and
`applied_mod` follows the flag (41_phy_datapath.md R204, R214, R224, R234, R244, R254): every variant, on
hardware that takes the writes. To program words the hardware holds changes nothing of it, and to program the same
words twice leaves what to program them once leaves (R261, 20_memory.md R87): of a C20 the SRAM, and of a C10 on
lanes where no uncommitted write is left over, which is how the model tells its writes from those of an SRAM access
(log 8). A programming that fails, at whichever write and whatever moves meanwhile, ends the command with its status
and leaves `applied_mod` (10_state.md R38); on a PHY that never answers the three attempts of the first write end it
BUS_TIMEOUT, and nothing is written. -/
def Obligations.ProgramsCopy : Prop :=
  (∀ (s : State) (b : Bank) (x : Selector) (ss : List Slot) (m : Bool) (ws : List (Nat × Word)),
    s.banks[s.cur]? = some b → s.quiet → b.core.fsm = .captured ∨ b.core.fsm = .done → b.core.sel = some x →
    b.core.slots = some ss → s.writable x ss → ws = slotWrites x ss (ss.map fun y => if m then y.mod else y.orig) →
    ∃ t, (s.programmed x ws).wrote x (mmioRecords ws) t ∧
      exec (.programMmio m) s = .next (t.ended s.cur b { b.core with appliedMod := m } .ok)) ∧
  (∀ (s : State) (x : Selector) (ws : List (Nat × Word)), s.StoresWf → s.settled x →
    (s.holdsWords x ws → s.sameHardware x (s.programmed x ws)) ∧
    (s.programmed x ws).sameHardware x ((s.programmed x ws).programmed x ws)) ∧
  (∀ (s t : State) (b : Bank) (m : Bool) (st : Status) (hist : List Resp), s.banks[s.cur]? = some b →
    b.core.fsm = .captured ∨ b.core.fsm = .done → st ≠ .ok →
    (writeV s.plat b.core.sel (addressed b.core.snapshot (copyOf m b.core.snapshot))).endsIn
      (.seq s.cur (some (.programMmio m)) b.core) [] s st hist t →
    t.quiet → t.banks[s.cur]? = some b → exec (.programMmio m) s = .next (t.ended s.cur b b.core st)) ∧
  ∀ (s : State) (b : Bank) (x : Selector) (ss : List Slot) (m : Bool) (l : Nat) (r : LaneRegs),
    s.banks[s.cur]? = some b → s.quiet → b.core.fsm = .captured ∨ b.core.fsm = .done → b.core.sel = some x →
    b.core.slots = some ss → ss ≠ [] → s.silentLane x l r →
    ∃ t, exec (.programMmio m) s = .next t ∧ t.phy = s.phy ∧ t.sram = s.sram ∧ t.uncommitted = s.uncommitted ∧
      t.count (.write r.ctl 0x00008000) = s.count (.write r.ctl 0x00008000) + 3 ∧
      t.banks[s.cur]? = some { b with seq := none, core := { b.core with code := .busTimeout, busy := false } }

/-- PROGRAM_MMIO of a DP M/N instance is one write of M; N is not written, nor any other byte; the command ends OK,
and of the bank only `applied_mod` follows the flag (41_phy_datapath.md R204, R254). -/
def Obligations.DpmnWritesOnlyM : Prop :=
  ∀ (s : State) (b : Bank) (x : Selector) (l : DpmnLayout) (ym yn : Slot) (m : Bool) (v : Word),
    s.banks[s.cur]? = some b → s.quiet → b.core.fsm = .captured ∨ b.core.fsm = .done → b.core.sel = some x →
    x.layout = .dpmn l → b.core.slots = some [ym, yn] → ym.addr = l.m.toNat → plainOffset s.plat l.m = true →
    (v = if m then ym.mod else ym.orig) → s.mmio.wf = true →
    ∃ t, exec (.programMmio m) s = .next t ∧ t.mmioRead l.m = v ∧ t.trace = .write l.m v :: s.trace ∧
      (∀ a : Nat, ¬ inWord l.m a → t.mmio.read a = s.mmio.read a) ∧ t.phy = s.phy ∧ t.sram = s.sram ∧
      t.uncommitted = s.uncommitted ∧ t.now = s.now ∧
      t.banks = s.banks.set s.cur
        { b with core := { b.core with appliedMod := m, code := .ok, busy := false }, seq := none }

/-! ### PROGRAM_PHY and SET_PLL_CLOCK -/

/-- PROGRAM_PHY without COMMIT, or with a timer duration of 0: the effective shift, the duration, the change and
the target are computed, and there is no access, no sleep and no arming (42_stepping_controller.md R280 to
R284). Where the present frequency cannot be had, or is not positive, the command ends with that status. -/
def Obligations.ProgramPhyGated : Prop :=
  ∀ (s : State) (b : Bank) (commit reset : Bool) (td sh fs eff cur : B64) (st : Status) (tms : Nat),
    s.banks[s.cur]? = some b → s.quiet → b.core.fsm = .captured ∨ b.core.fsm = .done →
    td = b.core.arg0 → ¬ notFinite b.core.arg0 → ¬ notFinite b.core.arg1 → ¬ notFinite b.core.arg2 →
    sh = B64.abs b.core.arg1 → fs = B64.abs b.core.arg2 →
    (eff = if B64.eq fs B64.zero = false ∧
        B64.le (B64.ofNat b.core.arg3.toNat) (B64.mul (B64.abs td) (B64.ofNat 1000)) = true then fs else sh) →
    (tms = if B64.eq eff B64.zero = true then 0
      else B64.clampTo .floor (2 ^ 32 - 1) (B64.div (B64.mul (B64.abs td) (B64.ofNat 100)) eff)) →
    (st, cur) = b.core.pllClock s.plat →
    (st ≠ .ok ∨ B64.le cur B64.zero = true → exec (.programPhy commit reset) s = .next (s.ended s.cur b
      { b.core with dp := { b.core.dp with
          s := some sh, fs := some fs, eff := some eff, tms := some (BitVec.ofNat 32 tms), cur := some cur } }
      (if st = .ok then .invalidArgument else st))) ∧
    (st = .ok → B64.le cur B64.zero = false → commit = false ∨ tms = 0 → ∀ delta : B64,
      delta = B64.mul (B64.div (B64.mul eff cur) (B64.ofNat 100))
        (if B64.lt B64.zero td then B64.neg (B64.ofNat 1) else B64.ofNat 1) →
      exec (.programPhy commit reset) s = .next (s.ended s.cur b
        { b.core with
          dp := { b.core.dp with
            s := some sh, fs := some fs, eff := some eff, tms := some (BitVec.ofNat 32 tms), cur := some cur
            delta := some delta, tgt := some (B64.add cur delta) }
          usedShift := some eff, fsm := .done } .ok))

/-- PROGRAM_PHY with COMMIT and a timer duration that is not 0, on hardware that takes the writes: it steps to
the target as SET_PLL_CLOCK does, and with AUTO_RESET then arms the timer for that duration, clears `done` and
waits in ARMED_FOR_ROLLBACK (42_stepping_controller.md R280, R285, R291; 43_rollback_scheduler.md R342, R353). An
infinite or NaN `pdiff` is the model's choice (log 37). -/
def Obligations.ProgramPhyCommitted : Prop :=
  ∀ (s : State) (b : Bank) (x : Selector) (ss : List Slot) (reset : Bool) (td sh fs eff cur delta target size : B64)
    (tms n : Nat) (copies : List (List Word)) (last : List Word),
    s.banks[s.cur]? = some b → s.quiet → s.shutdown = false → b.core.fsm = .captured ∨ b.core.fsm = .done →
    b.core.sel = some x → b.core.slots = some ss → s.writable x ss →
    td = b.core.arg0 → ¬ notFinite b.core.arg0 → ¬ notFinite b.core.arg1 → ¬ notFinite b.core.arg2 →
    sh = B64.abs b.core.arg1 → fs = B64.abs b.core.arg2 →
    (eff = if B64.eq fs B64.zero = false ∧
        B64.le (B64.ofNat b.core.arg3.toNat) (B64.mul (B64.abs td) (B64.ofNat 1000)) = true then fs else sh) →
    B64.eq eff B64.zero = false →
    tms = B64.clampTo .floor (2 ^ 32 - 1) (B64.div (B64.mul (B64.abs td) (B64.ofNat 100)) eff) → 0 < tms →
    b.core.pllClock s.plat = (.ok, cur) → B64.le cur B64.zero = false →
    delta = B64.mul (B64.div (B64.mul eff cur) (B64.ofNat 100))
      (if B64.lt B64.zero td then B64.neg (B64.ofNat 1) else B64.ofNat 1) →
    target = B64.add cur delta → B64.le target B64.zero = false →
    stepPlan cur target eff n size → 0 < n →
    stepCopies s.plat (some x) b.core.c20.cache? (ss.map (·.mod)) (stepTargets target size cur n) = some copies →
    copies.getLast? = some last →
    ∃ t, ((copies.foldl (fun u ms => u.programmed x (slotWrites x ss ms)) s).later
          ((n - 1) * (b.core.arg4.toNat * 1000))).wrote x
        (stepRecords (b.core.arg4.toNat * 1000) (copies.map fun ms => slotWrites x ss ms)) t ∧
      ∀ c', c' = { b.core with
          dp := { b.core.dp with
            s := some sh, fs := some fs, eff := some eff, tms := some (BitVec.ofNat 32 tms), cur := some cur
            delta := some delta, tgt := some target, pdiff := some (stepPercent cur target), ssize := some size
            nsteps := some (BitVec.ofNat 32 n), istep := some (BitVec.ofNat 32 n), fi := some target }
          usedShift := some eff, slots := some (withMods ss last), appliedMod := true, pllFreqMod := some target
          fsm := .done } →
        exec (.programPhy true reset) s = .next (if reset then
          (t.traced [.arm s.cur tms]).ended s.cur b
            { c' with armed := true, deadline := some (t.now + tms * 1000), done := false, fsm := .armedForRollback } .ok
          else t.ended s.cur b c' .ok)

/-- SET_PLL_CLOCK with COMMIT on hardware that takes the writes: it programs the intermediate copies in order,
with a sleep between two steps, and ends in DONE at exactly the target (42_stepping_controller.md R290, R291,
R294, R295). An infinite or NaN `pdiff` is the model's choice (log 37). -/
def Obligations.SetPllClockSteps : Prop :=
  ∀ (s : State) (b : Bank) (x : Selector) (ss : List Slot) (target cur size : B64) (n : Nat)
    (copies : List (List Word)) (last : List Word),
    s.banks[s.cur]? = some b → s.quiet → s.shutdown = false → b.core.fsm = .captured ∨ b.core.fsm = .done →
    b.core.sel = some x → b.core.slots = some ss → s.writable x ss →
    target = b.core.arg0 → ¬ notFinite b.core.arg0 → ¬ notFinite b.core.arg1 →
    B64.le target B64.zero = false → B64.lt b.core.arg1 B64.zero = false →
    b.core.pllClock s.plat = (.ok, cur) → B64.le cur B64.zero = false →
    stepPlan cur target b.core.arg1 n size → 0 < n →
    stepCopies s.plat (some x) b.core.c20.cache? (ss.map (·.mod)) (stepTargets target size cur n) = some copies →
    copies.getLast? = some last →
    ∃ t, ((copies.foldl (fun u ms => u.programmed x (slotWrites x ss ms)) s).later
          ((n - 1) * (b.core.arg2.toNat * 1000))).wrote x
        (stepRecords (b.core.arg2.toNat * 1000) (copies.map fun ms => slotWrites x ss ms)) t ∧
      exec (.setPllClock true) s = .next (t.ended s.cur b
        { b.core with
          dp := { b.core.dp with
            cur := some cur, tgt := some target, pdiff := some (stepPercent cur target), ssize := some size
            nsteps := some (BitVec.ofNat 32 n), istep := some (BitVec.ofNat 32 n), fi := some target }
          slots := some (withMods ss last), appliedMod := true, pllFreqMod := some target, fsm := .done } .ok)

/-- SET_PLL_CLOCK without COMMIT computes the same copies into `mod`, sleeps between the steps, and accesses no
hardware; `applied_mod` is unchanged (42_stepping_controller.md R290, R291). An infinite or NaN `pdiff` is the model's
choice (log 37). -/
def Obligations.SetPllClockUncommitted : Prop :=
  ∀ (s : State) (b : Bank) (x : Selector) (ss : List Slot) (target cur size : B64) (n : Nat)
    (copies : List (List Word)) (last : List Word),
    s.banks[s.cur]? = some b → s.quiet → s.shutdown = false → b.core.fsm = .captured ∨ b.core.fsm = .done →
    b.core.sel = some x → b.core.slots = some ss →
    target = b.core.arg0 → ¬ notFinite b.core.arg0 → ¬ notFinite b.core.arg1 →
    B64.le target B64.zero = false → B64.lt b.core.arg1 B64.zero = false →
    b.core.pllClock s.plat = (.ok, cur) → B64.le cur B64.zero = false →
    stepPlan cur target b.core.arg1 n size → 0 < n →
    stepCopies s.plat (some x) b.core.c20.cache? (ss.map (·.mod)) (stepTargets target size cur n) = some copies →
    copies.getLast? = some last →
    exec (.setPllClock false) s = .next
      (((s.later ((n - 1) * (b.core.arg2.toNat * 1000))).traced
        (List.replicate (n - 1) (.sleep (b.core.arg2.toNat * 1000)))).ended s.cur b
        { b.core with
          dp := { b.core.dp with
            cur := some cur, tgt := some target, pdiff := some (stepPercent cur target), ssize := some size
            nsteps := some (BitVec.ofNat 32 n), istep := some (BitVec.ofNat 32 n), fi := some target }
          slots := some (withMods ss last), pllFreqMod := some target, fsm := .done } .ok)

/-- A stepping of SET_PLL_CLOCK or of PROGRAM_PHY that sees `shutdown` at its first step takes no step: it restores the
originals once and ends CANCELLED in DONE, with or without COMMIT (42_stepping_controller.md R300, R301). Where
`shutdown` rises during step j, after its sample and before the next, step j is completed and step j + 1 is not begun;
the originals are written once, after the copies of the steps made (R301): with COMMIT for the MMIO variants, without
for all. A PROGRAM_PHY arms nothing then and leaves `done` (R285). Of the atomic steps (70_reset_and_hazards.md R433),
eleven of the stepping end with its first sample, and `per` with each later one. An infinite or NaN `pdiff` is the
model's choice (log 37). -/
def Obligations.SetPllClockCancelled : Prop :=
  (∀ (s : State) (b : Bank) (i : Instr) (y : Stepping) (x : Selector) (ss : List Slot) (size : B64) (n : Nat)
    (ws : List (Nat × Word)),
    s.banks[s.cur]? = some b → s.quiet → s.shutdown = true → b.core.steps s.plat i y →
    b.core.sel = some x → b.core.slots = some ss → s.writable x ss →
    stepPlan y.cur y.target y.shift n size → 0 < n → ws = slotWrites x ss (ss.map (·.orig)) →
    ∃ t, (s.programmed x ws).wrote x (mmioRecords ws) t ∧
      exec i s = .next (t.ended s.cur b
        { b.core with
          dp := y.regs n size 1 y.cur, usedShift := y.usedShift, appliedMod := false, fsm := .done } .cancelled)) ∧
  ∀ (s : State) (b : Bank) (i : Instr) (y : Stepping) (x : Selector) (ss : List Slot) (size f : B64) (n j m puts per : Nat)
    (us : Time) (copies : List (List Word)) (last : List Word) (ws : List (Nat × Word)),
    s.banks[s.cur]? = some b → s.shutdown = false → s.sched = List.replicate m .go ++ [.shutdown true] →
    b.core.steps s.plat i y → b.core.sel = some x → b.core.slots = some ss → s.writable x ss →
    (y.commit = true → onMmio x = true) →
    stepPlan y.cur y.target y.shift n size → ws = slotWrites x ss (ss.map (·.orig)) →
    puts = (invPuts s.plat (some x) b.core.c20.cache? (ss.map (·.mod)) y.target).2.length →
    (per = 3 + puts + if y.commit then ws.length + 1 else 0) → 0 < j → j < n →
    y.lead + 10 + (j - 1) * per < m → m ≤ y.lead + 10 + j * per →
    stepCopies s.plat (some x) b.core.c20.cache? (ss.map (·.mod)) ((stepTargets y.target size y.cur n).take j) = some copies →
    copies.getLast? = some last → (stepTargets y.target size y.cur n)[j - 1]? = some f → us = y.wait * 1000 →
    ∃ t, (((if y.commit then copies.foldl (fun (u : State) ms => u.programmed x (slotWrites x ss ms))
              ({ s with sched := [], shutdown := true } : State)
            else { s with sched := [], shutdown := true }).programmed x ws).later (j * us)).wrote x
        ((if y.commit then (copies.map fun ms => mmioRecords (slotWrites x ss ms) ++ [Record.sleep us]).flatten
          else List.replicate j (Record.sleep us)) ++ mmioRecords ws) t ∧
      exec i s = .next (t.ended s.cur b
        { b.core with
          dp := y.regs n size (j + 1) f, usedShift := y.usedShift
          slots := some (withMods ss last), appliedMod := false, fsm := .done } .cancelled)

/-- A stepping of SET_PLL_CLOCK or of PROGRAM_PHY whose inverse fails ends in DONE with that status, restoring nothing:
at its first step without an access, at a later one with the copies of the steps before on the hardware. One whose
programming fails ends in DONE with that status too: `mod` holds the step's fields, `applied_mod` is unchanged and
nothing is restored, at the first step, and wherever the steps have come to, with no further step: on a PHY that never
answers with BUS_TIMEOUT after the three attempts of one bus write, and for any other failure of `write_v` with its
status, whatever moves meanwhile (42_stepping_controller.md R296). A PROGRAM_PHY arms nothing then and leaves `done`
(R285). An infinite or NaN `pdiff` is the model's choice (log 37). -/
def Obligations.SetPllClockStepFails : Prop :=
  (∀ (s : State) (b : Bank) (i : Instr) (y : Stepping) (ss : List Slot) (size f : B64) (n : Nat) (st : Status)
    (mods : List Word),
    s.banks[s.cur]? = some b → s.quiet → s.shutdown = false → b.core.steps s.plat i y → b.core.slots = some ss →
    stepPlan y.cur y.target y.shift n size → 0 < n → (f = if n = 1 then y.target else B64.add y.cur size) →
    invV s.plat b.core.sel b.core.c20.cache? (ss.map (·.mod)) f = (st, mods) → st ≠ .ok →
    exec i s = .next (s.ended s.cur b
      { b.core with
        dp := y.regs n size 1 f, usedShift := y.usedShift, slots := some (withMods ss mods), fsm := .done } st)) ∧
  (∀ (s : State) (b : Bank) (i : Instr) (y : Stepping) (x : Selector) (ss : List Slot) (size f : B64) (n j : Nat)
    (us : Time) (copies : List (List Word)) (last mods : List Word) (st : Status),
    s.banks[s.cur]? = some b → s.quiet → s.shutdown = false → b.core.steps s.plat i y → b.core.sel = some x →
    b.core.slots = some ss → s.writable x ss → stepPlan y.cur y.target y.shift n size → 0 < j → j < n →
    stepCopies s.plat (some x) b.core.c20.cache? (ss.map (·.mod)) ((stepTargets y.target size y.cur n).take j) = some copies →
    copies.getLast? = some last → (stepTargets y.target size y.cur n)[j]? = some f →
    invV s.plat (some x) b.core.c20.cache? last f = (st, mods) → st ≠ .ok → us = y.wait * 1000 →
    ∃ t, (if y.commit then
          ((copies.foldl (fun (u : State) ms => u.programmed x (slotWrites x ss ms)) s).later (j * us)).wrote x
            (copies.map fun ms => mmioRecords (slotWrites x ss ms) ++ [Record.sleep us]).flatten t
        else t = (s.later (j * us)).traced (List.replicate j (.sleep us))) ∧
      exec i s = .next (t.ended s.cur b
        { b.core with
          dp := y.regs n size (j + 1) f, usedShift := y.usedShift, slots := some (withMods ss mods)
          appliedMod := y.commit || b.core.appliedMod, fsm := .done } st)) ∧
  (∀ (s : State) (b : Bank) (i : Instr) (y : Stepping) (x : Selector) (ss : List Slot) (size f : B64) (n l : Nat)
    (mods : List Word) (r : LaneRegs),
    s.banks[s.cur]? = some b → s.quiet → s.shutdown = false → b.core.steps s.plat i y → y.commit = true →
    b.core.sel = some x → b.core.slots = some ss → ss ≠ [] → s.silentLane x l r →
    stepPlan y.cur y.target y.shift n size → 0 < n → (f = if n = 1 then y.target else B64.add y.cur size) →
    invV s.plat (some x) b.core.c20.cache? (ss.map (·.mod)) f = (.ok, mods) →
    ∃ t, exec i s = .next t ∧ t.phy = s.phy ∧ t.sram = s.sram ∧
      t.count (.write r.ctl 0x00008000) = s.count (.write r.ctl 0x00008000) + 3 ∧
      t.banks[s.cur]? = some { b with
        seq := none
        core := { b.core with
          dp := y.regs n size 1 f, usedShift := y.usedShift
          slots := some (withMods ss mods), fsm := .done, code := .busTimeout, busy := false } }) ∧
  (∀ (s : State) (n l left : Nat) (b : Bank) (i : Option Instr) (v : Core) (hist : List Resp) (x : Selector)
    (r : LaneRegs) (run' : StepRun) (ss : List Slot) (fi f : B64) (mods mods' : List Word) (k : Unit → Prog),
    s.banks[n]? = some b → s.quiet → s.shutdown = false → b.core.fsm = .stepping → run'.commit = true →
    run'.view.sel = some x → run'.view.slots = some ss → ss ≠ [] → s.silentLane x l r → mods.length = ss.length →
    b.core.slots = some (withMods ss mods) → (f = if left = 0 then run'.target else B64.add fi run'.ssize) →
    invV s.plat (some x) run'.view.c20.cache? mods f = (.ok, mods') →
    ∃ t, run (.seq n i v) hist (stepFrom s.plat run' fi mods (left + 1) k) s = t ∧ t.phy = s.phy ∧ t.sram = s.sram ∧
      t.count (.write r.ctl 0x00008000) = s.count (.write r.ctl 0x00008000) + 3 ∧
      t.banks[n]? = some { b with
        seq := none
        core := { b.core with
          dp := { b.core.dp with istep := some (BitVec.ofNat 32 (run'.nsteps - left)), fi := some f }
          slots := some (withMods ss mods'), fsm := .done, code := .busTimeout, busy := false } }) ∧
  ∀ (s t : State) (n : Nat) (b : Bank) (i : Option Instr) (v : Core) (hist hist' : List Resp) (run' : StepRun)
    (mods : List Word) (st : Status) (k : Unit → Prog), st ≠ .ok →
    (writeV s.plat run'.view.sel (addressed run'.view.snapshot mods)).endsIn (.seq n i v) hist s st hist' t →
    t.quiet → t.banks[n]? = some b → b.core.fsm = .stepping →
    run (.seq n i v) hist (commitStep s.plat run' mods k) s = t.ended n b { b.core with fsm := .done } st

/-! ### Rollback -/

/-- ROLLBACK with no rollback pending writes the originals to the hardware and ends in DONE
(42_stepping_controller.md R315, 41_phy_datapath.md R263). A restore that fails, at whichever write and whatever moves
meanwhile, ends the command in DONE with its status and leaves `applied_mod` (10_state.md R38); on a PHY that never
answers the three attempts of the first write end it BUS_TIMEOUT, and nothing is written. -/
def Obligations.RollbackDirect : Prop :=
  (∀ (s : State) (b : Bank) (x : Selector) (ss : List Slot) (ws : List (Nat × Word)), s.banks[s.cur]? = some b →
    s.quiet → b.core.fsm = .captured ∨ b.core.fsm = .done → b.core.sel = some x → b.core.slots = some ss →
    s.writable x ss → ws = slotWrites x ss (ss.map (·.orig)) →
    ∃ t, (s.programmed x ws).wrote x (mmioRecords ws) t ∧
      exec .rollback s = .next (t.ended s.cur b { b.core with appliedMod := false, fsm := .done } .ok)) ∧
  (∀ (s t : State) (b : Bank) (st : Status) (hist : List Resp), s.banks[s.cur]? = some b →
    b.core.fsm = .captured ∨ b.core.fsm = .done → st ≠ .ok →
    (writeOrig s.plat b.core.sel b.core.snapshot).endsIn (.seq s.cur (some .rollback) b.core) [] s st hist t →
    t.quiet → t.banks[s.cur]? = some b →
    exec .rollback s = .next (t.ended s.cur b { b.core with fsm := .done } st)) ∧
  ∀ (s : State) (b : Bank) (x : Selector) (ss : List Slot) (l : Nat) (r : LaneRegs), s.banks[s.cur]? = some b →
    s.quiet → b.core.fsm = .captured ∨ b.core.fsm = .done → b.core.sel = some x → b.core.slots = some ss → ss ≠ [] →
    s.silentLane x l r →
    ∃ t, exec .rollback s = .next t ∧ t.phy = s.phy ∧ t.sram = s.sram ∧ t.uncommitted = s.uncommitted ∧
      t.count (.write r.ctl 0x00008000) = s.count (.write r.ctl 0x00008000) + 3 ∧
      t.banks[s.cur]? = some
        { b with seq := none, core := { b.core with fsm := .done, code := .busTimeout, busy := false } }

/-- A pending rollback is carried out by ROLLBACK, by WAIT_UNTIL_DONE under shutdown, and by RELEASE before it
unbinds: the timer is cancelled first, the originals are written, `rb_status` and `done` are set
(42_stepping_controller.md R274, R312, R315; 43_rollback_scheduler.md R343, R346 to R348). That RELEASE clears
the C20 fields and keeps `rb_status` is log 23. -/
def Obligations.RestoreForced : Prop :=
  ∀ (s : State) (b : Bank) (x : Selector) (ss : List Slot) (ws : List (Nat × Word)) (c' : Core),
    s.banks[s.cur]? = some b → s.quiet → b.core.fsm = .armedForRollback → b.core.armed = true →
    b.core.done = false → b.core.sel = some x → b.core.slots = some ss → s.writable x ss →
    ws = slotWrites x ss (ss.map (·.orig)) →
    c' = { b.core with
      armed := false, deadline := none, appliedMod := false, rbStatus := .ok, done := true, fsm := .done } →
    (∃ t, (s.programmed x ws).wrote x (.cancel s.cur :: mmioRecords ws) t ∧
      exec .rollback s = .next (t.ended s.cur b c' .ok)) ∧
    (s.shutdown = true → ∃ t, (s.programmed x ws).wrote x (.cancel s.cur :: mmioRecords ws) t ∧
      exec .waitUntilDone s = .next (t.ended s.cur b c' .ok)) ∧
    ∀ k, b.core.pllIndex = some k → ∃ t, (s.programmed x ws).wrote x (.cancel s.cur :: mmioRecords ws) t ∧
      exec .release s = .next ({ t with enabled := s.enabled.set k false }.ended s.cur b
        { c' with
          sel := none, pllIndex := none, slots := none, filling := none, c20 := {}, pllFreqOrig := none
          pllFreqMod := none, usedShift := none, captured := false, fsm := .unbound } .ok)

/-- ROLLBACK in ROLLING_BACK and WAIT_UNTIL_DONE wait for the rollback path: the command stays in the bank, polls
`done`, and once `done` is 1 ends with `rb_status`, without an access (42_stepping_controller.md R310, R315;
43_rollback_scheduler.md R346, R351). How the wait is cut into moves is the model's choice (log 29, DEDUCED; log 5,
DESIGN CHOICE): that the sleep and the read of `rb_status` belong to the move of the sample of `done`, that a round of
ROLLBACK's poll is one move and one of WAIT_UNTIL_DONE's two, the second of them the sample of `shutdown`, that a
command ends in three moves (the sample, STATUS.code, STATUS.busy), and that the two answers recorded are those of the
samples before the first round. A ROLLBACK that loses the test-and-clear in ARMED_FOR_ROLLBACK and a RELEASE that
waits are not among these. -/
def Obligations.WaitsForRestore : Prop :=
  (∀ (s : State) (b : Bank) (i : Instr), s.banks[s.cur]? = some b → s.quiet → b.core.done = false →
    (i = .rollback ∧ b.core.fsm = .rollingBack ∧ b.core.armed = false) ∨
      (i = .waitUntilDone ∧ legalityEntry i b.core.fsm = some none ∧ s.shutdown = false) →
    exec i s = .next { (s.later (s.plat.donePollMs * 1000)).traced [.sleep (s.plat.donePollMs * 1000)] with
      banks := s.banks.set s.cur { b with seq := some ⟨some i, b.core, [.flag false, .flag false]⟩ } }) ∧
  (∀ (s : State) (n : Nat) (rest : List Event), s.plat.valid = true → s.inputs = .agentSeq n :: rest →
    step s = .next ({ s with inputs := rest }.moveSeq n)) ∧
  (∀ (s : State) (n : Nat) (b : Bank) (i : Instr) (v : Core), s.banks[n]? = some b →
    b.seq = some ⟨some i, v, [.flag false, .flag false]⟩ →
    (i = .rollback ∧ v.fsm = .rollingBack) ∨ (i = .waitUntilDone ∧ legalityEntry i v.fsm = some none) →
    (b.core.done = true → (fun t : State => t.moveSeq n)^[3] s =
      ((s.later (s.plat.donePollMs * 1000)).traced [.sleep (s.plat.donePollMs * 1000)]).ended n b b.core
        b.core.rbStatus) ∧
    (b.core.done = false → i = .rollback → s.moveSeq n =
      (s.later (s.plat.donePollMs * 1000)).traced [.sleep (s.plat.donePollMs * 1000)]) ∧
    (b.core.done = false → i = .waitUntilDone → s.shutdown = false → (fun t : State => t.moveSeq n)^[2] s =
      (s.later (s.plat.donePollMs * 1000)).traced [.sleep (s.plat.donePollMs * 1000)]))

/-- TIMER_ARM sets the timer of the instance to its `tms` in milliseconds, TIMER_CANCEL clears an armed timer
and is not performed otherwise (43_rollback_scheduler.md R342, R343); that TIMER_ARM takes `tms` from the
bank, and does nothing with none or 0 there, is log 14. -/
def Obligations.TimerArmAndCancel : Prop :=
  ∀ (s : State) (b : Bank), s.banks[s.cur]? = some b →
    (∀ ms : BitVec 32, b.core.dp.tms = some ms → ms ≠ 0 → exec .timerArm s = .next
      { s.traced [.arm s.cur ms.toNat] with
        banks := s.banks.set s.cur
          { b with core := { b.core with armed := true, deadline := some (s.now + ms.toNat * 1000) } } }) ∧
    (b.core.dp.tms = none ∨ b.core.dp.tms = some 0 → exec .timerArm s = .next s) ∧
    (b.core.armed = true → exec .timerCancel s = .next
      { s.traced [.cancel s.cur] with
        banks := s.banks.set s.cur { b with core := { b.core with armed := false, deadline := none } } }) ∧
    (b.core.armed = false → exec .timerCancel s = .next s)

/-- TIMER_FIRE starts the rollback path of an instance whose timer is armed and due, and does nothing where it
is not, nor where it has fired already and the path has not made its test-and-clear yet
(43_rollback_scheduler.md R345, R350). A path that lost an earlier test-and-clear and still waits for `done` is
no bar: that it ends there is log 35. -/
def Obligations.TimerFires : Prop :=
  ∀ (s : State) (b : Bank), s.banks[s.cur]? = some b →
    (∀ d : Time, b.core.armed = true → b.core.deadline = some d → d ≤ s.now → b.path ≠ some [] →
      exec .timerFire s = .next { s.traced [.fire s.cur] with banks := s.banks.set s.cur { b with path := some [] } }) ∧
    (b.core.armed = false ∨ b.core.deadline = none ∨ (∃ d, b.core.deadline = some d ∧ s.now < d) ∨ b.path = some [] →
      exec .timerFire s = .next s)

/-- The rollback path that wins the test-and-clear restores the originals, access by access, then records the
status, sets `done` and ends in DONE; during it the instance is in ROLLING_BACK with no timer armed
(43_rollback_scheduler.md R345 to R350): every variant, with the number of its moves for the MMIO variants. On a
PHY that never answers the restore fails, `rb_status` is BUS_TIMEOUT, `applied_mod` is unchanged, and `done` and
DONE follow all the same (R348). A path that loses the test-and-clear changes nothing: it ends where `done` = 1
and waits where `done` = 0 (R351); that one that comes before the deadline of a later arming loses is log 35. -/
def Obligations.RollbackPathRestores : Prop :=
  (∀ (s : State) (n : Nat) (rest : List Event), s.plat.valid = true → s.inputs = .agentPath n :: rest →
    step s = .next ({ s with inputs := rest }.movePath n)) ∧
  ∀ (s : State) (n : Nat) (b : Bank), s.banks[n]? = some b → b.path = some [] →
    (∀ (x : Selector) (ss : List Slot) (ws : List (Nat × Word)) (d : Time) (c' : Core), b.core.armed = true →
      b.core.deadline = some d → d ≤ s.now → b.core.sel = some x → b.core.slots = some ss →
      ws = slotWrites x ss (ss.map (·.orig)) →
      c' = { b.core with armed := false, deadline := none, done := true, fsm := .done } →
      (onMmio x = true → s.writable x ss →
        (fun t : State => t.movePath n)^[ws.length + 5] s =
            { (s.programmed x ws).traced (.cancel n :: mmioRecords ws).reverse with
              banks := s.banks.set n { b with
                path := none, core := { c' with appliedMod := false, rbStatus := .ok } } } ∧
          s.rollsBack n (ws.length + 5)) ∧
      (onMmio x = false → s.quiet → s.writable x ss → ∃ (k : Nat) (t : State),
        (s.programmed x ws).wrote x [] t ∧ s.rollsBack n k ∧
        (fun t : State => t.movePath n)^[k] s =
          { t with banks := s.banks.set n { b with
              path := none, core := { c' with appliedMod := false, rbStatus := .ok } } }) ∧
      (∀ (l : Nat) (r : LaneRegs), s.quiet → ss ≠ [] → s.silentLane x l r → ∃ (k : Nat) (t : State),
        s.rollsBack n k ∧ (fun t : State => t.movePath n)^[k] s = t ∧ t.phy = s.phy ∧ t.sram = s.sram ∧
        t.count (.write r.ctl 0x00008000) = s.count (.write r.ctl 0x00008000) + 3 ∧
        t.banks[n]? = some { b with path := none, core := { c' with rbStatus := .busTimeout } })) ∧
    (b.core.armed = false ∨ b.core.deadline = none ∨ (∃ d, b.core.deadline = some d ∧ s.now < d) →
      (b.core.done = true →
        (fun t : State => t.movePath n)^[2] s = { s with banks := s.banks.set n { b with path := none } }) ∧
      (b.core.done = false → ∀ k : Nat, ∃ t rs, (fun t : State => t.movePath n)^[k + 2] s = t ∧
        t.banks[n]? = some { b with path := some [.flag false, .flag false] } ∧ (∀ r ∈ rs, r.isAccess = false) ∧
        t = { (s.later (t.now - s.now)).traced rs with banks := t.banks }))

/-! ### The message bus -/

/-- MB_WAIT_CLEAR ends OK after one read of a register whose masked bits are 0; with a masked bit that stays 1
it polls until the time is up and ends BUS_TIMEOUT, with no bus reset (40_message_bus.md R151). -/
def Obligations.WaitClearEnds : Prop :=
  ∀ (s : State) (b : Bank) (reg mask v : Word), s.banks[s.cur]? = some b → s.quiet → s.plat.valid = true →
    legalityEntry .mbWaitClear b.core.fsm = some none → ¬ badOperand s.plat .mbWaitClear b.core →
    reg = b.core.arg0.setWidth 32 → mask = b.core.arg1.setWidth 32 → v = s.mmioRead reg →
    (v &&& mask = 0 → exec .mbWaitClear s = .next ((s.traced [.read reg v]).ended s.cur b b.core .ok)) ∧
    (v &&& mask ≠ 0 → ∀ k : Nat, k = (b.core.arg2.toNat + s.plat.pollUs - 1) / s.plat.pollUs →
      exec .mbWaitClear s = .next (((s.later (k * s.plat.pollUs)).traced
        ((List.replicate k [.read reg v, .sleep s.plat.pollUs]).flatten ++ [.read reg v])).ended s.cur b b.core
          .busTimeout))

/-- MB_READ and MB_READ_ONCE on a ready lane return the register of the lowest set lane, zero-extended
(40_message_bus.md R162 to R165). -/
def Obligations.BusReads : Prop :=
  ∀ (s : State) (b : Bank) (i : Instr) (p l : Nat) (lanes : BitVec 2), s.banks[s.cur]? = some b → s.quiet →
    i = .mbRead p lanes ∨ i = .mbReadOnce p lanes → legalityEntry i b.core.fsm = some none →
    ¬ badOperand s.plat i b.core → (l = if lanes.getLsbD 0 then 0 else 1) → s.lanesReady p [l] →
    ∃ m tr, s.touched p [l] m ∧ exec i s = .next ((s.after m tr).ended s.cur b
      { b.core with result := (s.phyRead p l (b.core.arg0.setWidth 12)).setWidth 64 } .ok)

/-- MB_WRITE and MB_WRITE_ONCE, committed or not, on ready lanes write the datum to the register of every set
lane, ascending (40_message_bus.md R166 to R169, 30_encoding.md R116). -/
def Obligations.BusWrites : Prop :=
  ∀ (s : State) (b : Bank) (i : Instr) (p : Nat) (lanes : BitVec 2) (k : Bool) (L : List Nat),
    s.banks[s.cur]? = some b → s.quiet → i = .mbWrite p lanes k ∨ i = .mbWriteOnce p lanes k →
    legalityEntry i b.core.fsm = some none → ¬ badOperand s.plat i b.core →
    L = [0, 1].filter (fun l => lanes.getLsbD l) → s.lanesReady p L →
    ∃ m tr, s.touched p L m ∧ exec i s = .next
      (((L.foldl (fun t l => t.phyWrite p l (b.core.arg0.setWidth 12) (b.core.arg1.setWidth 8) k) s).after m tr).ended
        s.cur b b.core .ok)

/-- MB_RMW on ready lanes clears and sets the bits of its masks in the register of every set lane, and writes
nothing where the value is unchanged (40_message_bus.md R170, R171). -/
def Obligations.BusReadModifyWrites : Prop :=
  ∀ (s : State) (b : Bank) (p : Nat) (lanes : BitVec 2) (k : Bool) (L : List Nat) (a : BitVec 12) (clr set : Byte),
    s.banks[s.cur]? = some b → s.quiet → legalityEntry (.mbRmw p lanes k) b.core.fsm = some none →
    ¬ badOperand s.plat (.mbRmw p lanes k) b.core → L = [0, 1].filter (fun l => lanes.getLsbD l) → s.lanesReady p L →
    a = b.core.arg0.setWidth 12 → clr = b.core.arg1.setWidth 8 → set = b.core.arg2.setWidth 8 →
    ∃ m tr, s.touched p L m ∧ exec (.mbRmw p lanes k) s = .next
      (((L.foldl (fun t l =>
        if (t.phyRead p l a &&& ~~~clr) ||| set = t.phyRead p l a then t
        else t.phyWrite p l a ((t.phyRead p l a &&& ~~~clr) ||| set) k) s).after m tr).ended s.cur b b.core .ok)

/-- MB_RESET always ends OK (40_message_bus.md R173). It resets every set lane, ascending, each by the three
accesses of R156: where the PHY takes the reset at once, it writes M2P_CTL, reads it once and clears READY and
ERROR of P2M_STS; where the RESET bit never clears, it reads it until P_T_RST_US is over and clears them all the
same. Nothing else is accessed and nothing else changes. -/
def Obligations.BusResets : Prop :=
  ∀ (s : State) (b : Bank) (p : Nat) (lanes : BitVec 2) (L : List Nat), s.banks[s.cur]? = some b → s.quiet →
    legalityEntry (.mbReset p lanes) b.core.fsm = some none → ¬ badOperand s.plat (.mbReset p lanes) b.core →
    L = [0, 1].filter (fun l => lanes.getLsbD l) →
    (∃ t, exec (.mbReset p lanes) s = .next t ∧
      t.banks[s.cur]? = some { b with core := { b.core with code := .ok, busy := false }, seq := none }) ∧
    (s.plat.valid = true → s.mmio.wf = true → s.phyAuto = true → exec (.mbReset p lanes) s = .next
      ((s.after (L.foldl (fun m l => (m.putWord (s.plat.ctl p l) 0).putWord (s.plat.sts p l)
            (m.readWord (s.plat.sts p l) &&& 0x7FFF7FFF)) s.mmio)
          (L.flatMap fun l => [.write (s.plat.ctl p l) 0x00008000, .read (s.plat.ctl p l) 0,
            .write (s.plat.sts p l) 0x80008000]).reverse).ended s.cur b b.core .ok)) ∧
    (s.plat.valid = true → s.mmio.wf = true → s.phyAuto = false → ∀ k : Nat,
      k = (s.plat.tRstUs + s.plat.pollUs - 1) / s.plat.pollUs → exec (.mbReset p lanes) s = .next
      (((s.after (L.foldl (fun m l => (m.putWord (s.plat.ctl p l) 0x00008000).putWord (s.plat.sts p l)
            (m.readWord (s.plat.sts p l) &&& 0x7FFF7FFF)) s.mmio)
          (L.flatMap fun l => .write (s.plat.ctl p l) 0x00008000 ::
            (List.replicate k [.read (s.plat.ctl p l) 0x00008000, .sleep s.plat.pollUs]).flatten ++
              [.read (s.plat.ctl p l) 0x00008000, .write (s.plat.sts p l) 0x80008000]).reverse).later
          (L.length * (k * s.plat.pollUs))).ended s.cur b b.core .ok))

/-- SRAM_READ writes the two address registers of the window and returns its two data registers, high byte
first; SRAM_WRITE writes the four registers on every set lane (40_message_bus.md R176, R177). -/
def Obligations.SramCommands : Prop :=
  ∀ (s : State) (b : Bank) (p : Nat) (lanes : BitVec 2) (L : List Nat) (l : Nat), s.banks[s.cur]? = some b → s.quiet →
    legalityEntry (.sramWrite p lanes) b.core.fsm = some none →
    L = [0, 1].filter (fun l => lanes.getLsbD l) → (l = if lanes.getLsbD 0 then 0 else 1) →
    (¬ badOperand s.plat (.sramRead p lanes) b.core → s.lanesReady p [l] →
      ∃ m tr, s.touched p [l] m ∧ exec (.sramRead p lanes) s = .next
        (((s.sramSelect p l (b.core.arg0.setWidth 16)).after m tr).ended s.cur b
          { b.core with result := ((s.sramSelect p l (b.core.arg0.setWidth 16)).sramData p l).setWidth 64 } .ok)) ∧
    (¬ badOperand s.plat (.sramWrite p lanes) b.core → s.lanesReady p L →
      ∃ m tr, s.touched p L m ∧ exec (.sramWrite p lanes) s = .next
        (((L.foldl (fun t l => t.sramStore p l (b.core.arg0.setWidth 16) (b.core.arg1.setWidth 16)) s).after m tr).ended
          s.cur b b.core .ok))

/-- On every lane of every port the four writes of SRAM_WRITE store the word, and SRAM_READ's two writes and two
reads give it (20_memory.md R82). A committed write that ends no such group of writes stores its byte in the register
and changes nothing else, so a committed write of the value a register holds changes nothing (R87). Which of the
accesses stores the word and which shows it, and that the uncommitted writes before a committed one make the group, is
the model's choice (log 8). -/
def Obligations.SramWindow : Prop :=
  ∀ (s : State) (p l : Nat), windowDistinct s.plat.c20Window → l < 2 →
    s.phy.wf = true → s.sram.wf = true → ∀ a v : BitVec 16,
    (∀ a', (s.sramStore p l a v).sramWord p l a' = if a' = a then v else s.sramWord p l a') ∧
    (∀ q k a', k < 2 → ¬ (q = p ∧ k = l) → (s.sramStore p l a v).sramWord q k a' = s.sramWord q k a') ∧
    (s.sramSelect p l a).sramData p l = s.sramWord p l a ∧ (s.sramSelect p l a).sram = s.sram ∧
    ∀ (x : BitVec 12) (d : Byte), (∀ y, (p, l, y) ∉ s.uncommitted) →
      s.phyWrite p l x d true = s.setPhyReg p l x d ∧ (d = s.phyReg p l x → s.phyWrite p l x d true = s)

/-- What the PHY of a lane does with the words on its wires, and where its responses appear (40_message_bus.md
R154, 30_encoding.md R122 to R125): PENDING falls, a write is performed, a read answers with the register, a
reset falls. That a wire word is run as an instruction is log 15; that the bits of P2M_STS which 10_state.md R53
leaves unspecified are 0 in a response is log 7. -/
def Obligations.WireWordsAct : Prop :=
  ∀ (s : State) (r : LaneRegs) (a : BitVec 12) (d : Byte), s.plat.laneRegs? s.busPort s.busLane = some r →
    exec (.m2pWriteUncommitted a d) s = .next { s.phyWrite s.busPort s.busLane a d false with
      mmio := s.mmio.putWord r.ctl (m2pWord 1 a d &&& 0x7FFF7FFF) } ∧
    exec (.m2pWriteCommitted a d) s = .next { s.phyWrite s.busPort s.busLane a d true with
      mmio := (s.mmio.putWord r.ctl (m2pWord 2 a d &&& 0x7FFF7FFF)).putWord r.sts (0x80000000 ||| (5 <<< 27)) } ∧
    exec (.m2pRead a d) s = .next { s with
      mmio := (s.mmio.putWord r.ctl (m2pWord 3 a d &&& 0x7FFF7FFF)).putWord r.sts
        (0x80000000 ||| (4 <<< 27) ||| ((s.phyRead s.busPort s.busLane a).setWidth 32 <<< 16)) } ∧
    exec .m2pBusReset s = .next { s with mmio := s.mmio.putWord r.ctl 0 } ∧
    exec (.p2mReadAck d) s = .next { s with
      mmio := s.mmio.putWord r.sts (0x80000000 ||| (4 <<< 27) ||| (d.setWidth 32 <<< 16)) } ∧
    exec (.p2mWriteAck d) s = .next { s with
      mmio := s.mmio.putWord r.sts (0x80000000 ||| (5 <<< 27) ||| (d.setWidth 32 <<< 16)) }

/-- A PHY that never answers: a read, a write, a read-modify-write or an SRAM access ends BUS_TIMEOUT, RESULT of a read
is 0, nothing reaches the PHY, and there is exactly one bus reset for each attempt, three for the retrying commands
and one for the others: the failure of its first bus operation ends a command (40_message_bus.md R157 to R160, R170,
R176, R177). Of several lanes only the lowest is accessed: the first lane that fails ends a command (R167, R169, R171,
30_encoding.md R116). -/
def Obligations.SilentPhyTimesOut : Prop :=
  ∀ (s : State) (b : Bank) (i : Instr) (p l attempts : Nat) (lanes : BitVec 2) (k : Bool) (r : LaneRegs),
    s.banks[s.cur]? = some b → s.quiet → s.plat.valid = true → s.phyAuto = false → s.mmio.wf = true →
    s.plat.laneRegs? p l = some r → (l = if lanes.getLsbD 0 then 0 else 1) →
    (i ∈ [.mbRead p lanes, .mbWrite p lanes k, .mbRmw p lanes k, .sramRead p lanes, .sramWrite p lanes] ∧ attempts = 3) ∨
      (i ∈ [.mbReadOnce p lanes, .mbWriteOnce p lanes k] ∧ attempts = 1) →
    legalityEntry i b.core.fsm = some none → ¬ badOperand s.plat i b.core →
    ∃ t tr, exec i s = .next t ∧ t.phy = s.phy ∧ t.sram = s.sram ∧ t.uncommitted = s.uncommitted ∧
      t.count (.write r.ctl 0x00008000) = s.count (.write r.ctl 0x00008000) + attempts ∧
      t.trace = tr ++ s.trace ∧ (∀ y ∈ tr, y.isOnLane r = true) ∧
      (∀ a, ¬ onLaneRegs r a → t.mmio.read a = s.mmio.read a) ∧
      t.banks[s.cur]? = some { b with
        seq := none
        core := { b.core with
          code := .busTimeout, busy := false, result := if returnsValue i then 0 else b.core.result } }

/-- Bad answers of a PHY: ERROR set, or a type that is not the one expected (for an uncommitted write ERROR only).
Every such answer fails its attempt with BUS_PROTOCOL_ERROR after one bus reset. A retrying command goes on with
the next attempt, ends OK with the first that succeeds and makes no further one, and after three bad answers ends
BUS_PROTOCOL_ERROR; the commands of one attempt end so after one (40_message_bus.md R153, R157 to R169). RESULT of
a failed read is 0. A write that is performed up to three times leaves the PHY as one performed write does, where the
registers of the SRAM window have eight different addresses, which no rule asks for (logs 8 and 26). -/
def Obligations.BadAnswersRetried : Prop :=
  ∀ (s : State) (b : Bank) (i : Instr) (p l attempts : Nat) (lanes : BitVec 2) (r : LaneRegs) (vs : List Word),
    s.banks[s.cur]? = some b → s.plat.valid = true → s.lanesReady p [l] → s.plat.laneRegs? p l = some r →
    s.phy.wf = true → s.sram.wf = true → windowDistinct s.plat.c20Window →
    legalityEntry i b.core.fsm = some none → ¬ badOperand s.plat i b.core → vs.length ≤ attempts →
    ∀ (a : BitVec 12) (d : Byte), a = b.core.arg0.setWidth 12 → d = b.core.arg1.setWidth 8 →
    ((i = .mbRead p lanes ∧ attempts = 3) ∨ (i = .mbReadOnce p lanes ∧ attempts = 1) →
      (l = if lanes.getLsbD 0 then 0 else 1) → (∀ v ∈ vs, badAck 4 v) → s.sched = badAnswers r.sts 3 vs →
      ∃ t, exec i s = .next t ∧ t.quiet ∧ t.phy = s.phy ∧ t.sram = s.sram ∧ t.uncommitted = s.uncommitted ∧
        t.count (.write r.ctl (m2pWord 3 a 0)) = s.count (.write r.ctl (m2pWord 3 a 0)) + min (vs.length + 1) attempts ∧
        t.count (.write r.ctl 0x00008000) = s.count (.write r.ctl 0x00008000) + vs.length ∧
        t.banks[s.cur]? = some { b with
          seq := none
          core := { b.core with
            code := if vs.length = attempts then .busProtocolError else .ok
            busy := false
            result := if vs.length = attempts then 0 else (s.phyRead p l a).setWidth 64 } }) ∧
    (∀ k : Bool, (i = .mbWrite p lanes k ∧ attempts = 3) ∨ (i = .mbWriteOnce p lanes k ∧ attempts = 1) →
      lanes = 1#2 <<< l → (∀ v ∈ vs, if k then badAck 5 v else wireBit15 v = true) →
      s.sched = badAnswers r.sts 4 vs →
      ∃ t, exec i s = .next t ∧ t.quiet ∧ t.phy = (s.phyWrite p l a d k).phy ∧ t.sram = (s.phyWrite p l a d k).sram ∧
        t.uncommitted = (s.phyWrite p l a d k).uncommitted ∧
        t.count (.write r.ctl (m2pWord (if k then 2 else 1) a d)) =
          s.count (.write r.ctl (m2pWord (if k then 2 else 1) a d)) + min (vs.length + 1) attempts ∧
        t.count (.write r.ctl 0x00008000) = s.count (.write r.ctl 0x00008000) + vs.length ∧
        t.banks[s.cur]? = some { b with
          seq := none
          core := { b.core with
            code := if vs.length = attempts then .busProtocolError else .ok, busy := false } })
end

