-- ==== Sys2Proof/Laws/State.lean ====
section
/-! SUPPORT. One lemma for each field of State under each of the record updates, so that no proof
unfolds an update. -/

namespace Sys2Proof.Machine

variable (s : State)

/-! ### `State.modifyBank` -/

@[simp] theorem State.modifyBank_banks (n : Nat) (f : Bank → Bank) : (s.modifyBank n f).banks = s.banks.modify n f := rfl
@[simp] theorem State.modifyBank_enabled (n : Nat) (f : Bank → Bank) : (s.modifyBank n f).enabled = s.enabled := rfl
@[simp] theorem State.modifyBank_shutdown (n : Nat) (f : Bank → Bank) : (s.modifyBank n f).shutdown = s.shutdown := rfl
@[simp] theorem State.modifyBank_now (n : Nat) (f : Bank → Bank) : (s.modifyBank n f).now = s.now := rfl
@[simp] theorem State.modifyBank_mmio (n : Nat) (f : Bank → Bank) : (s.modifyBank n f).mmio = s.mmio := rfl
@[simp] theorem State.modifyBank_phy (n : Nat) (f : Bank → Bank) : (s.modifyBank n f).phy = s.phy := rfl
@[simp] theorem State.modifyBank_sram (n : Nat) (f : Bank → Bank) : (s.modifyBank n f).sram = s.sram := rfl
@[simp] theorem State.modifyBank_uncommitted (n : Nat) (f : Bank → Bank) : (s.modifyBank n f).uncommitted = s.uncommitted := rfl
@[simp] theorem State.modifyBank_plat (n : Nat) (f : Bank → Bank) : (s.modifyBank n f).plat = s.plat := rfl
@[simp] theorem State.modifyBank_phyAuto (n : Nat) (f : Bank → Bank) : (s.modifyBank n f).phyAuto = s.phyAuto := rfl
@[simp] theorem State.modifyBank_inputs (n : Nat) (f : Bank → Bank) : (s.modifyBank n f).inputs = s.inputs := rfl
@[simp] theorem State.modifyBank_sched (n : Nat) (f : Bank → Bank) : (s.modifyBank n f).sched = s.sched := rfl
@[simp] theorem State.modifyBank_turn (n : Nat) (f : Bank → Bank) : (s.modifyBank n f).turn = s.turn := rfl
@[simp] theorem State.modifyBank_epoch (n : Nat) (f : Bank → Bank) : (s.modifyBank n f).epoch = s.epoch := rfl
@[simp] theorem State.modifyBank_cur (n : Nat) (f : Bank → Bank) : (s.modifyBank n f).cur = s.cur := rfl
@[simp] theorem State.modifyBank_busPort (n : Nat) (f : Bank → Bank) : (s.modifyBank n f).busPort = s.busPort := rfl
@[simp] theorem State.modifyBank_busLane (n : Nat) (f : Bank → Bank) : (s.modifyBank n f).busLane = s.busLane := rfl
@[simp] theorem State.modifyBank_trace (n : Nat) (f : Bank → Bank) : (s.modifyBank n f).trace = s.trace := rfl

/-! ### `State.modifyCore` -/

@[simp] theorem State.modifyCore_banks (n : Nat) (f : Core → Core) : (s.modifyCore n f).banks = s.banks.modify n fun b => { b with core := f b.core } := rfl
@[simp] theorem State.modifyCore_enabled (n : Nat) (f : Core → Core) : (s.modifyCore n f).enabled = s.enabled := rfl
@[simp] theorem State.modifyCore_shutdown (n : Nat) (f : Core → Core) : (s.modifyCore n f).shutdown = s.shutdown := rfl
@[simp] theorem State.modifyCore_now (n : Nat) (f : Core → Core) : (s.modifyCore n f).now = s.now := rfl
@[simp] theorem State.modifyCore_mmio (n : Nat) (f : Core → Core) : (s.modifyCore n f).mmio = s.mmio := rfl
@[simp] theorem State.modifyCore_phy (n : Nat) (f : Core → Core) : (s.modifyCore n f).phy = s.phy := rfl
@[simp] theorem State.modifyCore_sram (n : Nat) (f : Core → Core) : (s.modifyCore n f).sram = s.sram := rfl
@[simp] theorem State.modifyCore_uncommitted (n : Nat) (f : Core → Core) : (s.modifyCore n f).uncommitted = s.uncommitted := rfl
@[simp] theorem State.modifyCore_plat (n : Nat) (f : Core → Core) : (s.modifyCore n f).plat = s.plat := rfl
@[simp] theorem State.modifyCore_phyAuto (n : Nat) (f : Core → Core) : (s.modifyCore n f).phyAuto = s.phyAuto := rfl
@[simp] theorem State.modifyCore_inputs (n : Nat) (f : Core → Core) : (s.modifyCore n f).inputs = s.inputs := rfl
@[simp] theorem State.modifyCore_sched (n : Nat) (f : Core → Core) : (s.modifyCore n f).sched = s.sched := rfl
@[simp] theorem State.modifyCore_turn (n : Nat) (f : Core → Core) : (s.modifyCore n f).turn = s.turn := rfl
@[simp] theorem State.modifyCore_epoch (n : Nat) (f : Core → Core) : (s.modifyCore n f).epoch = s.epoch := rfl
@[simp] theorem State.modifyCore_cur (n : Nat) (f : Core → Core) : (s.modifyCore n f).cur = s.cur := rfl
@[simp] theorem State.modifyCore_busPort (n : Nat) (f : Core → Core) : (s.modifyCore n f).busPort = s.busPort := rfl
@[simp] theorem State.modifyCore_busLane (n : Nat) (f : Core → Core) : (s.modifyCore n f).busLane = s.busLane := rfl
@[simp] theorem State.modifyCore_trace (n : Nat) (f : Core → Core) : (s.modifyCore n f).trace = s.trace := rfl

/-! ### `State.record` -/

@[simp] theorem State.record_banks (r : Record) : (s.record r).banks = s.banks := rfl
@[simp] theorem State.record_enabled (r : Record) : (s.record r).enabled = s.enabled := rfl
@[simp] theorem State.record_shutdown (r : Record) : (s.record r).shutdown = s.shutdown := rfl
@[simp] theorem State.record_now (r : Record) : (s.record r).now = s.now := rfl
@[simp] theorem State.record_mmio (r : Record) : (s.record r).mmio = s.mmio := rfl
@[simp] theorem State.record_phy (r : Record) : (s.record r).phy = s.phy := rfl
@[simp] theorem State.record_sram (r : Record) : (s.record r).sram = s.sram := rfl
@[simp] theorem State.record_uncommitted (r : Record) : (s.record r).uncommitted = s.uncommitted := rfl
@[simp] theorem State.record_plat (r : Record) : (s.record r).plat = s.plat := rfl
@[simp] theorem State.record_phyAuto (r : Record) : (s.record r).phyAuto = s.phyAuto := rfl
@[simp] theorem State.record_inputs (r : Record) : (s.record r).inputs = s.inputs := rfl
@[simp] theorem State.record_sched (r : Record) : (s.record r).sched = s.sched := rfl
@[simp] theorem State.record_turn (r : Record) : (s.record r).turn = s.turn := rfl
@[simp] theorem State.record_epoch (r : Record) : (s.record r).epoch = s.epoch := rfl
@[simp] theorem State.record_cur (r : Record) : (s.record r).cur = s.cur := rfl
@[simp] theorem State.record_busPort (r : Record) : (s.record r).busPort = s.busPort := rfl
@[simp] theorem State.record_busLane (r : Record) : (s.record r).busLane = s.busLane := rfl
@[simp] theorem State.record_trace (r : Record) : (s.record r).trace = r :: s.trace := rfl

/-! ### `State.endCommand` -/

@[simp] theorem State.endCommand_banks (n : Nat) : (s.endCommand n).banks = s.banks.modify n fun b => { b with seq := none } := rfl
@[simp] theorem State.endCommand_enabled (n : Nat) : (s.endCommand n).enabled = s.enabled := rfl
@[simp] theorem State.endCommand_shutdown (n : Nat) : (s.endCommand n).shutdown = s.shutdown := rfl
@[simp] theorem State.endCommand_now (n : Nat) : (s.endCommand n).now = s.now := rfl
@[simp] theorem State.endCommand_mmio (n : Nat) : (s.endCommand n).mmio = s.mmio := rfl
@[simp] theorem State.endCommand_phy (n : Nat) : (s.endCommand n).phy = s.phy := rfl
@[simp] theorem State.endCommand_sram (n : Nat) : (s.endCommand n).sram = s.sram := rfl
@[simp] theorem State.endCommand_uncommitted (n : Nat) : (s.endCommand n).uncommitted = s.uncommitted := rfl
@[simp] theorem State.endCommand_plat (n : Nat) : (s.endCommand n).plat = s.plat := rfl
@[simp] theorem State.endCommand_phyAuto (n : Nat) : (s.endCommand n).phyAuto = s.phyAuto := rfl
@[simp] theorem State.endCommand_inputs (n : Nat) : (s.endCommand n).inputs = s.inputs := rfl
@[simp] theorem State.endCommand_sched (n : Nat) : (s.endCommand n).sched = s.sched := rfl
@[simp] theorem State.endCommand_turn (n : Nat) : (s.endCommand n).turn = s.turn := rfl
@[simp] theorem State.endCommand_epoch (n : Nat) : (s.endCommand n).epoch = s.epoch := rfl
@[simp] theorem State.endCommand_cur (n : Nat) : (s.endCommand n).cur = s.cur := rfl
@[simp] theorem State.endCommand_busPort (n : Nat) : (s.endCommand n).busPort = s.busPort := rfl
@[simp] theorem State.endCommand_busLane (n : Nat) : (s.endCommand n).busLane = s.busLane := rfl
@[simp] theorem State.endCommand_trace (n : Nat) : (s.endCommand n).trace = s.trace := rfl

/-! ### `State.setEnabled` -/

@[simp] theorem State.setEnabled_banks (k : Nat) (b : Bool) : (s.setEnabled k b).banks = s.banks := rfl
@[simp] theorem State.setEnabled_enabled (k : Nat) (b : Bool) : (s.setEnabled k b).enabled = s.enabled.set k b := rfl
@[simp] theorem State.setEnabled_shutdown (k : Nat) (b : Bool) : (s.setEnabled k b).shutdown = s.shutdown := rfl
@[simp] theorem State.setEnabled_now (k : Nat) (b : Bool) : (s.setEnabled k b).now = s.now := rfl
@[simp] theorem State.setEnabled_mmio (k : Nat) (b : Bool) : (s.setEnabled k b).mmio = s.mmio := rfl
@[simp] theorem State.setEnabled_phy (k : Nat) (b : Bool) : (s.setEnabled k b).phy = s.phy := rfl
@[simp] theorem State.setEnabled_sram (k : Nat) (b : Bool) : (s.setEnabled k b).sram = s.sram := rfl
@[simp] theorem State.setEnabled_uncommitted (k : Nat) (b : Bool) : (s.setEnabled k b).uncommitted = s.uncommitted := rfl
@[simp] theorem State.setEnabled_plat (k : Nat) (b : Bool) : (s.setEnabled k b).plat = s.plat := rfl
@[simp] theorem State.setEnabled_phyAuto (k : Nat) (b : Bool) : (s.setEnabled k b).phyAuto = s.phyAuto := rfl
@[simp] theorem State.setEnabled_inputs (k : Nat) (b : Bool) : (s.setEnabled k b).inputs = s.inputs := rfl
@[simp] theorem State.setEnabled_sched (k : Nat) (b : Bool) : (s.setEnabled k b).sched = s.sched := rfl
@[simp] theorem State.setEnabled_turn (k : Nat) (b : Bool) : (s.setEnabled k b).turn = s.turn := rfl
@[simp] theorem State.setEnabled_epoch (k : Nat) (b : Bool) : (s.setEnabled k b).epoch = s.epoch := rfl
@[simp] theorem State.setEnabled_cur (k : Nat) (b : Bool) : (s.setEnabled k b).cur = s.cur := rfl
@[simp] theorem State.setEnabled_busPort (k : Nat) (b : Bool) : (s.setEnabled k b).busPort = s.busPort := rfl
@[simp] theorem State.setEnabled_busLane (k : Nat) (b : Bool) : (s.setEnabled k b).busLane = s.busLane := rfl
@[simp] theorem State.setEnabled_trace (k : Nat) (b : Bool) : (s.setEnabled k b).trace = s.trace := rfl

/-! ### `State.setPhyReg` -/

@[simp] theorem State.setPhyReg_banks (p l : Nat) (a : BitVec 12) (v : Byte) : (s.setPhyReg p l a v).banks = s.banks := rfl
@[simp] theorem State.setPhyReg_enabled (p l : Nat) (a : BitVec 12) (v : Byte) : (s.setPhyReg p l a v).enabled = s.enabled := rfl
@[simp] theorem State.setPhyReg_shutdown (p l : Nat) (a : BitVec 12) (v : Byte) : (s.setPhyReg p l a v).shutdown = s.shutdown := rfl
@[simp] theorem State.setPhyReg_now (p l : Nat) (a : BitVec 12) (v : Byte) : (s.setPhyReg p l a v).now = s.now := rfl
@[simp] theorem State.setPhyReg_mmio (p l : Nat) (a : BitVec 12) (v : Byte) : (s.setPhyReg p l a v).mmio = s.mmio := rfl
@[simp] theorem State.setPhyReg_phy (p l : Nat) (a : BitVec 12) (v : Byte) : (s.setPhyReg p l a v).phy = s.phy.put (phyKey p l a) v := rfl
@[simp] theorem State.setPhyReg_sram (p l : Nat) (a : BitVec 12) (v : Byte) : (s.setPhyReg p l a v).sram = s.sram := rfl
@[simp] theorem State.setPhyReg_uncommitted (p l : Nat) (a : BitVec 12) (v : Byte) : (s.setPhyReg p l a v).uncommitted = s.uncommitted := rfl
@[simp] theorem State.setPhyReg_plat (p l : Nat) (a : BitVec 12) (v : Byte) : (s.setPhyReg p l a v).plat = s.plat := rfl
@[simp] theorem State.setPhyReg_phyAuto (p l : Nat) (a : BitVec 12) (v : Byte) : (s.setPhyReg p l a v).phyAuto = s.phyAuto := rfl
@[simp] theorem State.setPhyReg_inputs (p l : Nat) (a : BitVec 12) (v : Byte) : (s.setPhyReg p l a v).inputs = s.inputs := rfl
@[simp] theorem State.setPhyReg_sched (p l : Nat) (a : BitVec 12) (v : Byte) : (s.setPhyReg p l a v).sched = s.sched := rfl
@[simp] theorem State.setPhyReg_turn (p l : Nat) (a : BitVec 12) (v : Byte) : (s.setPhyReg p l a v).turn = s.turn := rfl
@[simp] theorem State.setPhyReg_epoch (p l : Nat) (a : BitVec 12) (v : Byte) : (s.setPhyReg p l a v).epoch = s.epoch := rfl
@[simp] theorem State.setPhyReg_cur (p l : Nat) (a : BitVec 12) (v : Byte) : (s.setPhyReg p l a v).cur = s.cur := rfl
@[simp] theorem State.setPhyReg_busPort (p l : Nat) (a : BitVec 12) (v : Byte) : (s.setPhyReg p l a v).busPort = s.busPort := rfl
@[simp] theorem State.setPhyReg_busLane (p l : Nat) (a : BitVec 12) (v : Byte) : (s.setPhyReg p l a v).busLane = s.busLane := rfl
@[simp] theorem State.setPhyReg_trace (p l : Nat) (a : BitVec 12) (v : Byte) : (s.setPhyReg p l a v).trace = s.trace := rfl

/-! ### `State.setSramWord` -/

@[simp] theorem State.setSramWord_banks (p l : Nat) (a v : BitVec 16) : (s.setSramWord p l a v).banks = s.banks := rfl
@[simp] theorem State.setSramWord_enabled (p l : Nat) (a v : BitVec 16) : (s.setSramWord p l a v).enabled = s.enabled := rfl
@[simp] theorem State.setSramWord_shutdown (p l : Nat) (a v : BitVec 16) : (s.setSramWord p l a v).shutdown = s.shutdown := rfl
@[simp] theorem State.setSramWord_now (p l : Nat) (a v : BitVec 16) : (s.setSramWord p l a v).now = s.now := rfl
@[simp] theorem State.setSramWord_mmio (p l : Nat) (a v : BitVec 16) : (s.setSramWord p l a v).mmio = s.mmio := rfl
@[simp] theorem State.setSramWord_phy (p l : Nat) (a v : BitVec 16) : (s.setSramWord p l a v).phy = s.phy := rfl
@[simp] theorem State.setSramWord_sram (p l : Nat) (a v : BitVec 16) : (s.setSramWord p l a v).sram = (s.sram.put (sramKey p l a) (v.extractLsb' 0 8)).put (sramKey p l a + 1) (v.extractLsb' 8 8) := rfl
@[simp] theorem State.setSramWord_uncommitted (p l : Nat) (a v : BitVec 16) : (s.setSramWord p l a v).uncommitted = s.uncommitted := rfl
@[simp] theorem State.setSramWord_plat (p l : Nat) (a v : BitVec 16) : (s.setSramWord p l a v).plat = s.plat := rfl
@[simp] theorem State.setSramWord_phyAuto (p l : Nat) (a v : BitVec 16) : (s.setSramWord p l a v).phyAuto = s.phyAuto := rfl
@[simp] theorem State.setSramWord_inputs (p l : Nat) (a v : BitVec 16) : (s.setSramWord p l a v).inputs = s.inputs := rfl
@[simp] theorem State.setSramWord_sched (p l : Nat) (a v : BitVec 16) : (s.setSramWord p l a v).sched = s.sched := rfl
@[simp] theorem State.setSramWord_turn (p l : Nat) (a v : BitVec 16) : (s.setSramWord p l a v).turn = s.turn := rfl
@[simp] theorem State.setSramWord_epoch (p l : Nat) (a v : BitVec 16) : (s.setSramWord p l a v).epoch = s.epoch := rfl
@[simp] theorem State.setSramWord_cur (p l : Nat) (a v : BitVec 16) : (s.setSramWord p l a v).cur = s.cur := rfl
@[simp] theorem State.setSramWord_busPort (p l : Nat) (a v : BitVec 16) : (s.setSramWord p l a v).busPort = s.busPort := rfl
@[simp] theorem State.setSramWord_busLane (p l : Nat) (a v : BitVec 16) : (s.setSramWord p l a v).busLane = s.busLane := rfl
@[simp] theorem State.setSramWord_trace (p l : Nat) (a v : BitVec 16) : (s.setSramWord p l a v).trace = s.trace := rfl

/-! ### `State.pokeWord` -/

@[simp] theorem State.pokeWord_banks (off v : Word) : (s.pokeWord off v).banks = s.banks := rfl
@[simp] theorem State.pokeWord_enabled (off v : Word) : (s.pokeWord off v).enabled = s.enabled := rfl
@[simp] theorem State.pokeWord_shutdown (off v : Word) : (s.pokeWord off v).shutdown = s.shutdown := rfl
@[simp] theorem State.pokeWord_now (off v : Word) : (s.pokeWord off v).now = s.now := rfl
@[simp] theorem State.pokeWord_mmio (off v : Word) : (s.pokeWord off v).mmio = s.mmio.putWord off v := rfl
@[simp] theorem State.pokeWord_phy (off v : Word) : (s.pokeWord off v).phy = s.phy := rfl
@[simp] theorem State.pokeWord_sram (off v : Word) : (s.pokeWord off v).sram = s.sram := rfl
@[simp] theorem State.pokeWord_uncommitted (off v : Word) : (s.pokeWord off v).uncommitted = s.uncommitted := rfl
@[simp] theorem State.pokeWord_plat (off v : Word) : (s.pokeWord off v).plat = s.plat := rfl
@[simp] theorem State.pokeWord_phyAuto (off v : Word) : (s.pokeWord off v).phyAuto = s.phyAuto := rfl
@[simp] theorem State.pokeWord_inputs (off v : Word) : (s.pokeWord off v).inputs = s.inputs := rfl
@[simp] theorem State.pokeWord_sched (off v : Word) : (s.pokeWord off v).sched = s.sched := rfl
@[simp] theorem State.pokeWord_turn (off v : Word) : (s.pokeWord off v).turn = s.turn := rfl
@[simp] theorem State.pokeWord_epoch (off v : Word) : (s.pokeWord off v).epoch = s.epoch := rfl
@[simp] theorem State.pokeWord_cur (off v : Word) : (s.pokeWord off v).cur = s.cur := rfl
@[simp] theorem State.pokeWord_busPort (off v : Word) : (s.pokeWord off v).busPort = s.busPort := rfl
@[simp] theorem State.pokeWord_busLane (off v : Word) : (s.pokeWord off v).busLane = s.busLane := rfl
@[simp] theorem State.pokeWord_trace (off v : Word) : (s.pokeWord off v).trace = s.trace := rfl

/-! ### `State.sleep` -/

@[simp] theorem State.sleep_banks (d : Time) : (s.sleep d).banks = s.banks := rfl
@[simp] theorem State.sleep_enabled (d : Time) : (s.sleep d).enabled = s.enabled := rfl
@[simp] theorem State.sleep_shutdown (d : Time) : (s.sleep d).shutdown = s.shutdown := rfl
@[simp] theorem State.sleep_now (d : Time) : (s.sleep d).now = s.now + d := rfl
@[simp] theorem State.sleep_mmio (d : Time) : (s.sleep d).mmio = s.mmio := rfl
@[simp] theorem State.sleep_phy (d : Time) : (s.sleep d).phy = s.phy := rfl
@[simp] theorem State.sleep_sram (d : Time) : (s.sleep d).sram = s.sram := rfl
@[simp] theorem State.sleep_uncommitted (d : Time) : (s.sleep d).uncommitted = s.uncommitted := rfl
@[simp] theorem State.sleep_plat (d : Time) : (s.sleep d).plat = s.plat := rfl
@[simp] theorem State.sleep_phyAuto (d : Time) : (s.sleep d).phyAuto = s.phyAuto := rfl
@[simp] theorem State.sleep_inputs (d : Time) : (s.sleep d).inputs = s.inputs := rfl
@[simp] theorem State.sleep_sched (d : Time) : (s.sleep d).sched = s.sched := rfl
@[simp] theorem State.sleep_turn (d : Time) : (s.sleep d).turn = s.turn := rfl
@[simp] theorem State.sleep_epoch (d : Time) : (s.sleep d).epoch = s.epoch := rfl
@[simp] theorem State.sleep_cur (d : Time) : (s.sleep d).cur = s.cur := rfl
@[simp] theorem State.sleep_busPort (d : Time) : (s.sleep d).busPort = s.busPort := rfl
@[simp] theorem State.sleep_busLane (d : Time) : (s.sleep d).busLane = s.busLane := rfl
@[simp] theorem State.sleep_trace (d : Time) : (s.sleep d).trace = .sleep d :: s.trace := rfl

/-! ### `State.traced` -/

@[simp] theorem State.traced_banks (rs : List Record) : (s.traced rs).banks = s.banks := rfl
@[simp] theorem State.traced_enabled (rs : List Record) : (s.traced rs).enabled = s.enabled := rfl
@[simp] theorem State.traced_shutdown (rs : List Record) : (s.traced rs).shutdown = s.shutdown := rfl
@[simp] theorem State.traced_now (rs : List Record) : (s.traced rs).now = s.now := rfl
@[simp] theorem State.traced_mmio (rs : List Record) : (s.traced rs).mmio = s.mmio := rfl
@[simp] theorem State.traced_phy (rs : List Record) : (s.traced rs).phy = s.phy := rfl
@[simp] theorem State.traced_sram (rs : List Record) : (s.traced rs).sram = s.sram := rfl
@[simp] theorem State.traced_uncommitted (rs : List Record) : (s.traced rs).uncommitted = s.uncommitted := rfl
@[simp] theorem State.traced_plat (rs : List Record) : (s.traced rs).plat = s.plat := rfl
@[simp] theorem State.traced_phyAuto (rs : List Record) : (s.traced rs).phyAuto = s.phyAuto := rfl
@[simp] theorem State.traced_inputs (rs : List Record) : (s.traced rs).inputs = s.inputs := rfl
@[simp] theorem State.traced_sched (rs : List Record) : (s.traced rs).sched = s.sched := rfl
@[simp] theorem State.traced_turn (rs : List Record) : (s.traced rs).turn = s.turn := rfl
@[simp] theorem State.traced_epoch (rs : List Record) : (s.traced rs).epoch = s.epoch := rfl
@[simp] theorem State.traced_cur (rs : List Record) : (s.traced rs).cur = s.cur := rfl
@[simp] theorem State.traced_busPort (rs : List Record) : (s.traced rs).busPort = s.busPort := rfl
@[simp] theorem State.traced_busLane (rs : List Record) : (s.traced rs).busLane = s.busLane := rfl
@[simp] theorem State.traced_trace (rs : List Record) : (s.traced rs).trace = rs ++ s.trace := rfl

/-! ### `State.ended` -/

@[simp] theorem State.ended_banks (n : Nat) (b : Bank) (c : Core) (st : Status) : (s.ended n b c st).banks = s.banks.set n { b with core := { c with code := st, busy := false }, seq := none } := rfl
@[simp] theorem State.ended_enabled (n : Nat) (b : Bank) (c : Core) (st : Status) : (s.ended n b c st).enabled = s.enabled := rfl
@[simp] theorem State.ended_shutdown (n : Nat) (b : Bank) (c : Core) (st : Status) : (s.ended n b c st).shutdown = s.shutdown := rfl
@[simp] theorem State.ended_now (n : Nat) (b : Bank) (c : Core) (st : Status) : (s.ended n b c st).now = s.now := rfl
@[simp] theorem State.ended_mmio (n : Nat) (b : Bank) (c : Core) (st : Status) : (s.ended n b c st).mmio = s.mmio := rfl
@[simp] theorem State.ended_phy (n : Nat) (b : Bank) (c : Core) (st : Status) : (s.ended n b c st).phy = s.phy := rfl
@[simp] theorem State.ended_sram (n : Nat) (b : Bank) (c : Core) (st : Status) : (s.ended n b c st).sram = s.sram := rfl
@[simp] theorem State.ended_uncommitted (n : Nat) (b : Bank) (c : Core) (st : Status) : (s.ended n b c st).uncommitted = s.uncommitted := rfl
@[simp] theorem State.ended_plat (n : Nat) (b : Bank) (c : Core) (st : Status) : (s.ended n b c st).plat = s.plat := rfl
@[simp] theorem State.ended_phyAuto (n : Nat) (b : Bank) (c : Core) (st : Status) : (s.ended n b c st).phyAuto = s.phyAuto := rfl
@[simp] theorem State.ended_inputs (n : Nat) (b : Bank) (c : Core) (st : Status) : (s.ended n b c st).inputs = s.inputs := rfl
@[simp] theorem State.ended_sched (n : Nat) (b : Bank) (c : Core) (st : Status) : (s.ended n b c st).sched = s.sched := rfl
@[simp] theorem State.ended_turn (n : Nat) (b : Bank) (c : Core) (st : Status) : (s.ended n b c st).turn = s.turn := rfl
@[simp] theorem State.ended_epoch (n : Nat) (b : Bank) (c : Core) (st : Status) : (s.ended n b c st).epoch = s.epoch := rfl
@[simp] theorem State.ended_cur (n : Nat) (b : Bank) (c : Core) (st : Status) : (s.ended n b c st).cur = s.cur := rfl
@[simp] theorem State.ended_busPort (n : Nat) (b : Bank) (c : Core) (st : Status) : (s.ended n b c st).busPort = s.busPort := rfl
@[simp] theorem State.ended_busLane (n : Nat) (b : Bank) (c : Core) (st : Status) : (s.ended n b c st).busLane = s.busLane := rfl
@[simp] theorem State.ended_trace (n : Nat) (b : Bank) (c : Core) (st : Status) : (s.ended n b c st).trace = s.trace := rfl

/-! ### The SRAM window -/

@[simp] theorem State.loadReadData_banks (p l : Nat) : (s.loadReadData p l).banks = s.banks := rfl
@[simp] theorem State.loadReadData_enabled (p l : Nat) : (s.loadReadData p l).enabled = s.enabled := rfl
@[simp] theorem State.loadReadData_shutdown (p l : Nat) : (s.loadReadData p l).shutdown = s.shutdown := rfl
@[simp] theorem State.loadReadData_now (p l : Nat) : (s.loadReadData p l).now = s.now := rfl
@[simp] theorem State.loadReadData_mmio (p l : Nat) : (s.loadReadData p l).mmio = s.mmio := rfl
@[simp] theorem State.loadReadData_sram (p l : Nat) : (s.loadReadData p l).sram = s.sram := rfl
@[simp] theorem State.loadReadData_uncommitted (p l : Nat) : (s.loadReadData p l).uncommitted = s.uncommitted := rfl
@[simp] theorem State.loadReadData_plat (p l : Nat) : (s.loadReadData p l).plat = s.plat := rfl
@[simp] theorem State.loadReadData_phyAuto (p l : Nat) : (s.loadReadData p l).phyAuto = s.phyAuto := rfl
@[simp] theorem State.loadReadData_inputs (p l : Nat) : (s.loadReadData p l).inputs = s.inputs := rfl
@[simp] theorem State.loadReadData_sched (p l : Nat) : (s.loadReadData p l).sched = s.sched := rfl
@[simp] theorem State.loadReadData_turn (p l : Nat) : (s.loadReadData p l).turn = s.turn := rfl
@[simp] theorem State.loadReadData_epoch (p l : Nat) : (s.loadReadData p l).epoch = s.epoch := rfl
@[simp] theorem State.loadReadData_cur (p l : Nat) : (s.loadReadData p l).cur = s.cur := rfl
@[simp] theorem State.loadReadData_busPort (p l : Nat) : (s.loadReadData p l).busPort = s.busPort := rfl
@[simp] theorem State.loadReadData_busLane (p l : Nat) : (s.loadReadData p l).busLane = s.busLane := rfl
@[simp] theorem State.loadReadData_trace (p l : Nat) : (s.loadReadData p l).trace = s.trace := rfl

@[simp] theorem State.storeWriteData_banks (p l : Nat) : (s.storeWriteData p l).banks = s.banks := rfl
@[simp] theorem State.storeWriteData_enabled (p l : Nat) : (s.storeWriteData p l).enabled = s.enabled := rfl
@[simp] theorem State.storeWriteData_shutdown (p l : Nat) : (s.storeWriteData p l).shutdown = s.shutdown := rfl
@[simp] theorem State.storeWriteData_now (p l : Nat) : (s.storeWriteData p l).now = s.now := rfl
@[simp] theorem State.storeWriteData_mmio (p l : Nat) : (s.storeWriteData p l).mmio = s.mmio := rfl
@[simp] theorem State.storeWriteData_phy (p l : Nat) : (s.storeWriteData p l).phy = s.phy := rfl
@[simp] theorem State.storeWriteData_uncommitted (p l : Nat) : (s.storeWriteData p l).uncommitted = s.uncommitted := rfl
@[simp] theorem State.storeWriteData_plat (p l : Nat) : (s.storeWriteData p l).plat = s.plat := rfl
@[simp] theorem State.storeWriteData_phyAuto (p l : Nat) : (s.storeWriteData p l).phyAuto = s.phyAuto := rfl
@[simp] theorem State.storeWriteData_inputs (p l : Nat) : (s.storeWriteData p l).inputs = s.inputs := rfl
@[simp] theorem State.storeWriteData_sched (p l : Nat) : (s.storeWriteData p l).sched = s.sched := rfl
@[simp] theorem State.storeWriteData_turn (p l : Nat) : (s.storeWriteData p l).turn = s.turn := rfl
@[simp] theorem State.storeWriteData_epoch (p l : Nat) : (s.storeWriteData p l).epoch = s.epoch := rfl
@[simp] theorem State.storeWriteData_cur (p l : Nat) : (s.storeWriteData p l).cur = s.cur := rfl
@[simp] theorem State.storeWriteData_busPort (p l : Nat) : (s.storeWriteData p l).busPort = s.busPort := rfl
@[simp] theorem State.storeWriteData_busLane (p l : Nat) : (s.storeWriteData p l).busLane = s.busLane := rfl
@[simp] theorem State.storeWriteData_trace (p l : Nat) : (s.storeWriteData p l).trace = s.trace := rfl

@[simp] theorem State.setUncommitted_banks (p l : Nat) (a : BitVec 12) : (s.setUncommitted p l a).banks = s.banks := rfl
@[simp] theorem State.setUncommitted_enabled (p l : Nat) (a : BitVec 12) : (s.setUncommitted p l a).enabled = s.enabled := rfl
@[simp] theorem State.setUncommitted_shutdown (p l : Nat) (a : BitVec 12) : (s.setUncommitted p l a).shutdown = s.shutdown := rfl
@[simp] theorem State.setUncommitted_now (p l : Nat) (a : BitVec 12) : (s.setUncommitted p l a).now = s.now := rfl
@[simp] theorem State.setUncommitted_mmio (p l : Nat) (a : BitVec 12) : (s.setUncommitted p l a).mmio = s.mmio := rfl
@[simp] theorem State.setUncommitted_phy (p l : Nat) (a : BitVec 12) : (s.setUncommitted p l a).phy = s.phy := rfl
@[simp] theorem State.setUncommitted_sram (p l : Nat) (a : BitVec 12) : (s.setUncommitted p l a).sram = s.sram := rfl
@[simp] theorem State.setUncommitted_plat (p l : Nat) (a : BitVec 12) : (s.setUncommitted p l a).plat = s.plat := rfl
@[simp] theorem State.setUncommitted_phyAuto (p l : Nat) (a : BitVec 12) : (s.setUncommitted p l a).phyAuto = s.phyAuto := rfl
@[simp] theorem State.setUncommitted_inputs (p l : Nat) (a : BitVec 12) : (s.setUncommitted p l a).inputs = s.inputs := rfl
@[simp] theorem State.setUncommitted_sched (p l : Nat) (a : BitVec 12) : (s.setUncommitted p l a).sched = s.sched := rfl
@[simp] theorem State.setUncommitted_turn (p l : Nat) (a : BitVec 12) : (s.setUncommitted p l a).turn = s.turn := rfl
@[simp] theorem State.setUncommitted_epoch (p l : Nat) (a : BitVec 12) : (s.setUncommitted p l a).epoch = s.epoch := rfl
@[simp] theorem State.setUncommitted_cur (p l : Nat) (a : BitVec 12) : (s.setUncommitted p l a).cur = s.cur := rfl
@[simp] theorem State.setUncommitted_busPort (p l : Nat) (a : BitVec 12) : (s.setUncommitted p l a).busPort = s.busPort := rfl
@[simp] theorem State.setUncommitted_busLane (p l : Nat) (a : BitVec 12) : (s.setUncommitted p l a).busLane = s.busLane := rfl
@[simp] theorem State.setUncommitted_trace (p l : Nat) (a : BitVec 12) : (s.setUncommitted p l a).trace = s.trace := rfl

@[simp] theorem State.clearUncommitted_banks (p l : Nat) : (s.clearUncommitted p l).banks = s.banks := rfl
@[simp] theorem State.clearUncommitted_enabled (p l : Nat) : (s.clearUncommitted p l).enabled = s.enabled := rfl
@[simp] theorem State.clearUncommitted_shutdown (p l : Nat) : (s.clearUncommitted p l).shutdown = s.shutdown := rfl
@[simp] theorem State.clearUncommitted_now (p l : Nat) : (s.clearUncommitted p l).now = s.now := rfl
@[simp] theorem State.clearUncommitted_mmio (p l : Nat) : (s.clearUncommitted p l).mmio = s.mmio := rfl
@[simp] theorem State.clearUncommitted_phy (p l : Nat) : (s.clearUncommitted p l).phy = s.phy := rfl
@[simp] theorem State.clearUncommitted_sram (p l : Nat) : (s.clearUncommitted p l).sram = s.sram := rfl
@[simp] theorem State.clearUncommitted_plat (p l : Nat) : (s.clearUncommitted p l).plat = s.plat := rfl
@[simp] theorem State.clearUncommitted_phyAuto (p l : Nat) : (s.clearUncommitted p l).phyAuto = s.phyAuto := rfl
@[simp] theorem State.clearUncommitted_inputs (p l : Nat) : (s.clearUncommitted p l).inputs = s.inputs := rfl
@[simp] theorem State.clearUncommitted_sched (p l : Nat) : (s.clearUncommitted p l).sched = s.sched := rfl
@[simp] theorem State.clearUncommitted_turn (p l : Nat) : (s.clearUncommitted p l).turn = s.turn := rfl
@[simp] theorem State.clearUncommitted_epoch (p l : Nat) : (s.clearUncommitted p l).epoch = s.epoch := rfl
@[simp] theorem State.clearUncommitted_cur (p l : Nat) : (s.clearUncommitted p l).cur = s.cur := rfl
@[simp] theorem State.clearUncommitted_busPort (p l : Nat) : (s.clearUncommitted p l).busPort = s.busPort := rfl
@[simp] theorem State.clearUncommitted_busLane (p l : Nat) : (s.clearUncommitted p l).busLane = s.busLane := rfl
@[simp] theorem State.clearUncommitted_trace (p l : Nat) : (s.clearUncommitted p l).trace = s.trace := rfl

end Sys2Proof.Machine
end

