-- ==== Sys2Proof/Laws/Run.lean ====
section
/-! SUPPORT. The laws of the pseudocode language and of a run: each construct applied to what follows it,
one action of a run where nothing else moves, and what an action leaves alone. -/

namespace Sys2Proof.Machine

/-! ### Code -/

theorem Code.bind_apply {α β : Type} (x : Code α) (f : α → Code β) (k : β → Prog) :
    (x >>= f) k = x fun a => f a k := rfl

theorem Code.pure_apply {α : Type} (a : α) (k : α → Prog) : (pure a : Code α) k = k a := rfl

theorem Code.map_apply {α β : Type} (g : α → β) (x : Code α) (k : β → Prog) :
    (g <$> x) k = x fun a => k (g a) := rfl

theorem Code.ite_apply {α : Type} (c : Prop) [Decidable c] (x y : Code α) (k : α → Prog) :
    (if c then x else y) k = if c then x k else y k := by split <;> rfl

theorem Code.prog_eq (c : Code Status) : c.prog = c Prog.ending := rfl

theorem raise_apply {α : Type} (st : Status) (k : α → Prog) : (raise st : Code α) k = .ending st := rfl

theorem onlyIf_true (c : Code Unit) : onlyIf true c = c := rfl

theorem onlyIf_false (c : Code Unit) : onlyIf false c = pure () := rfl

theorem onlyIf_apply (b : Bool) (c : Code Unit) (k : Unit → Prog) :
    onlyIf b c k = if b then c k else k () := by cases b <;> rfl

theorem perform_apply (r : Req) (k : Unit → Prog) : perform r k = .act r fun _ => k () := rfl

theorem performAll_nil (k : Unit → Prog) : performAll [] k = k () := rfl

theorem performAll_cons (r : Req) (rs : List Req) (k : Unit → Prog) :
    performAll (r :: rs) k = perform r fun _ => performAll rs k := rfl

theorem Prog.ending_eq (st : Status) :
    Prog.ending st = performAll [.setCode st, .clearBusy] fun _ => .ret st := rfl

theorem memWrite_apply (off v : Word) (k : Unit → Prog) :
    memWrite off v k = .act (.write off v) fun _ => k () := rfl

theorem sleepUs_apply (d : Time) (k : Unit → Prog) : sleepUs d k = .act (.sleep d) fun _ => k () := rfl

theorem sleepMs_apply (d : Nat) (k : Unit → Prog) : sleepMs d k = .act (.sleep (d * 1000)) fun _ => k () := rfl

theorem memRead_apply (off : Word) (k : Word → Prog) :
    memRead off k = .act (.read off) fun a => k a.asWord := rfl

theorem readTime_apply (k : Time → Prog) : readTime k = .act .time fun a => k a.asTime := rfl

theorem sampleShutdown_apply (k : Bool → Prog) :
    sampleShutdown k = .act .sampleShutdown fun a => k a.asFlag := rfl

theorem sampleDone_apply (k : Bool → Prog) : sampleDone k = .act .sampleDone fun a => k a.asFlag := rfl

theorem awaitDone_apply (b : Bool) (k : Bool → Prog) :
    awaitDone b k = .act (.awaitDone b) fun a => k a.asFlag := rfl

theorem pollShutdown_apply (k : Unit → Prog) : pollShutdown k = .act .pollShutdown fun _ => k () := rfl

theorem readRbStatus_apply (k : Status → Prog) :
    readRbStatus k = .act .readRbStatus fun a => k a.asStatus := rfl

theorem claim_apply (sel : Selector) (i : Nat) (k : Bool → Prog) :
    claim sel i k = .act (.claim sel i) fun a => k a.asFlag := rfl

theorem testAndClear_apply (fired : Bool) (k : Option (Option Selector × List Slot) → Prog) :
    testAndClear fired k = .act (.testAndClear fired) fun a => k a.asOwner := rfl

/-! ### Runs -/

/-- Where nothing is scheduled, nothing moves between two actions. -/
theorem State.interfere_quiet {s : State} (h : s.quiet) : s.interfere = s := by
  unfold State.quiet at h
  obtain ⟨banks, enabled, shutdown, now, mmio, phy, sram, uncommitted, plat, phyAuto, inputs, sched, turn, epoch, cur,
    busPort, busLane, trace⟩ := s
  subst h
  rfl

theorem run_ret (who : Runner) (hist : List Resp) (st : Status) (s : State) :
    run who hist (.ret st) s = s.finish who := rfl

/-- One action of a run where nothing else moves. -/
theorem run_act (who : Runner) (hist : List Resp) (r : Req) (k : Resp → Prog) {s : State} (h : s.quiet) :
    run who hist (.act r k) s =
      match performReq who.inst r s with
      | (none, s2) => s2.suspend who (r.heldAt hist)
      | (some a, s2) => run who (hist ++ [a]) (k a) s2 := by
  have hi : (if r.visible = true then s.interfere else s) = s := by
    split
    · exact State.interfere_quiet h
    · rfl
  conv => lhs; unfold run
  simp only [hi, ne_eq, not_true_eq_false, if_false] <;> rfl

theorem run_act_some (who : Runner) (hist : List Resp) (r : Req) (k : Resp → Prog) {s t : State} {a : Resp}
    (h : s.quiet) (hp : performReq who.inst r s = (some a, t)) :
    run who hist (.act r k) s = run who (hist ++ [a]) (k a) t := by
  rw [run_act who hist r k h, hp]

theorem run_act_none (who : Runner) (hist : List Resp) (r : Req) (k : Resp → Prog) {s t : State}
    (h : s.quiet) (hp : performReq who.inst r s = (none, t)) :
    run who hist (.act r k) s = t.suspend who (r.heldAt hist) := by
  rw [run_act who hist r k h, hp]

theorem run_memRead (who : Runner) (hist : List Resp) (off : Word) (k : Word → Prog) {s : State} (h : s.quiet) :
    run who hist (memRead off k) s =
      run who (hist ++ [.word (s.mmioRead off)]) (k (s.mmioRead off)) (s.record (.read off (s.mmioRead off))) :=
  run_act_some who hist _ _ h rfl

theorem run_memWrite (who : Runner) (hist : List Resp) (off v : Word) (k : Unit → Prog) {s : State}
    (h : s.quiet) :
    run who hist (memWrite off v k) s =
      run who (hist ++ [.unit]) (k ()) ((s.mmioWrite off v).record (.write off v)) :=
  run_act_some who hist _ _ h rfl

theorem run_readTime (who : Runner) (hist : List Resp) (k : Time → Prog) {s : State} (h : s.quiet) :
    run who hist (readTime k) s = run who (hist ++ [.time s.now]) (k s.now) s :=
  run_act_some who hist _ _ h rfl

theorem run_sleepUs (who : Runner) (hist : List Resp) (d : Time) (k : Unit → Prog) {s : State} (h : s.quiet) :
    run who hist (sleepUs d k) s = run who (hist ++ [.unit]) (k ()) (s.sleep d) :=
  run_act_some who hist _ _ h rfl

theorem run_sleepMs (who : Runner) (hist : List Resp) (d : Nat) (k : Unit → Prog) {s : State} (h : s.quiet) :
    run who hist (sleepMs d k) s = run who (hist ++ [.unit]) (k ()) (s.sleep (d * 1000)) :=
  run_act_some who hist _ _ h rfl

theorem run_sampleShutdown (who : Runner) (hist : List Resp) (k : Bool → Prog) {s : State} (h : s.quiet) :
    run who hist (sampleShutdown k) s = run who (hist ++ [.flag s.shutdown]) (k s.shutdown) s :=
  run_act_some who hist _ _ h rfl

theorem run_sampleDone (who : Runner) (hist : List Resp) (k : Bool → Prog) {s : State} (h : s.quiet) :
    run who hist (sampleDone k) s =
      run who (hist ++ [.flag (s.coreAt who.inst).done]) (k (s.coreAt who.inst).done) s :=
  run_act_some who hist _ _ h rfl

theorem run_readRbStatus (who : Runner) (hist : List Resp) (k : Status → Prog) {s : State} (h : s.quiet) :
    run who hist (readRbStatus k) s =
      run who (hist ++ [.status (s.coreAt who.inst).rbStatus]) (k (s.coreAt who.inst).rbStatus) s :=
  run_act_some who hist _ _ h rfl

theorem run_claim (who : Runner) (hist : List Resp) (sel : Selector) (i : Nat) (k : Bool → Prog) {s : State}
    (h : s.quiet) :
    run who hist (claim sel i k) s =
      run who (hist ++ [.flag (s.claim who.inst sel i).1]) (k (s.claim who.inst sel i).1)
        (s.claim who.inst sel i).2 :=
  run_act_some who hist _ _ h rfl

/-- The actions that only write registers of the agent's own bank. -/
def Req.isLocal : Req → Bool
  | .setRbStatus _ | .setDone | .setFsm _ | .setApplied _ | .addOrig _ | .addMod _ | .setC20 _ | .setCaptured => true
  | .dropSel | .dropSlots | .dropCaptured | .dropArmed => true
  | .setMod _ _ | .setResult _ | .setFreqOrig _ | .setFreqMod _ | .setUsedShift _ => true
  | .setReg _ _ | .setCount _ _ | .setCode _ | .clearBusy => true
  | .read _ | .write _ _ | .time | .sleep _ | .sampleShutdown | .sampleDone | .awaitDone _ | .pollShutdown => false
  | .readRbStatus | .claim _ _ | .release | .testAndClear _ | .arm _ => false

theorem performReq_local (n : Nat) (r : Req) (s : State) (h : r.isLocal = true) :
    performReq n r s = (some .unit, s.modifyCore n (r.effect s.now)) := by
  cases r <;> first | rfl | cases h

theorem run_perform_local (who : Runner) (hist : List Resp) (r : Req) (k : Unit → Prog) {s : State}
    (h : s.quiet) (hr : r.isLocal = true) :
    run who hist (perform r k) s =
      run who (hist ++ [.unit]) (k ()) (s.modifyCore who.inst (r.effect s.now)) :=
  run_act_some who hist _ _ h (performReq_local _ _ _ hr)

/-! ### Agents that never wait -/

/-- The actions at which an agent may stay where it is: the done polls and the release. -/
def Req.mayWait : Req → Bool
  | .awaitDone _ | .pollShutdown | .release => true
  | .setRbStatus _ | .setDone | .setFsm _ | .setApplied _ | .addOrig _ | .addMod _ | .setC20 _ | .setCaptured => false
  | .dropSel | .dropSlots | .dropCaptured | .dropArmed => false
  | .setMod _ _ | .setResult _ | .setFreqOrig _ | .setFreqMod _ | .setUsedShift _ => false
  | .setReg _ _ | .setCount _ _ | .setCode _ | .clearBusy => false
  | .read _ | .write _ _ | .time | .sleep _ | .sampleShutdown | .sampleDone => false
  | .readRbStatus | .claim _ _ | .testAndClear _ | .arm _ => false

/-- The program makes no done poll and no release. -/
def Prog.neverWaits (p : Prog) : Prop := p.All fun r => r.mayWait = false

/-- Every other action has an answer. -/
theorem performReq_answers (n : Nat) (r : Req) (s : State) (h : r.mayWait = false) :
    ∃ a t, performReq n r s = (some a, t) := by
  cases r <;> first | exact ⟨_, _, rfl⟩ | cases h

/-- The answers so far do not matter to an agent that never waits. -/
theorem run_hist (who : Runner) (p : Prog) (hp : p.neverWaits) (h h' : List Resp) (s : State) :
    run who h p s = run who h' p s := by
  induction p generalizing h h' s with
  | ret st => rfl
  | act r k ih =>
    obtain ⟨a, t, ht⟩ := performReq_answers who.inst r (if r.visible then s.interfere else s) hp.1
    unfold run
    simp only [ht]
    rw [ih a (hp.2 a) (h ++ [a]) (h' ++ [a]) t]

/-! ### Stores and accesses -/

/-- Two states differ in nothing but the stores and the PHYs' marks of uncommitted writes. -/
def State.storesOnly (s t : State) : Prop :=
  ∃ m ph sr un, t = { s with mmio := m, phy := ph, sram := sr, uncommitted := un }

theorem State.storesOnly_refl (s : State) : s.storesOnly s := ⟨_, _, _, _, rfl⟩

theorem State.storesOnly_trans {s t u : State} (h : s.storesOnly t) (h' : t.storesOnly u) : s.storesOnly u := by
  obtain ⟨m, ph, sr, un, rfl⟩ := h
  obtain ⟨m', ph', sr', un', rfl⟩ := h'
  exact ⟨m', ph', sr', un', rfl⟩

theorem State.storesOnly_pokeWord (s : State) (off v : Word) : s.storesOnly (s.pokeWord off v) := ⟨_, _, _, _, rfl⟩

theorem State.storesOnly_setPhyReg (s : State) (p l : Nat) (a : BitVec 12) (v : Byte) :
    s.storesOnly (s.setPhyReg p l a v) := ⟨_, _, _, _, rfl⟩

theorem State.storesOnly_setSramWord (s : State) (p l : Nat) (a v : BitVec 16) :
    s.storesOnly (s.setSramWord p l a v) := ⟨_, _, _, _, rfl⟩

/-- A write in the PHY changes its registers, its SRAM and its marks of uncommitted writes, and nothing else. -/
theorem State.phyWrite_eq (s : State) (p l : Nat) (a : BitVec 12) (d : Byte) (k : Bool) :
    ∃ ph sr un, s.phyWrite p l a d k = { s with phy := ph, sram := sr, uncommitted := un } := by
  cases k
  · exact ⟨_, _, _, rfl⟩
  · simp only [State.phyWrite, State.commitWrite, if_true]
    cases s.endsSramWrite p l a <;> cases s.endsSramSelect p l a <;> exact ⟨_, _, _, rfl⟩

theorem State.storesOnly_phyWrite (s : State) (p l : Nat) (a : BitVec 12) (d : Byte) (k : Bool) :
    s.storesOnly (s.phyWrite p l a d k) := by
  obtain ⟨ph, sr, un, e⟩ := s.phyWrite_eq p l a d k
  exact ⟨_, ph, sr, un, e⟩

theorem State.storesOnly_takeWriteUncommitted (s : State) (p l : Nat) (r : LaneRegs) (a : BitVec 12) (d : Byte) :
    s.storesOnly (s.takeWriteUncommitted p l r a d) := by
  unfold State.takeWriteUncommitted State.clearPending
  exact State.storesOnly_trans (s.storesOnly_pokeWord _ _) (State.storesOnly_phyWrite _ _ _ _ _ _)

theorem State.storesOnly_takeWriteCommitted (s : State) (p l : Nat) (r : LaneRegs) (a : BitVec 12) (d : Byte) :
    s.storesOnly (s.takeWriteCommitted p l r a d) := by
  unfold State.takeWriteCommitted State.clearPending State.postResponse
  exact State.storesOnly_trans
    (State.storesOnly_trans (s.storesOnly_pokeWord _ _) (State.storesOnly_phyWrite _ _ _ _ _ _))
    (State.storesOnly_pokeWord _ _ _)

theorem State.storesOnly_takeRead (s : State) (p l : Nat) (r : LaneRegs) (a : BitVec 12) (d : Byte) :
    s.storesOnly (s.takeRead p l r a d) := by
  unfold State.takeRead State.clearPending State.postResponse
  exact State.storesOnly_trans (s.storesOnly_pokeWord _ _) (State.storesOnly_pokeWord _ _ _)

theorem State.storesOnly_takeBusReset (s : State) (r : LaneRegs) : s.storesOnly (s.takeBusReset r) := by
  unfold State.takeBusReset State.clearPending
  exact s.storesOnly_pokeWord _ _

/-- A PHY that acts on a lane changes only the stores. -/
theorem State.storesOnly_phyTake (s : State) (p l : Nat) (r : LaneRegs) : s.storesOnly (s.phyTake p l r) := by
  unfold State.phyTake
  generalize decodeM2p (s.mmio.readWord r.ctl) = o
  rcases o with _ | i
  · exact s.storesOnly_refl
  cases i
  case m2pRead a d => exact s.storesOnly_takeRead p l r a d
  case m2pWriteCommitted a d => exact s.storesOnly_takeWriteCommitted p l r a d
  case m2pWriteUncommitted a d => exact s.storesOnly_takeWriteUncommitted p l r a d
  case m2pBusReset => exact s.storesOnly_takeBusReset r
  all_goals exact s.storesOnly_refl

/-- A wire word changes only the stores. -/
theorem State.storesOnly_wireAct (s : State) (p l : Nat) (r : LaneRegs) (i : Instr) :
    s.storesOnly (s.wireAct p l r i) := by
  cases i
  case m2pRead a d => exact s.storesOnly_takeRead p l r a d
  case m2pWriteCommitted a d => exact s.storesOnly_takeWriteCommitted p l r a d
  case m2pWriteUncommitted a d => exact s.storesOnly_takeWriteUncommitted p l r a d
  case m2pBusReset => exact s.storesOnly_takeBusReset r
  case p2mReadAck d => exact s.storesOnly_pokeWord r.sts _
  case p2mWriteAck d => exact s.storesOnly_pokeWord r.sts _
  all_goals exact s.storesOnly_refl

/-- An MMIO write changes only the stores. -/
theorem State.storesOnly_mmioWrite (s : State) (off v : Word) : s.storesOnly (s.mmioWrite off v) := by
  unfold State.mmioWrite
  dsimp only
  split
  · split
    · exact State.storesOnly_trans (s.storesOnly_pokeWord _ _) (State.storesOnly_phyTake _ _ _ _)
    · exact s.storesOnly_pokeWord _ _
  · exact s.storesOnly_pokeWord _ _

/-- A write to an offset that is no message-bus register stores the word. -/
theorem State.mmioWrite_plain (s : State) (off v : Word) (h : plainOffset s.plat off = true) :
    s.mmioWrite off v = s.pokeWord off v := by
  simp only [plainOffset, Bool.and_eq_true, Bool.not_eq_true', Option.isNone_iff_eq_none] at h
  unfold State.mmioWrite State.written
  simp [h.1, h.2]

/-! ### What one action may change -/

/-- No action of an agent touches the inputs, the schedule, the configuration, `shutdown`, the turn, or
the number of resets, and none moves time back. -/
theorem performReq_keeps (n : Nat) (r : Req) (s : State) :
    let t := (performReq n r s).2
    t.inputs = s.inputs ∧ t.sched = s.sched ∧ t.plat = s.plat ∧ t.shutdown = s.shutdown ∧
      t.turn = s.turn ∧ t.epoch = s.epoch ∧ t.cur = s.cur ∧ t.phyAuto = s.phyAuto ∧ s.now ≤ t.now ∧
      t.banks.length = s.banks.length ∧ t.enabled.length = s.enabled.length := by
  cases r
  case write off v =>
    obtain ⟨m, ph, sr, un, h⟩ := s.storesOnly_mmioWrite off v
    simp [performReq, h]
  case awaitDone b =>
    simp only [performReq, State.awaitDone]
    split
    · simp
    · split <;> simp
  case claim sel k =>
    simp only [performReq, State.claim]
    split
    · simp
    · split
      · split <;> simp
      · simp
  case pollShutdown => simp [performReq]
  case release =>
    simp only [performReq, State.tryRelease, State.release]
    repeat' split
    all_goals simp
  case testAndClear =>
    simp only [performReq, State.testAndClear]
    split <;> simp
  all_goals simp [performReq]

theorem performReq_quiet (n : Nat) (r : Req) (s : State) (h : s.quiet) : (performReq n r s).2.quiet := by
  have := performReq_keeps n r s
  unfold State.quiet at *
  exact this.2.1.trans h

end Sys2Proof.Machine
end

