-- ==== Sys2Proof/Laws/Banks.lean ====
section
/-! SUPPORT. Reading and writing one bank: the bank of a command under way, and its end. -/

namespace Sys2Proof.Machine

variable {s : State} {n : Nat} {b : Bank}

/-- The state in which instance `n`, whose bank is `b`, has the registers `c`. -/
def State.withCore (s : State) (n : Nat) (b : Bank) (c : Core) : State :=
  { s with banks := s.banks.set n { b with core := c } }

theorem State.core?_eq (s : State) (n : Nat) : s.core? n = s.banks[n]?.map (·.core) := rfl

theorem State.core?_of_bank (h : s.banks[n]? = some b) : s.core? n = some b.core := by
  rw [State.core?_eq, h]; rfl

theorem State.coreAt_of_bank (h : s.banks[n]? = some b) : s.coreAt n = b.core := by
  rw [State.coreAt, State.core?_of_bank h]; rfl

theorem lt_of_bank (h : s.banks[n]? = some b) : n < s.banks.length := by
  rw [List.getElem?_eq_some_iff] at h
  exact h.1

/-- The list of banks with one changed by a function is the list with the result written. -/
theorem modify_eq_set (l : List Bank) (n : Nat) (f : Bank → Bank) {b : Bank} (h : l[n]? = some b) :
    l.modify n f = l.set n (f b) := by
  apply List.ext_getElem?
  intro m
  rw [List.getElem?_modify, List.getElem?_set]
  by_cases hm : n = m
  · subst hm
    obtain ⟨hl, rfl⟩ := List.getElem?_eq_some_iff.1 h
    simp [hl]
  · simp [hm]

theorem State.modifyBank_of_bank (h : s.banks[n]? = some b) (f : Bank → Bank) :
    s.modifyBank n f = { s with banks := s.banks.set n (f b) } := by
  rw [State.modifyBank, modify_eq_set _ _ _ h]

theorem State.modifyCore_of_bank (h : s.banks[n]? = some b) (f : Core → Core) :
    s.modifyCore n f = s.withCore n b (f b.core) := State.modifyBank_of_bank h _

theorem State.withCore_self (h : s.banks[n]? = some b) : s.withCore n b b.core = s := by
  have : s.banks.set n b = s.banks := by
    apply List.ext_getElem?
    intro m
    rw [List.getElem?_set]
    by_cases hm : n = m
    · subst hm
      obtain ⟨hl, rfl⟩ := List.getElem?_eq_some_iff.1 h
      simp [hl]
    · simp [hm]
  show { s with banks := s.banks.set n b } = s
  rw [this]

theorem State.withCore_bank (h : n < s.banks.length) (c : Core) :
    (s.withCore n b c).banks[n]? = some { b with core := c } := by
  simp [State.withCore, h]

theorem State.withCore_bank_ne (c : Core) {m : Nat} (h : m ≠ n) : (s.withCore n b c).banks[m]? = s.banks[m]? := by
  simp [State.withCore, Ne.symm h]

theorem State.withCore_coreAt (h : n < s.banks.length) (c : Core) : (s.withCore n b c).coreAt n = c :=
  State.coreAt_of_bank (State.withCore_bank h c)

theorem State.withCore_withCore (c c' : Core) : (s.withCore n b c).withCore n b c' = s.withCore n b c' := by
  simp [State.withCore, List.set_set]

theorem State.withCore_modifyCore (h : n < s.banks.length) (c : Core) (f : Core → Core) :
    (s.withCore n b c).modifyCore n f = s.withCore n b (f c) := by
  rw [State.modifyCore_of_bank (State.withCore_bank h c)]
  simp [State.withCore, List.set_set]

theorem State.withCore_endCommand (h : n < s.banks.length) (c : Core) (st : Status) :
    (s.withCore n b { c with code := st, busy := false }).endCommand n = s.ended n b c st := by
  rw [State.endCommand, State.modifyBank_of_bank (State.withCore_bank h _)]
  simp [State.withCore, State.ended, List.set_set]

theorem State.withCore_quiet (c : Core) : (s.withCore n b c).quiet ↔ s.quiet := Iff.rfl

/-- A command of an instance that exists is run on its bank. -/
theorem State.runCommand_of_bank (h : s.banks[s.cur]? = some b) (i : Instr)
    (code : Platform → Core → Code Status) :
    s.runCommand i code = .next (run (.seq s.cur (some i) b.core) [] (guarded i code s.plat b.core) s) := by
  rw [State.runCommand, State.core?_of_bank h]

/-- An action that writes only the agent's own registers. -/
theorem run_local_at (h : n < s.banks.length) (c : Core) (i : Option Instr) (view : Core) (hist : List Resp) (r : Req)
    (k : Unit → Prog) (hq : s.quiet) (hr : r.isLocal = true) :
    run (.seq n i view) hist (perform r k) (s.withCore n b c) =
      run (.seq n i view) (hist ++ [.unit]) (k ()) (s.withCore n b (r.effect s.now c)) := by
  rw [run_perform_local _ _ _ _ (show (s.withCore n b c).quiet from hq) hr]
  show run _ _ _ ((s.withCore n b c).modifyCore n _) = _
  rw [State.withCore_modifyCore h]
  rfl

/-- Such actions one after the other. -/
theorem run_locals_at (h : n < s.banks.length) (c : Core) (i : Option Instr) (view : Core) (hist : List Resp)
    (rs : List Req) (k : Unit → Prog) (hq : s.quiet) (hr : ∀ r ∈ rs, r.isLocal = true) :
    run (.seq n i view) hist (performAll rs k) (s.withCore n b c) =
      run (.seq n i view) (hist ++ List.replicate rs.length .unit) (k ())
        (s.withCore n b (rs.foldl (fun c r => r.effect s.now c) c)) := by
  induction rs generalizing c hist with
  | nil => simp [performAll_nil]
  | cons r rest ih =>
    rw [performAll_cons, run_local_at h c i view hist r _ hq (hr r (by simp)), ih _ _ fun x hx => hr x (by simp [hx])]
    simp [List.replicate_succ]

/-- The end of a run of a command. -/
theorem run_end (h : n < s.banks.length) (c : Core) (i : Option Instr) (view : Core) (hist : List Resp)
    (st : Status) (hq : s.quiet) :
    run (.seq n i view) hist (.ending st) (s.withCore n b c) = s.ended n b c st := by
  rw [Prog.ending_eq, run_locals_at h c i view hist _ _ hq (by simp [Req.isLocal])]
  exact State.withCore_endCommand h c st

/-- A command that is legal and whose operands are good runs its pseudocode. -/
theorem guarded_run {i : Instr} {code : Platform → Core → Code Status} {plat : Platform} {c : Core}
    (hl : legality i c.fsm = .run) (ho : operandsOk plat i c = true) :
    guarded i code plat c = code plat c Prog.ending := by
  unfold guarded
  rw [hl]
  simp only [ho, if_true]
  rfl

end Sys2Proof.Machine
end

