-- ==== Sys2Proof/Laws/Memory.lean ====
section
/-! SUPPORT. The laws of the byte stores: canonical form is kept, a read after a write gives the value
written, every other byte and word is left alone. -/

namespace Sys2Proof.Machine

/-! ### Bytes -/

@[simp] theorem Memory.read_nil (a : Nat) : Memory.read [] a = 0 := rfl

theorem Memory.read_cons (c : Nat) (v : Byte) (rest : Memory) (a : Nat) :
    Memory.read ((c, v) :: rest) a = if a = c then v else Memory.read rest a := rfl

/-- A store whose addresses all lie above `lo` reads 0 up to `lo`. -/
theorem Memory.read_below (m : Memory) (lo a : Nat) (h : Memory.sortedFrom (some lo) m = true) (ha : a ≤ lo) :
    m.read a = 0 := by
  induction m generalizing lo with
  | nil => rfl
  | cons c rest ih =>
    obtain ⟨c, v⟩ := c
    simp only [Memory.sortedFrom, Bool.and_eq_true, decide_eq_true_eq] at h
    rw [Memory.read_cons, if_neg (by omega)]
    exact ih c h.2 (by omega)

theorem Memory.sortedFrom_mono (m : Memory) (lo lo' : Nat) (h : Memory.sortedFrom (some lo) m = true)
    (hl : lo' ≤ lo) : Memory.sortedFrom (some lo') m = true := by
  cases m with
  | nil => rfl
  | cons c rest =>
    obtain ⟨c, v⟩ := c
    simp only [Memory.sortedFrom, Bool.and_eq_true, decide_eq_true_eq] at h ⊢
    exact ⟨⟨by omega, h.1.2⟩, h.2⟩

theorem Memory.sortedFrom_none (m : Memory) (lo : Nat) (h : Memory.sortedFrom (some lo) m = true) :
    m.wf = true := by
  cases m with
  | nil => rfl
  | cons c rest =>
    obtain ⟨c, v⟩ := c
    simp only [Memory.sortedFrom, Memory.wf, Bool.and_eq_true, decide_eq_true_eq] at h ⊢
    exact ⟨⟨trivial, h.1.2⟩, h.2⟩

/-- A write leaves every other byte alone. -/
theorem Memory.read_put_ne (m : Memory) (a : Nat) (b : Byte) (x : Nat) (h : x ≠ a) :
    (m.put a b).read x = m.read x := by
  induction m with
  | nil => unfold Memory.put; split <;> simp [Memory.read_cons, h]
  | cons c rest ih =>
    obtain ⟨c, v⟩ := c
    unfold Memory.put
    split
    · split <;> simp [Memory.read_cons, h]
    · split
      · subst_vars; split <;> simp [Memory.read_cons, h]
      · simp [Memory.read_cons, ih]

/-- A read of the byte written gives the byte. -/
theorem Memory.read_put_eq (m : Memory) (a : Nat) (b : Byte) (h : m.wf = true) : (m.put a b).read a = b := by
  suffices ∀ lo, Memory.sortedFrom lo m = true → (m.put a b).read a = b from this none h
  induction m with
  | nil => intro _ _; unfold Memory.put; split <;> simp_all [Memory.read_cons]
  | cons c rest ih =>
    obtain ⟨c, v⟩ := c
    intro lo hs
    have hr : Memory.sortedFrom (some c) rest = true := by
      simp only [Memory.sortedFrom, Bool.and_eq_true] at hs; exact hs.2
    unfold Memory.put
    split
    · split
      · subst_vars
        rw [Memory.read_cons, if_neg (by omega)]
        exact Memory.read_below rest c a hr (by omega)
      · simp [Memory.read_cons]
    · split
      · subst_vars
        split
        · subst_vars; exact Memory.read_below rest c c hr (le_refl c)
        · simp [Memory.read_cons]
      · rw [Memory.read_cons, if_neg (by assumption)]
        exact ih (Memory.sortedFrom_none rest c hr) (some c) hr

theorem Memory.read_put (m : Memory) (a : Nat) (b : Byte) (x : Nat) (h : m.wf = true) :
    (m.put a b).read x = if x = a then b else m.read x := by
  split
  · subst_vars; exact Memory.read_put_eq m _ b h
  · exact Memory.read_put_ne m a b x (by assumption)

/-- A write keeps the canonical form. -/
theorem Memory.put_wf (m : Memory) (a : Nat) (b : Byte) (h : m.wf = true) : (m.put a b).wf = true := by
  suffices ∀ lo, Memory.sortedFrom lo m = true → (∀ l, lo = some l → l < a) →
      Memory.sortedFrom lo (m.put a b) = true from this none h (by simp)
  clear h
  induction m with
  | nil =>
    intro lo _ hl
    unfold Memory.put
    split
    · rfl
    · cases lo <;> simp_all [Memory.sortedFrom]
  | cons c rest ih =>
    obtain ⟨c, v⟩ := c
    intro lo hs hl
    have hr : Memory.sortedFrom (some c) rest = true := by
      simp only [Memory.sortedFrom, Bool.and_eq_true] at hs; exact hs.2
    unfold Memory.put
    split
    · split
      · exact hs
      · cases lo <;> simp_all [Memory.sortedFrom]
    · split
      · subst_vars
        split
        · cases lo with
          | none => exact Memory.sortedFrom_none rest c hr
          | some l => exact Memory.sortedFrom_mono rest c l hr (le_of_lt (hl l rfl))
        · cases lo <;> simp_all [Memory.sortedFrom]
      · have := ih (some c) hr (by intro l hl'; cases hl'; omega)
        simp only [Memory.sortedFrom, Bool.and_eq_true] at hs ⊢
        exact ⟨hs.1, this⟩

/-! ### Words -/

theorem byteAddr_inj (off : Word) {i j : Nat} (hi : i < 4) (hj : j < 4) (h : byteAddr off i = byteAddr off j) :
    i = j := by
  unfold byteAddr at h
  have h2 := BitVec.eq_of_toNat_eq h
  have : BitVec.ofNat 32 i = BitVec.ofNat 32 j := by simpa using h2
  have := congrArg BitVec.toNat this
  simp at this
  omega

theorem byteAddr_ne (off : Word) {i j : Nat} (hi : i < 4) (hj : j < 4) (h : i ≠ j) :
    byteAddr off i ≠ byteAddr off j := fun e => h (byteAddr_inj off hi hj e)

theorem Memory.putWord_wf (m : Memory) (off v : Word) (h : m.wf = true) : (m.putWord off v).wf = true := by
  unfold Memory.putWord
  exact Memory.put_wf _ _ _ (Memory.put_wf _ _ _ (Memory.put_wf _ _ _ (Memory.put_wf _ _ _ h)))

/-- A word write leaves every byte outside the word alone. -/
theorem Memory.read_putWord_ne (m : Memory) (off v : Word) (x : Nat) (h : ¬ inWord off x) :
    (m.putWord off v).read x = m.read x := by
  have hk : ∀ k, k < 4 → x ≠ byteAddr off k := fun k hk e => h ⟨k, hk, e⟩
  unfold Memory.putWord
  rw [Memory.read_put_ne _ _ _ _ (hk 3 (by omega)), Memory.read_put_ne _ _ _ _ (hk 2 (by omega)),
    Memory.read_put_ne _ _ _ _ (hk 1 (by omega)), Memory.read_put_ne _ _ _ _ (hk 0 (by omega))]

theorem Memory.read_putWord_byte (m : Memory) (off v : Word) (h : m.wf = true) (k : Nat) (hk : k < 4) :
    (m.putWord off v).read (byteAddr off k) = v.extractLsb' (8 * k) 8 := by
  have w0 := Memory.put_wf m (byteAddr off 0) (v.extractLsb' 0 8) h
  have w1 := Memory.put_wf _ (byteAddr off 1) (v.extractLsb' 8 8) w0
  have w2 := Memory.put_wf _ (byteAddr off 2) (v.extractLsb' 16 8) w1
  unfold Memory.putWord
  rw [Memory.read_put _ _ _ _ w2, Memory.read_put _ _ _ _ w1, Memory.read_put _ _ _ _ w0, Memory.read_put _ _ _ _ h]
  interval_cases k
  · simp [byteAddr_ne off (show 0 < 4 by omega) (show 3 < 4 by omega), byteAddr_ne off (show 0 < 4 by omega) (show 2 < 4 by omega), byteAddr_ne off (show 0 < 4 by omega) (show 1 < 4 by omega)]
  · simp [byteAddr_ne off (show 1 < 4 by omega) (show 3 < 4 by omega), byteAddr_ne off (show 1 < 4 by omega) (show 2 < 4 by omega)]
  · simp [byteAddr_ne off (show 2 < 4 by omega) (show 3 < 4 by omega)]
  · simp

/-- A word is the four bytes it is made of. -/
theorem place_bytes (v : Word) :
    place (v.extractLsb' 0 8) 0 ||| place (v.extractLsb' 8 8) 8 ||| place (v.extractLsb' 16 8) 16
      ||| place (v.extractLsb' 24 8) 24 = v := by
  apply BitVec.eq_of_getLsbD_eq
  intro i hi
  interval_cases i <;> simp [place]

/-- A read of the word written gives the word. -/
theorem Memory.readWord_putWord_eq (m : Memory) (off v : Word) (h : m.wf = true) :
    (m.putWord off v).readWord off = v := by
  unfold Memory.readWord
  rw [Memory.read_putWord_byte m off v h 0 (by omega), Memory.read_putWord_byte m off v h 1 (by omega),
    Memory.read_putWord_byte m off v h 2 (by omega), Memory.read_putWord_byte m off v h 3 (by omega)]
  exact place_bytes v

/-- Two aligned words at different offsets have no byte in common. -/
theorem inWord_disjoint (a b : Word) (ha : alignedOffset a = true) (hb : alignedOffset b = true) (h : a ≠ b)
    (x : Nat) (hx : inWord a x) : ¬ inWord b x := by
  obtain ⟨i, hi, rfl⟩ := hx
  rintro ⟨j, hj, e⟩
  simp only [alignedOffset, beq_iff_eq] at ha hb
  have hne : a.toNat ≠ b.toNat := fun e => h (BitVec.eq_of_toNat_eq e)
  have := a.isLt
  have := b.isLt
  simp only [byteAddr, BitVec.toNat_add, BitVec.toNat_ofNat] at e
  omega

/-- A word write leaves every word it has no byte in common with alone. -/
theorem Memory.readWord_putWord_ne (m : Memory) (off v o : Word) (h : ∀ k < 4, ¬ inWord off (byteAddr o k)) :
    (m.putWord off v).readWord o = m.readWord o := by
  unfold Memory.readWord
  rw [Memory.read_putWord_ne _ _ _ _ (h 0 (by omega)), Memory.read_putWord_ne _ _ _ _ (h 1 (by omega)),
    Memory.read_putWord_ne _ _ _ _ (h 2 (by omega)), Memory.read_putWord_ne _ _ _ _ (h 3 (by omega))]

/-- An aligned word write leaves every other aligned word alone. -/
theorem Memory.readWord_putWord_aligned (m : Memory) (off v o : Word) (ha : alignedOffset off = true)
    (hb : alignedOffset o = true) (h : off ≠ o) : (m.putWord off v).readWord o = m.readWord o :=
  Memory.readWord_putWord_ne m off v o fun k hk =>
    fun hx => inWord_disjoint off o ha hb h _ hx ⟨k, hk, rfl⟩

end Sys2Proof.Machine
end

