-- ==== Sys2Proof/Laws/Lane.lean ====
section
/-! SUPPORT. What an admissible configuration says of a lane's two registers, what the words on them
decode to, and what one bus transaction does where the PHY is conforming and answers at once
(40_message_bus.md R154). -/

namespace Sys2Proof.Machine

/-! ### The lanes of an admissible configuration -/

theorem mem_lanesOf (n : Nat) (ports : List PortRegs) (p l : Nat) (r : LaneRegs) :
    (p, l, r) ∈ Platform.lanesOf n ports ↔
      ∃ q, ports[p - n]? = some q ∧ n ≤ p ∧ ((l = 0 ∧ r = q.lane0) ∨ (l = 1 ∧ r = q.lane1)) := by
  induction ports generalizing n with
  | nil => simp [Platform.lanesOf]
  | cons q rest ih =>
    simp only [Platform.lanesOf, List.mem_cons, Prod.mk.injEq, ih]
    constructor
    · rintro (⟨rfl, rfl, rfl⟩ | ⟨rfl, rfl, rfl⟩ | ⟨q', hq, hn, h⟩)
      · exact ⟨q, by simp, le_refl _, .inl ⟨rfl, rfl⟩⟩
      · exact ⟨q, by simp, le_refl _, .inr ⟨rfl, rfl⟩⟩
      · refine ⟨q', ?_, by omega, h⟩
        rw [show p - n = (p - (n + 1)) + 1 by omega]
        simpa using hq
    · rintro ⟨q', hq, hn, h⟩
      rcases Nat.eq_or_lt_of_le hn with rfl | hlt
      · simp at hq
        subst hq
        rcases h with ⟨rfl, rfl⟩ | ⟨rfl, rfl⟩ <;> simp
      · right; right
        refine ⟨q', ?_, by omega, h⟩
        rw [show p - n = (p - (n + 1)) + 1 by omega] at hq
        simpa using hq

theorem mem_allLanes (plat : Platform) (p l : Nat) (r : LaneRegs) :
    (p, l, r) ∈ plat.allLanes ↔ plat.laneRegs? p l = some r := by
  rw [Platform.allLanes, mem_lanesOf]
  unfold Platform.laneRegs?
  simp only [Nat.sub_zero, Nat.zero_le, true_and]
  cases h : plat.busPorts[p]? with
  | none => simp
  | some q =>
    simp only [Option.some.injEq, exists_eq_left']
    rcases Nat.lt_trichotomy l 1 with h0 | h1 | h2
    · simp [show l = 0 by omega, eq_comm]
    · simp [h1, eq_comm]
    · simp [show l ≠ 0 by omega, show l ≠ 1 by omega]

theorem noPair_eq_nodup (l : List Word) (h : noPair (fun a b : Word => a == b) l = true) : l.Nodup := by
  induction l with
  | nil => exact List.nodup_nil
  | cons a rest ih =>
    simp only [noPair, Bool.and_eq_true, List.all_eq_true, Bool.not_eq_true', beq_eq_false_iff_ne] at h
    exact List.nodup_cons.2 ⟨fun hm => (h.1 a hm) rfl, ih h.2⟩

/-- The checks of an admissible configuration on the lanes' registers. -/
theorem valid_lanes (plat : Platform) (h : plat.valid = true) :
    (∀ x ∈ plat.allLanes, alignedOffset x.2.2.ctl = true ∧ alignedOffset x.2.2.sts = true) ∧
      (plat.allLanes.flatMap fun x => [x.2.2.ctl, x.2.2.sts]).Nodup := by
  unfold Platform.valid Platform.lanesOk at h
  simp only [Bool.and_eq_true] at h
  obtain ⟨⟨-, hal, hnp⟩, -⟩ := h
  refine ⟨?_, noPair_eq_nodup _ hnp⟩
  simpa [List.all_eq_true] using hal

/-- A lane's registers: aligned, distinct, and found from their offsets. -/
structure LaneFacts (plat : Platform) (p l : Nat) (r : LaneRegs) : Prop where
  regs : plat.laneRegs? p l = some r
  ctlAligned : alignedOffset r.ctl = true
  stsAligned : alignedOffset r.sts = true
  distinct : r.ctl ≠ r.sts
  ctlLane : laneOfCtl? plat r.ctl = some (p, l, r)
  stsNoLane : laneOfCtl? plat r.sts = none
  ctlNoSts : isStsOffset plat r.ctl = false
  stsIsSts : isStsOffset plat r.sts = true

theorem laneFacts (plat : Platform) (h : plat.valid = true) (p l : Nat) (r : LaneRegs)
    (hr : plat.laneRegs? p l = some r) : LaneFacts plat p l r := by
  obtain ⟨hal, hnd⟩ := valid_lanes plat h
  have hm : (p, l, r) ∈ plat.allLanes := (mem_allLanes plat p l r).2 hr
  rw [List.nodup_flatMap] at hnd
  have hdist : ∀ x ∈ plat.allLanes, x.2.2.ctl ≠ x.2.2.sts := by
    intro x hx
    have := hnd.1 x hx
    simp at this
    exact this
  have hsep : ∀ x ∈ plat.allLanes, ∀ y ∈ plat.allLanes, x ≠ y →
      List.Disjoint [x.2.2.ctl, x.2.2.sts] [y.2.2.ctl, y.2.2.sts] := by
    intro x hx y hy hne
    have hs : Std.Symm fun a b : Nat × Nat × LaneRegs =>
        List.Disjoint [a.2.2.ctl, a.2.2.sts] [b.2.2.ctl, b.2.2.sts] := ⟨fun a b hab => hab.symm⟩
    exact List.Pairwise.forall hnd.2 hx hy hne
  have hctl : ∀ x ∈ plat.allLanes, x.2.2.ctl = r.ctl → x = (p, l, r) := by
    intro x hx e
    by_contra hne
    exact hsep x hx _ hm hne (a := r.ctl) (by simp [e]) (by simp)
  have hcs : ∀ x ∈ plat.allLanes, x.2.2.sts ≠ r.ctl := by
    intro x hx e
    by_cases hx2 : x = (p, l, r)
    · subst hx2; exact hdist _ hm e.symm
    · exact hsep x hx _ hm hx2 (a := r.ctl) (by simp [e]) (by simp)
  have hsc : ∀ x ∈ plat.allLanes, x.2.2.ctl ≠ r.sts := by
    intro x hx e
    by_cases hx2 : x = (p, l, r)
    · subst hx2; exact hdist _ hm e
    · exact hsep x hx _ hm hx2 (a := r.sts) (by simp [e]) (by simp)
  refine ⟨hr, (hal _ hm).1, (hal _ hm).2, hdist _ hm, ?_, ?_, ?_, ?_⟩
  · unfold laneOfCtl?
    cases hf : plat.allLanes.find? (fun x => x.2.2.ctl == r.ctl) with
    | none =>
      rw [List.find?_eq_none] at hf
      exact absurd (by simp) (hf _ hm)
    | some x =>
      have h1 := List.find?_some hf
      have h2 := List.mem_of_find?_eq_some hf
      rw [hctl x h2 (by simpa using h1)]
  · unfold laneOfCtl?
    rw [List.find?_eq_none]
    intro x hx
    simpa using hsc x hx
  · unfold isStsOffset
    rw [List.any_eq_false]
    intro x hx
    simpa using hcs x hx
  · unfold isStsOffset
    rw [List.any_eq_true]
    exact ⟨_, hm, by simp⟩

theorem LaneFacts.ctl_eq {plat : Platform} {p l : Nat} {r : LaneRegs} (h : LaneFacts plat p l r) :
    plat.ctl p l = r.ctl := by simp [Platform.ctl, h.regs]

theorem LaneFacts.sts_eq {plat : Platform} {p l : Nat} {r : LaneRegs} (h : LaneFacts plat p l r) :
    plat.sts p l = r.sts := by simp [Platform.sts, h.regs]

/-! ### The words on a lane -/

theorem wireTop_m2p (c : BitVec 4) (a : BitVec 12) (d : Byte) : wireTop (m2pWord c a d) = true := by
  simp [wireTop, m2pWord, place]

theorem m2pAddr_m2p (c : BitVec 4) (a : BitVec 12) (d : Byte) : m2pAddr (m2pWord c a d) = a := by
  apply BitVec.eq_of_getLsbD_eq
  intro i hi
  interval_cases i <;> simp [m2pAddr, m2pWord, place]

theorem wireData_m2p (c : BitVec 4) (a : BitVec 12) (d : Byte) : wireData (m2pWord c a d) = d := by
  apply BitVec.eq_of_getLsbD_eq
  intro i hi
  interval_cases i <;> simp [wireData, m2pWord, place]

theorem wireType_m2p (c : BitVec 4) (a : BitVec 12) (d : Byte) : wireType (m2pWord c a d) = c.toNat := by
  unfold wireType
  congr 1
  apply BitVec.eq_of_getLsbD_eq
  intro i hi
  interval_cases i <;> simp [m2pWord, place]

theorem m2pWord_ne_reset (c : BitVec 4) (a : BitVec 12) (d : Byte) : m2pWord c a d ≠ m2pReset := by
  intro h
  have := wireTop_m2p c a d
  rw [h] at this
  exact absurd this (by decide)

theorem m2pWord_reserved (c : BitVec 4) (a : BitVec 12) (d : Byte) :
    (m2pWord c a d).extractLsb' 24 3 = 0#3 ∧ (m2pWord c a d).extractLsb' 12 4 = 0#4 := by
  constructor <;>
  · apply BitVec.eq_of_getLsbD_eq
    intro i hi
    interval_cases i <;> simp [m2pWord, place]

theorem decodeM2p_read (a : BitVec 12) (d : Byte) : decodeM2p (m2pWord 3 a d) = some (.m2pRead a d) := by
  unfold decodeM2p
  rw [if_neg (m2pWord_ne_reset _ _ _), wireTop_m2p, (m2pWord_reserved _ _ _).1, (m2pWord_reserved _ _ _).2,
    wireType_m2p, m2pAddr_m2p, wireData_m2p]
  rfl

theorem decodeM2p_committed (a : BitVec 12) (d : Byte) :
    decodeM2p (m2pWord 2 a d) = some (.m2pWriteCommitted a d) := by
  unfold decodeM2p
  rw [if_neg (m2pWord_ne_reset _ _ _), wireTop_m2p, (m2pWord_reserved _ _ _).1, (m2pWord_reserved _ _ _).2,
    wireType_m2p, m2pAddr_m2p, wireData_m2p]
  rfl

theorem decodeM2p_uncommitted (a : BitVec 12) (d : Byte) :
    decodeM2p (m2pWord 1 a d) = some (.m2pWriteUncommitted a d) := by
  unfold decodeM2p
  rw [if_neg (m2pWord_ne_reset _ _ _), wireTop_m2p, (m2pWord_reserved _ _ _).1, (m2pWord_reserved _ _ _).2,
    wireType_m2p, m2pAddr_m2p, wireData_m2p]
  rfl

theorem decodeM2p_reset : decodeM2p m2pReset = some .m2pBusReset := by
  unfold decodeM2p
  rw [if_pos rfl]

/-- A word without PENDING that is not the reset word is no request. -/
theorem decodeM2p_idle (w : Word) (h : wireTop w = false) (h' : w ≠ m2pReset) : decodeM2p w = none := by
  unfold decodeM2p
  rw [if_neg h', h]
  rfl

theorem wireTop_p2m (t : BitVec 4) (d : Byte) : wireTop (p2mWord t d) = true := by
  simp [wireTop, p2mWord, place]

theorem wireBit15_p2m (t : BitVec 4) (d : Byte) : wireBit15 (p2mWord t d) = false := by
  simp [wireBit15, p2mWord, place]

theorem wireData_p2m (t : BitVec 4) (d : Byte) : wireData (p2mWord t d) = d := by
  apply BitVec.eq_of_getLsbD_eq
  intro i hi
  interval_cases i <;> simp [wireData, p2mWord, place]

theorem wireType_p2m (t : BitVec 4) (d : Byte) : wireType (p2mWord t d) = t.toNat := by
  unfold wireType
  congr 1
  apply BitVec.eq_of_getLsbD_eq
  intro i hi
  interval_cases i <;> simp [p2mWord, place]

theorem ackStatus_p2m (n : Nat) (t : BitVec 4) (d : Byte) (h : t.toNat = n) : ackStatus n (p2mWord t d) = .ok := by
  unfold ackStatus
  rw [wireBit15_p2m, wireType_p2m]
  simp [h]

theorem wireTop_cleared (w : Word) : wireTop (w &&& 0x7FFF7FFF#32) = false := by
  simp [wireTop]

theorem and_bit31 (w : Word) : w &&& bit31 = 0#32 ↔ wireTop w = false := by
  constructor
  · intro h
    have := congrArg (fun x => BitVec.getLsbD x 31) h
    simpa [bit31, wireTop] using this
  · intro h
    apply BitVec.eq_of_getLsbD_eq
    intro i hi
    simp only [wireTop] at h
    interval_cases i <;> simp_all [bit31]

theorem and_bit15_cleared (w : Word) : (w &&& 0x7FFF7FFF#32) &&& bit15 = 0#32 := by
  apply BitVec.eq_of_getLsbD_eq
  intro i hi
  interval_cases i <;> simp [bit15]

/-- `clear_response` on a P2M word clears READY and ERROR (40_message_bus.md R155). -/
theorem cleared_top (w : Word) : wireTop (w &&& ~~~(clearResponseWord &&& 0x80008000#32)) = false := by
  simp [wireTop, clearResponseWord]

theorem cleared_bit15 (w : Word) : wireBit15 (w &&& ~~~(clearResponseWord &&& 0x80008000#32)) = false := by
  simp [wireBit15, clearResponseWord]

end Sys2Proof.Machine
end

