-- ==== Sys2Proof/Laws/Bus.lean ====
section
/-! SUPPORT. What one bus transaction does where the PHY is conforming and answers at once
(40_message_bus.md R154, R162, R166): its accesses, its answer, and what it leaves alone. -/

namespace Sys2Proof.Machine

/-! ### One MMIO write on a ready lane -/

/-- A state on which a lane has the facts of an admissible configuration. -/
structure OnLane (s : State) (p l : Nat) (r : LaneRegs) : Prop where
  facts : LaneFacts s.plat p l r
  stored : s.mmio.wf = true
  auto : s.phyAuto = true

theorem State.laneReady.onLane {s : State} {p l : Nat} {r : LaneRegs} (h : s.laneReady p l r) : OnLane s p l r :=
  ⟨laneFacts _ h.1 p l r h.2.2.2.1, h.2.1, h.2.2.1⟩

variable {s : State} {p l : Nat} {r : LaneRegs}

theorem OnLane.write_sts (h : OnLane s p l r) (v : Word) :
    s.mmioWrite r.sts v = s.pokeWord r.sts (s.mmioRead r.sts &&& ~~~(v &&& 0x80008000#32)) := by
  unfold State.mmioWrite State.written
  simp [h.facts.stsNoLane, h.facts.stsIsSts]

theorem OnLane.write_ctl (h : OnLane s p l r) (v : Word) :
    s.mmioWrite r.ctl v = (s.pokeWord r.ctl v).phyTake p l r := by
  unfold State.mmioWrite State.written
  simp [h.facts.ctlLane, h.facts.ctlNoSts, h.auto]

theorem OnLane.write_read (h : OnLane s p l r) (a : BitVec 12) (d : Byte) :
    s.mmioWrite r.ctl (m2pWord 3 a d) = (s.pokeWord r.ctl (m2pWord 3 a d)).takeRead p l r a d := by
  rw [h.write_ctl, State.phyTake, State.pokeWord_mmio, Memory.readWord_putWord_eq _ _ _ h.stored, decodeM2p_read]

theorem OnLane.write_committed (h : OnLane s p l r) (a : BitVec 12) (d : Byte) :
    s.mmioWrite r.ctl (m2pWord 2 a d) = (s.pokeWord r.ctl (m2pWord 2 a d)).takeWriteCommitted p l r a d := by
  rw [h.write_ctl, State.phyTake, State.pokeWord_mmio, Memory.readWord_putWord_eq _ _ _ h.stored,
    decodeM2p_committed]

theorem OnLane.write_uncommitted (h : OnLane s p l r) (a : BitVec 12) (d : Byte) :
    s.mmioWrite r.ctl (m2pWord 1 a d) = (s.pokeWord r.ctl (m2pWord 1 a d)).takeWriteUncommitted p l r a d := by
  rw [h.write_ctl, State.phyTake, State.pokeWord_mmio, Memory.readWord_putWord_eq _ _ _ h.stored,
    decodeM2p_uncommitted]

theorem OnLane.write_reset (h : OnLane s p l r) :
    s.mmioWrite r.ctl m2pReset = (s.pokeWord r.ctl m2pReset).takeBusReset r := by
  rw [h.write_ctl, State.phyTake, State.pokeWord_mmio, Memory.readWord_putWord_eq _ _ _ h.stored, decodeM2p_reset]

/-! ### The MMIO store after a transaction -/

/-- The MMIO store after the accesses of a transaction: both registers written, nothing else. -/
structure LaneStore (m m' : Memory) (r : LaneRegs) : Prop where
  wf : m'.wf = true
  frame : ∀ x, ¬ onLaneRegs r x → m'.read x = m.read x

theorem LaneStore.refl {m : Memory} {r : LaneRegs} (h : m.wf = true) : LaneStore m m r := ⟨h, fun _ _ => rfl⟩

theorem LaneStore.sts {m m' : Memory} {r : LaneRegs} (h : LaneStore m m' r) (v : Word) :
    LaneStore m (m'.putWord r.sts v) r :=
  ⟨Memory.putWord_wf _ _ _ h.wf, fun x hx => by
    rw [Memory.read_putWord_ne _ _ _ _ fun hi => hx (.inr hi)]; exact h.frame x hx⟩

theorem LaneStore.ctl {m m' : Memory} {r : LaneRegs} (h : LaneStore m m' r) (v : Word) :
    LaneStore m (m'.putWord r.ctl v) r :=
  ⟨Memory.putWord_wf _ _ _ h.wf, fun x hx => by
    rw [Memory.read_putWord_ne _ _ _ _ fun hi => hx (.inl hi)]; exact h.frame x hx⟩

theorem LaneStore.trans {m m' m'' : Memory} {r : LaneRegs} (h : LaneStore m m' r) (h' : LaneStore m' m'' r) :
    LaneStore m m'' r :=
  ⟨h'.wf, fun x hx => (h'.frame x hx).trans (h.frame x hx)⟩

/-! ### The idle wait -/

/-- A wait whose bits are clear at once makes one read (40_message_bus.md R151). -/
theorem run_waitClear_clear (who : Runner) (hist : List Resp) (plat : Platform) (reg mask : Word) (T : Time)
    (k : Status → Prog) (hq : s.quiet) (h : s.mmioRead reg &&& mask = 0#32) :
    run who hist (waitClear plat reg mask T k) s =
      run who (hist ++ [.time s.now] ++ [.word (s.mmioRead reg)]) (k .ok)
        (s.record (.read reg (s.mmioRead reg))) := by
  unfold waitClear pollBound
  rw [Code.bind_apply, run_readTime _ _ _ hq]
  unfold waitClearFrom
  rw [Code.bind_apply, run_memRead _ _ _ _ hq]
  simp only [h]
  rfl

/-! ### One access at a time -/

/-- The state with another MMIO store and another trace. -/
def State.withAccess (s : State) (m : Memory) (tr : List Record) : State := { s with mmio := m, trace := tr }

@[simp] theorem State.withAccess_quiet (m : Memory) (tr : List Record) :
    (s.withAccess m tr).quiet ↔ s.quiet := Iff.rfl

theorem State.withAccess_pokeWord (m : Memory) (tr : List Record) (off v : Word) :
    (s.withAccess m tr).pokeWord off v = s.withAccess (m.putWord off v) tr := rfl

theorem State.withAccess_record (m : Memory) (tr : List Record) (rec : Record) :
    (s.withAccess m tr).record rec = s.withAccess m (rec :: tr) := rfl

/-- What the PHY writes does not depend on the MMIO store. -/
theorem State.withAccess_phyWrite (m : Memory) (tr : List Record) (a : BitVec 12) (d : Byte) (k : Bool) :
    (s.withAccess m tr).phyWrite p l a d k = (s.phyWrite p l a d k).withAccess m tr := by
  have h1 : (s.withAccess m tr).endsSramWrite p l a = s.endsSramWrite p l a := rfl
  have h2 : (s.withAccess m tr).endsSramSelect p l a = s.endsSramSelect p l a := rfl
  cases k
  · rfl
  · simp only [State.phyWrite, State.commitWrite, if_true, h1, h2]
    cases s.endsSramWrite p l a <;> cases s.endsSramSelect p l a <;> rfl

theorem OnLane.withAccess (h : OnLane s p l r) {m : Memory} (hm : LaneStore s.mmio m r) (tr : List Record) :
    OnLane (s.withAccess m tr) p l r := ⟨h.facts, hm.wf, h.auto⟩

/-- A read of a word. -/
theorem run_read_at (who : Runner) (hist : List Resp) (off : Word) (k : Word → Prog) (m : Memory)
    (tr : List Record) (hq : s.quiet) :
    run who hist (memRead off k) (s.withAccess m tr) =
      run who (hist ++ [.word (m.readWord off)]) (k (m.readWord off))
        (s.withAccess m (.read off (m.readWord off) :: tr)) :=
  run_memRead who hist off k hq

/-- `now()` on a lane. -/
theorem run_time_at (who : Runner) (hist : List Resp) (k : Time → Prog) (m : Memory) (tr : List Record)
    (hq : s.quiet) :
    run who hist (readTime k) (s.withAccess m tr) =
      run who (hist ++ [.time s.now]) (k s.now) (s.withAccess m tr) :=
  run_readTime who hist k hq

/-- `clear_response` (40_message_bus.md R155). -/
theorem run_clear_at (h : OnLane s p l r) (hq : s.quiet) (who : Runner) (hist : List Resp) (k : Unit → Prog)
    {m : Memory} (hm : LaneStore s.mmio m r) (tr : List Record) :
    ∃ m', LaneStore s.mmio m' r ∧ m'.readWord r.ctl = m.readWord r.ctl ∧
      wireTop (m'.readWord r.sts) = false ∧ wireBit15 (m'.readWord r.sts) = false ∧
      run who hist (memWrite r.sts clearResponseWord k) (s.withAccess m tr) =
        run who (hist ++ [.unit]) (k ()) (s.withAccess m' (.write r.sts clearResponseWord :: tr)) := by
  refine ⟨m.putWord r.sts (m.readWord r.sts &&& ~~~(clearResponseWord &&& 0x80008000#32)), hm.sts _, ?_, ?_, ?_,
    ?_⟩
  · exact Memory.readWord_putWord_aligned _ _ _ _ h.facts.stsAligned h.facts.ctlAligned h.facts.distinct.symm
  · rw [Memory.readWord_putWord_eq _ _ _ hm.wf]; exact cleared_top _
  · rw [Memory.readWord_putWord_eq _ _ _ hm.wf]; exact cleared_bit15 _
  · rw [run_memWrite _ _ _ _ _ (show (s.withAccess m tr).quiet from hq), (h.withAccess hm tr).write_sts]
    rfl

/-- The request of a read (40_message_bus.md R162, R154). -/
theorem run_readRequest_at (h : OnLane s p l r) (hq : s.quiet) (who : Runner) (hist : List Resp)
    (a : BitVec 12) (k : Unit → Prog) {m : Memory} (hm : LaneStore s.mmio m r) (tr : List Record) :
    ∃ m', LaneStore s.mmio m' r ∧ wireTop (m'.readWord r.ctl) = false ∧
      m'.readWord r.sts = p2mWord 4 (s.phyRead p l a) ∧
      run who hist (memWrite r.ctl (m2pWord 3 a 0) k) (s.withAccess m tr) =
        run who (hist ++ [.unit]) (k ()) (s.withAccess m' (.write r.ctl (m2pWord 3 a 0) :: tr)) := by
  have h1 := (hm.ctl (m2pWord 3 a 0)).ctl (m2pWord 3 a 0 &&& 0x7FFF7FFF#32)
  refine ⟨_, h1.sts (p2mWord 4 (s.phyRead p l a)), ?_, Memory.readWord_putWord_eq _ _ _ h1.wf, ?_⟩
  · rw [Memory.readWord_putWord_aligned _ _ _ _ h.facts.stsAligned h.facts.ctlAligned h.facts.distinct.symm,
      Memory.readWord_putWord_eq _ _ _ (hm.ctl _).wf]
    exact wireTop_cleared _
  · rw [run_memWrite _ _ _ _ _ (show (s.withAccess m tr).quiet from hq), (h.withAccess hm tr).write_read]
    rfl

/-- The request of a committed write (40_message_bus.md R166, R154). -/
theorem run_committedRequest_at (h : OnLane s p l r) (hq : s.quiet) (who : Runner) (hist : List Resp)
    (a : BitVec 12) (d : Byte) (k : Unit → Prog) {m : Memory} (hm : LaneStore s.mmio m r) (tr : List Record) :
    ∃ m', LaneStore s.mmio m' r ∧ wireTop (m'.readWord r.ctl) = false ∧
      m'.readWord r.sts = p2mWord 5 0 ∧
      run who hist (memWrite r.ctl (m2pWord 2 a d) k) (s.withAccess m tr) =
        run who (hist ++ [.unit]) (k ())
          ((s.phyWrite p l a d true).withAccess m' (.write r.ctl (m2pWord 2 a d) :: tr)) := by
  have h1 := (hm.ctl (m2pWord 2 a d)).ctl (m2pWord 2 a d &&& 0x7FFF7FFF#32)
  refine ⟨_, h1.sts (p2mWord 5 0), ?_, Memory.readWord_putWord_eq _ _ _ h1.wf, ?_⟩
  · rw [Memory.readWord_putWord_aligned _ _ _ _ h.facts.stsAligned h.facts.ctlAligned h.facts.distinct.symm,
      Memory.readWord_putWord_eq _ _ _ (hm.ctl _).wf]
    exact wireTop_cleared _
  · rw [run_memWrite _ _ _ _ _ (show (s.withAccess m tr).quiet from hq), (h.withAccess hm tr).write_committed]
    unfold State.takeWriteCommitted State.postResponse State.clearPending
    simp only [State.withAccess_pokeWord, State.withAccess_phyWrite, State.withAccess_record]

/-- The request of an uncommitted write (40_message_bus.md R166, R154). -/
theorem run_uncommittedRequest_at (h : OnLane s p l r) (hq : s.quiet) (who : Runner) (hist : List Resp)
    (a : BitVec 12) (d : Byte) (k : Unit → Prog) {m : Memory} (hm : LaneStore s.mmio m r) (tr : List Record) :
    ∃ m', LaneStore s.mmio m' r ∧ wireTop (m'.readWord r.ctl) = false ∧
      m'.readWord r.sts = m.readWord r.sts ∧
      run who hist (memWrite r.ctl (m2pWord 1 a d) k) (s.withAccess m tr) =
        run who (hist ++ [.unit]) (k ())
          ((s.phyWrite p l a d false).withAccess m' (.write r.ctl (m2pWord 1 a d) :: tr)) := by
  have h1 := (hm.ctl (m2pWord 1 a d)).ctl (m2pWord 1 a d &&& 0x7FFF7FFF#32)
  refine ⟨_, h1, ?_, ?_, ?_⟩
  · rw [Memory.readWord_putWord_eq _ _ _ (hm.ctl _).wf]
    exact wireTop_cleared _
  · rw [Memory.readWord_putWord_aligned _ _ _ _ h.facts.ctlAligned h.facts.stsAligned h.facts.distinct,
      Memory.readWord_putWord_aligned _ _ _ _ h.facts.ctlAligned h.facts.stsAligned h.facts.distinct]
  · rw [run_memWrite _ _ _ _ _ (show (s.withAccess m tr).quiet from hq), (h.withAccess hm tr).write_uncommitted]
    unfold State.takeWriteUncommitted State.clearPending
    simp only [State.withAccess_pokeWord, State.withAccess_phyWrite, State.withAccess_record]

/-- The request of a bus reset (40_message_bus.md R156, R154). -/
theorem run_resetRequest_at (h : OnLane s p l r) (hq : s.quiet) (who : Runner) (hist : List Resp)
    (k : Unit → Prog) {m : Memory} (hm : LaneStore s.mmio m r) (tr : List Record) :
    ∃ m', LaneStore s.mmio m' r ∧ wireTop (m'.readWord r.ctl) = false ∧
      m'.readWord r.ctl &&& bit15 = 0#32 ∧
      run who hist (memWrite r.ctl m2pReset k) (s.withAccess m tr) =
        run who (hist ++ [.unit]) (k ()) (s.withAccess m' (.write r.ctl m2pReset :: tr)) := by
  have h1 := (hm.ctl m2pReset).ctl (m2pReset &&& 0x7FFF7FFF#32)
  refine ⟨_, h1, ?_, ?_, ?_⟩
  · rw [Memory.readWord_putWord_eq _ _ _ (hm.ctl _).wf]; exact wireTop_cleared _
  · rw [Memory.readWord_putWord_eq _ _ _ (hm.ctl _).wf]; exact and_bit15_cleared _
  · rw [run_memWrite _ _ _ _ _ (show (s.withAccess m tr).quiet from hq), (h.withAccess hm tr).write_reset]
    rfl

/-- A wait whose bits are clear at once makes one read (40_message_bus.md R151). -/
theorem run_wait_at (who : Runner) (hist : List Resp) (plat : Platform) (reg mask : Word) (T : Time)
    (k : Status → Prog) (hq : s.quiet) {m : Memory} (tr : List Record) (h : m.readWord reg &&& mask = 0#32) :
    run who hist (waitClear plat reg mask T k) (s.withAccess m tr) =
      run who (hist ++ [.time s.now] ++ [.word (m.readWord reg)]) (k .ok)
        (s.withAccess m (.read reg (m.readWord reg) :: tr)) :=
  run_waitClear_clear (s := s.withAccess m tr) who hist plat reg mask T k hq h

/-- A wait for an acknowledge that has already been posted makes one read (40_message_bus.md R153). -/
theorem run_ack_at (h : OnLane s p l r) (who : Runner) (hist : List Resp) (n : Nat) (t : BitVec 4) (d : Byte)
    (k : Status × Word → Prog) (hq : s.quiet) {m : Memory} (tr : List Record) (ht : t.toNat = n)
    (hv : m.readWord r.sts = p2mWord t d) :
    run who hist (waitAck s.plat p l n k) (s.withAccess m tr) =
      run who (hist ++ [.time s.now] ++ [.word (p2mWord t d)]) (k (.ok, p2mWord t d))
        (s.withAccess m (.read r.sts (p2mWord t d) :: tr)) := by
  unfold waitAck pollBound
  rw [h.facts.sts_eq, Code.bind_apply, run_time_at _ _ _ _ _ hq]
  unfold waitAckFrom
  rw [Code.bind_apply, run_read_at _ _ _ _ _ _ hq, hv]
  simp only [wireTop_p2m, if_true, ackStatus_p2m n t d ht]
  rfl

/-! ### Transactions -/

/-- What a good read attempt adds to the trace, the newest first (40_message_bus.md R162). -/
def readRecords (r : LaneRegs) (a : BitVec 12) (idle : Word) (v : Byte) : List Record :=
  [.write r.sts clearResponseWord, .read r.sts (p2mWord 4 v), .write r.ctl (m2pWord 3 a 0),
    .write r.sts clearResponseWord, .read r.ctl idle]

/-- A read attempt on a ready lane (40_message_bus.md R162, R154). -/
theorem run_readAttempt_ready (hq : s.quiet) (h : OnLane s p l r) (who : Runner) (hist : List Resp)
    (a : BitVec 12) (k : Status × Byte → Prog) {m : Memory} (hm : LaneStore s.mmio m r) (tr : List Record)
    (hc : wireTop (m.readWord r.ctl) = false) :
    ∃ hist' m', LaneStore s.mmio m' r ∧ wireTop (m'.readWord r.ctl) = false ∧
      run who hist (readAttempt s.plat p l a k) (s.withAccess m tr) =
        run who hist' (k (.ok, s.phyRead p l a))
          (s.withAccess m' (readRecords r a (m.readWord r.ctl) (s.phyRead p l a) ++ tr)) := by
  have hidle : m.readWord r.ctl &&& bit31 = 0#32 := (and_bit31 _).2 hc
  unfold readAttempt clearResponse
  rw [h.facts.ctl_eq, h.facts.sts_eq, Code.bind_apply, run_wait_at _ _ _ _ _ _ _ hq _ hidle]
  simp only [ne_eq, not_true_eq_false, if_false]
  rw [Code.bind_apply]
  obtain ⟨m1, hm1, -, -, -, e1⟩ := run_clear_at h hq who _ _ hm _
  rw [e1, Code.bind_apply]
  obtain ⟨m2, hm2, hc2, hs2, e2⟩ := run_readRequest_at h hq who _ a _ hm1 _
  rw [e2, Code.bind_apply, run_ack_at h who _ 4 4 _ _ hq _ rfl hs2]
  simp only [not_true_eq_false, if_false]
  rw [Code.bind_apply]
  obtain ⟨m3, hm3, hc3, -, -, e3⟩ := run_clear_at h hq who _ _ hm2 _
  rw [e3]
  rw [Code.pure_apply, wireData_p2m]
  exact ⟨_, m3, hm3, hc3 ▸ hc2, rfl⟩

/-- What a good committed write attempt adds to the trace, the newest first (40_message_bus.md R166). -/
def committedRecords (r : LaneRegs) (a : BitVec 12) (d : Byte) (idle taken : Word) : List Record :=
  [.write r.sts clearResponseWord, .read r.sts (p2mWord 5 0), .read r.ctl taken, .write r.ctl (m2pWord 2 a d),
    .write r.sts clearResponseWord, .read r.ctl idle]

/-- What a good uncommitted write attempt adds to the trace, the newest first (40_message_bus.md R166). -/
def uncommittedRecords (r : LaneRegs) (a : BitVec 12) (d : Byte) (idle taken checked : Word) : List Record :=
  [.write r.sts clearResponseWord, .read r.sts checked, .read r.ctl taken, .write r.ctl (m2pWord 1 a d),
    .write r.sts clearResponseWord, .read r.ctl idle]

theorem State.phyWrite_mmio (a : BitVec 12) (d : Byte) (k : Bool) : (s.phyWrite p l a d k).mmio = s.mmio := by
  obtain ⟨ph, sr, un, h⟩ := s.phyWrite_eq p l a d k
  rw [h]

theorem State.phyWrite_plat (a : BitVec 12) (d : Byte) (k : Bool) : (s.phyWrite p l a d k).plat = s.plat := by
  obtain ⟨ph, sr, un, h⟩ := s.phyWrite_eq p l a d k
  rw [h]

theorem State.phyWrite_phyAuto (a : BitVec 12) (d : Byte) (k : Bool) : (s.phyWrite p l a d k).phyAuto = s.phyAuto := by
  obtain ⟨ph, sr, un, h⟩ := s.phyWrite_eq p l a d k
  rw [h]

theorem State.phyWrite_quiet (a : BitVec 12) (d : Byte) (k : Bool) (hq : s.quiet) : (s.phyWrite p l a d k).quiet := by
  obtain ⟨ph, sr, un, h⟩ := s.phyWrite_eq p l a d k
  rw [h]
  exact hq

theorem OnLane.phyWrite (h : OnLane s p l r) (a : BitVec 12) (d : Byte) (k : Bool) : OnLane (s.phyWrite p l a d k) p l r := by
  refine ⟨?_, ?_, ?_⟩
  · rw [State.phyWrite_plat]; exact h.facts
  · rw [State.phyWrite_mmio]; exact h.stored
  · rw [State.phyWrite_phyAuto]; exact h.auto

theorem LaneStore.phyWrite {m : Memory} (h : LaneStore s.mmio m r) (a : BitVec 12) (d : Byte) (k : Bool) :
    LaneStore (s.phyWrite p l a d k).mmio m r := by rw [State.phyWrite_mmio]; exact h

/-- A write attempt on a ready lane (40_message_bus.md R166, R154). -/
theorem run_writeAttempt_ready (hq : s.quiet) (h : OnLane s p l r) (who : Runner) (hist : List Resp)
    (a : BitVec 12) (d : Byte) (committed : Bool) (k : Status → Prog) {m : Memory}
    (hm : LaneStore s.mmio m r) (tr : List Record) (hc : wireTop (m.readWord r.ctl) = false) :
    ∃ hist' m' taken checked, LaneStore s.mmio m' r ∧ wireTop (m'.readWord r.ctl) = false ∧
      wireTop taken = false ∧ wireTop checked = false ∧ wireBit15 checked = false ∧
      run who hist (writeAttempt s.plat p l a d committed k) (s.withAccess m tr) =
        run who hist' (k .ok)
          ((s.phyWrite p l a d committed).withAccess m'
            ((if committed then committedRecords r a d (m.readWord r.ctl) taken
              else uncommittedRecords r a d (m.readWord r.ctl) taken checked) ++ tr)) := by
  have hidle : m.readWord r.ctl &&& bit31 = 0#32 := (and_bit31 _).2 hc
  unfold writeAttempt clearResponse
  rw [h.facts.ctl_eq, h.facts.sts_eq, Code.bind_apply, run_wait_at _ _ _ _ _ _ _ hq _ hidle]
  simp only [ne_eq, not_true_eq_false, if_false]
  rw [Code.bind_apply]
  obtain ⟨m1, hm1, hc1, ht1, hb1, e1⟩ := run_clear_at h hq who _ _ hm _
  rw [e1, Code.bind_apply]
  have h' := h.phyWrite a d committed
  have hq' := State.phyWrite_quiet (p := p) (l := l) a d committed hq
  cases committed
  · simp only [Bool.false_eq_true, if_false]
    obtain ⟨m2, hm2, hc2, hs2, e2⟩ := run_uncommittedRequest_at h hq who _ a d _ hm1 _
    rw [e2, Code.bind_apply, run_wait_at _ _ _ _ _ _ _ hq' _ ((and_bit31 _).2 hc2)]
    simp only [not_true_eq_false, if_false]
    rw [Code.bind_apply, run_read_at _ _ _ _ _ _ hq', hs2, hb1]
    simp only [Bool.false_eq_true, if_false]
    rw [Code.bind_apply]
    obtain ⟨m3, hm3, hc3, -, -, e3⟩ := run_clear_at h' hq' who _ _ (hm2.phyWrite a d false) _
    rw [e3]
    rw [State.phyWrite_mmio] at hm3
    exact ⟨_, m3, _, _, hm3, hc3 ▸ hc2, hc2, ht1, hb1, rfl⟩
  · simp only [if_true]
    obtain ⟨m2, hm2, hc2, hs2, e2⟩ := run_committedRequest_at h hq who _ a d _ hm1 _
    rw [e2, Code.bind_apply, run_wait_at _ _ _ _ _ _ _ hq' _ ((and_bit31 _).2 hc2)]
    simp only [not_true_eq_false, if_false]
    rw [← State.phyWrite_plat (s := s) (p := p) (l := l) a d true, Code.bind_apply,
      run_ack_at h' who _ 5 5 _ _ hq' _ rfl hs2]
    simp only [not_true_eq_false, if_false]
    rw [Code.bind_apply]
    obtain ⟨m3, hm3, hc3, -, -, e3⟩ := run_clear_at h' hq' who _ _ (hm2.phyWrite a d true) _
    rw [e3]
    rw [State.phyWrite_mmio] at hm3
    exact ⟨_, m3, _, m1.readWord r.sts, hm3, hc3 ▸ hc2, hc2, ht1, hb1, rfl⟩

/-- A bus reset on a ready lane (40_message_bus.md R156, R154). -/
theorem run_busReset_ready (hq : s.quiet) (h : OnLane s p l r) (who : Runner) (hist : List Resp)
    (k : Unit → Prog) {m : Memory} (hm : LaneStore s.mmio m r) (tr : List Record) :
    ∃ hist' m' v, LaneStore s.mmio m' r ∧ wireTop (m'.readWord r.ctl) = false ∧ v &&& bit15 = 0#32 ∧
      run who hist (busReset s.plat p l k) (s.withAccess m tr) =
        run who hist' (k ())
          (s.withAccess m'
            ([.write r.sts clearResponseWord, .read r.ctl v, .write r.ctl m2pReset] ++ tr)) := by
  unfold busReset clearResponse
  rw [h.facts.ctl_eq, h.facts.sts_eq, Code.bind_apply]
  obtain ⟨m1, hm1, hc1, hb1, e1⟩ := run_resetRequest_at h hq who hist _ hm tr
  rw [e1, Code.bind_apply, run_wait_at _ _ _ _ _ _ _ hq _ hb1]
  obtain ⟨m2, hm2, hc2, -, -, e2⟩ := run_clear_at h hq who _ k hm1 _
  rw [e2]
  exact ⟨_, m2, _, hm2, hc2 ▸ hc1, hb1, rfl⟩

/-- A retrying read on a ready lane makes one attempt (40_message_bus.md R160, R164). -/
theorem run_mbRead_ready (hq : s.quiet) (h : OnLane s p l r) (who : Runner) (hist : List Resp)
    (a : BitVec 12) (k : Status × Byte → Prog) {m : Memory} (hm : LaneStore s.mmio m r) (tr : List Record)
    (hc : wireTop (m.readWord r.ctl) = false) :
    ∃ hist' m', LaneStore s.mmio m' r ∧ wireTop (m'.readWord r.ctl) = false ∧
      run who hist (mbRead s.plat p l a k) (s.withAccess m tr) =
        run who hist' (k (.ok, s.phyRead p l a))
          (s.withAccess m' (readRecords r a (m.readWord r.ctl) (s.phyRead p l a) ++ tr)) := by
  unfold mbRead
  rw [show mbAttempts - 1 = 1 + 1 from rfl, mbReadFrom, Code.bind_apply]
  obtain ⟨hist', m', hm', hc', e⟩ := run_readAttempt_ready hq h who hist a _ hm tr hc
  rw [e]
  exact ⟨hist', m', hm', hc', rfl⟩

/-- A retrying write on a ready lane makes one attempt (40_message_bus.md R160, R168). -/
theorem run_mbWrite_ready (hq : s.quiet) (h : OnLane s p l r) (who : Runner) (hist : List Resp)
    (a : BitVec 12) (d : Byte) (committed : Bool) (k : Status → Prog) {m : Memory}
    (hm : LaneStore s.mmio m r) (tr : List Record) (hc : wireTop (m.readWord r.ctl) = false) :
    ∃ hist' m' taken checked, LaneStore s.mmio m' r ∧ wireTop (m'.readWord r.ctl) = false ∧
      wireTop taken = false ∧ wireTop checked = false ∧ wireBit15 checked = false ∧
      run who hist (mbWrite s.plat p l a d committed k) (s.withAccess m tr) =
        run who hist' (k .ok)
          ((s.phyWrite p l a d committed).withAccess m'
            ((if committed then committedRecords r a d (m.readWord r.ctl) taken
              else uncommittedRecords r a d (m.readWord r.ctl) taken checked) ++ tr)) := by
  unfold mbWrite
  rw [show mbAttempts - 1 = 1 + 1 from rfl, mbWriteFrom, Code.bind_apply]
  obtain ⟨hist', m', t, c, hm', hc', ht, hc1, hb, e⟩ :=
    run_writeAttempt_ready hq h who hist a d committed _ hm tr hc
  rw [e]
  exact ⟨hist', m', t, c, hm', hc', ht, hc1, hb, rfl⟩

end Sys2Proof.Machine
end

