-- ==== Sys2Proof/Laws/Transactions.lean ====
section
/-! SUPPORT. What the bus operations do where every lane they use is ready, one after the other and lane
by lane: each answers OK, the PHY takes what was written, and the MMIO store differs in the lanes'
registers at most. -/

namespace Sys2Proof.Machine

/-! ### Canonical stores -/

theorem Memory.sortedFrom_tail {lo : Option Nat} {a : Nat} {b : Byte} {rest : Memory}
    (h : Memory.sortedFrom lo ((a, b) :: rest) = true) : Memory.sortedFrom (some a) rest = true ∧ b ≠ 0 := by
  simp only [Memory.sortedFrom, Bool.and_eq_true, bne_iff_ne] at h
  exact ⟨h.2, h.1.2⟩

/-- Canonical stores that read the same are the same. -/
theorem Memory.ext_read (m m' : Memory) (h : m.wf = true) (h' : m'.wf = true) (e : ∀ a, m.read a = m'.read a) :
    m = m' := by
  suffices ∀ lo lo', Memory.sortedFrom lo m = true → Memory.sortedFrom lo' m' = true → m = m' from
    this none none h h'
  clear h h'
  induction m generalizing m' with
  | nil =>
    intro lo lo' _ h'
    cases m' with
    | nil => rfl
    | cons c rest =>
      obtain ⟨a, b⟩ := c
      have := e a
      simp only [Memory.read_nil, Memory.read_cons, if_true] at this
      exact absurd this.symm (Memory.sortedFrom_tail h').2
  | cons c rest ih =>
    obtain ⟨a, b⟩ := c
    intro lo lo' h h'
    obtain ⟨hr, hb⟩ := Memory.sortedFrom_tail h
    cases m' with
    | nil =>
      have := e a
      simp only [Memory.read_nil, Memory.read_cons, if_true] at this
      exact absurd this hb
    | cons c' rest' =>
      obtain ⟨a', b'⟩ := c'
      obtain ⟨hr', hb'⟩ := Memory.sortedFrom_tail h'
      have haa : a = a' := by
        rcases Nat.lt_trichotomy a a' with hlt | heq | hgt
        · have := e a
          rw [Memory.read_cons, if_pos rfl, Memory.read_cons, if_neg (by omega),
            Memory.read_below rest' a' a hr' (by omega)] at this
          exact absurd this hb
        · exact heq
        · have := e a'
          rw [Memory.read_cons, if_neg (by omega), Memory.read_cons, if_pos rfl,
            Memory.read_below rest a a' hr (by omega)] at this
          exact absurd this.symm hb'
      subst haa
      have hbb : b = b' := by simpa [Memory.read_cons] using e a
      subst hbb
      rw [ih rest' ?_ (some a) (some a) hr hr']
      intro x
      by_cases hx : x = a
      · subst hx
        rw [Memory.read_below rest x x hr (le_refl _), Memory.read_below rest' x x hr' (le_refl _)]
      · simpa [Memory.read_cons, hx] using e x

/-! ### Held lanes -/

/-- The lanes `L` of port `p` in a state whose MMIO store has become `m`: nothing else moves, each lane has
its facts and no pending transaction. -/
structure Held (s : State) (p : Nat) (L : List Nat) (m : Memory) : Prop where
  quiet : s.quiet
  auto : s.phyAuto = true
  facts : ∀ l ∈ L, ∃ r, LaneFacts s.plat p l r
  store : s.touched p L m
  idle : ∀ l ∈ L, ∀ r, s.plat.laneRegs? p l = some r → wireTop (m.readWord r.ctl) = false

theorem State.lanesReady.held {s : State} {p : Nat} {L : List Nat} (h : s.lanesReady p L) (hq : s.quiet) :
    Held s p L s.mmio where
  quiet := hq
  auto := h.2.1
  facts := fun l hl => by
    obtain ⟨r, hr⟩ := h.2.2 l hl
    exact ⟨r, hr.onLane.facts⟩
  store := ⟨h.1, fun _ _ => rfl⟩
  idle := fun l hl r hr => by
    obtain ⟨r', hr'⟩ := h.2.2 l hl
    have := hr'.2.2.2.1
    rw [hr] at this
    cases this
    exact hr'.2.2.2.2

variable {s t u : State} {p : Nat} {L : List Nat} {m : Memory}

/-- A state that differs in the PHY and SRAM spaces holds the same lanes. -/
theorem Held.stores (h : Held s p L m) (ph sr : Memory) (un : List (Nat × Nat × BitVec 12)) :
    Held { s with phy := ph, sram := sr, uncommitted := un } p L m :=
  ⟨h.quiet, h.auto, h.facts, h.store, h.idle⟩

theorem Held.phyWrite (h : Held s p L m) (q l : Nat) (a : BitVec 12) (d : Byte) (k : Bool) :
    Held (s.phyWrite q l a d k) p L m := by
  obtain ⟨ph, sr, un, e⟩ := s.phyWrite_eq q l a d k
  rw [e]
  exact h.stores ph sr un

/-- After the accesses of one lane the lanes are still held. -/
theorem Held.step (h : Held s p L m) {l : Nat} (hl : l ∈ L) {r : LaneRegs} (hf : LaneFacts s.plat p l r)
    {m' : Memory} (hm : LaneStore m m' r) (hc : wireTop (m'.readWord r.ctl) = false) : Held s p L m' where
  quiet := h.quiet
  auto := h.auto
  facts := h.facts
  store := ⟨hm.wf, fun a ha => by
    rw [hm.frame a fun hx => ha ⟨l, hl, r, hf.regs, hx⟩]
    exact h.store.2 a ha⟩
  idle := fun l' hl' r' hr' => by
    by_cases hlr : r' = r
    · rw [hlr]; exact hc
    · obtain ⟨r'', hf'⟩ := h.facts l' hl'
      have : r'' = r' := by
        have := hf'.regs
        rw [hr'] at this
        cases this
        rfl
      subst this
      have hne : ∀ b : Word, b = r.ctl ∨ b = r.sts → r''.ctl ≠ b := by
        rintro b (rfl | rfl) e
        · have h1 := hf'.ctlLane
          rw [e, hf.ctlLane] at h1
          simp only [Option.some.injEq, Prod.mk.injEq] at h1
          exact hlr h1.2.2.symm
        · have h1 := hf'.ctlLane
          rw [e, hf.stsNoLane] at h1
          cases h1
      have hb : ∀ k < 4, ¬ onLaneRegs r (byteAddr r''.ctl k) := by
        rintro k hk (hx | hx)
        · exact inWord_disjoint r.ctl r''.ctl hf.ctlAligned hf'.ctlAligned (hne _ (.inl rfl)).symm _ hx ⟨k, hk, rfl⟩
        · exact inWord_disjoint r.sts r''.ctl hf.stsAligned hf'.ctlAligned (hne _ (.inr rfl)).symm _ hx ⟨k, hk, rfl⟩
      have : m'.readWord r''.ctl = m.readWord r''.ctl := by
        unfold Memory.readWord
        rw [hm.frame _ (hb 0 (by omega)), hm.frame _ (hb 1 (by omega)), hm.frame _ (hb 2 (by omega)),
          hm.frame _ (hb 3 (by omega))]
      rw [this]
      exact h.idle l' hl' r'' hr'

/-- The lane seen from the state with its present MMIO store. -/
theorem Held.onLane (h : Held s p L m) {l : Nat} {r : LaneRegs} (hf : LaneFacts s.plat p l r)
    (tr : List Record) : OnLane (s.withAccess m tr) p l r := ⟨hf, h.store.1, h.auto⟩

/-! ### Operations on held lanes -/

/-- On held lanes the operation answers `res` and leaves the state `t`, but for the lanes' registers and
the trace. -/
def BusOp {α : Type} (s : State) (p : Nat) (L : List Nat) (op : Code α) (res : α) (t : State) : Prop :=
  ∀ (who : Runner) (hist : List Resp) (k : α → Prog) (m : Memory) (tr : List Record), Held s p L m →
    ∃ hist' m' tr', Held t p L m' ∧
      run who hist (op k) (s.withAccess m tr) = run who hist' (k res) (t.withAccess m' (tr' ++ tr))

theorem busOp_pure {α : Type} (s : State) (p : Nat) (L : List Nat) (a : α) : BusOp s p L (pure a) a s :=
  fun _ hist _ m _ h => ⟨hist, m, [], h, rfl⟩

theorem BusOp.bind {α β : Type} {op : Code α} {f : α → Code β} {res : α} {res' : β} (h : BusOp s p L op res t)
    (h' : BusOp t p L (f res) res' u) : BusOp s p L (op >>= f) res' u := by
  intro who hist k m tr hm
  obtain ⟨hist1, m1, tr1, hm1, e1⟩ := h who hist (fun a => f a k) m tr hm
  obtain ⟨hist2, m2, tr2, hm2, e2⟩ := h' who hist1 k m1 (tr1 ++ tr) hm1
  refine ⟨hist2, m2, tr2 ++ tr1, hm2, ?_⟩
  rw [Code.bind_apply, e1, e2, List.append_assoc]

/-- An operation that is followed by the check of its status. -/
theorem BusOp.thenOk {op : Code Status} {f : Code Status} {res : Status} (h : BusOp s p L op .ok t)
    (h' : BusOp t p L f res u) :
    BusOp s p L (op >>= fun st => if st ≠ .ok then pure st else f) res u :=
  BusOp.bind h (by simpa using h')

/-- The same where what follows a failure has another type. -/
theorem BusOp.thenOk' {α : Type} {op : Code Status} {f : Code α} {g : Status → Code α} {res : α}
    (h : BusOp s p L op .ok t) (h' : BusOp t p L f res u) :
    BusOp s p L (op >>= fun st => if st ≠ .ok then g st else f) res u :=
  BusOp.bind h (by simpa using h')

theorem Held.lane (h : Held s p L m) {l : Nat} (hl : l ∈ L) : ∃ r, LaneFacts s.plat p l r := h.facts l hl

theorem busOp_readAttempt {l : Nat} (hl : l ∈ L) (a : BitVec 12) :
    BusOp s p L (readAttempt s.plat p l a) (.ok, s.phyRead p l a) s := by
  intro who hist k m tr h
  obtain ⟨r, hf⟩ := h.lane hl
  obtain ⟨hist', m', hm, hc, e⟩ := run_readAttempt_ready (s := s.withAccess m tr) h.quiet (h.onLane hf tr) who hist
    a k (LaneStore.refl h.store.1) tr (h.idle l hl r hf.regs)
  exact ⟨hist', m', _, h.step hl hf hm hc, e⟩

theorem busOp_mbRead {l : Nat} (hl : l ∈ L) (a : BitVec 12) :
    BusOp s p L (mbRead s.plat p l a) (.ok, s.phyRead p l a) s := by
  intro who hist k m tr h
  obtain ⟨r, hf⟩ := h.lane hl
  obtain ⟨hist', m', hm, hc, e⟩ := run_mbRead_ready (s := s.withAccess m tr) h.quiet (h.onLane hf tr) who hist
    a k (LaneStore.refl h.store.1) tr (h.idle l hl r hf.regs)
  exact ⟨hist', m', _, h.step hl hf hm hc, e⟩

theorem busOp_writeAttempt {l : Nat} (hl : l ∈ L) (a : BitVec 12) (d : Byte) (committed : Bool) :
    BusOp s p L (writeAttempt s.plat p l a d committed) .ok (s.phyWrite p l a d committed) := by
  intro who hist k m tr h
  obtain ⟨r, hf⟩ := h.lane hl
  obtain ⟨hist', m', taken, checked, hm, hc, -, -, -, e⟩ := run_writeAttempt_ready (s := s.withAccess m tr)
    h.quiet (h.onLane hf tr) who hist a d committed k (LaneStore.refl h.store.1) tr (h.idle l hl r hf.regs)
  rw [State.withAccess_phyWrite] at e
  exact ⟨hist', m', _, (h.step hl hf hm hc).phyWrite p l a d committed, e⟩

theorem busOp_mbWrite {l : Nat} (hl : l ∈ L) (a : BitVec 12) (d : Byte) (committed : Bool) :
    BusOp s p L (mbWrite s.plat p l a d committed) .ok (s.phyWrite p l a d committed) := by
  intro who hist k m tr h
  obtain ⟨r, hf⟩ := h.lane hl
  obtain ⟨hist', m', taken, checked, hm, hc, -, -, -, e⟩ := run_mbWrite_ready (s := s.withAccess m tr)
    h.quiet (h.onLane hf tr) who hist a d committed k (LaneStore.refl h.store.1) tr (h.idle l hl r hf.regs)
  rw [State.withAccess_phyWrite] at e
  exact ⟨hist', m', _, (h.step hl hf hm hc).phyWrite p l a d committed, e⟩

theorem busOp_busReset {l : Nat} (hl : l ∈ L) : BusOp s p L (busReset s.plat p l) () s := by
  intro who hist k m tr h
  obtain ⟨r, hf⟩ := h.lane hl
  obtain ⟨hist', m', v, hm, hc, -, e⟩ := run_busReset_ready (s := s.withAccess m tr) h.quiet (h.onLane hf tr)
    who hist k (LaneStore.refl h.store.1) tr
  exact ⟨hist', m', _, h.step hl hf hm hc, e⟩

/-- MB_RMW's effect on a lane (40_message_bus.md R170). -/
def State.rmw (s : State) (p l : Nat) (a : BitVec 12) (clr set : Byte) (committed : Bool) : State :=
  if rmwValue (s.phyRead p l a) clr set = s.phyRead p l a then s
  else s.phyWrite p l a (rmwValue (s.phyRead p l a) clr set) committed

theorem busOp_mbRmw {l : Nat} (hl : l ∈ L) (a : BitVec 12) (clr set : Byte) (committed : Bool) :
    BusOp s p L (mbRmw s.plat p l a clr set committed) .ok (s.rmw p l a clr set committed) := by
  unfold mbRmw State.rmw
  refine BusOp.bind (busOp_mbRead hl a) ?_
  simp only [ne_eq, not_true_eq_false, if_false]
  split
  · exact busOp_pure _ _ _ _
  · exact busOp_mbWrite hl a _ committed

/-- A retrying write, with the configuration under another name. -/
theorem busOp_mbWrite_of {plat : Platform} (e : s.plat = plat) {l : Nat} (hl : l ∈ L) (a : BitVec 12) (d : Byte)
    (committed : Bool) : BusOp s p L (mbWrite plat p l a d committed) .ok (s.phyWrite p l a d committed) := by
  subst e
  exact busOp_mbWrite hl a d committed

theorem busOp_mbRead_of {plat : Platform} (e : s.plat = plat) {l : Nat} (hl : l ∈ L) (a : BitVec 12) :
    BusOp s p L (mbRead plat p l a) (.ok, s.phyRead p l a) s := by
  subst e
  exact busOp_mbRead hl a

theorem State.sramSelect_plat (s : State) (p l : Nat) (a : BitVec 16) : (s.sramSelect p l a).plat = s.plat :=
  (State.phyWrite_plat _ _ _).trans (State.phyWrite_plat _ _ _)

theorem State.sramStore_plat (s : State) (p l : Nat) (a v : BitVec 16) : (s.sramStore p l a v).plat = s.plat := by
  unfold State.sramStore
  exact (State.phyWrite_plat _ _ _).trans ((State.phyWrite_plat _ _ _).trans
    ((State.phyWrite_plat _ _ _).trans (State.phyWrite_plat _ _ _)))

theorem busOp_sramRead {l : Nat} (hl : l ∈ L) (a : BitVec 16) :
    BusOp s p L (sramRead s.plat p l a) (.ok, (s.sramSelect p l a).sramData p l) (s.sramSelect p l a) := by
  have e1 : (s.phyWrite p l s.plat.c20Window.rdAddrH (hiByte a) false).plat = s.plat := State.phyWrite_plat _ _ _
  have e2 : (s.sramSelect p l a).plat = s.plat := s.sramSelect_plat p l a
  have ed : (s.sramSelect p l a).sramData p l = joinBytes ((s.sramSelect p l a).phyRead p l s.plat.c20Window.rdDataH)
      ((s.sramSelect p l a).phyRead p l s.plat.c20Window.rdDataL) := by rw [State.sramData, e2]
  rw [ed]
  unfold sramRead
  refine BusOp.thenOk' (busOp_mbWrite hl _ _ _) ?_
  refine BusOp.thenOk' (busOp_mbWrite_of e1 hl _ _ _) ?_
  refine BusOp.bind (busOp_mbRead_of e2 hl _) ?_
  simp only [ne_eq, not_true_eq_false, if_false]
  refine BusOp.bind (busOp_mbRead_of e2 hl _) ?_
  simp only [not_true_eq_false, if_false]
  exact busOp_pure _ _ _ _

theorem busOp_sramWrite {l : Nat} (hl : l ∈ L) (a v : BitVec 16) :
    BusOp s p L (sramWrite s.plat p l a v) .ok (s.sramStore p l a v) := by
  have e1 : ∀ (t : State) a d k, (t.phyWrite p l a d k).plat = t.plat := fun _ _ _ _ => State.phyWrite_plat _ _ _
  unfold sramWrite State.sramStore
  refine BusOp.thenOk (busOp_mbWrite hl _ _ _) ?_
  refine BusOp.thenOk (busOp_mbWrite_of (e1 s _ _ _) hl _ _ _) ?_
  refine BusOp.thenOk (busOp_mbWrite_of ((e1 _ _ _ _).trans (e1 s _ _ _)) hl _ _ _) ?_
  exact busOp_mbWrite_of ((e1 _ _ _ _).trans ((e1 _ _ _ _).trans (e1 s _ _ _))) hl _ _ _

theorem busOp_sramRead_of {plat : Platform} (e : s.plat = plat) {l : Nat} (hl : l ∈ L) (a : BitVec 16) :
    BusOp s p L (sramRead plat p l a) (.ok, (s.sramSelect p l a).sramData p l) (s.sramSelect p l a) := by
  subst e
  exact busOp_sramRead hl a

theorem busOp_sramWrite_of {plat : Platform} (e : s.plat = plat) {l : Nat} (hl : l ∈ L) (a v : BitVec 16) :
    BusOp s p L (sramWrite plat p l a v) .ok (s.sramStore p l a v) := by
  subst e
  exact busOp_sramWrite hl a v

/-! ### Lists of operations -/

/-- A single-lane operation on each lane of a list (30_encoding.md R116). -/
theorem busOp_onLanes {op : Nat → Code Status} {f : State → Nat → State} (hp : ∀ t l, (f t l).plat = t.plat)
    (h : ∀ t l, t.plat = s.plat → l ∈ L → BusOp t p L (op l) .ok (f t l)) (lanes : List Nat) (hs : ∀ l ∈ lanes, l ∈ L) :
    BusOp s p L (onLanes op lanes) .ok (lanes.foldl f s) := by
  suffices ∀ t, t.plat = s.plat → BusOp t p L (onLanes op lanes) .ok (lanes.foldl f t) from this s rfl
  induction lanes with
  | nil => intro t _; exact busOp_pure _ _ _ _
  | cons l rest ih =>
    intro t ht
    exact BusOp.thenOk (h t l ht (hs l (by simp)))
      (ih (fun x hx => hs x (by simp [hx])) (f t l) ((hp t l).trans ht))

theorem busOp_readBusSlots {l : Nat} (hl : l ∈ L) (as : List (BitVec 12)) :
    BusOp s p L (readBusSlots s.plat p l as) (.ok, as.map fun a => (s.phyRead p l a).setWidth 32) s := by
  induction as with
  | nil => exact busOp_pure _ _ _ _
  | cons a rest ih =>
    unfold readBusSlots
    refine BusOp.bind (busOp_mbRead hl a) ?_
    simp only [ne_eq, not_true_eq_false, if_false]
    refine BusOp.bind ih ?_
    exact busOp_pure _ _ _ _

theorem busOp_readSramWords {l : Nat} (hl : l ∈ L) (as : List (BitVec 16)) :
    BusOp s p L (readSramWords s.plat p l as) (.ok, (s.sramReads p l as).1) (s.sramReads p l as).2 := by
  suffices ∀ t, t.plat = s.plat →
      BusOp t p L (readSramWords s.plat p l as) (.ok, (t.sramReads p l as).1) (t.sramReads p l as).2 from this s rfl
  induction as with
  | nil => intro t _; exact busOp_pure _ _ _ _
  | cons a rest ih =>
    intro t ht
    unfold readSramWords
    refine BusOp.bind (busOp_sramRead_of ht hl a) ?_
    simp only [ne_eq, not_true_eq_false, if_false]
    refine BusOp.bind (ih (t.sramSelect p l a) ((t.sramSelect_plat p l a).trans ht)) ?_
    exact busOp_pure _ _ _ _

theorem busOp_writeBusSlots {l : Nat} (hl : l ∈ L) (ws : List (Nat × Word)) :
    BusOp s p L (writeBusSlots s.plat p l ws) .ok
      (ws.foldl (fun t w => t.phyWrite p l (BitVec.ofNat 12 w.1) (w.2.setWidth 8) true) s) := by
  suffices ∀ t, t.plat = s.plat → BusOp t p L (writeBusSlots s.plat p l ws) .ok
      (ws.foldl (fun t w => t.phyWrite p l (BitVec.ofNat 12 w.1) (w.2.setWidth 8) true) t) from this s rfl
  induction ws with
  | nil => intro t _; exact busOp_pure _ _ _ _
  | cons w rest ih =>
    intro t ht
    exact BusOp.thenOk (busOp_mbWrite_of ht hl _ _ _) (ih _ ((State.phyWrite_plat _ _ _).trans ht))

theorem busOp_writeSramWords {l : Nat} (hl : l ∈ L) (ws : List (Nat × Word)) :
    BusOp s p L (writeSramWords s.plat p l ws) .ok
      (ws.foldl (fun t w => t.sramStore p l (BitVec.ofNat 16 w.1) (w.2.setWidth 16)) s) := by
  suffices ∀ t, t.plat = s.plat → BusOp t p L (writeSramWords s.plat p l ws) .ok
      (ws.foldl (fun t w => t.sramStore p l (BitVec.ofNat 16 w.1) (w.2.setWidth 16)) t) from this s rfl
  induction ws with
  | nil => intro t _; exact busOp_pure _ _ _ _
  | cons w rest ih =>
    intro t ht
    exact BusOp.thenOk (busOp_sramWrite_of ht hl _ _) (ih _ ((State.sramStore_plat _ _ _ _ _).trans ht))

theorem busOp_writeBusSlots_of {plat : Platform} (e : s.plat = plat) {l : Nat} (hl : l ∈ L) (ws : List (Nat × Word)) :
    BusOp s p L (writeBusSlots plat p l ws) .ok
      (ws.foldl (fun t w => t.phyWrite p l (BitVec.ofNat 12 w.1) (w.2.setWidth 8) true) s) := by
  subst e
  exact busOp_writeBusSlots hl ws

theorem busOp_writeSramWords_of {plat : Platform} (e : s.plat = plat) {l : Nat} (hl : l ∈ L)
    (ws : List (Nat × Word)) :
    BusOp s p L (writeSramWords plat p l ws) .ok
      (ws.foldl (fun t w => t.sramStore p l (BitVec.ofNat 16 w.1) (w.2.setWidth 16)) s) := by
  subst e
  exact busOp_writeSramWords hl ws

end Sys2Proof.Machine
end

