-- ==== Sys2Proof/Laws/Programming.lean ====
section
/-! SUPPORT. What programming a copy does (41_phy_datapath.md R214, R224, R234, R244, R254) where the
selector's hardware takes it, for every variant at once. -/

namespace Sys2Proof.Machine

variable {s t u : State} {sel : Selector} {slots : List Slot}

/-! ### MMIO writes -/

/-- The state after MMIO words have been stored. -/
def State.stored (s : State) (ws : List (Nat × Word)) : State :=
  { s with mmio := ws.foldl (fun m w => m.putWord (BitVec.ofNat 32 w.1) w.2) s.mmio }

theorem run_writeOffsets (hq : s.quiet) (who : Runner) (hist : List Resp) (ws : List (Nat × Word))
    (k : Unit → Prog) (h : ∀ w ∈ ws, plainOffset s.plat (BitVec.ofNat 32 w.1) = true) :
    ∃ hist', run who hist (writeOffsets ws k) s =
      run who hist' (k ()) ((s.stored ws).after (s.stored ws).mmio (mmioRecords ws).reverse) := by
  induction ws generalizing s hist with
  | nil => exact ⟨hist, rfl⟩
  | cons w rest ih =>
    obtain ⟨a, v⟩ := w
    unfold writeOffsets
    rw [Code.bind_apply, run_memWrite _ _ _ _ _ hq, State.mmioWrite_plain s (BitVec.ofNat 32 a) v (h (a, v) (by simp))]
    obtain ⟨hist', e⟩ := ih (s := (s.pokeWord (BitVec.ofNat 32 a) v).record (.write (BitVec.ofNat 32 a) v)) hq
      (hist ++ [.unit]) (fun w hw => h w (by simp [hw]))
    refine ⟨hist', e.trans ?_⟩
    congr 1
    simp [State.stored, State.after, mmioRecords, State.pokeWord, State.record]

/-! ### All variants -/

theorem addressed_eq (slots : List Slot) (copy : List Word) :
    addressed slots copy = List.zipWith (fun (x : Slot) v => (x.addr, v)) slots copy := rfl

theorem mem_zipWith_addr {slots : List Slot} {copy : List Word} {w : Nat × Word}
    (h : w ∈ List.zipWith (fun (x : Slot) v => (x.addr, v)) slots copy) : ∃ x ∈ slots, x.addr = w.1 := by
  induction slots generalizing copy with
  | nil => simp at h
  | cons x rest ih =>
    cases copy with
    | nil => simp at h
    | cons v vs =>
      simp only [List.zipWith_cons_cons, List.mem_cons] at h
      rcases h with rfl | h
      · exact ⟨x, by simp, rfl⟩
      · obtain ⟨y, hy, e⟩ := ih h
        exact ⟨y, by simp [hy], e⟩

theorem mem_slotWrites {copy : List Word} {w : Nat × Word} (h : w ∈ slotWrites sel slots copy) :
    ∃ x ∈ slots, x.addr = w.1 := by
  unfold slotWrites at h
  split at h
  · exact mem_zipWith_addr (List.mem_of_mem_take h)
  all_goals exact mem_zipWith_addr h

theorem State.programmed_mmio_of_bus (h : onMmio sel = false) (ws : List (Nat × Word)) :
    ∃ ph sr un, s.programmed sel ws = { s with phy := ph, sram := sr, uncommitted := un } := by
  have hs : ∀ (t : State) (p l : Nat) a v, ∃ ph sr un,
      t.sramStore p l a v = { t with phy := ph, sram := sr, uncommitted := un } := by
    intro t p l a v
    unfold State.sramStore
    obtain ⟨p1, r1, u1, e1⟩ := t.phyWrite_eq p l t.plat.c20Window.wrAddrH (hiByte a) false
    dsimp only
    rw [e1]
    obtain ⟨p2, r2, u2, e2⟩ := State.phyWrite_eq { t with phy := p1, sram := r1, uncommitted := u1 } p l
      t.plat.c20Window.wrAddrL (loByte a) false
    rw [e2]
    obtain ⟨p3, r3, u3, e3⟩ := State.phyWrite_eq { t with phy := p2, sram := r2, uncommitted := u2 } p l
      t.plat.c20Window.wrDataH (hiByte v) false
    rw [e3]
    obtain ⟨p4, r4, u4, e4⟩ := State.phyWrite_eq { t with phy := p3, sram := r3, uncommitted := u3 } p l
      t.plat.c20Window.wrDataL (loByte v) true
    rw [e4]
    exact ⟨p4, r4, u4, rfl⟩
  have fold : ∀ {β : Type} (f : State → β → State),
      (∀ t b, ∃ ph sr un, f t b = { t with phy := ph, sram := sr, uncommitted := un }) →
      ∀ (l : List β) (t : State), ∃ ph sr un, l.foldl f t = { t with phy := ph, sram := sr, uncommitted := un } := by
    intro β f hf l
    induction l with
    | nil => intro t; exact ⟨t.phy, t.sram, t.uncommitted, rfl⟩
    | cons b rest ih =>
      intro t
      obtain ⟨p1, r1, u1, e1⟩ := hf t b
      rw [List.foldl_cons, e1]
      obtain ⟨p2, r2, u2, e2⟩ := ih { t with phy := p1, sram := r1, uncommitted := u1 }
      rw [e2]
      exact ⟨p2, r2, u2, rfl⟩
  unfold onMmio at h
  unfold State.programmed
  split at h
  · cases h
  · cases h
  · cases h
  · exact fold _ (fun t lane => fold _ (fun t w => t.phyWrite_eq _ _ _ _ true) _ t) _ _
  · exact fold _ (fun t lane => fold _ (fun t w => hs t _ _ _ _) _ t) _ _

/-- Programming changes the stores only. -/
theorem State.storesOnly_programmed (ws : List (Nat × Word)) : s.storesOnly (s.programmed sel ws) := by
  cases h : onMmio sel
  · obtain ⟨ph, sr, un, e⟩ := s.programmed_mmio_of_bus h ws
    rw [e]
    exact ⟨_, _, _, _, rfl⟩
  · unfold onMmio at h
    unfold State.programmed
    split at h
    · exact ⟨_, _, _, _, rfl⟩
    · exact ⟨_, _, _, _, rfl⟩
    · exact ⟨_, _, _, _, rfl⟩
    · cases h
    · cases h

theorem foldl_plat {β : Type} (f : State → β → State) (hf : ∀ t b, (f t b).plat = t.plat) (l : List β) (t : State) :
    (l.foldl f t).plat = t.plat := by
  induction l generalizing t with
  | nil => rfl
  | cons b rest ih => rw [List.foldl_cons, ih, hf]

theorem sramStores_plat (q lane : Nat) (ws : List (Nat × Word)) (t : State) :
    (ws.foldl (fun t w => t.sramStore q lane (BitVec.ofNat 16 w.1) (w.2.setWidth 16)) t).plat = t.plat := by
  induction ws generalizing t with
  | nil => rfl
  | cons w rest ih => rw [List.foldl_cons, ih]; exact State.sramStore_plat _ _ _ _ _

/-- The SRAM words written on each lane of a list. -/
def State.sramStores (q : Nat) (ws : List (Nat × Word)) (t : State) (lane : Nat) : State :=
  ws.foldl (fun t w => t.sramStore q lane (BitVec.ofNat 16 w.1) (w.2.setWidth 16)) t

theorem busOp_sramLanes (q : Nat) (ws : List (Nat × Word)) (lanes : List Nat) :
    BusOp s q lanes (onLanes (fun lane => writeSramWords s.plat q lane ws) lanes) .ok
      (lanes.foldl (fun t lane => ws.foldl (fun t w => t.sramStore q lane (BitVec.ofNat 16 w.1) (w.2.setWidth 16)) t) s) := by
  have h1 : ∀ (t : State) (lane : Nat), (State.sramStores q ws t lane).plat = t.plat :=
    fun t lane => sramStores_plat q lane ws t
  have h2 : ∀ (t : State) (lane : Nat), t.plat = s.plat → lane ∈ lanes →
      BusOp t q lanes (writeSramWords s.plat q lane ws) .ok (State.sramStores q ws t lane) :=
    fun t lane ht hm => busOp_writeSramWords_of ht hm ws
  exact busOp_onLanes (f := State.sramStores q ws) h1 h2 lanes (fun x hx => hx)

/-- `write_v` of a bus variant on ready lanes. -/
theorem busOp_writeV (h : onMmio sel = false) (copy : List Word) :
    BusOp s (busLanes sel).1 (busLanes sel).2 (writeV s.plat (some sel) (addressed slots copy)) .ok
      (s.programmed sel (slotWrites sel slots copy)) := by
  unfold onMmio at h
  unfold writeV layoutOf State.programmed slotWrites busLanes
  split at h
  · cases h
  · cases h
  · cases h
  · rename_i l hl
    simp only [Option.map_some, hl]
    exact busOp_onLanes (p := l.port) (L := setLanes l.lanes)
      (op := fun lane => writeBusSlots s.plat l.port lane (addressed slots copy))
      (f := fun t lane => (addressed slots copy).foldl
        (fun t w => t.phyWrite l.port lane (BitVec.ofNat 12 w.1) (w.2.setWidth 8) true) t)
      (fun t lane => foldl_plat _ (fun t w => State.phyWrite_plat _ _ _) _ _)
      (fun t lane ht hm => busOp_writeBusSlots_of ht hm _) (setLanes l.lanes) (fun x hx => hx)
  · rename_i l hl
    simp only [Option.map_some, hl]
    exact busOp_sramLanes l.port _ _

/-- A state in which the selector's hardware takes `write_v`, and nothing else moves. -/
structure Writable (s : State) (sel : Selector) (slots : List Slot) : Prop where
  quiet : s.quiet
  plain : onMmio sel = true → ∀ x ∈ slots, plainOffset s.plat (BitVec.ofNat 32 x.addr) = true
  lanes : onMmio sel = false → Held s (busLanes sel).1 (busLanes sel).2 s.mmio

theorem State.writable.ready (h : s.writable sel slots) (hq : s.quiet) : Writable s sel slots := by
  unfold State.writable at h
  refine ⟨hq, fun hm => ?_, fun hm => ?_⟩
  · simpa [hm] using h
  · simp only [hm, Bool.false_eq_true, if_false] at h
    exact h.held hq

theorem Held.refl_of {p : Nat} {L : List Nat} {m : Memory} (h : Held s p L m) (tr : List Record) :
    Held (s.withAccess m tr) p L m :=
  ⟨h.quiet, h.auto, h.facts, ⟨h.store.1, fun _ _ => rfl⟩, h.idle⟩

/-- `write_v` of a copy (41_phy_datapath.md R214, R224, R234, R244, R254) where the hardware takes it. -/
theorem run_writeV (h : Writable s sel slots) (who : Runner) (hist : List Resp) (copy : List Word)
    (k : Status → Prog) :
    ∃ hist' t, (s.programmed sel (slotWrites sel slots copy)).wrote sel
        (mmioRecords (slotWrites sel slots copy)) t ∧ Writable t sel slots ∧
      run who hist (writeV s.plat (some sel) (addressed slots copy) k) s = run who hist' (k .ok) t := by
  cases hm : onMmio sel
  · obtain ⟨hist', m', tr', hh, e⟩ := busOp_writeV (s := s) (slots := slots) hm copy who hist k s.mmio s.trace
      (h.lanes hm)
    refine ⟨hist', _, ?_, ?_, e⟩
    · unfold State.wrote
      rw [if_neg (by simp [hm])]
      refine ⟨m', tr', hh.store, ?_⟩
      obtain ⟨ph, sr, un, e⟩ := s.programmed_mmio_of_bus hm (slotWrites sel slots copy)
      rw [e]
      rfl
    · exact ⟨hh.quiet, fun h' => absurd h' (by simp [hm]), fun _ => hh.refl_of _⟩
  · have hp := h.plain hm
    have key : ∀ ws : List (Nat × Word), (∀ w ∈ ws, ∃ x ∈ slots, x.addr = w.1) →
        ∃ hist', run who hist (writeOffsets ws fun _ => k .ok) s =
          run who hist' (k .ok) ((s.stored ws).after (s.stored ws).mmio (mmioRecords ws).reverse) := by
      intro ws hw
      refine run_writeOffsets h.quiet who hist ws _ fun w hw' => ?_
      obtain ⟨x, hx, e⟩ := hw w hw'
      rw [← e]
      exact hp x hx
    have hwr : ∀ ws : List (Nat × Word), Writable ((s.stored ws).after (s.stored ws).mmio (mmioRecords ws).reverse) sel slots :=
      fun ws => ⟨h.quiet, fun _ => hp, fun h' => absurd h' (by simp [hm])⟩
    simp only [State.wrote, hm, if_true]
    unfold onMmio at hm
    unfold writeV layoutOf slotWrites State.programmed
    split at hm
    · rename_i l hl
      simp only [Option.map_some, hl]
      obtain ⟨hist', e⟩ := key (addressed slots copy) (fun w hw => mem_zipWith_addr hw)
      exact ⟨hist', _, rfl, hwr _, e⟩
    · rename_i l hl
      simp only [Option.map_some, hl]
      obtain ⟨hist', e⟩ := key (addressed slots copy) (fun w hw => mem_zipWith_addr hw)
      exact ⟨hist', _, rfl, hwr _, e⟩
    · rename_i l hl
      simp only [Option.map_some, hl]
      obtain ⟨hist', e⟩ := key ((addressed slots copy).take 1) (fun w hw => mem_zipWith_addr (List.mem_of_mem_take hw))
      exact ⟨hist', _, rfl, hwr _, e⟩
    · cases hm
    · cases hm

end Sys2Proof.Machine
end

