-- ==== Sys2Proof/Laws/Commits.lean ====
section
/-! SUPPORT. Several `write_v` one after the other, with sleeps between them, where registers of the bank
change meanwhile: what `State.wrote` says of the whole is what it says of the parts, put together. -/

namespace Sys2Proof.Machine

variable {s t u : State} {sel : Selector} {slots : List Slot}

/-! ### Programming looks at the stores only -/

/-- The state with other banks, MMIO store, trace and time. -/
def State.beside (s : State) (bs : List Bank) (m : Memory) (tr : List Record) (now : Time) : State :=
  { s with banks := bs, mmio := m, trace := tr, now := now }

variable (bs : List Bank) (m : Memory) (tr : List Record) (now : Time)

theorem State.phyWrite_beside (p l : Nat) (a : BitVec 12) (d : Byte) (k : Bool) :
    (s.beside bs m tr now).phyWrite p l a d k = (s.phyWrite p l a d k).beside bs m tr now := by
  have h1 : (s.beside bs m tr now).endsSramWrite p l a = s.endsSramWrite p l a := rfl
  have h2 : (s.beside bs m tr now).endsSramSelect p l a = s.endsSramSelect p l a := rfl
  cases k
  · rfl
  · simp only [State.phyWrite, State.commitWrite, if_true, h1, h2]
    cases s.endsSramWrite p l a <;> cases s.endsSramSelect p l a <;> rfl

theorem State.sramStore_beside (p l : Nat) (a v : BitVec 16) :
    (s.beside bs m tr now).sramStore p l a v = (s.sramStore p l a v).beside bs m tr now := by
  unfold State.sramStore
  simp only [State.phyWrite_beside]
  rfl

/-- The PHY registers written on each lane of a list. -/
def State.phyStores (q : Nat) (ws : List (Nat × Word)) (t : State) (lane : Nat) : State :=
  ws.foldl (fun t w => t.phyWrite q lane (BitVec.ofNat 12 w.1) (w.2.setWidth 8) true) t

theorem State.phyStores_beside (q : Nat) (ws : List (Nat × Word)) (s : State) (lane : Nat) :
    State.phyStores q ws (s.beside bs m tr now) lane = (State.phyStores q ws s lane).beside bs m tr now := by
  unfold State.phyStores
  induction ws generalizing s with
  | nil => rfl
  | cons w rest ih => rw [List.foldl_cons, State.phyWrite_beside, ih, List.foldl_cons]

theorem State.sramStores_beside (q : Nat) (ws : List (Nat × Word)) (s : State) (lane : Nat) :
    State.sramStores q ws (s.beside bs m tr now) lane = (State.sramStores q ws s lane).beside bs m tr now := by
  unfold State.sramStores
  induction ws generalizing s with
  | nil => rfl
  | cons w rest ih => rw [List.foldl_cons, State.sramStore_beside, ih, List.foldl_cons]

theorem foldl_beside (f : State → Nat → State) (hf : ∀ t b, f (t.beside bs m tr now) b = (f t b).beside bs m tr now)
    (l : List Nat) (s : State) : l.foldl f (s.beside bs m tr now) = (l.foldl f s).beside bs m tr now := by
  induction l generalizing s with
  | nil => rfl
  | cons b rest ih => rw [List.foldl_cons, hf, ih, List.foldl_cons]

theorem State.programmed_beside (h : onMmio sel = false) (ws : List (Nat × Word)) :
    (s.beside bs m tr now).programmed sel ws = (s.programmed sel ws).beside bs m tr now := by
  unfold onMmio at h
  unfold State.programmed
  split at h
  · cases h
  · cases h
  · cases h
  · rename_i l _
    exact foldl_beside bs m tr now (State.phyStores l.port ws) (fun t lane => State.phyStores_beside bs m tr now _ _ t lane) _ s
  · rename_i l _
    exact foldl_beside bs m tr now (State.sramStores l.port ws) (fun t lane => State.sramStores_beside bs m tr now _ _ t lane) _ s

/-- What programming an MMIO variant does to the MMIO store. -/
def mmioStored (m : Memory) (ws : List (Nat × Word)) : Memory :=
  ws.foldl (fun m w => m.putWord (BitVec.ofNat 32 w.1) w.2) m

theorem State.programmed_mmio (h : onMmio sel = true) (ws : List (Nat × Word)) :
    s.programmed sel ws = { s with mmio := mmioStored s.mmio ws } := by
  unfold onMmio at h
  unfold State.programmed
  split at h
  · rfl
  · rfl
  · rfl
  · cases h
  · cases h

/-! ### `wrote` put together -/

theorem State.wrote_refl (h : onMmio sel = true ∨ s.mmio.wf = true) : s.wrote sel [] s := by
  unfold State.wrote
  split
  · rfl
  · rename_i hn
    exact ⟨s.mmio, [], ⟨h.resolve_left hn, fun _ _ => rfl⟩, rfl⟩

/-- One more `write_v`. -/
theorem State.wrote_more {rs rs' : List Record} {ws : List (Nat × Word)} {v : State} (h : u.wrote sel rs t)
    (h' : (t.programmed sel ws).wrote sel rs' v) : (u.programmed sel ws).wrote sel (rs ++ rs') v := by
  cases hm : onMmio sel
  · simp only [State.wrote, hm, Bool.false_eq_true, if_false] at h h' ⊢
    obtain ⟨m, tr, ht, rfl⟩ := h
    obtain ⟨m', tr', ht', rfl⟩ := h'
    have e : (u.after m tr).programmed sel ws = (u.programmed sel ws).beside u.banks m (tr ++ u.trace) u.now :=
      State.programmed_beside (s := u) u.banks m (tr ++ u.trace) u.now hm ws
    obtain ⟨ph, sr, un, e2⟩ := u.programmed_mmio_of_bus hm ws
    rw [e] at ht' ⊢
    rw [e2] at ht' ⊢
    refine ⟨m', tr' ++ tr, ⟨ht'.1, fun a ha => (ht'.2 a ha).trans (ht.2 a ha)⟩, ?_⟩
    simp [State.after, State.beside]
  · simp only [State.wrote, hm, if_true] at h h' ⊢
    subst h
    rw [State.programmed_mmio hm] at h'
    rw [State.programmed_mmio hm]
    subst h'
    simp [State.after]

/-- A sleep after the writes. -/
theorem State.wrote_sleep {rs : List Record} (h : u.wrote sel rs t) (d : Time) :
    (u.later d).wrote sel (rs ++ [.sleep d]) (t.sleep d) := by
  unfold State.wrote at *
  split
  · rename_i hm
    rw [if_pos hm] at h
    subst h
    simp [State.after, State.sleep, State.later, State.record]
  · rename_i hm
    rw [if_neg hm] at h
    obtain ⟨m, tr, ht, rfl⟩ := h
    exact ⟨m, .sleep d :: tr, ht, by simp [State.after, State.sleep, State.later, State.record]⟩

theorem State.later_programmed (ws : List (Nat × Word)) (d : Time) :
    (s.later d).programmed sel ws = (s.programmed sel ws).later d := by
  cases hm : onMmio sel
  · have := State.programmed_beside (s := s) s.banks s.mmio s.trace (s.now + d) hm ws
    obtain ⟨ph, sr, un, e⟩ := s.programmed_mmio_of_bus hm ws
    rw [e] at this
    rw [e]
    exact this
  · rw [State.programmed_mmio hm, State.programmed_mmio hm]
    rfl

theorem State.later_foldl_programmed (l : List (List (Nat × Word))) (d : Time) :
    l.foldl (fun u ws => u.programmed sel ws) (s.later d) = (l.foldl (fun u ws => u.programmed sel ws) s).later d := by
  induction l generalizing s with
  | nil => rfl
  | cons ws rest ih => rw [List.foldl_cons, State.later_programmed, ih, List.foldl_cons]

/-- What `wrote` leaves alone. -/
theorem State.wrote_keeps {rs : List Record} (h : u.wrote sel rs t) :
    t.banks = u.banks ∧ t.enabled = u.enabled ∧ t.shutdown = u.shutdown ∧ t.now = u.now ∧ t.phy = u.phy ∧
      t.sram = u.sram ∧ t.uncommitted = u.uncommitted ∧ t.plat = u.plat ∧ t.phyAuto = u.phyAuto ∧ t.inputs = u.inputs ∧ t.sched = u.sched ∧
      t.epoch = u.epoch ∧ t.cur = u.cur := by
  unfold State.wrote at h
  split at h
  · subst h; exact ⟨rfl, rfl, rfl, rfl, rfl, rfl, rfl, rfl, rfl, rfl, rfl, rfl, rfl⟩
  · obtain ⟨m, tr, -, rfl⟩ := h
    exact ⟨rfl, rfl, rfl, rfl, rfl, rfl, rfl, rfl, rfl, rfl, rfl, rfl, rfl⟩

/-! ### With the registers of the bank beside it -/

theorem Writable.withBanks (h : Writable s sel slots) (bs : List Bank) : Writable { s with banks := bs } sel slots :=
  ⟨h.quiet, h.plain, fun hm =>
    let hh := h.lanes hm
    ⟨hh.quiet, hh.auto, hh.facts, hh.store, hh.idle⟩⟩

theorem Writable.sleep (h : Writable s sel slots) (d : Time) : Writable (s.sleep d) sel slots :=
  ⟨h.quiet, h.plain, fun hm =>
    let hh := h.lanes hm
    ⟨hh.quiet, hh.auto, hh.facts, hh.store, hh.idle⟩⟩

theorem State.programmed_withBanks (ws : List (Nat × Word)) (bs : List Bank) :
    ({ s with banks := bs } : State).programmed sel ws = { s.programmed sel ws with banks := bs } := by
  cases hm : onMmio sel
  · have := State.programmed_beside (s := s) bs s.mmio s.trace s.now hm ws
    obtain ⟨ph, sr, un, e⟩ := s.programmed_mmio_of_bus hm ws
    rw [e] at this
    rw [e]
    exact this
  · rw [State.programmed_mmio hm, State.programmed_mmio hm]

/-- `write_v` while the bank's registers are `c`. -/
theorem run_writeV_at (h : Writable s sel slots) (n : Nat) (b : Bank) (c : Core) (who : Runner) (hist : List Resp)
    (copy : List Word) (k : Status → Prog) :
    ∃ hist' t, (s.programmed sel (slotWrites sel slots copy)).wrote sel
        (mmioRecords (slotWrites sel slots copy)) t ∧ Writable t sel slots ∧
      run who hist (writeV s.plat (some sel) (addressed slots copy) k) (s.withCore n b c) =
        run who hist' (k .ok) (t.withCore n b c) := by
  obtain ⟨hist', t, hw, ht, e⟩ := run_writeV (s := s.withCore n b c) (h.withBanks _) who hist copy k
  refine ⟨hist', { t with banks := s.banks }, ?_, ht.withBanks _, ?_⟩
  · have e2 : (s.withCore n b c).programmed sel (slotWrites sel slots copy) =
        { s.programmed sel (slotWrites sel slots copy) with banks := (s.withCore n b c).banks } :=
      State.programmed_withBanks _ _
    rw [e2] at hw
    obtain ⟨m, ph, sr, un, e3⟩ := State.storesOnly_programmed (s := s) (sel := sel) (slotWrites sel slots copy)
    rw [e3] at hw ⊢
    unfold State.wrote at *
    split
    · rename_i hm
      rw [if_pos hm] at hw
      rw [hw]
      rfl
    · rename_i hm
      rw [if_neg hm] at hw
      obtain ⟨m', tr, hto, rfl⟩ := hw
      exact ⟨m', tr, hto, rfl⟩
  · rw [show (s.withCore n b c).plat = s.plat from rfl] at e
    rw [e]
    have hb : t.banks = (s.withCore n b c).banks := by
      obtain ⟨m, ph, sr, un, e3⟩ := State.storesOnly_programmed (s := s.withCore n b c) (sel := sel) (slotWrites sel slots copy)
      rw [(State.wrote_keeps hw).1, e3]
    have : t = ({ t with banks := s.banks } : State).withCore n b c := by
      cases t
      cases hb
      rfl
    rw [← this]

end Sys2Proof.Machine
end

