-- ==== Sys2Proof/Laws/Controller.lean ====
section
/-! SUPPORT. What the pieces of the controller's pseudocode do: the end of a capture, a restore that is owned,
the release, the plan of a stepping and its committed steps (41_phy_datapath.md R201, 43_rollback_scheduler.md
R346, 42_stepping_controller.md R274, R291). -/

namespace Sys2Proof.Machine

variable {s t u : State} {x : Selector} {ss : List Slot} {n : Nat} {b : Bank}

/-! ### Single writes of a bank -/

@[simp] theorem Core.addOrig_idle {c : Core} (h : HalfSlot) (hf : c.fsm = .idle) (hc : c.captured = false) :
    c.addOrig h = { c with filling := some h } := by
  simp [Core.addOrig, Core.mayFill, hf, hc]

@[simp] theorem Core.addMod_idle {c : Core} {h : HalfSlot} (v : Word) (hf : c.fsm = .idle) (hc : c.captured = false)
    (hh : c.filling = some h) :
    c.addMod v = { c with slots := some (c.slots.getD [] ++ [⟨h.addr, h.orig, v, h.writable⟩]), filling := none } := by
  simp [Core.addMod, Core.mayFill, hf, hc, hh]

@[simp] theorem Core.setCaptured_idle {c : Core} (hf : c.fsm = .idle) :
    c.setCaptured = { c with captured := true, slots := some (c.slots.getD []), filling := none } := by
  simp [Core.setCaptured, hf]

@[simp] theorem C20Regs.cache?_holding (c : C20Cache) : (C20Regs.holding c).cache? = some c := rfl

/-- The slots of a capture, one after the other. -/
theorem foldl_fill (t : Time) (ss : List Slot) {c : Core} (hf : c.fsm = .idle) (hc : c.captured = false) :
    ∃ o fl, (fillWrites ss).foldl (fun c r => r.effect t c) c = { c with slots := o, filling := fl } ∧
      o.getD [] = c.slots.getD [] ++ ss := by
  induction ss generalizing c with
  | nil => exact ⟨c.slots, c.filling, rfl, by simp⟩
  | cons y rest ih =>
    obtain ⟨o, fl, h1, h2⟩ := ih (c := { c with slots := some (c.slots.getD [] ++ [y]), filling := none }) hf hc
    refine ⟨o, fl, ?_, by simpa using h2⟩
    have e : (fillWrites [y]).foldl (fun c r => r.effect t c) c =
        { c with slots := some (c.slots.getD [] ++ [y]), filling := none } := by
      simp [fillWrites, Req.effect, hf, hc]
    rw [show fillWrites (y :: rest) = fillWrites [y] ++ fillWrites rest from rfl, List.foldl_append, e, h1]

/-- Writes of the C20 registers, one after the other. -/
theorem foldl_setC20 (t : Time) (ws : List C20Write) (c : Core) :
    (ws.map Req.setC20).foldl (fun c r => r.effect t c) c = { c with c20 := ws.foldl (fun r w => r.put w) c.c20 } := by
  induction ws generalizing c with
  | nil => rfl
  | cons w rest ih => rw [List.map_cons, List.foldl_cons, ih]; rfl

@[simp] theorem Core.setDone_rollingBack {c : Core} (hf : c.fsm = .rollingBack) : c.setDone = { c with done := true } := by
  simp [Core.setDone, hf]

theorem Core.enter_of {c : Core} {f : Fsm} (h : c.mayEnter f = true) : c.enter f = { c with fsm := f } := by
  simp [Core.enter, h]

/-- A legal command with good operands runs its pseudocode. -/
theorem runCommand_start (hb : s.banks[s.cur]? = some b) (i : Instr) (code : Platform → Core → Code Status)
    (hl : legality i b.core.fsm = .run) (ho : operandsOk s.plat i b.core = true) :
    s.runCommand i code =
      .next (run (.seq s.cur (some i) b.core) [] (code s.plat b.core Prog.ending) (s.withCore s.cur b b.core)) := by
  rw [State.runCommand_of_bank hb, guarded_run hl ho, State.withCore_self hb]

/-- The writes that end a capture (41_phy_datapath.md R201). -/
theorem run_captureEnd (h : n < s.banks.length) (hq : s.quiet) {c : Core} (hf : c.fsm = .idle)
    (hc : c.captured = false) (hn : c.slots = none) (i : Option Instr) (view : Core) (hist : List Resp)
    (slots : List Slot) (c20 : Option C20Cache) (f : B64) (k : Unit → Prog) :
    ∃ hist', run (.seq n i view) hist
        ((do
          performAll (fillWrites slots)
          performAll ((c20.elim [] C20Cache.writes).map .setC20)
          perform .setCaptured
          perform (.setApplied false)
          perform (.setFreqOrig (some f))
          perform (.setFsm .captured) : Code Unit) k) (s.withCore n b c) =
      run (.seq n i view) hist' (k ()) (s.withCore n b { c with
        slots := some slots, filling := none, captured := true, appliedMod := false
        c20 := c20.elim c.c20 C20Regs.holding, fsm := .captured, pllFreqOrig := some f }) := by
  obtain ⟨o, fl, ho, hg⟩ := foldl_fill s.now slots hf hc
  refine ⟨hist ++ List.replicate (fillWrites slots).length .unit ++
    List.replicate ((c20.elim [] C20Cache.writes).map Req.setC20).length .unit ++ [.unit] ++ [.unit] ++ [.unit] ++
    [.unit], ?_⟩
  simp only [Code.bind_apply]
  rw [run_locals_at h _ _ _ _ _ _ hq (by
      intro r hr
      obtain ⟨y, -, hy⟩ := List.mem_flatMap.1 hr
      rcases List.mem_cons.1 hy with rfl | hy
      · rfl
      · rcases List.mem_cons.1 hy with rfl | hy
        · rfl
        · cases hy), ho,
    run_locals_at h _ _ _ _ _ _ hq (by rintro r hr; obtain ⟨w, -, rfl⟩ := List.mem_map.1 hr; rfl), foldl_setC20]
  iterate 4 rw [run_local_at h _ _ _ _ _ _ hq rfl]
  cases c20 <;>
    simp [Req.effect, Core.setCaptured, Core.enter, Core.mayEnter, stepTransition, hf, hg, hn, C20Cache.writes,
      C20Regs.put, C20Regs.holding]

/-! ### The restore and the release -/

theorem State.wrote_core {rs : List Record} {ws : List (Nat × Word)} (hw : (s.programmed x ws).wrote x rs t) :
    t.banks = s.banks ∧ t.shutdown = s.shutdown ∧ t.plat = s.plat ∧ t.enabled = s.enabled := by
  have h := State.wrote_keeps hw
  obtain ⟨m, ph, sr, un, e⟩ := State.storesOnly_programmed (s := s) (sel := x) ws
  rw [e] at h
  exact ⟨h.1, h.2.2.1, h.2.2.2.2.2.2.2.1, h.2.1⟩

/-- `rollback_now` of a caller that wins the test-and-clear, on hardware that takes the writes. -/
theorem run_rollbackNow (h : n < s.banks.length) (hW : Writable s x ss) {c : Core} (ha : c.armed = true)
    (hs : c.sel = some x) (hss : c.slots = some ss) (i : Option Instr) (view : Core) (hist : List Resp) (k : Status → Prog) :
    ∃ hist' t, (s.programmed x (slotWrites x ss (ss.map (·.orig)))).wrote x
        (.cancel n :: mmioRecords (slotWrites x ss (ss.map (·.orig)))) t ∧ t.quiet ∧ t.banks = s.banks ∧
      run (.seq n i view) hist (rollbackNow false s.plat k) (s.withCore n b c) =
        run (.seq n i view) hist' (k .ok) (t.withCore n b { c with
          armed := false, deadline := none, appliedMod := false, rbStatus := .ok, done := true, fsm := .done }) := by
  have hsn : c.snapshot = ss := by rw [Core.snapshot, hss]; rfl
  have hW1 : Writable (s.record (.cancel n)) x ss := ⟨hW.quiet, hW.plain, fun hm =>
    let hh := hW.lanes hm
    ⟨hh.quiet, hh.auto, hh.facts, hh.store, hh.idle⟩⟩
  have hcan : s.wrote x [.cancel n] (s.record (.cancel n)) := by
    unfold State.wrote
    split
    · rfl
    · rename_i hm
      exact ⟨s.mmio, [.cancel n], ⟨(hW.lanes (by simpa using hm)).store.1, fun _ _ => rfl⟩, rfl⟩
  obtain ⟨h', t, hw, ht, e⟩ := run_writeV_at hW1 n b c.startRestore (.seq n i view) (hist ++ [.owner (some x) ss])
    (ss.map (·.orig)) (fun st => (do
      onlyIf (st = .ok) (perform (.setApplied false))
      perform (.setRbStatus st)
      perform .setDone
      perform (.setFsm .done)
      return st : Code Status) k)
  have k1 : t.banks = s.banks := (State.wrote_core hw).1
  have hlt : n < t.banks.length := by rw [k1]; exact h
  have hT : performReq n (.testAndClear false) (s.withCore n b c) =
      (some (.owner (some x) ss), (s.record (.cancel n)).withCore n b c.startRestore) := by
    show (some (State.testAndClear _ _ false).1, (State.testAndClear _ _ false).2) = _
    unfold State.testAndClear Core.canClear
    rw [State.withCore_coreAt h]
    simp only [Bool.false_eq_true, if_false, ha, if_true, hs, hsn, State.withCore_modifyCore h]
    rfl
  refine ⟨h' ++ [.unit] ++ [.unit] ++ [.unit] ++ [.unit], t, State.wrote_more hcan hw, ht.quiet, k1, ?_⟩
  unfold rollbackNow
  rw [Code.bind_apply, testAndClear_apply,
    run_act_some _ _ _ _ (show (s.withCore n b c).quiet from hW.quiet) (by exact hT)]
  simp only [Resp.asOwner]
  unfold writeOrig
  rw [Code.bind_apply]
  refine e.trans ?_
  simp only [Code.bind_apply, onlyIf_apply, decide_true, if_true]
  iterate 4 rw [run_local_at hlt _ _ _ _ _ _ ht.quiet rfl]
  rw [Code.pure_apply]
  simp [Req.effect, Core.startRestore, Core.timerCancel, Core.setDone, Core.enter, Core.mayEnter, stepTransition]

/-- The registers RELEASE leaves (42_stepping_controller.md R274). -/
def Core.unbound (c : Core) : Core :=
  { c with
    sel := none, pllIndex := none, slots := none, filling := none, c20 := {}, pllFreqOrig := none, pllFreqMod := none
    usedShift := none, captured := false, appliedMod := false, armed := false, deadline := none, done := true
    fsm := .unbound }

/-- The release of a bound instance (42_stepping_controller.md R274). -/
theorem State.withCore_release {c : Core} {k : Nat} (h : n < s.banks.length) (hk : c.pllIndex = some k)
    (hm : c.fsm.mayRelease = true) :
    (s.withCore n b c).release n =
      ({ s with enabled := s.enabled.set k false } : State).withCore n b { c with pllIndex := none } := by
  unfold State.release
  rw [State.core?_of_bank (State.withCore_bank h _)]
  simp only [hm, hk, if_true]
  exact State.withCore_modifyCore (s := { s with enabled := s.enabled.set k false }) h _ _

/-- The writes of RELEASE after the release. -/
theorem foldl_unbind (t : Time) {c : Core} (hk : c.pllIndex = none) (hm : c.fsm.mayRelease = true) :
    unbindWrites.foldl (fun c r => r.effect t c) c = c.unbound := by
  have ht : stepTransition c.fsm .unbound = true := by
    cases hf : c.fsm <;> rw [hf] at hm <;> first | rfl | cases hm
  have hr : c.fsm ≠ .rollingBack := by
    intro e
    rw [e] at hm
    cases hm
  unfold unbindWrites
  rw [List.foldl_append, List.foldl_append, foldl_setC20]
  simp [Req.effect, Core.dropSel, Core.dropSlots, Core.dropCaptured, Core.dropArmed, Core.setDone, Core.releasing,
    Core.enter, Core.mayEnter, Core.isEmpty, Core.unbound, c20Clears, C20Regs.put, hk, hm, ht, hr]

/-- A command under way that reaches the release where R320 has one, up to the end of RELEASE's writes. -/
theorem run_release {c : Core} {j : Nat} (h : n < s.banks.length) (hq : s.quiet) (hk : c.pllIndex = some j)
    (hm : c.fsm.mayRelease = true) (i : Option Instr) (view : Core) (hist : List Resp) (k : Unit → Prog) :
    ∃ hist', run (.seq n i view) hist
        ((do
          perform .release
          performAll unbindWrites : Code Unit) k) (s.withCore n b c) =
      run (.seq n i view) hist' (k ())
        (({ s with enabled := s.enabled.set j false } : State).withCore n b c.unbound) := by
  refine ⟨hist ++ [.unit] ++ List.replicate unbindWrites.length .unit, ?_⟩
  have hf : c.fsm ≠ .rollingBack := by
    intro e
    rw [e] at hm
    cases hm
  have hr : performReq n .release (s.withCore n b c) = (some .unit,
      ({ s with enabled := s.enabled.set j false } : State).withCore n b { c with pllIndex := none }) := by
    show State.tryRelease _ n = _
    rw [State.tryRelease, State.withCore_coreAt h, if_neg hf, State.withCore_release h hk hm]
  rw [Code.bind_apply, perform_apply, run_act_some _ _ _ _ (show (s.withCore n b c).quiet from hq) (by exact hr),
    run_locals_at (s := { s with enabled := s.enabled.set j false }) h _ _ _ _ _ _ hq (by
      simp [unbindWrites, c20Clears, Req.isLocal])]
  exact congrArg (fun x => run (.seq n i view) _ (k ())
    (({ s with enabled := s.enabled.set j false } : State).withCore n b x))
    (foldl_unbind s.now (c := { c with pllIndex := none }) rfl hm)

/-! ### The stepping -/

@[simp] theorem applyPuts_length (ms : List Word) (puts : List (Nat × Word)) :
    (applyPuts ms puts).length = ms.length := by
  induction puts generalizing ms with
  | nil => rfl
  | cons p rest ih => exact (ih _).trans (by simp)

/-- An inverse keeps the number of slots. -/
theorem invV_length (p : Platform) (sel : Option Selector) (c20 : Option C20Cache) (ms : List Word) (f : B64) :
    (invV p sel c20 ms f).2.length = ms.length := applyPuts_length _ _

theorem withMods_self (ss : List Slot) : withMods ss (ss.map (·.mod)) = ss := by
  induction ss with
  | nil => rfl
  | cons y rest ih =>
    simp only [withMods, List.map_cons, List.zipWith_cons_cons] at *
    rw [ih]

theorem withMods_set (ss : List Slot) (ms : List Word) (k : Nat) (v : Word) (h : ms.length = ss.length) :
    (withMods ss ms).modify k (fun y => { y with mod := v }) = withMods ss (ms.set k v) := by
  induction ss generalizing ms k with
  | nil => cases ms with
    | nil => cases k <;> rfl
    | cons => simp at h
  | cons y rest ih => cases ms with
    | nil => simp at h
    | cons w ws => cases k with
      | zero => rfl
      | succ k =>
        have := ih ws k (by simpa using h)
        simp only [withMods, List.zipWith_cons_cons, List.set_cons_succ, List.modify_succ_cons] at *
        rw [this]

/-- The writes of `mod` in a row leave the copy they make. -/
theorem foldl_setMod (t : Time) (puts : List (Nat × Word)) {c : Core} {ms : List Word}
    (hs : c.slots = some (withMods ss ms)) (h : ms.length = ss.length) :
    (puts.map fun p => Req.setMod p.1 p.2).foldl (fun c r => r.effect t c) c =
      { c with slots := some (withMods ss (applyPuts ms puts)) } := by
  induction puts generalizing c ms with
  | nil =>
    show c = { c with slots := some (withMods ss ms) }
    rw [← hs]
  | cons p rest ih =>
    rw [List.map_cons, List.foldl_cons, ih (c := Req.effect (.setMod p.1 p.2) t c) (ms := ms.set p.1 p.2)
      (by simp [Req.effect, Core.setMod, hs, withMods_set ss ms _ _ h]) (by simpa using h)]
    rfl

/-- `inv_v` writes the copy it computes, word by word (10_state.md R37). -/
theorem run_writeMod (hq : s.quiet) (h : n < s.banks.length) (i : Option Instr) (view : Core) (hist : List Resp)
    (puts : List (Nat × Word)) {c : Core} {ms : List Word} (hs : c.slots = some (withMods ss ms))
    (hl : ms.length = ss.length) (k : Unit → Prog) :
    ∃ hist', run (.seq n i view) hist (writeMod puts k) (s.withCore n b c) =
      run (.seq n i view) hist' (k ()) (s.withCore n b { c with slots := some (withMods ss (applyPuts ms puts)) }) := by
  refine ⟨hist ++ List.replicate (puts.map fun p => Req.setMod p.1 p.2).length .unit, ?_⟩
  unfold writeMod
  rw [run_locals_at h _ _ _ _ _ _ hq (by rintro r hr; obtain ⟨p, -, rfl⟩ := List.mem_map.1 hr; rfl),
    foldl_setMod s.now puts hs hl]

/-- The plan of a stepping (42_stepping_controller.md R291 steps 2 and 3): the number of steps and their size;
of the bank only the datapath registers may change. -/
theorem run_planSteps (hq : s.quiet) (h : n < s.banks.length) (i : Option Instr) (view : Core) (hist : List Resp)
    (fromPhy : Bool) {c target shift size : B64} {m : Nat} (hp : stepPlan c target shift m size)
    (k : Nat × B64 → Prog) (core : Core) :
    ∃ hist', run (.seq n i view) hist (planSteps fromPhy c target shift k) (s.withCore n b core) =
      run (.seq n i view) hist' (k (m, size)) (s.withCore n b
        { core with dp := { core.dp with nsteps := some (BitVec.ofNat 32 m), ssize := some size } }) := by
  have e : percentDiff c target = stepPercent c target := rfl
  have hset : ∀ (hist : List Resp) (core : Core), ∃ hist', run (.seq n i view) hist (setPlan m size k) (s.withCore n b core) =
      run (.seq n i view) hist' (k (m, size)) (s.withCore n b
        { core with dp := { core.dp with nsteps := some (BitVec.ofNat 32 m), ssize := some size } }) := by
    intro hist core
    refine ⟨hist ++ [.unit] ++ [.unit], ?_⟩
    unfold setPlan
    simp only [Code.bind_apply]
    iterate 2 rw [run_local_at h _ _ _ _ _ _ hq rfl]
    rfl
  unfold planSteps
  rcases hp with ⟨h1, rfl, rfl⟩ | ⟨h1, h2, h3, h4, h5, rfl⟩
  · rw [e, if_pos h1]
    exact hset hist core
  · rw [e, if_neg (by rw [h1]; simp)]
    simp only [Code.bind_apply, h2, onlyIf_apply, Bool.false_eq_true, if_false]
    rw [run_local_at h _ _ _ _ _ _ hq rfl]
    have hsc : stepCount (B64.div (B64.sub target c) (firstStepSize c shift (B64.sub target c))) = some m := by
      unfold firstStepSize
      generalize B64.div _ _ = q at h4 h5 ⊢
      unfold B64.isFinite at h4
      rw [decide_eq_true_eq] at h4
      have n1 : B64.isNaN q = false := by
        unfold B64.isNaN
        simp only [decide_eq_false_iff_not]
        omega
      have n2 : B64.isInf q = false := by
        unfold B64.isInf
        simp only [decide_eq_false_iff_not]
        omega
      unfold stepCount
      rw [n1, n2, h5]
      simp only [Bool.false_eq_true, if_false, Int.toNat_natCast, stepMax]
      exact if_pos (by omega)
    rw [hsc]
    exact hset _ _

/-! What `wrote` says of several `write_v` in a row. -/

theorem State.wrote_programmed {rs : List Record} (h : u.wrote x rs t) (ws : List (Nat × Word)) :
    (u.programmed x ws).wrote x rs (t.programmed x ws) := by
  cases hm : onMmio x
  · simp only [State.wrote, hm, Bool.false_eq_true, if_false] at h ⊢
    obtain ⟨m, tr, ht, rfl⟩ := h
    have e : (u.after m tr).programmed x ws = (u.programmed x ws).beside u.banks m (tr ++ u.trace) u.now :=
      State.programmed_beside (s := u) u.banks m (tr ++ u.trace) u.now hm ws
    obtain ⟨ph, sr, un, e2⟩ := u.programmed_mmio_of_bus hm ws
    rw [e, e2]
    exact ⟨m, tr, ht, rfl⟩
  · simp only [State.wrote, hm, if_true] at h ⊢
    subst h
    rw [State.programmed_mmio hm, State.programmed_mmio hm]
    rfl

theorem State.wrote_foldl {rs : List Record} (h : u.wrote x rs t) (l : List (List (Nat × Word))) :
    (l.foldl (fun w ws => w.programmed x ws) u).wrote x rs (l.foldl (fun w ws => w.programmed x ws) t) := by
  induction l generalizing u t with
  | nil => exact h
  | cons ws rest ih => exact ih (State.wrote_programmed h ws)

theorem State.wrote_later {rs : List Record} (h : u.wrote x rs t) (d : Time) : (u.later d).wrote x rs (t.later d) := by
  unfold State.wrote at *
  split
  · rename_i hm
    rw [if_pos hm] at h
    subst h
    rfl
  · rename_i hm
    rw [if_neg hm] at h
    obtain ⟨m, tr, ht, rfl⟩ := h
    exact ⟨m, tr, ht, rfl⟩

theorem State.wrote_trans {v : State} {rs rs' : List Record} (h : u.wrote x rs t) (h' : t.wrote x rs' v) :
    u.wrote x (rs ++ rs') v := by
  unfold State.wrote at *
  split
  · rename_i hm
    rw [if_pos hm] at h h'
    subst h
    subst h'
    simp [State.after]
  · rename_i hm
    rw [if_neg hm] at h h'
    obtain ⟨m, tr, ht, rfl⟩ := h
    obtain ⟨m', tr', ht', rfl⟩ := h'
    exact ⟨m', tr' ++ tr, ⟨ht'.1, fun a ha => (ht'.2 a ha).trans (ht.2 a ha)⟩, by simp [State.after]⟩

/-- One committed step that sees no shutdown and whose inverse succeeds (42_stepping_controller.md R291 step 4):
`left` steps are still to come after it. -/
theorem run_step (hW : Writable u x ss) (hsd : u.shutdown = false) (h : n < u.banks.length) (r : StepRun)
    (hv : r.view.sel = some x) (hsn : r.view.snapshot = ss) (hc : r.commit = true) (i : Option Instr) (view : Core)
    (hist : List Resp) (c : Core) (fi f : B64) (mods mods' : List Word) (left : Nat)
    (hm : mods.length = ss.length) (hsl : c.slots = some (withMods ss mods))
    (hf : f = if left = 0 then r.target else B64.add fi r.ssize)
    (hi : invV u.plat (some x) r.view.c20.cache? mods f = (.ok, mods')) (k : Unit → Prog) :
    ∃ hist' t, (u.programmed x (slotWrites x ss mods')).wrote x (mmioRecords (slotWrites x ss mods')) t ∧
      Writable t x ss ∧ t.banks = u.banks ∧ t.plat = u.plat ∧ t.shutdown = false ∧
      run (.seq n i view) hist (stepFrom u.plat r fi mods (left + 1) k) (u.withCore n b c) =
        run (.seq n i view) hist'
          ((do onlyIf (left ≠ 0) (sleepMs r.wait); stepFrom u.plat r f mods' left : Code Unit) k)
          (t.withCore n b { c with
            dp := { c.dp with istep := some (BitVec.ofNat 32 (r.nsteps - left)), fi := some f }
            slots := some (withMods ss mods'), appliedMod := true }) := by
  obtain ⟨hi1, hi2⟩ := Prod.ext_iff.1 hi
  rw [stepFrom.eq_2]
  rw [Code.bind_apply, run_local_at h _ _ _ _ _ _ hW.quiet rfl, Code.bind_apply,
    run_sampleShutdown _ _ _ (show (u.withCore n b _).quiet from hW.quiet),
    show (u.withCore n b _).shutdown = false from hsd]
  simp only [onlyIf_apply, Code.bind_apply, Bool.false_eq_true, if_false]
  rw [run_local_at h _ _ _ _ _ _ hW.quiet rfl, ← hf, hv]
  change (invPuts u.plat (some x) r.view.c20.cache? mods f).1 = .ok at hi1
  change applyPuts mods (invPuts u.plat (some x) r.view.c20.cache? mods f).2 = mods' at hi2
  obtain ⟨h1, e1⟩ := run_writeMod (s := u) (b := b) hW.quiet h i view
    (hist ++ [.unit] ++ [.flag false] ++ [.unit]) (invPuts u.plat (some x) r.view.c20.cache? mods f).2
    (c := Req.effect (.setReg .fi f) u.now (Req.effect (.setCount .istep (r.nsteps - left)) u.now c)) hsl hm
    (fun _ => (do
      onlyIf ((invPuts u.plat (some x) r.view.c20.cache? mods f).1 ≠ .ok) (fail (invPuts u.plat (some x) r.view.c20.cache? mods f).1)
      onlyIf r.commit (commitStep u.plat r (applyPuts mods (invPuts u.plat (some x) r.view.c20.cache? mods f).2))
      onlyIf (left ≠ 0) (sleepMs r.wait)
      stepFrom u.plat r f (applyPuts mods (invPuts u.plat (some x) r.view.c20.cache? mods f).2) left : Code Unit) k)
  rw [hi2] at e1
  have e2 := e1
  simp only [onlyIf_apply, Code.bind_apply, hi1, ne_eq, not_true_eq_false, decide_false, Bool.false_eq_true,
    if_false, hc, if_true] at e2
  simp only [hi1, hi2, ne_eq, not_true_eq_false, decide_false, Bool.false_eq_true, if_false, hc, if_true]
  unfold commitStep at e2 ⊢
  rw [Code.bind_apply, hv, hsn] at e2
  obtain ⟨h', t, hw, ht, e⟩ := run_writeV_at hW n b _ (.seq n i view) h1 mods' _
  obtain ⟨k1, k2, k3, _⟩ := State.wrote_core hw
  refine ⟨h' ++ [.unit], t, hw, ht, k1, k3, k2.trans hsd, ?_⟩
  rw [Code.bind_apply, hv, hsn]
  refine e2.trans (e.trans ?_)
  simp only [onlyIf_apply, ne_eq, not_true_eq_false, decide_false, Bool.false_eq_true, if_false, Code.bind_apply]
  rw [run_local_at (by rw [k1]; exact h) _ _ _ _ _ _ ht.quiet rfl]
  rfl

end Sys2Proof.Machine
end

