-- ==== Sys2Proof/Laws/Invariant.lean ====
section
/-! SUPPORT. One induction over everything a step can do: a property that each elementary change keeps is
kept by every step. -/

namespace Sys2Proof.Machine

/-- A change of a bank that leaves every register but those of the command port alone. -/
def portOnly (f : Bank → Bank) : Prop :=
  ∀ b, ∃ cmd a0 a1 a2 a3 a4 st busy ov,
    (f b).core = { b.core with
      cmd := cmd, arg0 := a0, arg1 := a1, arg2 := a2, arg3 := a3, arg4 := a4, code := st, busy := busy, overrun := ov }

/-- The elementary changes of the stores, and of the PHYs' marks of uncommitted writes, keep a property. -/
structure KeptByStores (P : State → Prop) : Prop where
  poke : ∀ s off v, P s → P (s.pokeWord off v)
  phyReg : ∀ s p l a v, P s → P (s.setPhyReg p l a v)
  sramWord : ∀ s p l a v, P s → P (s.setSramWord p l a v)
  marks : ∀ (s : State) un, P s → P { s with uncommitted := un }

/-- The elementary changes an event or an agent can make keep a property; `raw` says whether internal timer
operations issued from outside are among them. -/
structure KeptByMoves (P : State → Prop) (raw : Prop) : Prop extends KeptByStores P where
  act : ∀ n r s, P s → P (performReq n r s).2
  port : ∀ s n f, P s → portOnly f → P (s.modifyBank n f)
  time : ∀ (s : State) d, P s → P { s with now := s.now + d }
  down : ∀ (s : State) b, P s → P { s with shutdown := b }
  fired : ∀ s n, P s → P (s.timerFire n)
  reset : ∀ s, P s → P s.blockReset
  arm : raw → ∀ s n, P s → P (s.timerArm n)
  cancel : raw → ∀ s n, P s → P (s.timerCancel n)

/-- The same for a whole step, which also takes events from the queues. -/
structure Kept (P : State → Prop) (raw : Prop) : Prop extends KeptByMoves P raw where
  queues : ∀ (s : State) inp sch trn c bp bl, P s → inp ⊆ s.inputs → sch ⊆ s.sched →
    P { s with inputs := inp, sched := sch, turn := trn, cur := c, busPort := bp, busLane := bl }

variable {P : State → Prop} {raw : Prop}

theorem portOnly_same (f : Bank → Bank) (h : ∀ b, (f b).core = b.core) : portOnly f :=
  fun b => ⟨b.core.cmd, b.core.arg0, b.core.arg1, b.core.arg2, b.core.arg3, b.core.arg4, b.core.code, b.core.busy,
    b.core.overrun, h b⟩

theorem portOnly_arg (k : Nat) (v : BitVec 64) : portOnly fun b => { b with core := b.core.writeArg k v } := by
  intro b
  unfold Core.writeArg
  split
  · exact ⟨b.core.cmd, v, b.core.arg1, b.core.arg2, b.core.arg3, b.core.arg4, b.core.code, b.core.busy, b.core.overrun, rfl⟩
  · exact ⟨b.core.cmd, b.core.arg0, v, b.core.arg2, b.core.arg3, b.core.arg4, b.core.code, b.core.busy, b.core.overrun, rfl⟩
  · exact ⟨b.core.cmd, b.core.arg0, b.core.arg1, v, b.core.arg3, b.core.arg4, b.core.code, b.core.busy, b.core.overrun, rfl⟩
  · exact ⟨b.core.cmd, b.core.arg0, b.core.arg1, b.core.arg2, v, b.core.arg4, b.core.code, b.core.busy, b.core.overrun, rfl⟩
  · exact ⟨b.core.cmd, b.core.arg0, b.core.arg1, b.core.arg2, b.core.arg3, v, b.core.code, b.core.busy, b.core.overrun, rfl⟩
  · exact ⟨b.core.cmd, b.core.arg0, b.core.arg1, b.core.arg2, b.core.arg3, b.core.arg4, b.core.code, b.core.busy,
      b.core.overrun, rfl⟩

theorem portOnly_accept (w : Word) (g : Bank → Option Task) :
    portOnly fun b => { b with core := b.core.accept w, seq := g b } :=
  fun b => ⟨w, b.core.arg0, b.core.arg1, b.core.arg2, b.core.arg3, b.core.arg4, b.core.code, true, false, rfl⟩

theorem portOnly_overrun : portOnly fun b => { b with core := b.core.setOverrun } :=
  fun b => ⟨b.core.cmd, b.core.arg0, b.core.arg1, b.core.arg2, b.core.arg3, b.core.arg4, b.core.code, b.core.busy, true, rfl⟩

theorem KeptByMoves.finish (K : KeptByMoves P raw) (s : State) (who : Runner) (h : P s) : P (s.finish who) := by
  cases who with
  | seq n cmd view => exact K.port s n _ h (portOnly_same _ fun _ => rfl)
  | path n => exact K.port s n _ h (portOnly_same _ fun _ => rfl)

theorem KeptByMoves.suspend (K : KeptByMoves P raw) (s : State) (who : Runner) (hist : List Resp) (h : P s) :
    P (s.suspend who hist) := by
  cases who with
  | seq n cmd view => exact K.port s n _ h (portOnly_same _ fun _ => rfl)
  | path n => exact K.port s n _ h (portOnly_same _ fun _ => rfl)

theorem KeptByStores.phyWrite (K : KeptByStores P) (s : State) (p l : Nat) (a : BitVec 12) (d : Byte) (k : Bool) (h : P s) :
    P (s.phyWrite p l a d k) := by
  have h1 : P (s.setPhyReg p l a d) := K.phyReg _ _ _ _ _ h
  have load : ∀ t : State, P t → P (t.loadReadData p l) := fun t ht => K.phyReg _ _ _ _ _ (K.phyReg _ _ _ _ _ ht)
  cases k
  · exact K.marks _ _ h1
  · have h2 : P ((s.setPhyReg p l a d).storeWriteData p l) := K.sramWord _ _ _ _ _ h1
    simp only [State.phyWrite, State.commitWrite, if_true]
    cases s.endsSramWrite p l a <;> cases s.endsSramSelect p l a
    exacts [K.marks _ _ h1, K.marks _ _ (load _ h1), K.marks _ _ h2, K.marks _ _ (load _ h2)]

theorem KeptByStores.wireAct (K : KeptByStores P) (s : State) (p l : Nat) (r : LaneRegs) (i : Instr) (h : P s) :
    P (s.wireAct p l r i) := by
  cases i
  case m2pRead a d => exact K.poke _ _ _ (K.poke _ _ _ h)
  case m2pWriteCommitted a d => exact K.poke _ _ _ (K.phyWrite _ _ _ _ _ _ (K.poke _ _ _ h))
  case m2pWriteUncommitted a d => exact K.phyWrite (s.clearPending r (m2pWord 1 a d)) p l a d false (K.poke _ _ _ h)
  case m2pBusReset => exact K.poke _ _ _ h
  case p2mReadAck d => exact K.poke _ _ _ h
  case p2mWriteAck d => exact K.poke _ _ _ h
  all_goals exact h

theorem KeptByStores.phyTake (K : KeptByStores P) (s : State) (p l : Nat) (r : LaneRegs) (h : P s) : P (s.phyTake p l r) := by
  unfold State.phyTake
  generalize decodeM2p (s.mmio.readWord r.ctl) = o
  rcases o with _ | i
  · exact h
  cases i
  case m2pRead a d => exact K.wireAct s p l r (.m2pRead a d) h
  case m2pWriteCommitted a d => exact K.wireAct s p l r (.m2pWriteCommitted a d) h
  case m2pWriteUncommitted a d => exact K.wireAct s p l r (.m2pWriteUncommitted a d) h
  case m2pBusReset => exact K.wireAct s p l r .m2pBusReset h
  all_goals exact h

theorem KeptByStores.mmioWrite (K : KeptByStores P) (s : State) (off v : Word) (h : P s) : P (s.mmioWrite off v) := by
  unfold State.mmioWrite
  dsimp only
  split
  · split
    · exact K.phyTake _ _ _ _ (K.poke _ _ _ h)
    · exact K.poke _ _ _ h
  · exact K.poke _ _ _ h

theorem KeptByMoves.runInvisible (K : KeptByMoves P raw) (who : Runner) (p : Prog) (hist : List Resp) (s : State) (h : P s) :
    P (runInvisible who hist p s) := by
  induction p generalizing hist s with
  | ret st => exact K.finish s who h
  | act r k ih =>
    unfold Machine.runInvisible
    split
    · exact K.suspend s who hist h
    · have ha := K.act who.inst r s h
      split
      · rename_i s' e; rw [e] at ha; exact K.suspend s' who _ ha
      · rename_i a s' e; rw [e] at ha; exact ih a _ s' ha

theorem KeptByMoves.moveAgent (K : KeptByMoves P raw) (who : Runner) (p : Prog) (hist : List Resp) (s : State) (h : P s) :
    P (moveAgent who hist p s) := by
  induction p generalizing hist s with
  | ret st => exact K.finish s who h
  | act r k ih =>
    unfold Machine.moveAgent
    have ha := K.act who.inst r s h
    split
    · rename_i s' e; rw [e] at ha; exact K.suspend s' who _ ha
    · rename_i a s' e
      rw [e] at ha
      split
      · exact K.runInvisible who (k a) _ s' ha
      · exact ih a _ s' ha

theorem KeptByMoves.moveSeq (K : KeptByMoves P raw) (s : State) (n : Nat) (h : P s) : P (s.moveSeq n) := by
  unfold State.moveSeq
  split
  · exact K.moveAgent _ _ _ _ h
  · exact h

theorem KeptByMoves.movePath (K : KeptByMoves P raw) (s : State) (n : Nat) (h : P s) : P (s.movePath n) := by
  unfold State.movePath
  split
  · exact K.moveAgent _ _ _ _ h
  · exact h

theorem KeptByMoves.acceptSuspended (K : KeptByMoves P raw) (s : State) (n : Nat) (w : Word) (h : P s) :
    P (s.acceptSuspended n w) := by
  unfold State.acceptSuspended
  split
  · exact h
  · split
    · exact K.port _ _ _ h portOnly_overrun
    · exact K.port _ _ _ h (portOnly_accept w _)

theorem KeptByMoves.internalAct (K : KeptByMoves P raw) (hr : raw) (s : State) (n : Nat) (i : Instr) (h : P s) :
    P (s.internalAct n i) := by
  cases i
  case timerArm => exact K.arm hr s n h
  case timerCancel => exact K.cancel hr s n h
  case timerFire => exact K.fired s n h
  all_goals exact h

/-- An event that is no internal operation, or any event where those are allowed. -/
def allowed (raw : Prop) (e : Event) : Prop := raw ∨ ∀ n w, e ≠ .internal n w

theorem KeptByMoves.applyEvent (K : KeptByMoves P raw) (s : State) (e : Event) (ha : allowed raw e) (h : P s) :
    P (s.applyEvent e) := by
  cases e with
  | go => exact h
  | tick d => exact K.time s d h
  | shutdown b => exact K.down s b h
  | poke off v => exact K.poke _ _ _ h
  | pokePhy p l a v =>
    dsimp only [State.applyEvent]
    split
    · exact K.phyReg _ _ _ _ _ h
    · exact h
  | pokeSram p l a v =>
    dsimp only [State.applyEvent]
    split
    · exact K.sramWord _ _ _ _ _ h
    · exact h
  | phy p l =>
    dsimp only [State.applyEvent]
    split
    · exact K.phyTake _ _ _ _ h
    · exact h
  | hostArg n k v => exact K.port _ _ _ h (portOnly_arg k v)
  | hostCmd n w => exact K.acceptSuspended s n w h
  | internal n w =>
    rcases ha with hr | hne
    · dsimp only [State.applyEvent]
      split
      · exact K.internalAct hr _ _ _ h
      · exact h
    · exact absurd rfl (hne n w)
  | wire p l w =>
    dsimp only [State.applyEvent]
    split
    · exact K.wireAct _ _ _ _ _ h
    · exact h
  | fire n => exact K.fired s n h
  | agentSeq n => exact K.moveSeq s n h
  | agentPath n => exact K.movePath s n h
  | reset => exact K.reset s h

/-- The quantities no event or agent changes. -/
theorem applyEvent_queues (s : State) (e : Event) :
    (s.applyEvent e).sched = s.sched ∧ (s.applyEvent e).inputs = s.inputs := by
  have K : KeptByMoves (fun t => t.sched = s.sched ∧ t.inputs = s.inputs) True :=
    { act := fun n r t h => ⟨(performReq_keeps n r t).2.1.trans h.1, (performReq_keeps n r t).1.trans h.2⟩
      port := fun t n f h _ => h
      time := fun t d h => h
      down := fun t b h => h
      poke := fun t off v h => h
      phyReg := fun t p l a v h => h
      sramWord := fun t p l a v h => h
      marks := fun t un h => h
      fired := fun t n h => by
        unfold State.timerFire
        split
        · split
          · exact h
          · exact h
        · exact h
      reset := fun t h => h
      arm := fun _ t n h => by
        unfold State.timerArm
        split
        · split
          · exact h
          · exact h
        · exact h
      cancel := fun _ t n h => by
        unfold State.timerCancel
        split
        · exact h
        · exact h }
  exact K.applyEvent s e (.inl trivial) ⟨rfl, rfl⟩

theorem Kept.interfereFrom (K : Kept P raw) (l : List Event) (s : State) (hl : l ⊆ s.sched)
    (ha : ∀ e ∈ l, allowed raw e) (h : P s) : P (interfereFrom l s) := by
  induction l generalizing s with
  | nil =>
    exact K.queues s s.inputs [] s.turn s.cur s.busPort s.busLane h (List.Subset.refl _) (List.nil_subset _)
  | cons e rest ih =>
    have hr : rest ⊆ s.sched := fun x hx => hl (List.mem_cons_of_mem _ hx)
    cases e
    case go => exact K.queues s s.inputs rest s.turn s.cur s.busPort s.busLane h (List.Subset.refl _) hr
    all_goals
      refine ih (s.applyEvent _) ?_ (fun e he => ha e (by simp [he])) (K.applyEvent s _ (ha _ (by simp)) h)
      rw [(applyEvent_queues s _).1]
      exact hr

/-- After the moves before an action the schedule is what is left of it. -/
theorem interfereFrom_sched (l : List Event) (s : State) : ∃ l', l' <:+ l ∧ (interfereFrom l s).sched = l' := by
  induction l generalizing s with
  | nil => exact ⟨[], List.suffix_refl _, rfl⟩
  | cons e rest ih =>
    cases e
    case go => exact ⟨rest, List.suffix_cons _ _, rfl⟩
    all_goals
      obtain ⟨l', h1, h2⟩ := ih (s.applyEvent _)
      exact ⟨l', h1.trans (List.suffix_cons _ _), h2⟩

theorem Kept.run (K : Kept P raw) (who : Runner) (p : Prog) (hist : List Resp) (s : State)
    (ha : ∀ e ∈ s.sched, allowed raw e) (h : P s) : P (run who hist p s) := by
  induction p generalizing hist s with
  | ret st => exact K.finish s who h
  | act r k ih =>
    have hs1 : ∀ s1, s1 = (if r.visible = true then s.interfere else s) → P s1 ∧ ∀ e ∈ s1.sched, allowed raw e := by
      rintro s1 rfl
      split
      · refine ⟨K.interfereFrom _ _ (List.Subset.refl _) ha h, fun e he => ?_⟩
        obtain ⟨l', h1, h2⟩ := interfereFrom_sched s.sched s
        have : s.interfere.sched = l' := h2
        rw [this] at he
        exact ha e (h1.subset he)
      · exact ⟨h, ha⟩
    unfold Machine.run
    generalize hg : (if r.visible = true then s.interfere else s) = s1
    obtain ⟨hp, hal⟩ := hs1 s1 hg.symm
    dsimp only
    split
    · exact hp
    · have hact := K.act who.inst r s1 hp
      have hk := (performReq_keeps who.inst r s1).2.1
      split
      · rename_i s' e; rw [e] at hact; exact K.suspend s' who _ hact
      · rename_i a s' e
        rw [e] at hact hk
        refine ih a _ s' ?_ hact
        dsimp only at hk
        rw [hk]
        exact hal

theorem Kept.runCommand (K : Kept P raw) (s t : State) (i : Instr) (code : Platform → Core → Code Status)
    (ha : ∀ e ∈ s.sched, allowed raw e) (h : P s) (e : s.runCommand i code = .next t) : P t := by
  unfold State.runCommand at e
  split at e
  · cases e
  · cases e
    exact K.run _ _ _ s ha h

theorem Kept.onLane (K : Kept P raw) (s t : State) (i : Instr) (f : Nat → Nat → LaneRegs → State)
    (hf : ∀ p l r, f p l r = s.wireAct p l r i) (h : P s) (e : s.onLane f = .next t) : P t := by
  unfold State.onLane at e
  split at e
  · cases e
    rw [hf]
    exact K.wireAct _ _ _ _ _ h
  · cases e

theorem Kept.onInstance (s t : State) (f : State → Nat → State) (hf : P (f s s.cur))
    (e : s.onInstance f = .next t) : P t := by
  unfold State.onInstance at e
  split at e
  · cases e; exact hf
  · cases e

/-- Every instruction keeps the property. -/
theorem Kept.exec (K : Kept P raw) (i : Instr) (s t : State) (ha : ∀ e ∈ s.sched, allowed raw e)
    (hi : raw ∨ (i ≠ .timerArm ∧ i ≠ .timerCancel)) (h : P s) (e : exec i s = .next t) : P t := by
  cases i
  case timerArm =>
    rcases hi with hr | hne
    · exact Kept.onInstance s t State.timerArm (K.arm hr _ _ h) e
    · exact absurd rfl hne.1
  case timerCancel =>
    rcases hi with hr | hne
    · exact Kept.onInstance s t State.timerCancel (K.cancel hr _ _ h) e
    · exact absurd rfl hne.2
  case timerFire => exact Kept.onInstance s t State.timerFire (K.fired _ _ h) e
  case m2pWriteUncommitted a d => exact K.onLane s t (.m2pWriteUncommitted a d) _ (fun _ _ _ => rfl) h e
  case m2pWriteCommitted a d => exact K.onLane s t (.m2pWriteCommitted a d) _ (fun _ _ _ => rfl) h e
  case m2pRead a d => exact K.onLane s t (.m2pRead a d) _ (fun _ _ _ => rfl) h e
  case m2pBusReset => exact K.onLane s t .m2pBusReset _ (fun _ _ _ => rfl) h e
  case p2mReadAck d => exact K.onLane s t (.p2mReadAck d) _ (fun _ _ _ => rfl) h e
  case p2mWriteAck d => exact K.onLane s t (.p2mWriteAck d) _ (fun _ _ _ => rfl) h e
  all_goals exact K.runCommand s t _ _ ha h e

theorem Kept.idle (K : Kept P raw) (s : State) (h : P s) : P s.idle := by
  unfold State.idle
  dsimp only
  have h1 : ∀ k : Nat, P (if k % 2 = 0 then s.moveSeq (k / 2) else s.pathTurn (k / 2)) := by
    intro k
    split
    · exact K.moveSeq _ _ h
    · unfold State.pathTurn
      split
      · split
        · exact K.fired _ _ h
        · exact K.movePath _ _ h
      · exact h
  split
  · exact K.queues _ _ _ _ _ _ _ (h1 _) (List.Subset.refl _) (List.Subset.refl _)
  · exact K.queues _ _ _ _ _ _ _ (K.time _ 1000 (h1 _)) (List.Subset.refl _) (List.Subset.refl _)

theorem decodeP2m_some {w : Word} {i : Instr} (h : decodeP2m w = some i) :
    (∃ d, i = .p2mReadAck d) ∨ ∃ d, i = .p2mWriteAck d := by
  unfold decodeP2m at h
  split at h
  · split at h
    · cases h; exact .inl ⟨_, rfl⟩
    · cases h; exact .inr ⟨_, rfl⟩
    · cases h
  · cases h

theorem decodeM2p_some {w : Word} {i : Instr} (h : decodeM2p w = some i) :
    i = .m2pBusReset ∨ ∃ a d, i = .m2pWriteUncommitted a d ∨ i = .m2pWriteCommitted a d ∨ i = .m2pRead a d := by
  unfold decodeM2p at h
  split at h
  · cases h; exact .inl rfl
  · split at h
    · split at h
      · cases h; exact .inr ⟨_, _, .inl rfl⟩
      · cases h; exact .inr ⟨_, _, .inr (.inl rfl)⟩
      · cases h; exact .inr ⟨_, _, .inr (.inr rfl)⟩
      · cases h
    · cases h

/-- A wire word is no timer operation. -/
theorem decodeWire_noTimer {w : Word} {i : Instr} (h : decodeWire w = some i) :
    i ≠ .timerArm ∧ i ≠ .timerCancel := by
  unfold decodeWire at h
  cases hm : decodeM2p w with
  | some j =>
    rw [hm] at h
    cases h
    obtain rfl | ⟨a, d, rfl | rfl | rfl⟩ := decodeM2p_some hm <;> exact ⟨nofun, nofun⟩
  | none =>
    rw [hm] at h
    obtain ⟨d, rfl⟩ | ⟨d, rfl⟩ := decodeP2m_some (show decodeP2m w = some i from h) <;> exact ⟨nofun, nofun⟩

/-- A step keeps a property that the elementary changes keep. -/
theorem Kept.step (K : Kept P raw) (s t : State) (ha : ∀ e ∈ s.inputs ++ s.sched, allowed raw e) (h : P s)
    (e : step s = .next t) : P t := by
  have hsch : ∀ e ∈ s.sched, allowed raw e := fun e he => ha e (by simp [he])
  have hq : ∀ rest c bp bl, rest ⊆ s.inputs → P { s with inputs := rest, cur := c, busPort := bp, busLane := bl } :=
    fun rest c bp bl hr => K.queues s rest s.sched s.turn c bp bl h hr (List.Subset.refl _)
  unfold Machine.step State.fetch at e
  split at e
  case h_3 s' hf =>
    -- moved
    cases e
    split at hf
    · split at hf
      · cases hf; exact K.idle s h
      · rename_i ev rest hin
        have hal : allowed raw ev := ha ev (by simp [hin])
        have hrest : rest ⊆ s.inputs := by rw [hin]; exact List.subset_cons_self _ _
        cases ev
        case hostCmd n w =>
          unfold State.fetchEvent State.fetchHost at hf
          dsimp only at hf
          split at hf
          · cases hf
          · split at hf
            · cases hf; exact K.port _ _ _ (hq rest s.cur s.busPort s.busLane hrest) portOnly_overrun
            · split at hf
              · cases hf
                refine K.run _ _ _ _ hsch ?_
                exact K.queues _ rest s.sched s.turn n s.busPort s.busLane
                  (K.port _ _ _ (hq rest s.cur s.busPort s.busLane hrest) (portOnly_accept w fun b => b.seq)) (List.Subset.refl _) (List.Subset.refl _)
              · cases hf
        case internal n w =>
          unfold State.fetchEvent at hf
          dsimp only at hf
          split at hf
          · cases hf
          · cases hf; exact hq _ _ _ _ hrest
        case wire p l w =>
          unfold State.fetchEvent at hf
          dsimp only at hf
          split at hf
          · cases hf
          · cases hf; exact hq _ _ _ _ hrest
        all_goals
          unfold State.fetchEvent at hf
          cases hf
          exact K.applyEvent _ _ hal (hq rest s.cur s.busPort s.busLane hrest)
    · cases hf
  case h_4 i s' hf =>
    split at hf
    · split at hf
      · cases hf
      · rename_i ev rest hin
        have hal : allowed raw ev := ha ev (by simp [hin])
        have hrest : rest ⊆ s.inputs := by rw [hin]; exact List.subset_cons_self _ _
        cases ev
        case hostCmd n w =>
          unfold State.fetchEvent State.fetchHost at hf
          dsimp only at hf
          split at hf
          · cases hf
          · split at hf
            · cases hf
            · split at hf
              · cases hf
              · rename_i hd
                cases hf
                refine K.exec _ _ t ?_ ?_ ?_ e
                · exact hsch
                · right
                  constructor <;> rintro rfl <;>
                  · unfold decodeHost at hd
                    split at hd <;> first | (unfold onlyFields at hd; split at hd <;> cases hd) | cases hd
                · exact K.queues _ rest s.sched s.turn n s.busPort s.busLane
                    (K.port _ _ _ (hq rest s.cur s.busPort s.busLane hrest) (portOnly_accept w fun b => b.seq)) (List.Subset.refl _) (List.Subset.refl _)
        case internal n w =>
          unfold State.fetchEvent at hf
          dsimp only at hf
          split at hf
          · cases hf
            refine K.exec _ { s with inputs := rest, cur := _, busPort := _, busLane := _ } t hsch ?_ (hq _ _ _ _ hrest) e
            rcases hal with hr | hne
            · exact .inl hr
            · exact absurd rfl (hne n w)
          · cases hf
        case wire p l w =>
          unfold State.fetchEvent at hf
          dsimp only at hf
          split at hf
          · rename_i hd
            cases hf
            refine K.exec _ { s with inputs := rest, cur := _, busPort := _, busLane := _ } t hsch ?_ (hq _ _ _ _ hrest) e
            right
            exact decodeWire_noTimer hd
          · cases hf
        all_goals
          unfold State.fetchEvent at hf
          cases hf
    · cases hf
  all_goals cases e

end Sys2Proof.Machine
end

