-- ==== Sys2Proof/Laws/PerInstr.lean ====
section
/-! SUPPORT. For every instruction: its word has the fixed bits of its row of spec/opcode_table.json. -/

namespace Sys2Proof.Laws.TableRow

/-- The `mask` of the instruction's row of spec/opcode_table.json. -/
def mask : Instr → Word
  | .construct => 0xFFFFFFFF#32
  | .release => 0xFFFFFFFF#32
  | .readRegisters => 0xFFFFFFFF#32
  | .calcPllClock _ => 0xFFFBFFFF#32
  | .calcFeedbackDividers => 0xFFFFFFFF#32
  | .programMmio _ => 0xFFFBFFFF#32
  | .printRegisters => 0xFFFFFFFF#32
  | .getCached => 0xFFFFFFFF#32
  | .programPhy _ _ => 0xFFFCFFFF#32
  | .setPllClock _ => 0xFFFEFFFF#32
  | .getPllClock => 0xFFFFFFFF#32
  | .waitUntilDone => 0xFFFFFFFF#32
  | .rollback => 0xFFFFFFFF#32
  | .mbWaitClear => 0xFFFFFFFF#32
  | .mbReadOnce _ _ => 0xF00FFFFF#32
  | .mbRead _ _ => 0xF00FFFFF#32
  | .mbWriteOnce _ _ _ => 0xF007FFFF#32
  | .mbWrite _ _ _ => 0xF007FFFF#32
  | .mbRmw _ _ _ => 0xF007FFFF#32
  | .mbReset _ _ => 0xF00FFFFF#32
  | .sramRead _ _ => 0xF00FFFFF#32
  | .sramWrite _ _ => 0xF00FFFFF#32
  | .timerArm => 0x000000FF#32
  | .timerCancel => 0x000000FF#32
  | .timerFire => 0x000000FF#32
  | .m2pWriteUncommitted _ _ => 0xFF00F000#32
  | .m2pWriteCommitted _ _ => 0xFF00F000#32
  | .m2pRead _ _ => 0xFF00F000#32
  | .m2pBusReset => 0xFFFFFFFF#32
  | .p2mReadAck _ => 0xF8008000#32
  | .p2mWriteAck _ => 0xF8008000#32

/-- The `match` of the instruction's row of spec/opcode_table.json. -/
def fixed : Instr → Word
  | .construct => 0x00000001#32
  | .release => 0x00000002#32
  | .readRegisters => 0x00000003#32
  | .calcPllClock _ => 0x00000004#32
  | .calcFeedbackDividers => 0x00000005#32
  | .programMmio _ => 0x00000006#32
  | .printRegisters => 0x00000007#32
  | .getCached => 0x00000008#32
  | .programPhy _ _ => 0x00000010#32
  | .setPllClock _ => 0x00000011#32
  | .getPllClock => 0x00000012#32
  | .waitUntilDone => 0x00000013#32
  | .rollback => 0x00000014#32
  | .mbWaitClear => 0x00000020#32
  | .mbReadOnce _ _ => 0x00000021#32
  | .mbRead _ _ => 0x00000022#32
  | .mbWriteOnce _ _ _ => 0x00000023#32
  | .mbWrite _ _ _ => 0x00000024#32
  | .mbRmw _ _ _ => 0x00000025#32
  | .mbReset _ _ => 0x00000026#32
  | .sramRead _ _ => 0x00000027#32
  | .sramWrite _ _ => 0x00000028#32
  | .timerArm => 0x00000030#32
  | .timerCancel => 0x00000031#32
  | .timerFire => 0x00000032#32
  | .m2pWriteUncommitted _ _ => 0x88000000#32
  | .m2pWriteCommitted _ _ => 0x90000000#32
  | .m2pRead _ _ => 0x98000000#32
  | .m2pBusReset => 0x00008000#32
  | .p2mReadAck _ => 0xA0000000#32
  | .p2mWriteAck _ => 0xA8000000#32

/-- The instruction's word agrees with its row. -/
def Statement (i : Instr) : Prop := i.wellFormed = true → encode i &&& mask i = fixed i

/-- The fixed bits of a CMD word are its opcode and zeros, whatever LANES, PORT and K are. -/
theorem busCmd_fixed (op : BitVec 8) (p : Nat) (l : BitVec 2) (k : Bool) :
    busCmd op p l k &&& 0xF007FFFF#32 = op.setWidth 32 := by
  apply BitVec.eq_of_getLsbD_eq
  intro i hi
  interval_cases i <;>
    simp [busCmd, cmdWord, place, bit, BitVec.getElem_setWidth]

/-- The same where K is not set. -/
theorem busCmd_fixed_unset (op : BitVec 8) (p : Nat) (l : BitVec 2) :
    busCmd op p l false &&& 0xF00FFFFF#32 = op.setWidth 32 := by
  apply BitVec.eq_of_getLsbD_eq
  intro i hi
  interval_cases i <;>
    simp [busCmd, cmdWord, place, bit, BitVec.getElem_setWidth]

/-- The fixed bits of an M2P word, whatever its address and data are. -/
theorem m2pWord_fixed (c : BitVec 4) (a : BitVec 12) (d : Byte) :
    m2pWord c a d &&& 0xFF00F000#32 = m2pWord c 0 0 := by
  apply BitVec.eq_of_getLsbD_eq
  intro i hi
  interval_cases i <;> simp [m2pWord, place]

/-- The fixed bits of a P2M word, whatever its data are. -/
theorem p2mWord_fixed (c : BitVec 4) (d : Byte) :
    p2mWord c d &&& 0xF8008000#32 = p2mWord c 0 := by
  apply BitVec.eq_of_getLsbD_eq
  intro i hi
  interval_cases i <;> simp [p2mWord, place]

theorem construct : Statement .construct := fun _ => by decide
theorem release : Statement .release := fun _ => by decide
theorem readRegisters : Statement .readRegisters := fun _ => by decide
theorem calcPllClock (m : Bool) : Statement (.calcPllClock m) := by cases m <;> exact fun _ => by decide
theorem calcFeedbackDividers : Statement .calcFeedbackDividers := fun _ => by decide
theorem programMmio (m : Bool) : Statement (.programMmio m) := by cases m <;> exact fun _ => by decide
theorem printRegisters : Statement .printRegisters := fun _ => by decide
theorem getCached : Statement .getCached := fun _ => by decide
theorem programPhy (c r : Bool) : Statement (.programPhy c r) := by cases c <;> cases r <;> exact fun _ => by decide
theorem setPllClock (c : Bool) : Statement (.setPllClock c) := by cases c <;> exact fun _ => by decide
theorem getPllClock : Statement .getPllClock := fun _ => by decide
theorem waitUntilDone : Statement .waitUntilDone := fun _ => by decide
theorem rollback : Statement .rollback := fun _ => by decide
theorem mbWaitClear : Statement .mbWaitClear := fun _ => by decide
theorem mbReadOnce (port : Nat) (lanes : BitVec 2) : Statement (.mbReadOnce port lanes) := fun _ => (busCmd_fixed_unset _ _ _).trans rfl
theorem mbRead (port : Nat) (lanes : BitVec 2) : Statement (.mbRead port lanes) := fun _ => (busCmd_fixed_unset _ _ _).trans rfl
theorem mbWriteOnce (port : Nat) (lanes : BitVec 2) (k : Bool) : Statement (.mbWriteOnce port lanes k) := fun _ => (busCmd_fixed _ _ _ _).trans rfl
theorem mbWrite (port : Nat) (lanes : BitVec 2) (k : Bool) : Statement (.mbWrite port lanes k) := fun _ => (busCmd_fixed _ _ _ _).trans rfl
theorem mbRmw (port : Nat) (lanes : BitVec 2) (k : Bool) : Statement (.mbRmw port lanes k) := fun _ => (busCmd_fixed _ _ _ _).trans rfl
theorem mbReset (port : Nat) (lanes : BitVec 2) : Statement (.mbReset port lanes) := fun _ => (busCmd_fixed_unset _ _ _).trans rfl
theorem sramRead (port : Nat) (lanes : BitVec 2) : Statement (.sramRead port lanes) := fun _ => (busCmd_fixed_unset _ _ _).trans rfl
theorem sramWrite (port : Nat) (lanes : BitVec 2) : Statement (.sramWrite port lanes) := fun _ => (busCmd_fixed_unset _ _ _).trans rfl
theorem timerArm : Statement .timerArm := fun _ => by decide
theorem timerCancel : Statement .timerCancel := fun _ => by decide
theorem timerFire : Statement .timerFire := fun _ => by decide
theorem m2pWriteUncommitted (addr : BitVec 12) (data : Byte) : Statement (.m2pWriteUncommitted addr data) := fun _ => (m2pWord_fixed _ _ _).trans rfl
theorem m2pWriteCommitted (addr : BitVec 12) (data : Byte) : Statement (.m2pWriteCommitted addr data) := fun _ => (m2pWord_fixed _ _ _).trans rfl
theorem m2pRead (addr : BitVec 12) (data : Byte) : Statement (.m2pRead addr data) := fun _ => (m2pWord_fixed _ _ _).trans rfl
theorem m2pBusReset : Statement .m2pBusReset := fun _ => by decide
theorem p2mReadAck (data : Byte) : Statement (.p2mReadAck data) := fun _ => (p2mWord_fixed _ _).trans rfl
theorem p2mWriteAck (data : Byte) : Statement (.p2mWriteAck data) := fun _ => (p2mWord_fixed _ _).trans rfl

end Sys2Proof.Laws.TableRow
end

