-- ==== Sys2Proof/Laws/Silent.lean ====
section
/-! SUPPORT. What a bus transaction does on a lane whose PHY never answers (40_message_bus.md R151 to R168): each
attempt ends BUS_TIMEOUT after one bus reset, and beside the lane's two registers, the trace and the time nothing
moves. -/

namespace Sys2Proof.Machine

variable {s t u : State} {p l : Nat} {r : LaneRegs}

/-- The lane of an admissible configuration in a state where its PHY never answers. -/
structure Silent (s : State) (p l : Nat) (r : LaneRegs) : Prop where
  facts : LaneFacts s.plat p l r
  stored : s.mmio.wf = true
  silent : s.phyAuto = false
  quiet : s.quiet

/-- The state after accesses of one lane and sleeps, with this many bus resets among them. -/
def Tried (s : State) (r : LaneRegs) (resets : Nat) (t : State) : Prop :=
  ∃ m tr now, t = { s with mmio := m, trace := tr ++ s.trace, now := now } ∧ LaneStore s.mmio m r ∧
    (∀ y ∈ tr, y.isOnLane r = true) ∧ (tr.countP fun y => y == Record.write r.ctl m2pReset) = resets

/-- Whoever runs the code, it ends with this answer in this state. -/
def Code.ends {α : Type} (c : Code α) (s : State) (a : α) (t : State) : Prop :=
  ∀ who hist, ∃ hist', c.endsIn who hist s a hist' t

/-- The code ends with this answer after accesses of the lane with that many bus resets among them. -/
def Code.tries {α : Type} (c : Code α) (s : State) (r : LaneRegs) (resets : Nat) (a : α) : Prop :=
  ∃ t, c.ends s a t ∧ Tried s r resets t

theorem Code.ends_pure {α : Type} (a : α) (s : State) : (pure a : Code α).ends s a s := fun _ hist => ⟨hist, fun _ => rfl⟩

theorem Code.ends.bind {α β : Type} {c : Code α} {f : α → Code β} {a : α} {b : β} (h : c.ends s a t)
    (h' : (f a).ends t b u) : (c >>= f).ends s b u := fun who hist =>
  let ⟨h1, e1⟩ := h who hist
  let ⟨h2, e2⟩ := h' who h1
  ⟨h2, fun k => (e1 _).trans (e2 k)⟩

theorem ends_memRead (off : Word) (h : s.quiet) :
    (memRead off).ends s (s.mmioRead off) (s.record (.read off (s.mmioRead off))) := fun who hist =>
  ⟨_, fun k => run_memRead who hist off k h⟩

theorem ends_memWrite (off v : Word) (h : s.quiet) :
    (memWrite off v).ends s () ((s.mmioWrite off v).record (.write off v)) := fun who hist =>
  ⟨_, fun k => run_memWrite who hist off v k h⟩

theorem ends_readTime (h : s.quiet) : readTime.ends s s.now s := fun who hist => ⟨_, fun k => run_readTime who hist k h⟩

theorem ends_sleepUs (d : Time) (h : s.quiet) : (sleepUs d).ends s () (s.sleep d) := fun who hist =>
  ⟨_, fun k => run_sleepUs who hist d k h⟩

theorem Tried.trans {a b : Nat} (h : Tried s r a t) (h' : Tried t r b u) : Tried s r (b + a) u := by
  obtain ⟨m, tr, now, rfl, hm, ho, hc⟩ := h
  obtain ⟨m', tr', now', rfl, hm', ho', hc'⟩ := h'
  refine ⟨m', tr' ++ tr, now', by simp, hm.trans hm', fun y hy => ?_, by rw [List.countP_append, hc, hc']⟩
  exact (List.mem_append.1 hy).elim (ho' y) (ho y)

/-- What a lane's accesses leave of the state. -/
theorem Tried.keeps {a : Nat} (h : Tried s r a t) : t.plat = s.plat ∧ t.banks = s.banks ∧ t.phy = s.phy ∧
    t.sram = s.sram ∧ t.uncommitted = s.uncommitted ∧ t.shutdown = s.shutdown ∧ t.phyAuto = s.phyAuto ∧
    t.count (.write r.ctl m2pReset) = s.count (.write r.ctl m2pReset) + a := by
  obtain ⟨m, tr, now, rfl, -, -, hc⟩ := h
  refine ⟨rfl, rfl, rfl, rfl, rfl, rfl, rfl, ?_⟩
  show List.countP _ (tr ++ s.trace) = _
  rw [List.countP_append, hc, Nat.add_comm]
  rfl

theorem Silent.after {a : Nat} (h : Silent s p l r) (ht : Tried s r a t) : Silent t p l r := by
  obtain ⟨m, tr, now, rfl, hm, -, -⟩ := ht
  exact ⟨h.facts, hm.wf, h.silent, h.quiet⟩

/-! ### One action -/

theorem Silent.wrote_ctl (h : Silent s p l r) (v : Word) : s.mmioWrite r.ctl v = s.pokeWord r.ctl v := by
  unfold State.mmioWrite State.written
  simp [h.facts.ctlNoSts, h.silent]

theorem Silent.wrote_sts (h : Silent s p l r) (v : Word) :
    s.mmioWrite r.sts v = s.pokeWord r.sts (s.mmioRead r.sts &&& ~~~(v &&& 0x80008000#32)) := by
  unfold State.mmioWrite State.written
  simp [h.facts.stsIsSts, h.silent]

theorem Silent.tried_read (h : Silent s p l r) {off : Word} (ho : off = r.ctl ∨ off = r.sts) (v : Word) :
    Tried s r 0 (s.record (.read off v)) :=
  ⟨s.mmio, [.read off v], s.now, rfl, LaneStore.refl h.stored, by
    rcases ho with rfl | rfl <;> simp [Record.isOnLane], by simp⟩

theorem Silent.tried_sleep (h : Silent s p l r) (d : Time) : Tried s r 0 (s.sleep d) :=
  ⟨s.mmio, [.sleep d], s.now + d, rfl, LaneStore.refl h.stored, by simp [Record.isOnLane], by simp⟩

/-- A write of M2P_CTL stays where it is written. -/
theorem Silent.tried_ctl (h : Silent s p l r) (v : Word) :
    Tried s r (if v = m2pReset then 1 else 0) ((s.mmioWrite r.ctl v).record (.write r.ctl v)) ∧
      ((s.mmioWrite r.ctl v).record (.write r.ctl v)).mmioRead r.ctl = v ∧
      ((s.mmioWrite r.ctl v).record (.write r.ctl v)).mmioRead r.sts = s.mmioRead r.sts := by
  rw [h.wrote_ctl]
  refine ⟨⟨_, [.write r.ctl v], s.now, rfl, (LaneStore.refl h.stored).ctl v, by simp [Record.isOnLane], ?_⟩,
    Memory.readWord_putWord_eq _ _ _ h.stored,
    Memory.readWord_putWord_aligned _ _ _ _ h.facts.ctlAligned h.facts.stsAligned h.facts.distinct⟩
  by_cases hv : v = m2pReset <;> simp [hv]

/-- `clear_response` clears READY of P2M_STS. -/
theorem Silent.tried_sts (h : Silent s p l r) :
    Tried s r 0 ((s.mmioWrite r.sts clearResponseWord).record (.write r.sts clearResponseWord)) ∧
      wireTop (((s.mmioWrite r.sts clearResponseWord).record (.write r.sts clearResponseWord)).mmioRead r.sts) = false := by
  rw [h.wrote_sts]
  refine ⟨⟨_, [.write r.sts clearResponseWord], s.now, rfl, (LaneStore.refl h.stored).sts _, by simp [Record.isOnLane],
    ?_⟩, ?_⟩
  · have := h.facts.distinct.symm
    simp [this]
  · show wireTop (Memory.readWord (Memory.putWord _ _ _) _) = false
    rw [Memory.readWord_putWord_eq _ _ _ h.stored]
    exact cleared_top _

/-! ### The waits -/

/-- The loop of `wait_clear` reads and sleeps, and ends OK only where the bits are clear. -/
theorem Silent.waitClearFrom (plat : Platform) {reg : Word} (ho : reg = r.ctl ∨ reg = r.sts) (mask : Word)
    (T t0 : Time) (n : Nat) {s : State} (h : Silent s p l r) :
    ∃ st t, (waitClearFrom plat reg mask T t0 n).ends s st t ∧ Tried s r 0 t ∧ t.mmio = s.mmio ∧
      (st = .busTimeout ∨ st = .ok ∧ s.mmioRead reg &&& mask = 0) := by
  induction n generalizing s with
  | zero =>
    exact ⟨_, s, Code.ends_pure _ s, ⟨s.mmio, [], s.now, rfl, LaneStore.refl h.stored, by simp, rfl⟩, rfl, .inl rfl⟩
  | succ n ih =>
    have h1 := h.tried_read ho (s.mmioRead reg)
    have hq := (h.after h1).quiet
    have h2 := h1.trans ((h.after h1).tried_sleep plat.pollUs)
    obtain ⟨st, t, e, ht, hm, hst⟩ := ih (h.after h2)
    unfold Machine.waitClearFrom
    by_cases hc : s.mmioRead reg &&& mask = 0
    · exact ⟨.ok, _, (ends_memRead reg h.quiet).bind (by rw [if_pos hc]; exact Code.ends_pure _ _), h1, rfl, .inr ⟨rfl, hc⟩⟩
    · by_cases hT : s.now - t0 ≥ T
      · exact ⟨.busTimeout, _, (ends_memRead reg h.quiet).bind (by
          rw [if_neg hc]
          exact (ends_readTime hq).bind (by
            rw [if_pos (show (s.record _).now - t0 ≥ T from hT)]; exact Code.ends_pure _ _)), h1, rfl, .inl rfl⟩
      · exact ⟨st, t, (ends_memRead reg h.quiet).bind (by
          rw [if_neg hc]
          exact (ends_readTime hq).bind (by
            rw [if_neg (show ¬ (s.record _).now - t0 ≥ T from hT)]
            exact (ends_sleepUs plat.pollUs hq).bind e)), h2.trans ht, hm, hst⟩

theorem Silent.waitClear (plat : Platform) {reg : Word} (ho : reg = r.ctl ∨ reg = r.sts) (mask : Word) (T : Time)
    (h : Silent s p l r) :
    ∃ st t, (waitClear plat reg mask T).ends s st t ∧ Tried s r 0 t ∧ t.mmio = s.mmio ∧
      (st = .busTimeout ∨ st = .ok ∧ s.mmioRead reg &&& mask = 0) := by
  obtain ⟨st, t, e, h'⟩ := h.waitClearFrom plat ho mask T s.now (pollBound plat T)
  exact ⟨st, t, (ends_readTime h.quiet).bind e, h'⟩

/-- Where READY is clear the loop of `wait_ack` ends BUS_TIMEOUT. -/
theorem Silent.waitAckFrom (plat : Platform) (x : Nat) (t0 : Time) (n : Nat) {s : State} (h : Silent s p l r)
    (hs : wireTop (s.mmioRead r.sts) = false) :
    ∃ v, (waitAckFrom plat r.sts x t0 n).tries s r 0 (.busTimeout, v) := by
  induction n generalizing s with
  | zero => exact ⟨0, s, Code.ends_pure _ s, s.mmio, [], s.now, rfl, LaneStore.refl h.stored, by simp, rfl⟩
  | succ n ih =>
    have h1 := h.tried_read (.inr rfl) (s.mmioRead r.sts)
    have hq := (h.after h1).quiet
    have h2 := h1.trans ((h.after h1).tried_sleep plat.pollUs)
    obtain ⟨v, t, e, ht⟩ := ih (h.after h2) hs
    unfold Machine.waitAckFrom
    by_cases hT : s.now - t0 ≥ plat.tAckUs
    · exact ⟨_, _, (ends_memRead r.sts h.quiet).bind (by
        rw [if_neg (by rw [hs]; decide)]
        exact (ends_readTime hq).bind (by
          rw [if_pos (show (s.record _).now - t0 ≥ plat.tAckUs from hT)]; exact Code.ends_pure _ _)), h1⟩
    · exact ⟨v, t, (ends_memRead r.sts h.quiet).bind (by
        rw [if_neg (by rw [hs]; decide)]
        exact (ends_readTime hq).bind (by
          rw [if_neg (show ¬ (s.record _).now - t0 ≥ plat.tAckUs from hT)]
          exact (ends_sleepUs plat.pollUs hq).bind e)), h2.trans ht⟩

/-! ### Attempts -/

/-- `bus_reset`: one, whatever its wait gives (40_message_bus.md R156). -/
theorem Silent.busReset (h : Silent s p l r) : (busReset s.plat p l).tries s r 1 () := by
  unfold Machine.busReset clearResponse
  rw [h.facts.ctl_eq, h.facts.sts_eq]
  have h1 := (h.tried_ctl m2pReset).1
  obtain ⟨st, t, e, ht, -⟩ := (h.after h1).waitClear s.plat (.inl rfl) bit15 s.plat.tRstUs
  have h2 := h1.trans ht
  exact ⟨_, (ends_memWrite _ _ h.quiet).bind (e.bind (ends_memWrite _ _ (h.after h2).quiet)),
    by simpa using h2.trans (h.after h2).tried_sts.1⟩

/-- A failure after some accesses ends with the bus reset. -/
theorem Silent.resets {α : Type} (h : Silent s p l r) (a : α) :
    (do Machine.busReset s.plat p l; pure a : Code α).tries s r 1 a := by
  obtain ⟨t, e, ht⟩ := h.busReset
  exact ⟨t, e.bind (Code.ends_pure _ _), ht⟩

/-- `read_attempt` (40_message_bus.md R162). -/
theorem Silent.readAttempt (h : Silent s p l r) (a : BitVec 12) :
    (readAttempt s.plat p l a).tries s r 1 (.busTimeout, 0) := by
  unfold Machine.readAttempt clearResponse waitAck
  rw [h.facts.ctl_eq, h.facts.sts_eq]
  obtain ⟨st, t, e, ht, -, hst⟩ := h.waitClear s.plat (.inl rfl) bit31 s.plat.tPendUs
  have pt := ht.keeps.1
  rcases hst with rfl | ⟨rfl, -⟩
  · obtain ⟨u, e', hu⟩ := (h.after ht).resets ((Status.busTimeout, 0) : Status × Byte)
    rw [pt] at e'
    exact ⟨u, e.bind e', by simpa using ht.trans hu⟩
  · have hs := (h.after ht).tried_sts
    have h1 := ht.trans hs.1
    have hc := (h.after h1).tried_ctl (m2pWord 3 a 0)
    have h2 := h1.trans hc.1
    obtain ⟨v, w, e2, hw⟩ := (h.after h2).waitAckFrom s.plat 4 _ (pollBound s.plat s.plat.tAckUs) (by rw [hc.2.2]; exact hs.2)
    have h3 := h2.trans hw
    obtain ⟨u, e', hu⟩ := (h.after h3).resets ((Status.busTimeout, 0) : Status × Byte)
    rw [h3.keeps.1] at e'
    exact ⟨u, e.bind ((ends_memWrite _ _ (h.after ht).quiet).bind ((ends_memWrite _ _ (h.after h1).quiet).bind
      (Code.ends.bind (a := (Status.busTimeout, v)) ((ends_readTime (h.after h2).quiet).bind e2) e'))), by simpa [m2pWord_ne_reset] using h3.trans hu⟩

/-- `write_attempt` (40_message_bus.md R166). -/
theorem Silent.writeAttempt (h : Silent s p l r) (a : BitVec 12) (d : Byte) (committed : Bool) :
    (writeAttempt s.plat p l a d committed).tries s r 1 .busTimeout := by
  unfold Machine.writeAttempt clearResponse
  rw [h.facts.ctl_eq, h.facts.sts_eq]
  obtain ⟨st, t, e, ht, -, hst⟩ := h.waitClear s.plat (.inl rfl) bit31 s.plat.tPendUs
  have pt := ht.keeps.1
  rcases hst with rfl | ⟨rfl, -⟩
  · obtain ⟨u, e', hu⟩ := (h.after ht).resets Status.busTimeout
    rw [pt] at e'
    exact ⟨u, e.bind e', by simpa using ht.trans hu⟩
  · have h1 := ht.trans (h.after ht).tried_sts.1
    have hc := (h.after h1).tried_ctl (m2pWord (if committed then 2 else 1) a d)
    have h2 := h1.trans hc.1
    obtain ⟨st, w, e2, hw, -, hst⟩ := (h.after h2).waitClear s.plat (.inl rfl) bit31 s.plat.tPendUs
    have h3 := h2.trans hw
    obtain rfl : st = .busTimeout := hst.resolve_right fun x => by
      have hx := (and_bit31 _).1 x.2
      rw [hc.2.1, wireTop_m2p] at hx
      exact absurd hx (by decide)
    obtain ⟨u, e', hu⟩ := (h.after h3).resets Status.busTimeout
    rw [h3.keeps.1] at e'
    exact ⟨u, e.bind ((ends_memWrite _ _ (h.after ht).quiet).bind ((ends_memWrite _ _ (h.after h1).quiet).bind
      (e2.bind e'))), by simpa [m2pWord_ne_reset] using h3.trans hu⟩

/-! ### Three attempts -/

/-- `mb_read` makes its three attempts (40_message_bus.md R160, R164). -/
theorem Silent.mbRead (h : Silent s p l r) (a : BitVec 12) : (mbRead s.plat p l a).tries s r 3 (.busTimeout, 0) := by
  obtain ⟨t1, e1, h1⟩ := h.readAttempt a
  obtain ⟨t2, e2, h2⟩ := (h.after h1).readAttempt a
  obtain ⟨t3, e3, h3⟩ := (h.after (h1.trans h2)).readAttempt a
  rw [h1.keeps.1] at e2
  rw [(h1.trans h2).keeps.1] at e3
  exact ⟨t3, e1.bind (e2.bind (e3.bind (Code.ends_pure _ _))), (h1.trans h2).trans h3⟩

/-- `mb_write` makes its three attempts (40_message_bus.md R160, R168). -/
theorem Silent.mbWrite (h : Silent s p l r) (a : BitVec 12) (d : Byte) (committed : Bool) :
    (mbWrite s.plat p l a d committed).tries s r 3 .busTimeout := by
  obtain ⟨t1, e1, h1⟩ := h.writeAttempt a d committed
  obtain ⟨t2, e2, h2⟩ := (h.after h1).writeAttempt a d committed
  obtain ⟨t3, e3, h3⟩ := (h.after (h1.trans h2)).writeAttempt a d committed
  rw [h1.keeps.1] at e2
  rw [(h1.trans h2).keeps.1] at e3
  exact ⟨t3, e1.bind (e2.bind e3), (h1.trans h2).trans h3⟩

/-- A code that begins with a failing one and passes its failure on. -/
theorem Code.tries.bind {α β : Type} {c : Code α} {f : α → Code β} {n : Nat} {a : α} {b : β} (h : c.tries s r n a)
    (hf : f a = pure b) : (c >>= f).tries s r n b := by
  obtain ⟨t, e, ht⟩ := h
  exact ⟨t, e.bind (by rw [hf]; exact Code.ends_pure _ _), ht⟩

/-! ### Captures and programmings -/

theorem Silent.sramRead (h : Silent s p l r) (a : BitVec 16) : (sramRead s.plat p l a).tries s r 3 (.busTimeout, 0) :=
  (h.mbWrite s.plat.c20Window.rdAddrH (hiByte a) false).bind rfl

theorem Silent.sramWrite (h : Silent s p l r) (a v : BitVec 16) : (sramWrite s.plat p l a v).tries s r 3 .busTimeout :=
  (h.mbWrite s.plat.c20Window.wrAddrH (hiByte a) false).bind rfl

theorem Silent.mbRmw (h : Silent s p l r) (a : BitVec 12) (clr set : Byte) (committed : Bool) :
    (mbRmw s.plat p l a clr set committed).tries s r 3 .busTimeout := (h.mbRead a).bind rfl

theorem State.silentLane.silent {x : Selector} (h : s.silentLane x l r) (hq : s.quiet) :
    Silent s (busLanes x).1 l r :=
  ⟨laneFacts _ h.1 _ _ _ h.2.2.2.2.2, h.2.1, h.2.2.1, hq⟩

/-- The first lane that fails ends the operation (40_message_bus.md R167). -/
theorem tries_onLanes {op : Nat → Code Status} {lanes : List Nat} (hl : lanes.head? = some l) {n : Nat}
    (h : (op l).tries s r n .busTimeout) : (onLanes op lanes).tries s r n .busTimeout := by
  obtain ⟨rest, rfl⟩ := List.head?_eq_some_iff.1 hl
  exact h.bind rfl

/-- The lowest lane of a mask is the first of its lanes. -/
theorem lowestLane_of_head {lanes : BitVec 2} (h : (setLanes lanes).head? = some l) : lowestLane lanes = l := by
  revert h
  revert lanes
  have : ∀ lanes : BitVec 2, (setLanes lanes).head? = some (lowestLane lanes) ∨ (setLanes lanes).head? = none := by decide
  intro lanes h
  rcases this lanes with e | e <;> rw [e] at h
  · exact Option.some.inj h
  · cases h

/-- `write_v` of a bus variant ends with its first write (41_phy_datapath.md R234, R244). -/
theorem Silent.writeV {x : Selector} (hx : s.silentLane x l r) (hq : s.quiet) {ws : List (Nat × Word)} (hw : ws ≠ []) :
    (writeV s.plat (some x) ws).tries s r 3 .busTimeout := by
  have h := hx.silent hq
  have hl := hx.2.2.2.2.1
  have hb := hx.2.2.2.1
  obtain ⟨w, rest, rfl⟩ := List.exists_cons_of_ne_nil hw
  unfold Machine.writeV layoutOf
  unfold onMmio at hb
  unfold busLanes at h hl
  obtain ⟨w1, w2⟩ := w
  cases hlay : x.layout <;> rw [hlay] at hb h hl <;> simp only [Option.map_some, hlay] <;> try contradiction
  · exact tries_onLanes hl ((h.mbWrite (BitVec.ofNat 12 w1) (w2.setWidth 8) true).bind rfl)
  · exact tries_onLanes hl ((h.sramWrite (BitVec.ofNat 16 w1) (w2.setWidth 16)).bind rfl)

/-- The capture of a bus variant ends with its first read (41_phy_datapath.md R231, R241). -/
theorem Silent.captureV {x : Selector} (hx : s.silentLane x l r) (hq : s.quiet)
    (hs : ∀ y, x.layout = .c10 y → y.slotAddr ≠ []) :
    (captureV s.plat (some x)).tries s r 3 (.busTimeout, [], none) := by
  have h := hx.silent hq
  have hl := hx.2.2.2.2.1
  have hb := hx.2.2.2.1
  unfold Machine.captureV layoutOf
  unfold onMmio at hb
  unfold busLanes at h hl
  cases hlay : x.layout <;> rw [hlay] at hb h hl <;> simp only [Option.map_some, hlay] <;> try contradiction
  · rename_i y
    obtain ⟨a, rest, ha⟩ := List.exists_cons_of_ne_nil (hs y hlay)
    rw [lowestLane_of_head hl, ha]
    have e : (readBusSlots s.plat y.port l (a :: rest)).tries s r 3 (.busTimeout, []) := (h.mbRead a).bind rfl
    exact e.bind rfl
  · rw [lowestLane_of_head hl]
    exact (h.mbRead _).bind rfl

end Sys2Proof.Machine
end

