-- ==== Sys2Proof/Tests/Slice0.lean ====
section
/-! SUPPORT. The model's own tests: what WellFormed refuses, words written out from the encoding, single
steps against the values of 95_test_vectors.md, and a witness for the hypotheses of each obligation. -/

namespace Sys2Proof.Tests

set_option Elab.async false

open Sys2Proof.Machine

/-! ### WellFormed and Decode -/

/-- A port number of seven bits has no encoding (30_encoding.md R110). -/
theorem test_wellFormed_refuses_wide_ports :
    ∀ i ∈ [Instr.mbReadOnce 64 1, .mbRead 64 1, .mbWriteOnce 64 1 true, .mbWrite 64 1 true, .mbRmw 64 1 true,
      .mbReset 64 1, .sramRead 64 1, .sramWrite 64 1], i.wellFormed = false := by decide

/-- The words of 95_test_vectors.md CW-1 to CW-14, and the other host commands written out from
30_encoding.md R110 and R119. -/
theorem test_decode_host : ∀ x ∈ ([(0x00000001, .construct), (0x00000002, .release), (0x00000003, .readRegisters),
    (0x00040004, .calcPllClock true), (0x00000005, .calcFeedbackDividers), (0x00000006, .programMmio false),
    (0x00040006, .programMmio true), (0x00000007, .printRegisters), (0x00000008, .getCached),
    (0x00010010, .programPhy true false), (0x00030010, .programPhy true true), (0x00010011, .setPllClock true),
    (0x00000012, .getPllClock), (0x00000013, .waitUntilDone), (0x00000014, .rollback)] : List (Nat × Instr)),
    decodeTableWord 32 x.1 = some x.2 := by decide

theorem test_decode_bus : ∀ x ∈ ([(0x00000020, .mbWaitClear), (0x00100021, .mbReadOnce 0 0b01),
    (0x00300022, .mbRead 0 0b11), (0x0FE80023, .mbWriteOnce 63 0b10 true), (0x00580024, .mbWrite 1 0b01 true),
    (0x00180025, .mbRmw 0 0b01 true), (0x00100026, .mbReset 0 0b01), (0x00100027, .sramRead 0 0b01),
    (0x00A00028, .sramWrite 2 0b10)] : List (Nat × Instr)), decodeTableWord 32 x.1 = some x.2 := by decide

/-- The codes of 30_encoding.md R120. -/
theorem test_decode_internal : decodeTableWord 8 0x30 = some .timerArm ∧ decodeTableWord 8 0x31 = some .timerCancel ∧
    decodeTableWord 8 0x32 = some .timerFire := by decide

/-- The words of 95_test_vectors.md WW-1 to WW-6. -/
theorem test_decode_wire : ∀ x ∈ ([(0x885A0C0B, .m2pWriteUncommitted 0xC0B 0x5A),
    (0x905A0C0B, .m2pWriteCommitted 0xC0B 0x5A), (0x98000C0B, .m2pRead 0xC0B 0), (0x00008000, .m2pBusReset),
    (0xA0A50000, .p2mReadAck 0xA5), (0xA8000000, .p2mWriteAck 0)] : List (Nat × Instr)),
    decodeTableWord 32 x.1 = some x.2 := by decide

/-- 95_test_vectors.md CW-15 to CW-17, CW-20 and CW-21. -/
theorem test_decode_illegal : ([0x00010006, 0x00000112, 0x00180022, 0, 9, 0x15, 0x29, 0xFF, 0x30, 0x31,
    0x32] : List Word).map decodeHost = List.replicate 11 none := by decide +kernel

/-- 95_test_vectors.md WW-7, WW-8 and WW-10: no response, whatever else they hold. -/
theorem test_decode_no_response : ([0xA0008000, 0xB0A50000, 0x20000000] : List Word).map decodeP2m =
    List.replicate 3 none := by decide +kernel

/-! ### A small machine -/

/-- Selectors 3, 7, 9, 5 and 11 of the reference platform: one of each variant. -/
def combo : Selector := ⟨3, 0x400, 0, [], 1, .combo { cfg0 := 0x200, cfg1 := 0x204 }⟩
def dpmn : Selector := ⟨7, 0x40C, 0, [], 0, .dpmn { m := 0x300, n := 0x304 }⟩
def dkl : Selector := ⟨9, 0x410, 0, [], 3, .dkl { div0 := 0x100, bias := 0x104, aux := Config.referenceAux }⟩
def c10 : Selector := ⟨5, 0x408, 0, [], 2, .c10 { port := 0, lanes := 0b01 }⟩
def c20 : Selector := ⟨11, 0x414, 0, [], 4, .c20 Config.referenceC20⟩

/-- The reset state with these registers in instance 0. -/
def bank0 (c : Core) : State := { State.reset with banks := [{ core := c }, {}] }

/-- The same, with words in the MMIO space. -/
def wired (ws : List (Word × Word)) (c : Core) : State :=
  { bank0 c with mmio := ws.foldl (fun m w => m.putWord w.1 w.2) [] }

/-- An instance bound to a selector and a PLL index. -/
def idle (x : Selector) (k : Nat) : Core := { fsm := .idle, sel := some x, pllIndex := some k }

/-- The same with a snapshot: addresses and values. -/
def held (x : Selector) (k : Nat) (ss : List (Nat × Word)) : Core :=
  { idle x k with fsm := .captured, captured := true, slots := some (ss.map fun y => ⟨y.1, y.2, y.2, true⟩) }

/-- The same with a rollback pending. -/
def armed (x : Selector) (k : Nat) (ss : List (Nat × Word)) : Core :=
  { held x k ss with
    fsm := .armedForRollback, appliedMod := true, armed := true, deadline := some 10000000, done := false }

/-- The registers of instance 0 after an instruction that gives a next state. -/
def outcome (i : Instr) (s : State) : Option Core :=
  match exec i s with
  | .next t => t.core? 0
  | _ => none

/-- What the instruction adds to the record, oldest first. -/
def records (i : Instr) (s : State) : Option (List Record) :=
  match exec i s with
  | .next t => some t.trace.reverse
  | _ => none

/-- The `mod` copy after an instruction. -/
def mods (i : Instr) (s : State) : Option (List Word) :=
  (outcome i s).map fun c => c.snapshot.map (·.mod)

/-- Code and RESULT after an instruction. -/
def answer (i : Instr) (s : State) : Option (Status × BitVec 64) := (outcome i s).map fun c => (c.code, c.result)

def comboRegs : List (Nat × Word) := [(0x200, 0x0080015E), (0x204, 0x12345678)]
def dklRegs : List (Nat × Word) := [(0x100, 0x000001D2), (0x104, 0x3C000000), (0x108, 0x00010002)]
def dpmnRegs : List (Nat × Word) := [(0x300, 100), (0x304, 0x8000)]

/-- The slots of section 2.6 of 95_test_vectors.md, with the given r and d (below 256). -/
def c10Regs (r d : Word) : List (Nat × Word) :=
  List.zip ((List.range 20).map (· + 0xC00)) [0, 0, 0x8C, 0, 0, 0, 0, 0, 0, d, 0, 0, 0xA0, r, 0, 1, 0, 0, 0, 0]

/-- The words of section 2.7 of 95_test_vectors.md in the layout of the reference platform: multiplier 2812,
txclkdiv 1, q 16384, r 0, and `frac_en` and d as given. -/
def c20Core (en : BitVec 1) (d : Word) : Core :=
  { held c20 4 [(0x100, 0xAFC), (0x101, 1), (0x102, 16384), (0x103, 0), (0x104, d)] with
    c20 := .holding ⟨.mplla, en, 1, 0, 2812, 0, 0, 0⟩ }

/-! ### Single steps -/

/-- 95_test_vectors.md CT-1 and CT-2. -/
theorem test_construct : (outcome .construct (bank0 { arg0 := 3 })).map (·.statusWord) = some 0x00001800 := by
  decide +kernel
theorem test_construct_conflict : (outcome .construct { bank0 { arg0 := 4 } with
    enabled := State.reset.enabled.set 1 true }).map (·.statusWord) = some 0x00000804 := by decide +kernel

/-- 95_test_vectors.md RB-5: the restore comes before the unbinding. -/
theorem test_release_restores_first : records .release (bank0 (armed combo 1 comboRegs)) =
    some [.cancel 0, .write 0x200 0x0080015E, .write 0x204 0x12345678] := by decide +kernel

/-- 42_stepping_controller.md R274 and 70_reset_and_hazards.md R433: between `captured <- 0` and `fsm <- UNBOUND`
STATUS shows `captured` = 0 in DONE; the fifteenth write of RELEASE is `captured`. -/
theorem test_release_write_by_write : (((fun t : State => t.moveSeq 0)^[15]
    { bank0 {} with banks := [
      { core := { held combo 1 comboRegs with fsm := .done, busy := true }
        seq := some ⟨some .release, { held combo 1 comboRegs with fsm := .done }, []⟩ }, {}] }).core? 0).map
      (·.statusWord) = some 0x00007900 := by decide +kernel

/-- 95_test_vectors.md RR-1 with CB-1, and P5 line 2. -/
theorem test_readRegisters : (outcome .readRegisters (wired [(0x200, 0x0080015E), (0x204, 0x12345678)]
    (idle combo 1))).map (fun c => (c.statusWord, c.pllFreqOrig)) = some (0x00002C00, some 0x4159ABE000000000) := by
  decide +kernel
theorem test_readRegisters_anomaly : (outcome .readRegisters (wired [(0x104, 0xFFFFFFFF)] (idle dkl 3))).map
    (·.statusWord) = some 0x00001805 := by decide +kernel

/-- 95_test_vectors.md C10-5: 270000.0, and C20-7. -/
theorem test_calcPllClock_c10 : answer (.calcPllClock false) (bank0 (held c10 2 (c10Regs 3 7))) =
    some (.ok, 0x41107AC000000000) := by decide +kernel
theorem test_calcPllClock_c20 : answer (.calcPllClock true) (bank0 (c20Core 1 0)) = some (.dividerError, 0) := by
  decide +kernel

/-- 95_test_vectors.md CB-9 with the target of CB-2, 6736329.6. -/
theorem test_feedback_combo : mods .calcFeedbackDividers (bank0 { held combo 1 [(0x200, 0xFE80015E), (0x204, 0)] with
    arg0 := 0x4159B27266666666 }) = some [0xFED9BD5E, 0] := by decide +kernel
/-- 95_test_vectors.md C20-3, 2702700.0: both words saturate. -/
theorem test_feedback_c20 : mods .calcFeedbackDividers (bank0 { c20Core 1 3 with arg0 := 0x41449EB600000000 }) =
    some [0xAFC, 1, 65535, 65535, 3] := by decide +kernel

/-- 95_test_vectors.md DP-4: one write, of M. -/
theorem test_programMmio_dpmn : records (.programMmio true) (bank0 (held dpmn 0 dpmnRegs)) =
    some [.write 0x300 100] := by decide +kernel

/-- The PHY registers hold what the C10 snapshot holds. -/
def atC10 (c : Core) : State := { bank0 c with
  phy := (c10Regs 3 7).foldl (fun (m : Memory) (y : Nat × Word) => m.put (phyKey 0 0 (BitVec.ofNat 12 y.1)) (y.2.setWidth 8)) [] }

/-- 20_memory.md R87: a C10 restore onto the captured values is no access to the SRAM and changes no register, though
slots 2 to 9 have the addresses of the SRAM window. -/
theorem test_programMmio_c10_noop :
    (atC10 (held c10 2 (c10Regs 3 7))).programmed c10 (c10Regs 3 7) = atC10 (held c10 2 (c10Regs 3 7)) := by decide +kernel

theorem test_printRegisters : records .printRegisters (bank0 (held dpmn 0 dpmnRegs)) = some [] := by decide +kernel

/-- 95_test_vectors.md GC-2 and CW-26. -/
theorem test_getCached : answer .getCached (bank0 { held combo 1 comboRegs with arg0 := 1 }) = some (.invalidState, 0) ∧
    answer .getCached (bank0 { held combo 1 comboRegs with arg0 := 3 }) = some (.invalidArgument, 0) := by decide +kernel

/-- 95_test_vectors.md, line 3 of P1 and line 4 of P5. -/
theorem test_programPhy_combo : records (.programPhy true true) (bank0 { held combo 1 comboRegs with
    arg0 := 0x3FF0000000000000, arg1 := 0x3F847AE147AE147B }) =
    some [.write 0x200 0x0077095E, .write 0x204 0x12345678, .arm 0 10000] := by decide +kernel
theorem test_programPhy_dkl : mods (.programPhy true true) (bank0 { held dkl 3 dklRegs with
    arg0 := 0x3FF0000000000000, arg1 := 0x3F847AE147AE147B }) = some [0x1D2, 0x3AA66600, 0x101] := by decide +kernel

/-- 95_test_vectors.md ST-6 on the DP M/N instance: M = 100, 101, 102, 103 by truncation, three sleeps. -/
theorem test_setPllClock : records (.setPllClock true) (bank0 { held dpmn 0 dpmnRegs with
    arg0 := 0x4059E00000000000, arg1 := 0x3FF0000000000000, arg2 := 2 }) =
    some [.write 0x300 100, .sleep 2000, .write 0x300 101, .sleep 2000, .write 0x300 102, .sleep 2000,
      .write 0x300 103] := by decide +kernel
/-- 95_test_vectors.md ST-10: a shift of 0 with steps to make. -/
theorem test_setPllClock_no_shift : answer (.setPllClock true) (bank0 { held dpmn 0 dpmnRegs with
    arg0 := 0x4059400000000000 }) = some (.invalidArgument, 0) := by decide +kernel

/-- 95_test_vectors.md DK-1: 8100.0. -/
theorem test_getPllClock : answer .getPllClock (bank0 (held dkl 3 dklRegs)) = some (.ok, 0x40BFA40000000000) := by
  decide +kernel

/-- 95_test_vectors.md RB-4. -/
theorem test_waitUntilDone_shutdown : records .waitUntilDone { bank0 (armed dpmn 0 dpmnRegs) with shutdown := true } =
    some [.cancel 0, .write 0x300 100] := by decide +kernel

/-- 95_test_vectors.md, line 6 of P5. -/
theorem test_rollback : (outcome .rollback (bank0 (armed dkl 3 dklRegs))).map (·.statusWord) = some 0x00007C00 ∧
    records .rollback (bank0 (armed dkl 3 dklRegs)) = some [.cancel 0, .write 0x100 0x000001D2,
      .write 0x104 0x3C000000, .write 0x108 0x00010002] := by decide +kernel

/-- 95_test_vectors.md MB-1, the first read with no bit of the mask set. -/
theorem test_mbWaitClear : records .mbWaitClear (bank0 { arg0 := 0x1000, arg1 := 0x80000000, arg2 := 1000 }) =
    some [.read 0x1000 0] := by decide +kernel

/-- 95_test_vectors.md MB-2. -/
theorem test_mbReadOnce : records (.mbReadOnce 0 1) ((bank0 { arg0 := 0xC0B }).setPhyReg 0 0 0xC0B 0xA5) =
    some [.read 0x1000 0, .write 0x1004 0x80008000, .write 0x1000 0x98000C0B, .read 0x1004 0xA0A50000,
      .write 0x1004 0x80008000] ∧
    answer (.mbReadOnce 0 1) ((bank0 { arg0 := 0xC0B }).setPhyReg 0 0 0xC0B 0xA5) = some (.ok, 0xA5) := by
  decide +kernel

/-- 95_test_vectors.md CW-10: lane 0 of two; MB-8: a register that holds 0. -/
theorem test_mbRead : answer (.mbRead 0 3) (((bank0 { arg0 := 0xC0B }).setPhyReg 0 0 0xC0B 0xA5).setPhyReg 0 1 0xC0B 1) =
    some (.ok, 0xA5) ∧ answer (.mbRead 0 1) (bank0 { arg0 := 0xC0B }) = some (.ok, 0) := by decide +kernel

/-- 95_test_vectors.md MB-9. -/
theorem test_mbWriteOnce : records (.mbWriteOnce 0 1 true) (bank0 { arg0 := 0xC0B, arg1 := 0x5A }) =
    some [.read 0x1000 0, .write 0x1004 0x80008000, .write 0x1000 0x905A0C0B, .read 0x1000 0x105A0C0B,
      .read 0x1004 0xA8000000, .write 0x1004 0x80008000] := by decide +kernel

/-- 95_test_vectors.md MB-12: lane 0, then lane 1. -/
theorem test_mbWrite : (records (.mbWrite 0 3 false) (bank0 { arg0 := 0x10, arg1 := 1 })).map
    (fun rs => rs.filter fun r => r == .write 0x1000 0x88010010 || r == .write 0x1008 0x88010010) =
    some [.write 0x1000 0x88010010, .write 0x1008 0x88010010] := by decide +kernel

/-- 95_test_vectors.md MB-16, and MB-15: no write where the value stays. -/
theorem test_mbRmw : (records (.mbRmw 0 1 true) ((bank0 { arg0 := 0xC0B, arg1 := 0x30, arg2 := 1 }).setPhyReg 0 0 0xC0B
    0xF0)).map (fun rs => rs.contains (.write 0x1000 0x90C10C0B)) = some true := by decide +kernel
theorem test_mbRmw_unchanged : (records (.mbRmw 0 1 true) ((bank0 { arg0 := 0xC0B, arg1 := 0x0C }).setPhyReg 0 0 0xC0B
    0x30)).map (·.length) = some 5 := by decide +kernel

/-- 95_test_vectors.md MB-19. -/
theorem test_mbReset : records (.mbReset 0 1) (bank0 {}) =
    some [.write 0x1000 0x00008000, .read 0x1000 0, .write 0x1004 0x80008000] := by decide +kernel

/-- 95_test_vectors.md MB-20, on a lane whose window addresses are C10 slots too. -/
theorem test_sramRead : answer (.sramRead 0 1) ((bank0 { arg0 := 0x1234 }).setSramWord 0 0 0x1234 0xABCD) =
    some (.ok, 0xABCD) := by decide +kernel

/-- 95_test_vectors.md MB-21: the four words, only the last committed. -/
theorem test_sramWrite : (records (.sramWrite 0 1) (bank0 { arg0 := 0x1234, arg1 := 0xBEEF })).map
    (fun rs => rs.filter fun r => match r with
      | .write 0x1000 _ => true
      | _ => false) =
    some [.write 0x1000 0x88120C02, .write 0x1000 0x88340C03, .write 0x1000 0x88BE0C04, .write 0x1000 0x90EF0C05] := by
  decide +kernel

/-- 43_rollback_scheduler.md R342: the deadline. -/
theorem test_timerArm : (outcome .timerArm { bank0 { dp := { tms := some 3 } } with now := 5 }).map (·.deadline) =
    some (some 3005) := by decide +kernel

/-- 43_rollback_scheduler.md R343. -/
theorem test_timerCancel : records .timerCancel (bank0 (armed dpmn 0 dpmnRegs)) = some [.cancel 0] ∧
    records .timerCancel (bank0 (held dpmn 0 dpmnRegs)) = some [] := by decide +kernel

/-- 43_rollback_scheduler.md R345: at the deadline, not before it. -/
theorem test_timerFire : records .timerFire { bank0 (armed dpmn 0 dpmnRegs) with now := 10000000 } = some [.fire 0] ∧
    records .timerFire { bank0 (armed dpmn 0 dpmnRegs) with now := 9999999 } = some [] := by decide +kernel

/-- The words on the wires of a lane after a wire word: M2P_CTL and P2M_STS (40_message_bus.md R154). -/
def wires (i : Instr) : Option (Word × Word) :=
  match exec i (State.reset.setPhyReg 0 0 0xC0B 0xA5) with
  | .next t => some (t.mmioRead 0x1000, t.mmioRead 0x1004)
  | _ => none

theorem test_wire_requests : wires (.m2pRead 0xC0B 0) = some (0x18000C0B, 0xA0A50000) ∧
    wires (.m2pWriteCommitted 0xC0B 0x5A) = some (0x105A0C0B, 0xA8000000) ∧
    wires (.m2pWriteUncommitted 0xC0B 0x5A) = some (0x085A0C0B, 0) := by decide +kernel

theorem test_wire_others : wires .m2pBusReset = some (0, 0) ∧ wires (.p2mReadAck 0xA5) = some (0, 0xA0A50000) ∧
    wires (.p2mWriteAck 0) = some (0, 0xA8000000) := by decide +kernel

/-- 00_scope.md R11: 0.1 + 0.2 rounds to even, and round4 of 9.0909… (95_test_vectors.md ST-2). -/
theorem test_binary64 : B64.add 0x3FB999999999999A 0x3FC999999999999A = 0x3FD3333333333334 ∧
    stepPercent 0x405B800000000000 0x4059000000000000 = 0x40222E8A71DE69AD := by decide +kernel

/-! ### Witnesses: a state and operands that meet the hypotheses of an obligation -/

theorem witness_DecodeEncode : (Instr.mbRmw 63 3 true).wellFormed = true := by decide

theorem witness_EncodeDecode : decodeHost 0x0FF80025 = some (.mbRmw 63 3 true) ∧
    decodeM2p 0x98FF0FFF = some (.m2pRead 0xFFF 0xFF) := by decide +kernel

/-- The response of every kind that `WireWords` is about. -/
theorem witness_WireWords : wireBit15 0xA0008000 = true := by decide +kernel

/-- The reset state with events to come. -/
def waiting (es : List Event) : State := { State.reset with inputs := es }

theorem reset_valid : State.reset.plat.valid = true := by decide +kernel

theorem witness_IllegalCommandEnds : State.reset.plat.valid = true ∧ (waiting [.hostCmd 0 0x112]).quiet ∧
    (waiting [.hostCmd 0 0x112]).banks[0]? = some ({} : Bank) ∧
    ∀ row ∈ hostRows, ¬ (((0x112 : Word) &&& 0xFF#32).toNat = row.1 ∧ 0x112 &&& ~~~(0xFF#32 ||| row.2) = 0#32) :=
  ⟨reset_valid, rfl, rfl, by decide +kernel⟩

theorem witness_StepRunsDecoded : (waiting [.hostCmd 1 0x0FF80025]).banks[1]? = some ({} : Bank) ∧
    decodeHost 0x0FF80025 = some (.mbRmw 63 3 true) ∧ decodeInternal 0x32 = some .timerFire ∧
    decodeWire 0x98000C0B = some (.m2pRead 0xC0B 0) :=
  ⟨rfl, by decide +kernel, by decide +kernel, by decide +kernel⟩

/-- A busy instance, and one that is not. -/
theorem witness_PortWrites : (bank0 { busy := true }).banks[0]? = some { core := { busy := true } } ∧
    (waiting [.hostArg 1 4 5]).banks[1]? = some ({} : Bank) ∧ State.reset.plat.valid = true := ⟨rfl, rfl, reset_valid⟩

/-- The reference platform with one setting that a check refuses: an unaligned bus register, an unaligned
clock-select register, a PLL index equal to P_NUM_PLL, two selectors on one lane. -/
theorem witness_BadConfigurationRefused :
    breaksCheck { Config.reference with busPorts := [⟨⟨0x1002, 0x1004⟩, ⟨0x1008, 0x100C⟩⟩] } ∧
    breaksCheck { Config.reference with selectors := [{ combo with clkselReg := 0x401 }] } ∧
    breaksCheck { Config.reference with selectors := [{ combo with discoverElse := 8 }] } ∧
    breaksCheck { Config.reference with selectors := [c10, { c10 with id := 6, discoverElse := 3 }] } :=
  ⟨.inl ⟨0, _, rfl, 0x1002, .head _, by decide⟩, .inr (.inl ⟨_, .head _, .inl (by decide)⟩),
    .inr (.inl ⟨_, .head _, .inr (.inl ⟨8, .head _, by decide⟩)⟩),
    .inr (.inr ⟨by decide, 0, 1, _, _, (0, 1), (0, 1), by decide, rfl, rfl, rfl, rfl, rfl, by decide, 2, .head _, 3, .head _, by decide⟩)⟩

/-- The first instance, port and lane that do not exist on the reference platform. -/
theorem witness_NothingThereFaults : State.reset.banks.length ≤ 2 ∧ isHost (.mbReset 0 3) = true ∧
    State.reset.plat.busPorts.length ≤ 4 := by decide +kernel

/-- What a reset changes. -/
theorem witness_ResetValues : State.reset.plat.valid = true ∧
    (waiting [.reset, .tick 1]).inputs = .reset :: [.tick 1] := ⟨reset_valid, rfl⟩

/-- A step that writes each store. -/
theorem witness_StoresKept : (waiting [.poke 0x10 7]).StoresWf ∧ (waiting [.pokePhy 0 0 0xC0B 1]).StoresWf ∧
    (step (waiting [.poke 0x10 7]) matches .next _) ∧ (step (waiting [.pokeSram 1 0 2 3]) matches .next _) :=
  ⟨⟨rfl, rfl, rfl⟩, ⟨rfl, rfl, rfl⟩, by decide +kernel, by decide +kernel⟩

/-- One instance bound to index 1 of the ownership table, with a command to come. -/
def bound (es : List Event) : State :=
  { bank0 (idle combo 1) with enabled := State.reset.enabled.set 1 true, inputs := es }

theorem bound_core {es : List Event} {n : Nat} {c : Core} (h : (bound es).core? n = some c) :
    (n = 0 ∧ c = idle combo 1) ∨ (n = 1 ∧ c = {}) := by
  match n with
  | 0 => exact .inl ⟨rfl, (Option.some.inj h).symm⟩
  | 1 => exact .inr ⟨rfl, (Option.some.inj h).symm⟩
  | n + 2 => exact absurd h (by simp [bound, bank0, State.core?, State.bank?])

theorem bound_holds {es : List Event} {n k : Nat} : (bound es).holds n k ↔ n = 0 ∧ k = 1 := by
  constructor
  · rintro ⟨c, hc, hb, hk⟩
    obtain ⟨rfl, rfl⟩ | ⟨rfl, rfl⟩ := bound_core hc
    · exact ⟨rfl, (Option.some.inj hk).symm⟩
    · exact absurd rfl hb
  · rintro ⟨rfl, rfl⟩
    exact ⟨_, rfl, by decide, rfl⟩

theorem bound_singleOwner (es : List Event) : (bound es).SingleOwner := by
  refine ⟨fun k => ?_, fun n m k hn hm => ?_⟩
  · have hk : (bound es).enabled[k]? = some true ↔ k = 1 := by
      by_cases h : k < 8
      · change (State.reset.enabled.set 1 true)[k]? = some true ↔ k = 1
        interval_cases k <;> decide +kernel
      · have : (bound es).enabled.length ≤ k := Nat.le_of_not_lt h
        simp only [List.getElem?_eq_none this]
        exact iff_of_false (by simp) (by omega)
    rw [hk]
    exact ⟨fun h => ⟨0, bound_holds.2 ⟨rfl, h⟩, fun m hm => (bound_holds.1 hm).1⟩, fun ⟨n, hn, _⟩ => (bound_holds.1 hn).2⟩
  · exact (bound_holds.1 hn).1.trans (bound_holds.1 hm).1.symm

theorem bound_lifecycle (es : List Event) : (bound es).Lifecycle := by
  intro n c hc
  obtain ⟨rfl, rfl⟩ | ⟨rfl, rfl⟩ := bound_core hc <;> constructor <;> decide +kernel

/-- Instance 0 is bound and a CONSTRUCT of instance 1 comes. -/
theorem witness_SingleOwnerKept : (bound [.hostCmd 1 1]).SingleOwner ∧ (bound [.hostCmd 1 1]).Lifecycle ∧
    (bound [.hostCmd 1 1]).noRawTimer ∧ (step (bound [.hostCmd 1 1]) matches .next _) := by
  refine ⟨bound_singleOwner _, bound_lifecycle _, ?_, by decide +kernel⟩
  intro e he n w h
  subst h
  simp [bound, bank0, State.reset, State.resetOn] at he

/-- A capture; and an instance in ROLLING_BACK. -/
theorem witness_LifecycleKept : (bound [.hostCmd 0 3]).Lifecycle ∧ (bound [.hostCmd 0 3]).noRawTimer ∧
    (step (bound [.hostCmd 0 3]) matches .next _) ∧
    (performReq 0 (.setFsm .captured) (bound [.hostCmd 0 3])).2.core? 0 = some (idle combo 1) ∧
    (bank0 { armed combo 1 comboRegs with fsm := .rollingBack }).core? 0 =
      some { armed combo 1 comboRegs with fsm := .rollingBack } := by
  refine ⟨bound_lifecycle _, ?_, by decide +kernel, rfl, rfl⟩
  intro e he n w h
  subst h
  simp [bound, bank0, State.reset, State.resetOn] at he

/-- Instance 0 is armed, with the arming in the record, and its timer comes due. -/
theorem witness_RestoresKept :
    let s := { bank0 (armed combo 1 comboRegs) with trace := [.arm 0 10000], now := 10000000, inputs := [.fire 0] }
    s.Sized ∧ s.RestoresBalanced ∧ (step s matches .next _) := by
  refine ⟨⟨rfl, rfl⟩, ?_, by decide +kernel⟩
  intro n c hc
  match n with
  | 0 => cases Option.some.inj hc; decide +kernel
  | 1 => cases Option.some.inj hc; decide +kernel
  | n + 2 => exact absurd hc (by simp [bank0, State.core?, State.bank?])

theorem witness_ConfigurationKept : (step (bound [.tick 5]) matches .next _) ∧ (bound [.tick 5]).Sized :=
  ⟨by decide +kernel, rfl, rfl⟩

/-- An action on the instance that is captured, and one on the other instance. -/
theorem witness_OrigNeverWritten : (bank0 (held combo 1 comboRegs)).core? 0 = some (held combo 1 comboRegs) ∧
    (held combo 1 comboRegs).captured = true ∧
    (held combo 1 comboRegs).slots = some [⟨0x200, 0x0080015E, 0x0080015E, true⟩, ⟨0x204, 0x12345678, 0x12345678, true⟩] :=
  ⟨rfl, rfl, rfl⟩

/-- An entry `IS`, an entry `BZ`, an entry `noop`. -/
theorem witness_LegalityTable : legalityEntry .getPllClock .unbound = some (some .invalidState) ∧
    legalityEntry .release .rollingBack = some (some .busy) ∧
    legalityEntry .readRegisters .captured = some (some .ok) ∧
    (bank0 {}).banks[(bank0 {}).cur]? = some { core := {} } ∧ (bank0 {}).quiet := ⟨by decide, by decide, by decide, rfl, rfl⟩

/-- The operands at the first value each check refuses. -/
theorem witness_OperandChecks : legalityEntry .mbWaitClear .unbound = some none ∧
    badOperand Config.reference (.setPllClock true) { arg1 := 0x7FF0000000000000 } ∧
    badOperand Config.reference .getCached { arg0 := 4 } ∧
    badOperand Config.reference .mbWaitClear { arg0 := 2 } ∧
    badOperand Config.reference (.mbRead 4 1) {} ∧ badOperand Config.reference (.mbReset 0 0) {} ∧
    badOperand Config.reference (.mbWrite 0 1 true) { arg1 := 256 } ∧
    badOperand Config.reference (.sramRead 0 1) { arg0 := 65536 } ∧ (bank0 { arg0 := 65536 }).quiet :=
  ⟨by decide, .inr (by unfold notFinite; decide), by unfold badOperand; decide, .inr (.inr (by decide)), .inl (by decide),
    .inr rfl, .inr (.inr (.inr (by decide))), .inr (.inr (by decide)), rfl⟩

/-- A selector id 0, one that no selector has, a cached value 3, a target of 0, a shift of -0.1, a present
frequency of 0, and one that divides by zero. -/
theorem witness_ArgumentChecks : (∀ x ∈ Config.reference.selectors, x.id ≠ 6) ∧
    legalityEntry .getCached (idle combo 1).fsm = some none ∧ B64.le 0 B64.zero = true ∧
    B64.lt 0xBFB999999999999A B64.zero = true ∧ ¬ notFinite 0xBFB999999999999A ∧ ¬ notFinite 0 ∧
    (held dpmn 0 [(0x300, 0), (0x304, 1)]).pllClock Config.reference = (.ok, 0) ∧
    (bank0 (held c10 2 (c10Regs 3 0))).quiet ∧
    ((held c10 2 (c10Regs 3 0)).pllClock Config.reference).1 ≠ .ok ∧ B64.le 0x4059000000000000 B64.zero = false := by
  refine ⟨by decide, by decide, by decide, by decide, ?_, ?_, ?_, rfl, ?_, ?_⟩
  · unfold notFinite; decide
  · unfold notFinite; decide
  all_goals decide +kernel

/-- A zero shift with a target 1 percent off; a shift of 1e-30 percent, which needs 1e30 steps. From PROGRAM_PHY a
nudge of -200 percent, whose target is -100, and one from the largest finite frequency, whose target is infinite. -/
theorem witness_ArgumentChecks_steps : (held dpmn 0 dpmnRegs).pllClock Config.reference = (.ok, 0x4059000000000000) ∧
    B64.lt 0 B64.zero = false ∧ B64.eq 0 B64.zero = true ∧
    B64.le (stepPercent 0x4059000000000000 0x4059400000000000) 0 = false ∧
    B64.eq 0x39B4484BFEEBC2A0 B64.zero = false ∧
    B64.le (stepPercent 0x4059000000000000 0x4059400000000000) 0x39B4484BFEEBC2A0 = false ∧
    B64.div (B64.sub 0x4059400000000000 0x4059000000000000)
      (stepFirst 0x4059000000000000 0x4059400000000000 0x39B4484BFEEBC2A0) = 0x46293E5939A08CE9 ∧
    tooManySteps 0x46293E5939A08CE9 ∧
    0 < B64.clampTo .floor (2 ^ 32 - 1) (B64.div (B64.mul (B64.abs (B64.ofNat 10)) (B64.ofNat 100)) (B64.ofNat 200)) ∧
    B64.le (B64.add 0x4059000000000000 (nudgeDelta (B64.ofNat 10) (B64.ofNat 200) 0x4059000000000000)) B64.zero = true ∧
    (held dkl 3 [(0x100, 0x00000101), (0x104, 0)]).pllClock
      { Config.reference with refclkDklMhz := 0x7FEFFFFFFFFFFFFF } = (.ok, 0x7FEFFFFFFFFFFFFF) ∧
    B64.add 0x7FEFFFFFFFFFFFFF (nudgeDelta (B64.neg (B64.ofNat 1)) 0x3FE0000000000000 0x7FEFFFFFFFFFFFFF) =
      0x7FF0000000000000 ∧
    B64.le (stepPercent 0x7FEFFFFFFFFFFFFF 0x7FF0000000000000) 0x3FE0000000000000 = false ∧
    B64.div (B64.sub 0x7FF0000000000000 0x7FEFFFFFFFFFFFFF)
      (stepFirst 0x7FEFFFFFFFFFFFFF 0x7FF0000000000000 0x3FE0000000000000) = 0x7FF0000000000000 ∧
    tooManySteps 0x7FF0000000000000 := by
  refine ⟨by decide +kernel, by decide +kernel, by decide +kernel, by decide +kernel, by decide +kernel,
    by decide +kernel, by decide +kernel, ⟨by decide +kernel, .inr (by decide +kernel)⟩, by decide +kernel,
    by decide +kernel, by decide +kernel, by decide +kernel, by decide +kernel, by decide +kernel,
    ⟨by decide +kernel, .inl (by decide +kernel)⟩⟩

theorem witness_CommandFrame : (bank0 { arg0 := 3 }).quiet ∧ isHost .construct = true ∧
    (exec .construct (bank0 { arg0 := 3 }) matches .next _) := ⟨rfl, by decide, by decide +kernel⟩

/-- The index free, and held. -/
theorem witness_ConstructClaims : (bank0 { arg0 := 3 }).quiet ∧ State.reset.plat.valid = true ∧
    combo ∈ State.reset.plat.selectors ∧ combo.id = ({ arg0 := 3 } : Core).arg0.toNat ∧
    1 = (combo.discover.lookup ((bank0 { arg0 := 3 }).mmioRead combo.clkselReg)).getD combo.discoverElse ∧
    (bank0 { arg0 := 3 }).enabled[1]? = some false ∧
    ({ bank0 { arg0 := 3 } with enabled := State.reset.enabled.set 1 true }).enabled[1]? = some true :=
  ⟨rfl, reset_valid, .head _, by decide, by decide, by decide, by decide⟩

theorem witness_ReleaseUnbinds : (bank0 (idle combo 1)).quiet ∧ (idle combo 1).fsm = .idle ∧
    (idle combo 1).pllIndex = some 1 := ⟨rfl, rfl, rfl⟩

/-- Each of the three values, present and absent. -/
theorem witness_CachedValues : legalityEntry .getCached (idle combo 1).fsm = some none ∧
    (({ idle combo 1 with arg0 := 0, pllFreqOrig := some 5 } : Core).pllFreqOrig = some 5) ∧
    ({ idle combo 1 with arg0 := 1 } : Core).pllFreqMod = none ∧
    ({ idle combo 1 with arg0 := 2 } : Core).usedShift = none ∧ (bank0 (idle combo 1)).quiet :=
  ⟨by decide, rfl, rfl, rfl, rfl⟩

theorem witness_ImmediateCommands : legalityEntry .printRegisters (held combo 1 comboRegs).fsm = some none ∧
    legalityEntry .waitUntilDone (idle combo 1).fsm = some none ∧ (idle combo 1).done = true ∧
    (bank0 (idle combo 1)).quiet := ⟨by decide, by decide, rfl, rfl⟩

/-! Captures. -/

theorem witness_CaptureMmio : (wired [(0x200, 1), (0x300, 2)] (idle combo 1)).quiet ∧ (idle combo 1).fsm = .idle ∧
    (idle combo 1).captured = false ∧ (idle combo 1).slots = none ∧ (idle combo 1).sel = some combo ∧ (idle dpmn 0).sel = some dpmn ∧
    combo.layout = .combo { cfg0 := 0x200, cfg1 := 0x204 } ∧ dpmn.layout = .dpmn { m := 0x300, n := 0x304 } :=
  ⟨rfl, rfl, rfl, rfl, rfl, rfl, rfl, rfl⟩

def dklLayout : DklLayout := { div0 := 0x100, bias := 0x104, aux := Config.referenceAux }

/-- All ones in one register, and in none. -/
theorem witness_CaptureDkl : dkl.layout = .dkl dklLayout ∧ (idle dkl 3).slots = none ∧ (wired [(0x104, 0xFFFFFFFF)] (idle dkl 3)).quiet ∧
    (∃ a ∈ dklLayout.regs, (wired [(0x104, 0xFFFFFFFF)] (idle dkl 3)).mmioRead a = 0xFFFFFFFF) ∧
    ∀ a ∈ dklLayout.regs.map fun a => (bank0 (idle dkl 3)).mmioRead a != 0xFFFFFFFF, a = true :=
  ⟨rfl, rfl, rfl, ⟨0x104, .tail _ (.head _), by decide +kernel⟩, by decide +kernel⟩

/-- Whatever the banks hold, a lane of the reset state is ready. -/
theorem reset_lanesReady (c : Core) (l : Nat) (r : LaneRegs) (p : Nat) (h : State.reset.plat.laneRegs? p l = some r) :
    (bank0 c).lanesReady p [l] := by
  refine ⟨rfl, rfl, fun k hk => ⟨r, ?_⟩⟩
  cases List.mem_singleton.1 hk
  refine ⟨reset_valid, rfl, rfl, h, ?_⟩
  have h0 : (bank0 c).mmioRead r.ctl = 0 := by
    show Memory.readWord [] r.ctl = 0
    simp only [Memory.readWord, Memory.read]
    decide
  rw [h0]
  decide

theorem c10_ready (c : Core) : (bank0 c).lanesReady 0 [lowestLane 0b01] :=
  reset_lanesReady c 0 ⟨0x1000, 0x1004⟩ 0 (by decide +kernel)

theorem c20_ready (c : Core) : (bank0 c).lanesReady 1 [lowestLane 0b01] :=
  reset_lanesReady c 0 ⟨0x1010, 0x1014⟩ 1 (by decide +kernel)

theorem witness_CaptureC10 : (bank0 (idle c10 2)).quiet ∧ c10.layout = .c10 { port := 0, lanes := 0b01 } ∧
    (bank0 (idle c10 2)).lanesReady 0 [lowestLane 0b01] ∧ (idle c10 2).fsm = .idle ∧
    (idle c10 2).slots = none := ⟨rfl, rfl, c10_ready _, rfl, rfl⟩

theorem witness_CaptureC20 : (bank0 (idle c20 4)).quiet ∧ c20.layout = .c20 Config.referenceC20 ∧
    (bank0 (idle c20 4)).lanesReady 1 [lowestLane 0b01] ∧ (idle c20 4).fsm = .idle ∧
    (idle c20 4).slots = none := ⟨rfl, rfl, c20_ready _, rfl, rfl⟩

/-- The same where no PHY answers. -/
def silent (c : Core) : State := { bank0 c with phyAuto := false }

theorem silent_c10 (c : Core) : (silent c).silentLane c10 0 ⟨0x1000, 0x1004⟩ :=
  ⟨reset_valid, rfl, rfl, rfl, by decide +kernel, rfl⟩

theorem silent_c20 (c : Core) : (silent c).silentLane c20 0 ⟨0x1010, 0x1014⟩ :=
  ⟨reset_valid, rfl, rfl, rfl, by decide +kernel, rfl⟩

/-- What a failure there leaves meets what the statements ask of the state after it. -/
theorem silent_ends {α : Type} {code : Code α} {c : Core} {x : Selector} {l : Nat} {r : LaneRegs} {a : α}
    (hx : (silent c).silentLane x l r) (h : code.tries (silent c) r 3 a) (i : Option Instr) (v : Core) (hist : List Resp) :
    ∃ hist' t, code.endsIn (.seq 0 i v) hist (silent c) a hist' t ∧ t.quiet ∧ t.banks[0]? = some { core := c } := by
  obtain ⟨t, e, ht⟩ := h
  obtain ⟨hist', e'⟩ := e (.seq 0 i v) hist
  exact ⟨hist', t, e', ((hx.silent rfl).after ht).quiet, by rw [ht.keeps.2.1]; rfl⟩

/-- A capture that fails at its first read, of each bus variant; of a DKL at an anomaly. -/
theorem witness_CaptureC10_fails : (idle c10 2).sel = some c10 ∧ defaultC10SlotAddr ≠ [] ∧
    (∃ vals cache hist t, (captureV Config.reference (some c10)).endsIn (.seq 0 (some .readRegisters) (idle c10 2)) []
      (silent (idle c10 2)) (.busTimeout, vals, cache) hist t ∧ t.quiet ∧ t.banks[0]? = some { core := idle c10 2 }) ∧
    (∃ vals cache hist t, (captureV Config.reference (some c20)).endsIn (.seq 0 (some .readRegisters) (idle c20 4)) []
      (silent (idle c20 4)) (.busTimeout, vals, cache) hist t ∧ t.quiet ∧ t.banks[0]? = some { core := idle c20 4 }) ∧
    ∃ vals cache hist t, (captureV Config.reference (some dkl)).endsIn (.seq 0 (some .readRegisters) (idle dkl 3)) []
      (wired [(0x104, 0xFFFFFFFF)] (idle dkl 3)) (.hwReadAnomaly, vals, cache) hist t ∧ t.quiet ∧
      t.banks[0]? = some { core := idle dkl 3 } :=
  ⟨rfl, by decide,
    ⟨_, _, silent_ends (silent_c10 _) (Silent.captureV (silent_c10 _) rfl fun y hy => by cases hy; decide) _ _ _⟩,
    ⟨_, _, silent_ends (silent_c20 _) (Silent.captureV (silent_c20 _) rfl fun y hy => nomatch hy) _ _ _⟩,
    _, _, _, _, fun _ => rfl, rfl, rfl⟩

/-! Frequency and inverse. -/

theorem witness_FrequencyMmio : legalityEntry .getPllClock (held dkl 3 dklRegs).fsm = some none ∧
    (held dkl 3 dklRegs).sel = some dkl ∧ (held combo 1 comboRegs).sel = some combo ∧
    (held dpmn 0 dpmnRegs).sel = some dpmn ∧ ((held dkl 3 dklRegs).slots.map (·.length)) = some 3 ∧
    (bank0 (held dkl 3 dklRegs)).quiet := by
  refine ⟨by decide, rfl, rfl, rfl, by decide, rfl⟩

/-- With a fraction, and with a zero denominator. -/
theorem witness_FrequencyBus : legalityEntry .getPllClock (c20Core 1 0).fsm = some none ∧
    (c20Core 1 0).c20 = .holding ⟨.mplla, 1, 1, 0, 2812, 0, 0, 0⟩ ∧ ((c20Core 1 3).slots.map (·.length)) = some 5 ∧
    c10D {} ((held c10 2 (c10Regs 3 0)).snapshot.map (·.orig)) = 0 ∧
    c10D {} ((held c10 2 (c10Regs 3 7)).snapshot.map (·.orig)) = 7 ∧ (bank0 (c20Core 1 3)).quiet := by
  refine ⟨by decide, rfl, by decide, by decide +kernel, by decide +kernel, rfl⟩

/-- A target of 8100.0; a prediv of 1, and of 0. -/
theorem witness_FeedbackMmio : ¬ notFinite 0x40BFA40000000000 ∧ B64.le 0x40BFA40000000000 B64.zero = false ∧
    (held dkl 3 dklRegs).fsm = .captured ∧ dklLayout.div0 ≠ dklLayout.bias ∧
    (held dkl 3 dklRegs).snapshot.map (·.addr) = dklLayout.regs.map BitVec.toNat ∧
    fieldGet 0x1D2 dklLayout.predivLo 4 ≠ 0 ∧ fieldGet 0x0D2 dklLayout.predivLo 4 = 0 ∧
    (held combo 1 comboRegs).sel = some combo ∧ (held dpmn 0 dpmnRegs).sel = some dpmn ∧
    (bank0 (held dkl 3 dklRegs)).quiet := by
  refine ⟨?_, by decide +kernel, rfl, by decide, by decide +kernel, by decide +kernel, by decide +kernel, rfl, rfl, rfl⟩
  unfold notFinite
  decide

/-- C10 with d = 0 and d = 7, C20 without a fraction, with one, and with a reference divided down to 0. -/
theorem witness_FeedbackBus : ¬ notFinite 0x41107AC000000000 ∧ B64.le 0x41107AC000000000 B64.zero = false ∧
    c10D {} ((held c10 2 (c10Regs 3 0)).snapshot.map (·.mod)) = 0 ∧
    c10D {} ((held c10 2 (c10Regs 3 7)).snapshot.map (·.mod)) ≠ 0 ∧
    (c20Core 0 3).c20 = .holding ⟨.mplla, 0, 1, 0, 2812, 0, 0, 0⟩ ∧ (c20Core 1 3).c20 = .holding ⟨.mplla, 1, 1, 0, 2812, 0, 0, 0⟩ ∧
    (Config.reference.refclkC20Khz * 2 ^ (1 + 0)) / 2 ^ 0 ≠ 0 ∧ (1 * 2 ^ (1 + 0)) / 2 ^ 7 = 0 ∧
    (bank0 (held c10 2 (c10Regs 3 7))).quiet := by
  refine ⟨?_, by decide +kernel, by decide +kernel, by decide +kernel, rfl, rfl, by decide +kernel, by decide, rfl⟩
  unfold notFinite
  decide

theorem witness_InverseFieldsOnly : (bank0 (held combo 1 comboRegs)).banks[0]? = some { core := held combo 1 comboRegs } ∧
    (bank0 (held combo 1 comboRegs)).quiet ∧
    (exec .calcFeedbackDividers (bank0 { held combo 1 comboRegs with arg0 := 0x4159B27266666666 }) matches .next _) :=
  ⟨rfl, rfl, by decide +kernel⟩

/-! Programming. -/

/-- The slots of a snapshot. -/
def slotsOf (c : Core) : List Slot := c.snapshot

theorem combo_writable (c : Core) : (bank0 c).writable combo (slotsOf (held combo 1 comboRegs)) := by
  show ∀ x ∈ slotsOf (held combo 1 comboRegs), plainOffset Config.reference (BitVec.ofNat 32 x.addr) = true
  decide +kernel

theorem dpmn_writable (c : Core) : (bank0 c).writable dpmn (slotsOf (held dpmn 0 dpmnRegs)) := by
  show ∀ x ∈ slotsOf (held dpmn 0 dpmnRegs), plainOffset Config.reference (BitVec.ofNat 32 x.addr) = true
  decide +kernel

theorem c10_writable (c : Core) (ss : List Slot) : (bank0 c).writable c10 ss := c10_ready c

/-- An MMIO variant and a bus variant. -/
theorem witness_ProgramsCopy : (bank0 (held combo 1 comboRegs)).quiet ∧ (held combo 1 comboRegs).fsm = .captured ∧
    (held combo 1 comboRegs).slots = some (slotsOf (held combo 1 comboRegs)) ∧
    (bank0 (held combo 1 comboRegs)).writable combo (slotsOf (held combo 1 comboRegs)) ∧
    (held c10 2 (c10Regs 0 1)).sel = some c10 ∧
    (bank0 (held c10 2 (c10Regs 0 1))).writable c10 (slotsOf (held c10 2 (c10Regs 0 1))) :=
  ⟨rfl, rfl, rfl, combo_writable _, rfl, c10_writable _ _⟩

/-- Hardware that holds the words already: an MMIO word, a C10 register, an SRAM word. -/
theorem witness_ProgramsCopy_held : (bank0 {}).StoresWf ∧ (bank0 {}).settled c10 ∧ (bank0 {}).settled c20 ∧
    (bank0 {}).holdsWords combo [(0x200, 0)] ∧ (bank0 {}).holdsWords c10 [(0xC05, 0)] ∧
    (bank0 {}).holdsWords c20 [(0x100, 0)] := by
  refine ⟨⟨rfl, rfl, rfl⟩, fun _ _ _ h => (nomatch h), ?_, ?_, ?_, ?_⟩
  · show windowDistinct _
    unfold windowDistinct
    decide +kernel
  · intro w hw
    cases List.mem_singleton.1 hw
    decide +kernel
  · intro l _ w hw
    cases List.mem_singleton.1 hw
    rfl
  · intro l _ w hw
    cases List.mem_singleton.1 hw
    show joinBytes 0 0 = 0
    decide

/-- A programming and a restore that fail at their first write. -/
theorem witness_ProgramsCopy_fails : (held c10 2 (c10Regs 0 1)).sel = some c10 ∧ (c20Core 1 3).sel = some c20 ∧
    slotsOf (held c10 2 (c10Regs 0 1)) ≠ [] ∧ slotsOf (c20Core 1 3) ≠ [] ∧ ∀ (i : Option Instr) (v : Core) (hist : List Resp) (m : Bool),
    (∃ hist' t, (writeV Config.reference (some c10) (addressed (slotsOf (held c10 2 (c10Regs 0 1)))
        (copyOf m (slotsOf (held c10 2 (c10Regs 0 1)))))).endsIn (.seq 0 i v) hist (silent (held c10 2 (c10Regs 0 1)))
        .busTimeout hist' t ∧ t.quiet ∧ t.banks[0]? = some { core := held c10 2 (c10Regs 0 1) }) ∧
    ∃ hist' t, (writeV Config.reference (some c20) (addressed (slotsOf (c20Core 1 3)) (copyOf m (slotsOf (c20Core 1 3))))).endsIn
      (.seq 0 i v) hist (silent (c20Core 1 3)) .busTimeout hist' t ∧ t.quiet ∧ t.banks[0]? = some { core := c20Core 1 3 } :=
  ⟨rfl, rfl, by decide +kernel, by decide +kernel, fun i v hist m =>
    ⟨silent_ends (silent_c10 _) (Silent.writeV (silent_c10 _) rfl (by cases m <;> decide +kernel)) i v hist,
      silent_ends (silent_c20 _) (Silent.writeV (silent_c20 _) rfl (by cases m <;> decide +kernel)) i v hist⟩⟩

theorem witness_DpmnWritesOnlyM : (bank0 (held dpmn 0 dpmnRegs)).quiet ∧ dpmn.layout = .dpmn { m := 0x300, n := 0x304 } ∧
    (held dpmn 0 dpmnRegs).slots = some [⟨0x300, 100, 100, true⟩, ⟨0x304, 0x8000, 0x8000, true⟩] ∧
    plainOffset State.reset.plat 0x300 = true ∧ (bank0 (held dpmn 0 dpmnRegs)).mmio.wf = true :=
  ⟨rfl, rfl, rfl, by decide +kernel, rfl⟩

/-! PROGRAM_PHY and SET_PLL_CLOCK. The DP M/N instance stands at 100.0; 102.0 by 1.0 percent takes two steps of 1.0,
101.0 one. -/

/-- A DP M/N instance with operands. -/
def nudge (a0 a1 a3 : BitVec 64) : Core := { held dpmn 0 dpmnRegs with arg0 := a0, arg1 := a1, arg3 := a3 }

/-- What every such instance meets. -/
def Standing (c : Core) : Prop :=
  c.fsm = .captured ∧ c.sel = some dpmn ∧ c.slots = some (slotsOf (held dpmn 0 dpmnRegs)) ∧
    c.pllClock Config.reference = (.ok, 0x4059000000000000) ∧ B64.le 0x4059000000000000 B64.zero = false ∧
    (bank0 c).quiet ∧ (bank0 c).banks[(bank0 c).cur]? = some { core := c }

theorem nudge_standing (a0 a1 a3 : BitVec 64) : Standing (nudge a0 a1 a3) :=
  ⟨rfl, rfl, rfl, (by decide +kernel : (held dpmn 0 dpmnRegs).pllClock Config.reference = (.ok, 0x4059000000000000)),
    by decide +kernel, rfl, rfl⟩

theorem notFinite_iff (x : BitVec 64) : notFinite x ↔ (x.toNat / 2 ^ 52) % 2 ^ 11 = 0x7FF := Iff.rfl

/-- Without COMMIT; with a duration of 0 (95_test_vectors.md PP-5); and with a present frequency of 0. -/
theorem witness_ProgramPhyGated : Standing (nudge 0x3FF0000000000000 0x3F847AE147AE147B 0) ∧
    ¬ notFinite 0x3FF0000000000000 ∧ ¬ notFinite 0x3F847AE147AE147B ∧ ¬ notFinite 0 ∧
    (held dpmn 0 dpmnRegs).pllClock Config.reference = (.ok, 0x4059000000000000) ∧
    B64.clampTo .floor (2 ^ 32 - 1) (B64.div (B64.mul (B64.abs 0x3EE4F8B588E368F1) (B64.ofNat 100)) 0x3F847AE147AE147B)
      = 0 ∧
    (held dpmn 0 [(0x300, 0), (0x304, 1)]).pllClock Config.reference = (.ok, 0) := by
  simp only [notFinite_iff]
  refine ⟨nudge_standing _ _ _, ?_⟩
  decide +kernel

/-- 1 second, 1 percent: 100 milliseconds, down to 99.0 in one step. -/
theorem witness_ProgramPhyCommitted : Standing (nudge 0x3FF0000000000000 0x3FF0000000000000 0) ∧
    (bank0 (nudge 0x3FF0000000000000 0x3FF0000000000000 0)).shutdown = false ∧ ¬ notFinite 0x3FF0000000000000 ∧
    (bank0 (nudge 0x3FF0000000000000 0x3FF0000000000000 0)).writable dpmn (slotsOf (held dpmn 0 dpmnRegs)) ∧
    B64.eq 0x3FF0000000000000 B64.zero = false ∧
    0 < B64.clampTo .floor (2 ^ 32 - 1) (B64.div (B64.mul (B64.abs 0x3FF0000000000000) (B64.ofNat 100)) 0x3FF0000000000000) ∧
    B64.add 0x4059000000000000 (B64.mul (B64.div (B64.mul 0x3FF0000000000000 0x4059000000000000) (B64.ofNat 100))
      (B64.neg (B64.ofNat 1))) = 0x4058C00000000000 ∧
    stepPlan 0x4059000000000000 0x4058C00000000000 0x3FF0000000000000 1 0xBFF0000000000000 ∧
    stepCopies Config.reference (some dpmn) none [100, 0x8000]
      (stepTargets 0x4058C00000000000 0xBFF0000000000000 0x4059000000000000 1) = some [[99, 0x8000]] := by
  refine ⟨nudge_standing _ _ _, rfl, ?_, dpmn_writable _, by decide +kernel, by decide +kernel, by decide +kernel,
    .inl (by decide +kernel), by decide +kernel⟩
  simp only [notFinite_iff]
  decide +kernel

/-- One step and two steps. -/
theorem stepPlan_examples : stepPlan 0x4059000000000000 0x4059400000000000 0x3FF0000000000000 1 0x3FF0000000000000 ∧
    stepPlan 0x4059000000000000 0x4059800000000000 0x3FF0000000000000 2 0x3FF0000000000000 :=
  ⟨.inl (by decide +kernel), .inr (by decide +kernel)⟩

theorem witness_SetPllClockSteps : Standing (nudge 0x4059800000000000 0x3FF0000000000000 0) ∧
    ¬ notFinite 0x4059800000000000 ∧ ¬ notFinite 0x3FF0000000000000 ∧ B64.le 0x4059800000000000 B64.zero = false ∧
    (bank0 (nudge 0x4059800000000000 0x3FF0000000000000 0)).shutdown = false ∧
    (bank0 (nudge 0x4059800000000000 0x3FF0000000000000 0)).writable dpmn (slotsOf (held dpmn 0 dpmnRegs)) ∧
    B64.lt 0x3FF0000000000000 B64.zero = false ∧
    stepPlan 0x4059000000000000 0x4059800000000000 0x3FF0000000000000 2 0x3FF0000000000000 ∧
    stepCopies Config.reference (some dpmn) none [100, 0x8000]
      (stepTargets 0x4059800000000000 0x3FF0000000000000 0x4059000000000000 2) = some [[101, 0x8000], [102, 0x8000]] := by
  simp only [notFinite_iff]
  exact ⟨nudge_standing _ _ _, by decide +kernel, by decide +kernel, by decide +kernel, rfl, dpmn_writable _,
    by decide +kernel, stepPlan_examples.2, by decide +kernel⟩

theorem witness_SetPllClockUncommitted : Standing (nudge 0x4059400000000000 0x3FF0000000000000 0) ∧
    ¬ notFinite 0x4059400000000000 ∧ ¬ notFinite 0x3FF0000000000000 ∧ B64.le 0x4059400000000000 B64.zero = false ∧
    B64.lt 0x3FF0000000000000 B64.zero = false ∧
    stepPlan 0x4059000000000000 0x4059400000000000 0x3FF0000000000000 1 0x3FF0000000000000 ∧
    stepCopies Config.reference (some dpmn) none [100, 0x8000]
      (stepTargets 0x4059400000000000 0x3FF0000000000000 0x4059000000000000 1) = some [[101, 0x8000]] := by
  simp only [notFinite_iff]
  exact ⟨nudge_standing _ _ _, by decide +kernel, by decide +kernel, by decide +kernel, by decide +kernel,
    stepPlan_examples.1, by decide +kernel⟩

theorem finite_operands : ¬ notFinite 0x4059800000000000 ∧ ¬ notFinite 0x405A400000000000 ∧ ¬ notFinite 0x3FF0000000000000 ∧
    ¬ notFinite 0x3F5E4F765FD8ADAC ∧ ¬ notFinite 0 := by
  simp only [notFinite_iff]
  decide +kernel

/-- SET_PLL_CLOCK of such an instance starts a stepping, to 102.0 and to 105.0. -/
theorem nudge_setStepping (commit : Bool) (t : B64) (ht : t = 0x4059800000000000 ∨ t = 0x405A400000000000) :
    (nudge t 0x3FF0000000000000 0).steps Config.reference (.setPllClock commit)
      ((nudge t 0x3FF0000000000000 0).setStepping commit 0x4059000000000000) := by
  have h : ¬ notFinite t ∧ B64.le t B64.zero = false := by
    rcases ht with rfl | rfl
    · exact ⟨finite_operands.1, by decide +kernel⟩
    · exact ⟨finite_operands.2.1, by decide +kernel⟩
  exact ⟨.inl rfl, h.1, finite_operands.2.2.1, (nudge_standing t _ _).2.2.2.1,
    (by decide +kernel : B64.le 0x4059000000000000 B64.zero = false), h.2,
    .inl ⟨commit, rfl, (by decide +kernel : B64.lt 0x3FF0000000000000 B64.zero = false), rfl⟩⟩

/-- PROGRAM_PHY with COMMIT starts one: 1 second by 0.00185 percent is 54054 milliseconds, and the rounding of the
percent difference to 4 decimals makes it two steps. -/
theorem nudge_nudgeStepping (reset : Bool) :
    (nudge 0x3FF0000000000000 0x3F5E4F765FD8ADAC 0).steps Config.reference (.programPhy true reset)
      ((nudge 0x3FF0000000000000 0x3F5E4F765FD8ADAC 0).nudgeStepping 0x4059000000000000 0x3F5E4F765FD8ADAC 54054) :=
  ⟨.inl rfl, finite_operands.2.2.1, finite_operands.2.2.2.1, (nudge_standing _ _ _).2.2.2.1, by decide +kernel,
    by decide +kernel, .inr ⟨reset, 0x3F5E4F765FD8ADAC, 54054, rfl, finite_operands.2.2.2.2, by decide +kernel,
      by decide +kernel, by decide +kernel, by decide, rfl⟩⟩

/-- The operands of both under shutdown. -/
theorem witness_SetPllClockCancelled : Standing (nudge 0x4059800000000000 0x3FF0000000000000 0) ∧
    Standing (nudge 0x3FF0000000000000 0x3F5E4F765FD8ADAC 0) ∧
    ({ bank0 (nudge 0x4059800000000000 0x3FF0000000000000 0) with shutdown := true }).shutdown = true ∧
    ({ bank0 (nudge 0x4059800000000000 0x3FF0000000000000 0) with shutdown := true }).writable dpmn
      (slotsOf (held dpmn 0 dpmnRegs)) ∧
    stepPlan 0x4059000000000000 0x4059800000000000 0x3FF0000000000000 2 0x3FF0000000000000 ∧
    stepPlan 0x4059000000000000 0x4058FFE1B089A027 0x3F5E4F765FD8ADAC 2 0xBF4E4F765FD90000 :=
  ⟨nudge_standing _ _ _, nudge_standing _ _ _, rfl, dpmn_writable (nudge 0x4059800000000000 0x3FF0000000000000 0),
    stepPlan_examples.2, .inr (by decide +kernel)⟩

/-- Five steps of 1.0, and `shutdown` rises during the second, just after its sample or just before the next:
with COMMIT a step makes six atomic steps, without it four. Of the two steps of the PROGRAM_PHY it rises during the
first. -/
theorem witness_SetPllClockCancelled_later : Standing (nudge 0x405A400000000000 0x3FF0000000000000 0) ∧
    stepPlan 0x4059000000000000 0x405A400000000000 0x3FF0000000000000 5 0x3FF0000000000000 ∧ onMmio dpmn = true ∧
    3 + (invPuts Config.reference (some dpmn) none [100, 0x8000] 0x405A400000000000).2.length +
      ((slotWrites dpmn (slotsOf (held dpmn 0 dpmnRegs)) [100, 0x8000]).length + 1) = 6 ∧
    0 + 10 + (2 - 1) * 6 < 17 ∧ 22 ≤ 0 + 10 + 2 * 6 ∧ 0 + 10 + (2 - 1) * 4 < 15 ∧ 18 ≤ 0 + 10 + 2 * 4 ∧
    9 + 10 + (1 - 1) * 6 < 20 ∧ 25 ≤ 9 + 10 + 1 * 6 ∧
    stepCopies Config.reference (some dpmn) none [100, 0x8000]
      ((stepTargets 0x405A400000000000 0x3FF0000000000000 0x4059000000000000 5).take 2) =
        some [[101, 0x8000], [102, 0x8000]] ∧
    (stepTargets 0x405A400000000000 0x3FF0000000000000 0x4059000000000000 5)[1]? = some 0x4059800000000000 ∧
    stepCopies Config.reference (some dpmn) none [100, 0x8000]
      ((stepTargets 0x4058FFE1B089A027 0xBF4E4F765FD90000 0x4059000000000000 2).take 1) = some [[99, 0x8000]] ∧
    (stepTargets 0x4058FFE1B089A027 0xBF4E4F765FD90000 0x4059000000000000 2)[0]? = some 0x4058FFF0D844D014 :=
  ⟨nudge_standing _ _ _, .inr (by decide +kernel), by decide +kernel⟩

/-- A C20 snapshot whose fraction is disabled has a frequency but no inverse: SET_PLL_CLOCK to 2699521.0, and
PROGRAM_PHY of 1 second by 1.0 percent. -/
theorem witness_SetPllClockStepFails : (bank0 (c20Core 0 3)).quiet ∧ (c20Core 0 3).fsm = .captured ∧
    (c20Core 0 3).pllClock Config.reference = (.ok, B64.ofNat 2699520) ∧
    invV Config.reference (c20Core 0 3).sel (c20Core 0 3).c20.cache? ((c20Core 0 3).snapshot.map (·.mod)) (B64.ofNat 2699521) =
      (.dividerError, [0xAFC, 1, 16384, 0, 3]) ∧
    invV Config.reference (c20Core 0 3).sel (c20Core 0 3).c20.cache? ((c20Core 0 3).snapshot.map (·.mod)) 0x414463C666666666 =
      (.dividerError, [0xAFC, 1, 16384, 0, 3]) ∧
    stepPlan (B64.ofNat 2699520) (B64.ofNat 2699521) 0x3FF0000000000000 1 0x3FF0000000000000 ∧
    stepPlan (B64.ofNat 2699520) 0x414463C666666666 0x3FF0000000000000 1 0xC0DA5CCCCCCCCD00 ∧
    (({ c20Core 0 3 with arg0 := 0x3FF0000000000000, arg1 := 0x3FF0000000000000 } : Core).steps Config.reference
      (.programPhy true true) (({ c20Core 0 3 with arg0 := 0x3FF0000000000000, arg1 := 0x3FF0000000000000 } : Core).nudgeStepping
        (B64.ofNat 2699520) 0x3FF0000000000000 100)) :=
  ⟨rfl, rfl, by decide +kernel, by decide +kernel, by decide +kernel, .inl (by decide +kernel),
    .inl (by decide +kernel), .inl rfl, finite_operands.2.2.1, finite_operands.2.2.1,
    (by decide +kernel : (c20Core 0 3).pllClock Config.reference = (.ok, B64.ofNat 2699520)), by decide +kernel,
    by decide +kernel, .inr ⟨true, 0x3FF0000000000000, 100, rfl, finite_operands.2.2.2.2, by decide +kernel,
      by decide +kernel, by decide +kernel, by decide, rfl⟩⟩

/-- A C10 layout whose d and q are one field: the first of two steps saturates it to 0, and the second divides by
it. -/
def shared : Selector := ⟨5, 0x408, 0, [], 2, .c10 { port := 0, lanes := 0b01, fields := { dLo := 11, dHi := 12 } }⟩
def sharedRegs : List (Nat × Word) :=
  List.zip ((List.range 20).map (· + 0xC00)) [0, 0, 0x8C, 0, 0, 0, 0, 0, 0, 0, 0, 7, 0, 0, 0, 0, 0, 0, 0, 0]

theorem witness_SetPllClockStepFails_later : (held shared 2 sharedRegs).pllClock Config.reference = (.ok, 0x4120680000000000) ∧
    (bank0 (held shared 2 sharedRegs)).writable shared (slotsOf (held shared 2 sharedRegs)) ∧
    stepPlan 0x4120680000000000 (B64.ofNat 526848) 0x3FF0000000000000 2 (B64.neg (B64.ofNat 5376)) ∧
    stepTargets (B64.ofNat 526848) (B64.neg (B64.ofNat 5376)) 0x4120680000000000 2 = [B64.ofNat 532224, B64.ofNat 526848] ∧
    invV Config.reference (some shared) none (sharedRegs.map (·.2)) (B64.ofNat 532224) =
      (.ok, (sharedRegs.map (·.2)).set 11 0) ∧
    invV Config.reference (some shared) none ((sharedRegs.map (·.2)).set 11 0) (B64.ofNat 526848) =
      (.dividerError, (sharedRegs.map (·.2)).set 11 0) :=
  ⟨by decide +kernel, c10_ready _, .inr (by decide +kernel), by decide +kernel, by decide +kernel, by decide +kernel⟩

/-- A C20 snapshot that has an inverse, on a lane whose PHY does not answer. -/
theorem witness_SetPllClockStepFails_silent : (silent (c20Core 1 3)).silentLane c20 0 ⟨0x1010, 0x1014⟩ ∧
    (c20Core 1 3).fsm = .captured ∧ (c20Core 1 3).slots.map (·.length) = some 5 ∧
    (c20Core 1 3).pllClock Config.reference = (.ok, 0x4144997000000000) ∧ B64.le 0x4144997000000000 B64.zero = false ∧
    stepPlan 0x4144997000000000 (B64.ofNat 2710000) 0x3FF0000000000000 1 (B64.ofNat 10000) ∧
    (invV Config.reference (c20Core 1 3).sel (c20Core 1 3).c20.cache? ((c20Core 1 3).snapshot.map (·.mod)) (B64.ofNat 2710000)).1 =
      .ok :=
  ⟨silent_c20 _, rfl, by decide +kernel, by decide +kernel, by decide +kernel, .inl (by decide +kernel), by decide +kernel⟩

/-- The step under way there, the last of its stepping or not, at its start and at its commit. -/
theorem witness_SetPllClockStepFails_anyStep : ({ c20Core 1 3 with fsm := .stepping } : Core).slots =
      some (withMods (slotsOf (c20Core 1 3)) ((slotsOf (c20Core 1 3)).map (·.mod))) ∧
    (silent { c20Core 1 3 with fsm := .stepping }).silentLane c20 0 ⟨0x1010, 0x1014⟩ ∧
    (invV Config.reference (some c20) (c20Core 1 3).c20.cache? ((slotsOf (c20Core 1 3)).map (·.mod))
      (B64.add (B64.ofNat 2700000) (B64.ofNat 5000))).1 = .ok ∧
    ∀ (i : Option Instr) (v : Core) (hist : List Resp), ∃ hist' t,
      (writeV Config.reference (c20Core 1 3).sel (addressed (c20Core 1 3).snapshot (copyOf true (c20Core 1 3).snapshot))).endsIn
        (.seq 0 i v) hist (silent { c20Core 1 3 with fsm := .stepping }) .busTimeout hist' t ∧ t.quiet ∧
      t.banks[0]? = some { core := { c20Core 1 3 with fsm := .stepping } } :=
  ⟨by decide +kernel, silent_c20 _, by decide +kernel, fun i v hist =>
    silent_ends (silent_c20 _) (Silent.writeV (silent_c20 _) rfl (by decide +kernel)) i v hist⟩

/-! Rollback. -/

theorem witness_RollbackDirect : (bank0 (held combo 1 comboRegs)).quiet ∧ (held combo 1 comboRegs).fsm = .captured ∧
    (bank0 (held combo 1 comboRegs)).writable combo (slotsOf (held combo 1 comboRegs)) ∧
    (held c10 2 (c10Regs 0 1)).fsm = .captured ∧
    (bank0 (held c10 2 (c10Regs 0 1))).writable c10 (slotsOf (held c10 2 (c10Regs 0 1))) :=
  ⟨rfl, rfl, combo_writable _, rfl, c10_writable _ _⟩

/-- Without and with shutdown. -/
theorem witness_RestoreForced : (bank0 (armed combo 1 comboRegs)).quiet ∧ (armed combo 1 comboRegs).armed = true ∧
    (armed combo 1 comboRegs).fsm = .armedForRollback ∧ (armed combo 1 comboRegs).done = false ∧
    (armed combo 1 comboRegs).slots = some (slotsOf (held combo 1 comboRegs)) ∧
    (armed combo 1 comboRegs).pllIndex = some 1 ∧
    (bank0 (armed combo 1 comboRegs)).writable combo (slotsOf (held combo 1 comboRegs)) ∧
    ({ bank0 (armed combo 1 comboRegs) with shutdown := true }).shutdown = true :=
  ⟨rfl, rfl, rfl, rfl, rfl, rfl, combo_writable _, rfl⟩

/-- An instance in ROLLING_BACK with a rollback path under way and a command that polls, or none. -/
def restoring (c : Core) (i : Option Instr) : State :=
  { State.reset with
    banks := [{ core := c, seq := i.map fun j => ⟨some j, c, [.flag false, .flag false]⟩, path := some [] }, {}]
    inputs := [.agentSeq 0] }

/-- The registers of such an instance. -/
def rolling : Core := { armed combo 1 comboRegs with fsm := .rollingBack, armed := false, deadline := none }

theorem witness_WaitsForRestore : (restoring rolling none).quiet ∧ rolling.done = false ∧ rolling.armed = false ∧
    rolling.fsm = .rollingBack ∧ legalityEntry .waitUntilDone rolling.fsm = some none ∧
    (restoring rolling none).shutdown = false ∧
    (restoring rolling (some .rollback)).banks[0]? =
      some { core := rolling, seq := some ⟨some .rollback, rolling, [.flag false, .flag false]⟩, path := some [] } ∧
    (restoring { rolling with done := true } (some .waitUntilDone)).inputs = .agentSeq 0 :: [] :=
  ⟨rfl, rfl, rfl, rfl, by decide, rfl, rfl, rfl⟩

/-- A duration of 1 and of 0; armed, and not. -/
theorem witness_TimerArmAndCancel : (bank0 { dp := { tms := some 1 } }).banks[0]? = some { core := { dp := { tms := some 1 } } } ∧
    (1 : BitVec 32) ≠ 0 ∧ ({ dp := { tms := some 0 } } : Core).dp.tms = some 0 ∧
    (armed combo 1 comboRegs).armed = true ∧ (held combo 1 comboRegs).armed = false := ⟨rfl, by decide, rfl, rfl, rfl⟩

/-- At the deadline, and one microsecond before it; with no path, and with one that has lost. -/
theorem witness_TimerFires : (armed combo 1 comboRegs).deadline = some 10000000 ∧
    10000000 ≤ ({ bank0 (armed combo 1 comboRegs) with now := 10000000 }).now ∧
    ({ bank0 (armed combo 1 comboRegs) with now := 9999999 }).now < 10000000 ∧
    (none : Option (List Resp)) ≠ some [] ∧ some [Resp.flag false, Resp.flag false] ≠ some [] := by decide +kernel

/-- An instance whose timer has fired, at a time and with a PHY that answers or not. -/
def fired (c : Core) (now : Time) (auto : Bool) : State :=
  { State.reset with banks := [{ core := c, path := some [] }, {}], now := now, phyAuto := auto }

/-- The registers of a C10 instance with a rollback pending. -/
def armedC10 : Core := armed c10 2 (c10Regs 0 1)

/-- A path at the deadline, on each kind of hardware; one that lost it to a restore that is done; and one that
comes before the deadline of a later arming. -/
theorem witness_RollbackPathRestores : (fired (armed combo 1 comboRegs) 10000000 true).writable combo
      (slotsOf (held combo 1 comboRegs)) ∧ onMmio combo = true ∧ onMmio c10 = false ∧
    (fired armedC10 10000000 true).writable c10 (slotsOf armedC10) ∧ slotsOf armedC10 ≠ [] ∧
    (fired armedC10 10000000 false).silentLane c10 0 ⟨0x1000, 0x1004⟩ ∧
    armedC10.deadline = some 10000000 ∧ (fired armedC10 9999999 true).now < 10000000 ∧ armedC10.done = false ∧
    (restoring { rolling with done := true } none).banks[0]? =
      some { core := { rolling with done := true }, path := some [] } :=
  ⟨combo_writable {}, rfl, rfl, c10_ready {}, by decide +kernel,
    ⟨reset_valid, rfl, rfl, rfl, by decide +kernel, by decide +kernel⟩, rfl, by decide, rfl, rfl⟩

/-! The message bus. -/

/-- The bit clear, and set. -/
theorem witness_WaitClearEnds : legalityEntry .mbWaitClear ({} : Core).fsm = some none ∧
    ¬ badOperand Config.reference .mbWaitClear { arg0 := 0x1000, arg1 := 0x80000000, arg2 := 1000 } ∧
    (bank0 {}).mmioRead 0x1000 &&& 0x80000000 = 0 ∧
    (wired [(0x1000, 0x80000000)] {}).mmioRead 0x1000 &&& 0x80000000 ≠ 0 ∧ (wired [(0x1000, 0x80000000)] {}).quiet := by
  refine ⟨by decide, ?_, by decide +kernel, by decide +kernel, rfl⟩
  unfold badOperand
  decide +kernel

/-- Every lane of port 0 of the reset state is ready. -/
theorem port0_ready (c : Core) : (bank0 c).lanesReady 0 [0, 1] := by
  refine ⟨rfl, rfl, fun l hl => ?_⟩
  rcases List.mem_cons.1 hl with rfl | hl
  · exact (reset_lanesReady c 0 ⟨0x1000, 0x1004⟩ 0 (by decide +kernel)).2.2 0 (.head _)
  · cases List.mem_singleton.1 hl
    exact (reset_lanesReady c 1 ⟨0x1008, 0x100C⟩ 0 (by decide +kernel)).2.2 1 (.head _)

/-- Lane 0 alone, lane 1 alone, and both. -/
theorem witness_BusReads : legalityEntry (.mbRead 0 0b01) ({} : Core).fsm = some none ∧
    ¬ badOperand Config.reference (.mbRead 0 0b01) { arg0 := 0xFFF } ∧
    (bank0 { arg0 := 0xFFF }).lanesReady 0 [0] ∧ (bank0 { arg0 := 0xFFF }).lanesReady 0 [1] ∧
    (bank0 {}).quiet := by
  refine ⟨by decide, ?_, reset_lanesReady _ 0 ⟨0x1000, 0x1004⟩ 0 (by decide +kernel),
    reset_lanesReady _ 1 ⟨0x1008, 0x100C⟩ 0 (by decide +kernel), rfl⟩
  unfold badOperand
  decide +kernel

theorem witness_BusWrites : legalityEntry (.mbWrite 0 0b11 true) ({} : Core).fsm = some none ∧
    ¬ badOperand Config.reference (.mbWrite 0 0b11 true) { arg0 := 0xFFF, arg1 := 0xFF } ∧
    [0, 1].filter (fun l => (0b11 : BitVec 2).getLsbD l) = [0, 1] ∧
    (bank0 { arg0 := 0xFFF, arg1 := 0xFF }).lanesReady 0 [0, 1] := by
  refine ⟨by decide, ?_, by decide, port0_ready _⟩
  unfold badOperand
  decide +kernel

theorem witness_BusReadModifyWrites : legalityEntry (.mbRmw 0 0b11 true) ({} : Core).fsm = some none ∧
    ¬ badOperand Config.reference (.mbRmw 0 0b11 true) { arg0 := 0xFFF, arg1 := 0xFF, arg2 := 0xFF } ∧
    (bank0 { arg0 := 0xFFF, arg1 := 0xFF, arg2 := 0xFF }).lanesReady 0 [0, 1] := by
  refine ⟨by decide, ?_, port0_ready _⟩
  unfold badOperand
  decide +kernel

theorem witness_BusResets : legalityEntry (.mbReset 0 0b11) ({} : Core).fsm = some none ∧
    ¬ badOperand Config.reference (.mbReset 0 0b11) {} ∧ (bank0 {}).mmio.wf = true ∧ (bank0 {}).phyAuto = true ∧
    ({ bank0 {} with phyAuto := false }).phyAuto = false ∧ State.reset.plat.valid = true := by
  refine ⟨by decide, ?_, rfl, rfl, rfl, reset_valid⟩
  unfold badOperand
  decide +kernel

theorem witness_SramCommands : legalityEntry (.sramWrite 0 0b11) ({} : Core).fsm = some none ∧
    ¬ badOperand Config.reference (.sramRead 0 0b11) { arg0 := 0xFFFF, arg1 := 0xFFFF } ∧
    ¬ badOperand Config.reference (.sramWrite 0 0b11) { arg0 := 0xFFFF, arg1 := 0xFFFF } ∧
    (bank0 { arg0 := 0xFFFF, arg1 := 0xFFFF }).lanesReady 0 [0, 1] ∧
    (bank0 { arg0 := 0xFFFF, arg1 := 0xFFFF }).lanesReady 0 [0] := by
  refine ⟨by decide, ?_, ?_, port0_ready _, reset_lanesReady _ 0 ⟨0x1000, 0x1004⟩ 0 (by decide +kernel)⟩ <;>
    unfold badOperand <;> decide +kernel

theorem witness_SramWindow : windowDistinct State.reset.plat.c20Window ∧ State.reset.phy.wf = true ∧
    State.reset.sram.wf = true ∧ (∀ y, (0, 1, y) ∉ State.reset.uncommitted) ∧
    (0 : Byte) = State.reset.phyReg 0 1 State.reset.plat.c20Window.wrDataL := by
  refine ⟨?_, rfl, rfl, fun _ h => (nomatch h), rfl⟩
  unfold windowDistinct
  decide +kernel

theorem witness_WireWordsAct : State.reset.plat.laneRegs? State.reset.busPort State.reset.busLane = some ⟨0x1000, 0x1004⟩ :=
  rfl

/-- Lane 1 of port 3, and both of its lanes, with a PHY that does not answer. -/
theorem witness_SilentPhyTimesOut : (silent {}).quiet ∧ State.reset.plat.laneRegs? 3 1 = some ⟨0x1038, 0x103C⟩ ∧
    State.reset.plat.laneRegs? 3 0 = some ⟨0x1030, 0x1034⟩ ∧ (silent {}).mmio.wf = true ∧
    (∀ lanes ∈ [0b10#2, 0b11#2], ∀ i ∈ [Instr.mbRead 3 lanes, .mbReadOnce 3 lanes, .mbWrite 3 lanes true,
      .mbWriteOnce 3 lanes false, .mbRmw 3 lanes true, .sramRead 3 lanes, .sramWrite 3 lanes],
        legalityEntry i ({} : Core).fsm = some none ∧ operandsOk Config.reference i {} = true) ∧
    ¬ badOperand Config.reference (.sramWrite 3 0b11) {} ∧ ¬ badOperand Config.reference (.mbRmw 3 0b11 true) {} := by
  refine ⟨rfl, rfl, rfl, rfl, by decide +kernel, ?_, ?_⟩ <;> unfold badOperand <;> decide +kernel

/-- ERROR set, and the type of the other transaction: three bad answers each to a read and to a committed write, and
two to an uncommitted one. -/
theorem witness_BadAnswersRetried : (∀ v ∈ ([0xA0A58000, 0xA8000000, 0x80000000] : List Word), badAck 4 v) ∧
    (∀ v ∈ ([0xA8008000, 0xA0000000, 0x80000000] : List Word), badAck 5 v) ∧ (∀ v ∈ ([0x00008000, 0xA0008000] : List Word), wireBit15 v = true) ∧
    ({ bank0 { arg0 := 0xC0B, arg1 := 0x5A } with sched := badAnswers 0x1004 4 [0x00008000] }).lanesReady 0 [0] ∧
    legalityEntry (.mbRead 0 0b01) ({} : Core).fsm = some none ∧ legalityEntry (.mbWrite 0 0b01 true) ({} : Core).fsm = some none ∧
    ¬ badOperand Config.reference (.mbRead 0 0b01) { arg0 := 0xC0B } ∧
    ¬ badOperand Config.reference (.mbWrite 0 0b01 true) { arg0 := 0xC0B, arg1 := 0x5A } ∧
    State.reset.plat.laneRegs? 0 0 = some ⟨0x1000, 0x1004⟩ ∧ State.reset.phy.wf = true ∧ State.reset.sram.wf = true ∧
    windowDistinct State.reset.plat.c20Window := by
  have h := reset_lanesReady { arg0 := 0xC0B, arg1 := 0x5A } 0 ⟨0x1000, 0x1004⟩ 0 (by decide +kernel)
  refine ⟨?_, ?_, ?_, ⟨h.1, h.2.1, fun l hl => ?_⟩, by decide, by decide, ?_, ?_, rfl, rfl, rfl, witness_SramWindow.1⟩
  · intro v hv; unfold badAck; fin_cases hv <;> decide
  · intro v hv; unfold badAck; fin_cases hv <;> decide
  · intro v hv; fin_cases hv <;> decide
  · obtain ⟨r, h1, h2, h3, h4, h5⟩ := h.2.2 l hl
    exact ⟨r, h1, h2, h3, h4, h5⟩
  all_goals unfold badOperand; decide +kernel

end Sys2Proof.Tests
end

section
/-! What one atomic action of an agent does to the banks and to the ownership table, said once
(70_reset_and_hazards.md R433); what is stated of 10_state.md below is read off it. -/

namespace Sys2Proof.Machine

variable {s t : State} {n m k : Nat} {c : Core}

/-! ### Registers of one bank -/

/-- Of a change of the registers only what it makes of those that are there matters. -/
theorem State.modifyCore_congr {f g : Core → Core} (h : ∀ c, s.core? n = some c → f c = g c) :
    s.modifyCore n f = s.modifyCore n g := by
  cases hb : s.banks[n]? with
  | none =>
    have hn : s.banks.length ≤ n := List.getElem?_eq_none_iff.1 hb
    simp only [State.modifyCore, State.modifyBank, List.modify_eq_self hn]
  | some b => rw [State.modifyCore_of_bank hb, State.modifyCore_of_bank hb, h _ (State.core?_of_bank hb)]

theorem State.modifyCore_eq_self {f : Core → Core} (h : ∀ c, s.core? n = some c → f c = c) :
    s.modifyCore n f = s := by
  rw [State.modifyCore_congr (g := id) h]
  unfold State.modifyCore State.modifyBank
  rw [show (fun b : Bank => { b with core := id b.core }) = id from rfl, List.modify_id]

theorem State.core?_modifyBank (f : Bank → Bank) :
    (s.modifyBank n f).core? m = if n = m then (s.banks[m]?).map fun b => (f b).core else s.core? m := by
  rw [State.core?_eq, State.modifyBank_banks, List.getElem?_modify]
  split
  · rw [Option.map_eq_map, Option.map_map]; rfl
  · simp [State.core?_eq]

theorem State.core?_modifyCore (f : Core → Core) :
    (s.modifyCore n f).core? m = if n = m then (s.core? m).map f else s.core? m := by
  rw [State.modifyCore, State.core?_modifyBank]
  split
  · rw [State.core?_eq, Option.map_map]; rfl
  · rfl

/-- The registers of a bank depend on the banks only. -/
theorem State.core?_congr (h : t.banks = s.banks) (m : Nat) : t.core? m = s.core? m := by
  rw [State.core?_eq, State.core?_eq, h]

/-! ### The claim, the release and the test-and-clear -/

/-- A bank with these registers wins the claim of an index (42_stepping_controller.md R273). -/
def State.wins (s : State) (k : Nat) (c : Core) : Bool := !s.isEnabled k && c.fsm == .unbound

theorem State.wins_iff : s.wins k c = true ↔ s.isEnabled k = false ∧ c.fsm = .unbound := by
  simp [State.wins]

theorem State.claim_of_core (hc : s.core? n = some c) (sel : Selector) (k : Nat) :
    s.claim n sel k =
      if s.wins k c then (true, (s.setEnabled k true).modifyCore n (Core.bind sel k)) else (false, s) := by
  unfold State.claim State.wins
  cases s.isEnabled k <;> cases hf : c.fsm <;> simp [hc, hf]

theorem State.claim_of_none (hc : s.core? n = none) (sel : Selector) (k : Nat) : s.claim n sel k = (false, s) := by
  unfold State.claim
  simp [hc]

theorem State.release_of_none (hc : s.core? n = none) : s.release n = s := by
  unfold State.release
  simp [hc]

theorem State.release_of_index (hc : s.core? n = some c) (hk : c.pllIndex = some k) :
    s.release n = if c.fsm.mayRelease then (s.setEnabled k false).modifyCore n Core.dropIndex else s := by
  unfold State.release
  simp [hc, hk]

theorem State.release_of_no_index (hc : s.core? n = some c) (hk : c.pllIndex = none) : s.release n = s := by
  unfold State.release
  simp [hc, hk]

/-- The release that waits in ROLLING_BACK would do nothing there either (log 36). -/
theorem State.tryRelease_snd (s : State) (n : Nat) : (s.tryRelease n).2 = s.release n := by
  unfold State.tryRelease
  split
  next hf =>
    cases hc : s.core? n with
    | none => rw [State.release_of_none hc]
    | some c =>
      have hm : c.fsm.mayRelease = false := by
        rw [State.coreAt, hc] at hf
        rw [show c.fsm = .rollingBack from hf]; rfl
      cases hk : c.pllIndex with
      | none => rw [State.release_of_no_index hc hk]
      | some k => rw [State.release_of_index hc hk, if_neg (by simp [hm])]
  next => rfl

/-- A round of a done poll sleeps, whatever it sees (42_stepping_controller.md R310). -/
theorem State.awaitDone_snd (s : State) (n : Nat) (b : Bool) :
    (s.awaitDone n b).2 = s.sleep (s.plat.donePollMs * 1000) := by
  unfold State.awaitDone
  dsimp only
  split
  · rfl
  · split <;> rfl

/-! ### One atomic action -/

/-- The registers an atomic action leaves in the agent's own bank. -/
def State.coreAfter (s : State) (r : Req) (c : Core) : Core :=
  match r with
  | .claim sel k => if s.wins k c then c.bind sel k else c
  | .release => if c.pllIndex.isSome && c.fsm.mayRelease then c.dropIndex else c
  | .testAndClear fired => if c.canClear s.now fired then c.startRestore else c
  | r => r.effect s.now c

/-- The ownership table after an atomic action of the agent of a bank with these registers. -/
def State.enabledAfter (s : State) (r : Req) (c : Core) : List Bool :=
  match r with
  | .claim _ k => if s.wins k c then s.enabled.set k true else s.enabled
  | .release =>
    match c.pllIndex with
    | some k => if c.fsm.mayRelease then s.enabled.set k false else s.enabled
    | none => s.enabled
  | _ => s.enabled

/-- Every atomic action of agent `n` changes bank `n` as `coreAfter` says, and no other bank. -/
theorem performReq_banks (n : Nat) (r : Req) (s : State) :
    (performReq n r s).2.banks = (s.modifyCore n (s.coreAfter r)).banks := by
  have becomes : ∀ (t : State) (f : Core → Core), t.banks = (s.modifyCore n f).banks →
      (∀ c, s.core? n = some c → s.coreAfter r c = f c) → t.banks = (s.modifyCore n (s.coreAfter r)).banks :=
    fun t f ht h => by rw [ht, State.modifyCore_congr h]
  have same : ∀ t : State, t.banks = s.banks → (∀ c, s.core? n = some c → s.coreAfter r c = c) →
      t.banks = (s.modifyCore n (s.coreAfter r)).banks :=
    fun t ht h => by rw [ht, State.modifyCore_eq_self h]
  cases r
  case write off v =>
    obtain ⟨m, ph, sr, un, h⟩ := s.storesOnly_mmioWrite off v
    exact same _ (by simp [performReq, h]) fun _ _ => rfl
  case awaitDone b =>
    show (s.awaitDone n b).2.banks = _
    rw [State.awaitDone_snd]
    exact same _ rfl fun _ _ => rfl
  case claim sel k =>
    show (s.claim n sel k).2.banks = _
    cases hc : s.core? n with
    | none => exact same _ (by rw [State.claim_of_none hc]) (by simp [hc])
    | some c =>
      rw [State.claim_of_core hc]
      by_cases hw : s.wins k c = true
      · exact becomes _ (Core.bind sel k) (by rw [if_pos hw]; rfl) (by simp [hc, State.coreAfter, hw])
      · exact same _ (by simp [hw]) (by simp [hc, State.coreAfter, hw])
  case release =>
    show (s.tryRelease n).2.banks = _
    rw [State.tryRelease_snd]
    cases hc : s.core? n with
    | none => exact same _ (by rw [State.release_of_none hc]) (by simp [hc])
    | some c =>
      cases hk : c.pllIndex with
      | none => exact same _ (by rw [State.release_of_no_index hc hk]) (by simp [hc, State.coreAfter, hk])
      | some k =>
        rw [State.release_of_index hc hk]
        cases hm : c.fsm.mayRelease
        · exact same _ rfl (by simp [hc, State.coreAfter, hm])
        · exact becomes _ Core.dropIndex rfl (by simp [hc, State.coreAfter, hk, hm])
  case testAndClear fired =>
    show (s.testAndClear n fired).2.banks = _
    unfold State.testAndClear
    cases hc : s.core? n with
    | none =>
      refine same _ ?_ (by simp [hc])
      cases fired <;> simp [State.coreAt, hc, Core.canClear, Core.timerDue]
    | some c =>
      simp only [show s.coreAt n = c by simp [State.coreAt, hc]]
      by_cases ha : c.canClear s.now fired = true
      · exact becomes _ Core.startRestore (by rw [if_pos ha]; rfl) (by simp [hc, State.coreAfter, ha])
      · exact same _ (by simp [ha]) (by simp [hc, State.coreAfter, ha])
  case read | time | sleep | sampleShutdown | sampleDone | pollShutdown | readRbStatus =>
    exact same _ rfl fun _ _ => rfl
  all_goals rfl

/-- What an atomic action leaves of the registers of every bank. -/
theorem performReq_core? (n : Nat) (r : Req) (s : State) (m : Nat) :
    (performReq n r s).2.core? m = if n = m then (s.core? m).map (s.coreAfter r) else s.core? m :=
  (State.core?_congr (performReq_banks n r s) m).trans (State.core?_modifyCore _)

/-- The registers of a bank after an action are those before it, or what its own agent made of them. -/
theorem performReq_core?_cases {r : Req} {c' : Core} (h : (performReq n r s).2.core? m = some c') :
    s.core? m = some c' ∨ n = m ∧ ∃ c, s.core? m = some c ∧ c' = s.coreAfter r c := by
  rw [performReq_core?] at h
  split at h
  next hn =>
    obtain ⟨c, hc, rfl⟩ := Option.map_eq_some_iff.1 h
    exact .inr ⟨hn, c, hc, rfl⟩
  next => exact .inl h

/-- The actions that may write the ownership table (10_state.md R50). -/
def Req.writesTable : Req → Bool
  | .claim _ _ | .release => true
  | _ => false

theorem performReq_enabled_of_not_writesTable (n : Nat) {r : Req} (s : State) (h : r.writesTable = false) :
    (performReq n r s).2.enabled = s.enabled := by
  cases r
  case claim | release => cases h
  case write off v =>
    obtain ⟨m, ph, sr, un, h⟩ := s.storesOnly_mmioWrite off v
    simp [performReq, h]
  case awaitDone b =>
    show (s.awaitDone n b).2.enabled = _
    rw [State.awaitDone_snd]
    rfl
  case testAndClear fired =>
    simp only [performReq, State.testAndClear]
    split <;> rfl
  all_goals rfl

/-- An action writes the ownership table as `enabledAfter` says. -/
theorem performReq_enabled (hc : s.core? n = some c) (r : Req) :
    (performReq n r s).2.enabled = s.enabledAfter r c := by
  cases r
  case claim sel k =>
    show (s.claim n sel k).2.enabled = _
    rw [State.claim_of_core hc]
    simp only [State.enabledAfter]
    split <;> rfl
  case release =>
    show (s.tryRelease n).2.enabled = _
    rw [State.tryRelease_snd]
    cases hk : c.pllIndex with
    | none => rw [State.release_of_no_index hc hk]; simp [State.enabledAfter, hk]
    | some k =>
      rw [State.release_of_index hc hk]
      cases hm : c.fsm.mayRelease <;> simp [State.enabledAfter, hk, hm]
  all_goals exact performReq_enabled_of_not_writesTable n s rfl

/-- An agent without a bank does not write the ownership table. -/
theorem performReq_enabled_of_none (hc : s.core? n = none) (r : Req) :
    (performReq n r s).2.enabled = s.enabled := by
  cases r
  case claim sel k => exact congrArg (·.2.enabled) (State.claim_of_none hc sel k)
  case release => exact congrArg State.enabled ((s.tryRelease_snd n).trans (State.release_of_none hc))
  all_goals exact performReq_enabled_of_not_writesTable n s rfl

/-! ### What an action spares -/

/-- The actions that may write `fsm`. -/
def Req.writesFsm : Req → Bool
  | .claim _ _ | .testAndClear _ | .setFsm _ | .arm _ => true
  | _ => false

/-- The actions that may write `sel`. -/
def Req.writesSel : Req → Bool
  | .claim _ _ | .dropSel => true
  | _ => false

/-- The actions that write RESULT. -/
def Req.writesResult : Req → Bool
  | .setResult _ => true
  | _ => false

/-- The registers an action spares: the command port but STATUS, and each of the others unless it is one of those
that write it. -/
structure Req.Spares (r : Req) (c c' : Core) : Prop where
  cmd : c'.cmd = c.cmd
  arg0 : c'.arg0 = c.arg0
  arg1 : c'.arg1 = c.arg1
  arg2 : c'.arg2 = c.arg2
  arg3 : c'.arg3 = c.arg3
  arg4 : c'.arg4 = c.arg4
  overrun : c'.overrun = c.overrun
  result : r.writesResult = false → c'.result = c.result
  sel : r.writesSel = false → c'.sel = c.sel
  pllIndex : r.writesTable = false → c'.pllIndex = c.pllIndex
  fsm : r.writesFsm = false → c'.fsm = c.fsm

theorem Req.Spares.refl (r : Req) (c : Core) : r.Spares c c :=
  ⟨rfl, rfl, rfl, rfl, rfl, rfl, rfl, fun _ => rfl, fun _ => rfl, fun _ => rfl, fun _ => rfl⟩

theorem State.coreAfter_spares (s : State) (r : Req) (c : Core) : r.Spares c (s.coreAfter r c) := by
  have keep := Req.Spares.refl r c
  cases r
  case claim sel k =>
    simp only [State.coreAfter]
    split
    · exact ⟨rfl, rfl, rfl, rfl, rfl, rfl, rfl, fun _ => rfl, nofun, nofun, nofun⟩
    · exact keep
  case release =>
    simp only [State.coreAfter]
    split
    · exact { keep with pllIndex := nofun }
    · exact keep
  case testAndClear fired =>
    simp only [State.coreAfter]
    split
    · exact { keep with fsm := nofun }
    · exact keep
  case setFsm f =>
    simp only [State.coreAfter, Req.effect, Core.enter]
    split
    · exact { keep with fsm := nofun }
    · exact keep
  case arm ms =>
    simp only [State.coreAfter, Req.effect, Core.arm]
    split
    · exact { keep with fsm := nofun }
    · exact keep
  case setResult v => exact { keep with result := nofun }
  case dropSel =>
    simp only [State.coreAfter, Req.effect, Core.dropSel]
    split
    · exact { keep with sel := nofun }
    · exact keep
  case addMod v =>
    simp only [State.coreAfter, Req.effect, Core.addMod]
    split
    · split <;> exact { keep with }
    · exact keep
  case setDone | addOrig | setCaptured | dropSlots | dropCaptured | dropArmed =>
    simp only [State.coreAfter, Req.effect, Core.setDone, Core.addOrig, Core.setCaptured, Core.dropSlots,
      Core.dropCaptured, Core.dropArmed]
    split <;> exact { keep with }
  all_goals exact { keep with }

end Sys2Proof.Machine
end

section
/-! How the registers of a bank belong together (10_state.md R33 to R43, 42_stepping_controller.md R320): each
operation on the registers keeps it, so every action does, so every step does. -/

namespace Sys2Proof.Machine

variable {s t : State} {n m k : Nat} {c : Core}

/-! ### The states of `fsm` -/

theorem Fsm.mayRelease_ne {f : Fsm} (h : f.mayRelease = true) :
    f ≠ .unbound ∧ f ≠ .armedForRollback ∧ f ≠ .rollingBack := by
  cases f <;> revert h <;> decide

theorem stepTransition_listed {f g : Fsm} (h : stepTransition f g = true) : listedTransition f g = true := by
  cases f <;> cases g <;> revert h <;> decide

/-- A plain transition does not leave UNBOUND or ARMED_FOR_ROLLBACK and does not enter a state that has an operation
of its own; but for CAPTURED it enters a captured state from a captured one. -/
theorem stepTransition_cases {f g : Fsm} (h : stepTransition f g = true) :
    f ≠ .unbound ∧ f ≠ .armedForRollback ∧ g ≠ .armedForRollback ∧ g ≠ .rollingBack ∧
      (g ≠ .captured → g.isCaptured = true → f.isCaptured = true) := by
  cases f <;> cases g <;> revert h <;> decide

/-- `fsm <- f` is made with everything its rule writes before it, or not at all. -/
theorem Core.mayEnter_iff {f : Fsm} : c.mayEnter f = true ↔
    stepTransition c.fsm f = true ∧ (f = .captured → c.captured = true) ∧ (c.fsm = .rollingBack → c.done = true) ∧
      (f = .unbound → c.pllIndex = none ∧ c.sel = none ∧ c.captured = false ∧ c.slots = none) := by
  unfold Core.mayEnter Core.isEmpty
  simp [imp_iff_not_or, and_assoc, and_comm, and_left_comm]

theorem Core.releasing_iff : c.releasing = true ↔ c.pllIndex = none ∧ c.fsm.mayRelease = true := by
  simp [Core.releasing]

theorem Core.mayFill_iff : c.mayFill = true ↔ c.fsm = .idle ∧ c.captured = false := by
  simp [Core.mayFill]

/-! ### Each operation on the registers of a bank -/

namespace Core.Lifecycle

theorem reset : ({} : Core).Lifecycle :=
  ⟨fun _ => ⟨rfl, rfl, rfl, rfl⟩, nofun, nofun, nofun, rfl, rfl, nofun, nofun⟩

theorem armed_iff (h : c.Lifecycle) : c.armed = true ↔ c.fsm = .armedForRollback := by
  rw [h.timer, beq_iff_eq]

/-- An armed bank is the one whose test-and-clear is won (43_rollback_scheduler.md R346). -/
theorem armed_of_canClear (h : c.Lifecycle) {now : Time} {fired : Bool} (hc : c.canClear now fired = true) :
    c.fsm = .armedForRollback := by
  rw [← h.armed_iff]
  cases fired
  · exact hc
  · exact (Bool.and_eq_true_iff.1 hc).1

theorem bind (h : c.Lifecycle) (hf : c.fsm = .unbound) (sel : Selector) (k : Nat) : (c.bind sel k).Lifecycle where
  unboundEmpty := nofun
  selector _ := rfl
  capturedState _ := nofun
  snapshot _ := nofun
  timer := rfl
  deadlineHeld := by
    have ha : c.armed = false := by rw [h.timer, hf]; rfl
    exact h.deadlineHeld.trans ha
  armedPending := nofun
  pendingOwned := nofun

theorem dropIndex (h : c.Lifecycle) : c.dropIndex.Lifecycle :=
  { h with
    unboundEmpty := fun hf => ⟨rfl, (h.unboundEmpty hf).2⟩
    selector := nofun
    capturedState := nofun
    snapshot := nofun }

theorem startRestore (h : c.Lifecycle) (hf : c.fsm = .armedForRollback) : c.startRestore.Lifecycle where
  unboundEmpty := nofun
  selector := h.selector
  capturedState hk _ := h.capturedState hk (by rw [hf]; rfl)
  snapshot := h.snapshot
  timer := rfl
  deadlineHeld := rfl
  armedPending := nofun
  pendingOwned _ := .inr rfl

theorem arm (h : c.Lifecycle) (now : Time) (ms : Nat) : (c.arm now ms).Lifecycle := by
  unfold Core.arm
  split
  next hf => exact {
      unboundEmpty := nofun
      selector := h.selector
      capturedState := fun hk _ => h.capturedState hk (by rw [hf]; rfl)
      snapshot := h.snapshot
      timer := rfl
      deadlineHeld := rfl
      armedPending := fun _ => rfl
      pendingOwned := fun _ => .inl rfl }
  next => exact h

theorem enter (h : c.Lifecycle) (f : Fsm) : (c.enter f).Lifecycle := by
  unfold Core.enter
  split
  next hm =>
    obtain ⟨ht, hcap, hroll, hun⟩ := Core.mayEnter_iff.1 hm
    obtain ⟨hu, ha, hga, hgr, hcs⟩ := stepTransition_cases ht
    exact { h with
      unboundEmpty := hun
      capturedState := fun hk hg => by
        by_cases hf : f = .captured
        · exact hcap hf
        · exact h.capturedState hk (hcs hf hg)
      timer := by simp [h.timer, ha, hga]
      armedPending := fun hf => absurd hf hga
      pendingOwned := fun hd => by
        rcases h.pendingOwned hd with hf | hf
        · exact absurd hf ha
        · exact absurd (hroll hf) (by simp [show c.done = false from hd]) }
  next => exact h

theorem setDone (h : c.Lifecycle) : c.setDone.Lifecycle := by
  unfold Core.setDone
  split
  next hd =>
    refine { h with armedPending := fun hf => ?_, pendingOwned := nofun }
    rcases Bool.or_eq_true_iff.1 hd with hr | hr
    · simp [show c.fsm = _ from hf] at hr
    · exact absurd hf (Fsm.mayRelease_ne (Core.releasing_iff.1 hr).2).2.1
  next => exact h

theorem addOrig (h : c.Lifecycle) (hs : HalfSlot) : (c.addOrig hs).Lifecycle := by
  unfold Core.addOrig
  split
  · exact { h with }
  · exact h

theorem addMod (h : c.Lifecycle) (v : Word) : (c.addMod v).Lifecycle := by
  unfold Core.addMod
  split
  · split
    next hm =>
      have hf : c.fsm = .idle := (Core.mayFill_iff.1 hm).1
      exact { h with
        unboundEmpty := fun hu => absurd (hf.symm.trans hu) nofun
        snapshot := fun _ _ => rfl }
    next => exact h
  · exact h

theorem setCaptured (h : c.Lifecycle) : c.setCaptured.Lifecycle := by
  unfold Core.setCaptured
  split
  next hf => exact { h with
      unboundEmpty := fun hu => absurd (hf.symm.trans hu) nofun
      capturedState := fun _ _ => rfl
      snapshot := fun _ _ => rfl }
  next => exact h

theorem setMod (h : c.Lifecycle) (k : Nat) (v : Word) : (c.setMod k v).Lifecycle :=
  { h with
    unboundEmpty := fun hu => by
      obtain ⟨hk, hsel, hcap, hss⟩ := h.unboundEmpty hu
      exact ⟨hk, hsel, hcap, by simp [Core.setMod, hss]⟩
    snapshot := fun hk hc => by simpa [Core.setMod] using h.snapshot hk hc }

/-- The writes of RELEASE after the release, of a bank whose PLL is free: of the registers that belong together
only those of the binding and of the snapshot may lose their values. -/
theorem whileReleasing (h : c.Lifecycle) {c' : Core} (hr : c.releasing = true) (hk : c'.pllIndex = c.pllIndex)
    (hf : c'.fsm = c.fsm) (hd : c'.done = c.done) (ha : c'.armed = false) (hl : c'.deadline = none) :
    c'.Lifecycle := by
  obtain ⟨hn, hm⟩ := Core.releasing_iff.1 hr
  obtain ⟨hu, hna, -⟩ := Fsm.mayRelease_ne hm
  have hn' : c'.pllIndex.isSome = true → False := by simp [hk, hn]
  exact {
    unboundEmpty := fun h' => absurd (hf.symm.trans h') hu
    selector := fun h' => (hn' h').elim
    capturedState := fun h' => (hn' h').elim
    snapshot := fun h' => (hn' h').elim
    timer := by simp [ha, hf, hna]
    deadlineHeld := by rw [hl, ha]; rfl
    armedPending := fun h' => absurd (hf.symm.trans h') hna
    pendingOwned := fun h' => by rw [hf]; exact h.pendingOwned (hd.symm.trans h') }

/-- No timer is armed in a state RELEASE releases in. -/
theorem timerOff (h : c.Lifecycle) (hr : c.releasing = true) : c.armed = false ∧ c.deadline = none := by
  have ha : c.armed = false := by
    rw [h.timer, beq_eq_false_iff_ne]
    exact (Fsm.mayRelease_ne (Core.releasing_iff.1 hr).2).2.1
  have hd := h.deadlineHeld
  rw [ha] at hd
  exact ⟨ha, by simpa using hd⟩

theorem dropSel (h : c.Lifecycle) : c.dropSel.Lifecycle := by
  unfold Core.dropSel
  split
  next hr => exact h.whileReleasing hr rfl rfl rfl (h.timerOff hr).1 (h.timerOff hr).2
  next => exact h

theorem dropSlots (h : c.Lifecycle) : c.dropSlots.Lifecycle := by
  unfold Core.dropSlots
  split
  next hr => exact h.whileReleasing hr rfl rfl rfl (h.timerOff hr).1 (h.timerOff hr).2
  next => exact h

theorem dropCaptured (h : c.Lifecycle) : c.dropCaptured.Lifecycle := by
  unfold Core.dropCaptured
  split
  next hr => exact h.whileReleasing hr rfl rfl rfl (h.timerOff hr).1 (h.timerOff hr).2
  next => exact h

theorem dropArmed (h : c.Lifecycle) : c.dropArmed.Lifecycle := by
  unfold Core.dropArmed
  split
  next hr => exact h.whileReleasing hr rfl rfl rfl rfl rfl
  next => exact h

/-- What an action makes of the registers of its own bank, they belong together again. -/
theorem after (h : c.Lifecycle) (s : State) (r : Req) : (s.coreAfter r c).Lifecycle := by
  cases r
  case claim sel k =>
    simp only [State.coreAfter]
    split
    next hw => exact h.bind (State.wins_iff.1 hw).2 sel k
    next => exact h
  case release =>
    simp only [State.coreAfter]
    split
    · exact h.dropIndex
    · exact h
  case testAndClear fired =>
    simp only [State.coreAfter]
    split
    next hc => exact h.startRestore (h.armed_of_canClear hc)
    next => exact h
  case setFsm f => exact h.enter f
  case setDone => exact h.setDone
  case arm ms => exact h.arm s.now ms
  case addOrig hs => exact h.addOrig hs
  case addMod v => exact h.addMod v
  case setCaptured => exact h.setCaptured
  case setMod k v => exact h.setMod k v
  case dropSel => exact h.dropSel
  case dropSlots => exact h.dropSlots
  case dropCaptured => exact h.dropCaptured
  case dropArmed => exact h.dropArmed
  all_goals exact { h with }

end Core.Lifecycle

theorem listedTransition_refl (f : Fsm) : listedTransition f f = true := by
  cases f <;> rfl

/-- An action makes a transition of 42_stepping_controller.md R320, or none (log 38). -/
theorem Core.Lifecycle.listed (h : c.Lifecycle) (s : State) (r : Req) :
    listedTransition c.fsm (s.coreAfter r c).fsm = true := by
  cases hr : r.writesFsm
  · rw [(s.coreAfter_spares r c).fsm hr]
    exact listedTransition_refl _
  cases r
  case claim sel k =>
    simp only [State.coreAfter]
    split
    next hw => rw [(State.wins_iff.1 hw).2]; rfl
    next => exact listedTransition_refl _
  case testAndClear fired =>
    simp only [State.coreAfter]
    split
    next hc => rw [h.armed_of_canClear hc]; rfl
    next => exact listedTransition_refl _
  case setFsm f =>
    simp only [State.coreAfter, Req.effect, Core.enter]
    split
    next hm => exact stepTransition_listed (Core.mayEnter_iff.1 hm).1
    next => exact listedTransition_refl _
  case arm ms =>
    simp only [State.coreAfter, Req.effect, Core.arm]
    split
    next hf => rw [hf]; rfl
    next => exact listedTransition_refl _
  all_goals cases hr

/-! ### Every step -/

namespace State.Lifecycle

/-- The registers of every bank belong together where those of every bank are as before, or as an operation that keeps
them together has left them. -/
theorem of_core? (h : s.Lifecycle) (ht : ∀ m c', t.core? m = some c' → s.core? m = some c' ∨ c'.Lifecycle) :
    t.Lifecycle := fun m c' hc' => (ht m c' hc').elim (h m c') id

theorem act (h : s.Lifecycle) (n : Nat) (r : Req) : (performReq n r s).2.Lifecycle :=
  h.of_core? fun m _ hc' => (performReq_core?_cases hc').imp_right fun ⟨_, c, hc, e⟩ => e ▸ (h m c hc).after s r

/-- Writes of the command port have no part in it. -/
theorem portOnly (h : s.Lifecycle) (n : Nat) {f : Bank → Bank} (hf : portOnly f) : (s.modifyBank n f).Lifecycle := by
  refine h.of_core? fun m c' hc' => ?_
  rw [State.core?_modifyBank] at hc'
  split at hc'
  next =>
    obtain ⟨b, hb, rfl⟩ := Option.map_eq_some_iff.1 hc'
    obtain ⟨cmd, a0, a1, a2, a3, a4, st, busy, ov, e⟩ := hf b
    rw [e]
    exact .inr { h m b.core (State.core?_of_bank hb) with }
  next => exact .inl hc'

theorem reset {l : Nat} (hs : s.banks = List.replicate l {}) : s.Lifecycle := by
  intro m c hc
  rw [State.core?_eq, hs, List.getElem?_replicate] at hc
  split at hc
  · cases hc; exact Core.Lifecycle.reset
  · cases hc

end State.Lifecycle

/-- TIMER_FIRE starts a rollback path and writes no register. -/
theorem State.timerFire_core? (s : State) (n m : Nat) : (s.timerFire n).core? m = s.core? m := by
  unfold State.timerFire
  split
  · split
    · rw [State.core?_congr (State.record_banks _ _), State.core?_modifyBank]
      split <;> rfl
    · rfl
  · rfl

/-- TIMER_FIRE takes no event from the queues. -/
theorem State.timerFire_queues (s : State) (n : Nat) :
    (s.timerFire n).inputs = s.inputs ∧ (s.timerFire n).sched = s.sched ∧ (s.timerFire n).enabled = s.enabled := by
  unfold State.timerFire
  split
  · split <;> exact ⟨rfl, rfl, rfl⟩
  · exact ⟨rfl, rfl, rfl⟩

theorem State.noRawTimer.mono (h : s.noRawTimer) (hi : t.inputs ⊆ s.inputs) (hs : t.sched ⊆ s.sched) :
    t.noRawTimer := by
  intro e he
  apply h e
  rw [List.mem_append] at he ⊢
  exact he.imp (@hi e) (@hs e)

theorem State.noRawTimer.act (h : s.noRawTimer) (n : Nat) (r : Req) : (performReq n r s).2.noRawTimer := by
  obtain ⟨hi, hs, -⟩ := performReq_keeps n r s
  exact h.mono (by rw [hi]; exact List.Subset.refl _) (by rw [hs]; exact List.Subset.refl _)

theorem State.noRawTimer.timerFire (h : s.noRawTimer) (n : Nat) : (s.timerFire n).noRawTimer := by
  obtain ⟨hi, hs, -⟩ := s.timerFire_queues n
  exact h.mono (by rw [hi]; exact List.Subset.refl _) (by rw [hs]; exact List.Subset.refl _)

/-- Every elementary change keeps the registers of every bank together (42_stepping_controller.md R320). -/
theorem lifecycle_kept : Kept (fun s => s.Lifecycle ∧ s.noRawTimer) False where
  poke _ _ _ h := h
  phyReg _ _ _ _ _ h := h
  sramWord _ _ _ _ _ h := h
  marks _ _ h := h
  act n r _ h := ⟨h.1.act n r, h.2.act n r⟩
  port _ n _ h hf := ⟨h.1.portOnly n hf, h.2⟩
  time _ _ h := h
  down _ _ h := h
  fired s n h := ⟨h.1.of_core? fun m _ hc => .inl (s.timerFire_core? n m ▸ hc), h.2.timerFire n⟩
  reset _ h := ⟨State.Lifecycle.reset rfl, h.2⟩
  arm := False.elim
  cancel := False.elim
  queues _ _ _ _ _ _ _ h hi hs := ⟨h.1, h.2.mono hi hs⟩

/-- No event of the queues is an internal timer operation. -/
theorem State.noRawTimer.allowed (h : s.noRawTimer) : ∀ e ∈ s.inputs ++ s.sched, allowed False e :=
  fun e he => .inr (h e he)

/-- Settles O15: an induction over what a step can do, whose case for an atomic action is
`Core.Lifecycle.after`. -/
theorem lifecycleKept : Obligations.LifecycleKept := by
  refine ⟨fun s t hl hn e => lifecycle_kept.step s t hn.allowed ⟨hl, hn⟩ e, ?_, ?_⟩
  · intro n r s m c c' hl hc hc'
    rcases performReq_core?_cases hc' with h | ⟨-, d, hd, rfl⟩
    · cases hc.symm.trans h
      exact listedTransition_refl _
    · cases hc.symm.trans hd
      exact (hl m c hc).listed s r
  · intro n s c hc hf
    show s.tryRelease n = (none, s)
    rw [State.tryRelease, State.coreAt, hc, if_pos (by exact hf)]

end Sys2Proof.Machine
end

section
/-! The single owner of a PLL (10_state.md R52), of the ownership table and the indices the banks have. -/

namespace Sys2Proof.Machine

variable {s t : State} {n m k : Nat} {c : Core}

/-- The PLL index a bank has. -/
def State.index? (s : State) (n : Nat) : Option Nat := (s.core? n).bind (·.pllIndex)

theorem State.index?_of_core (hc : s.core? n = some c) : s.index? n = c.pllIndex := by
  rw [State.index?, hc]; rfl

/-- Nothing is bound in UNBOUND (10_state.md R33), so a bank holds the index it has. -/
theorem State.holds_iff_index? (h : s.Lifecycle) : s.holds n k ↔ s.index? n = some k := by
  constructor
  · rintro ⟨c, hc, -, hk⟩
    exact (State.index?_of_core hc).trans hk
  · intro hk
    obtain ⟨c, hc, hk⟩ := Option.bind_eq_some_iff.1 hk
    refine ⟨c, hc, fun hu => ?_, hk⟩
    rw [((h n c hc).unboundEmpty hu).1] at hk
    cases hk

/-- 10_state.md R52 of an ownership table and the indices that the banks have. -/
def singleOwnerOf (en : List Bool) (ix : Nat → Option Nat) : Prop :=
  (∀ k, en[k]? = some true ↔ ∃ n, ix n = some k) ∧ ∀ n m k, ix n = some k → ix m = some k → n = m

theorem State.singleOwner_iff (h : s.Lifecycle) : s.SingleOwner ↔ singleOwnerOf s.enabled s.index? := by
  simp only [State.SingleOwner, singleOwnerOf, State.holds_iff_index? h]
  refine and_congr_left fun hu => forall_congr' fun k => ?_
  exact iff_congr Iff.rfl (exists_congr fun n => and_iff_left_of_imp fun hn m hm => hu m n k hm hn)

/-- An index that nobody has goes to a bank that has none (42_stepping_controller.md R273). -/
theorem singleOwnerOf.claim {en : List Bool} {ix : Nat → Option Nat} (h : singleOwnerOf en ix)
    (hk : en[k]? = some false) (hn : ix n = none) : singleOwnerOf (en.set k true) (Function.update ix n (some k)) := by
  obtain ⟨htab, huniq⟩ := h
  have hfree : ∀ m, ix m ≠ some k := fun m hm => by
    have := (htab k).2 ⟨m, hm⟩
    rw [hk] at this
    cases this
  have hlt : k < en.length := (List.getElem?_eq_some_iff.1 hk).1
  refine ⟨fun j => ?_, fun a b j ha hb => ?_⟩
  · rw [List.getElem?_set]
    split
    next hj =>
      subst hj
      exact iff_of_true rfl ⟨n, Function.update_self ..⟩
    next hj =>
      rw [htab j]
      refine exists_congr fun m => ?_
      by_cases hm : m = n
      · subst hm; simp [hn, hj]
      · rw [Function.update_of_ne hm]
  · rw [Function.update_apply] at ha hb
    split at ha <;> split at hb
    · simp_all
    · cases ha; exact absurd hb (hfree b)
    · cases hb; exact absurd ha (hfree a)
    · exact huniq a b j ha hb

/-- The index a bank gives back is nobody's (42_stepping_controller.md R274). -/
theorem singleOwnerOf.release {en : List Bool} {ix : Nat → Option Nat} (h : singleOwnerOf en ix)
    (hn : ix n = some k) : singleOwnerOf (en.set k false) (Function.update ix n none) := by
  obtain ⟨htab, huniq⟩ := h
  refine ⟨fun j => ?_, fun a b j ha hb => ?_⟩
  · rw [List.getElem?_set]
    split
    next hj =>
      subst hj
      refine iff_of_false (by split <;> nofun) fun ⟨m, hm⟩ => ?_
      rw [Function.update_apply] at hm
      split at hm
      · cases hm
      next hmn => exact hmn (huniq m n k hm hn)
    next hj =>
      rw [htab j]
      refine exists_congr fun m => ?_
      by_cases hm : m = n
      · subst hm; simp [hn, hj]
      · rw [Function.update_of_ne hm]
  · rw [Function.update_apply] at ha hb
    split at ha
    · cases ha
    · split at hb
      · cases hb
      · exact huniq a b j ha hb

theorem State.index?_performReq (hc : s.core? n = some c) (r : Req) :
    (performReq n r s).2.index? = Function.update s.index? n (s.coreAfter r c).pllIndex := by
  funext m
  rw [State.index?, performReq_core?, Function.update_apply]
  by_cases hm : m = n
  · subst hm; simp [hc]
  · rw [if_neg hm, if_neg (Ne.symm hm)]; rfl

/-- An index that is not held has an entry in the table, and the entry is 0. -/
theorem State.entry_of_not_isEnabled (h : s.isEnabled k = false) : s.enabled[k]? = some false := by
  rw [State.isEnabled, List.getD_eq_getElem?_getD] at h
  cases he : s.enabled[k]? with
  | none => rw [he] at h; cases h
  | some b => rw [he] at h; exact congrArg some h

/-- An atomic action keeps 10_state.md R52: a claim that is won takes a free index, a release gives one back, and no
other action writes the table or an index. -/
theorem State.SingleOwner.act (h : s.SingleOwner) (hl : s.Lifecycle) (n : Nat) (r : Req) :
    (performReq n r s).2.SingleOwner := by
  rw [State.singleOwner_iff hl] at h
  rw [State.singleOwner_iff (hl.act n r)]
  cases hc : s.core? n with
  | none =>
    have hix : (performReq n r s).2.index? = s.index? := by
      funext m
      rw [State.index?, performReq_core?]
      split
      next hm => subst hm; simp [State.index?, hc]
      next => rfl
    rwa [performReq_enabled_of_none hc, hix]
  | some c =>
    have same : ∀ en, en = s.enabled → (s.coreAfter r c).pllIndex = c.pllIndex →
        singleOwnerOf en (Function.update s.index? n (s.coreAfter r c).pllIndex) := fun en he hk => by
      rw [he, hk, ← State.index?_of_core hc, Function.update_eq_self]
      exact h
    rw [performReq_enabled hc, State.index?_performReq hc]
    cases r
    case claim sel k =>
      simp only [State.enabledAfter]
      split
      next hw =>
        obtain ⟨he, hf⟩ := State.wins_iff.1 hw
        have hn : s.index? n = none := (State.index?_of_core hc).trans ((hl n c hc).unboundEmpty hf).1
        simp only [State.coreAfter, hw, if_true]
        exact h.claim (State.entry_of_not_isEnabled he) hn
      next hw => exact same _ rfl (by simp [State.coreAfter, hw])
    case release =>
      cases hk : c.pllIndex with
      | none => exact same _ (by simp [State.enabledAfter, hk]) (by simp [State.coreAfter, hk])
      | some k =>
        cases hm : c.fsm.mayRelease
        · exact same _ (by simp [State.enabledAfter, hk, hm]) (by simp [State.coreAfter, hm])
        · simp only [State.enabledAfter, State.coreAfter, hk, hm, Option.isSome_some, Bool.and_self, if_true]
          exact h.release ((State.index?_of_core hc).trans hk)
    all_goals exact same _ rfl ((s.coreAfter_spares _ c).pllIndex rfl)

/-- Where nothing is bound and no entry of the table is 1, 10_state.md R52 holds. -/
theorem State.SingleOwner.reset {p l : Nat} (hb : s.banks = List.replicate l {})
    (he : s.enabled = List.replicate p false) : s.SingleOwner := by
  rw [State.singleOwner_iff (State.Lifecycle.reset hb)]
  have hix : ∀ n, s.index? n = none := fun n => by
    rw [State.index?, State.core?_eq, hb, List.getElem?_replicate]
    split <;> rfl
  refine ⟨fun k => iff_of_false ?_ (by simp [hix]), fun n m k hn => by simp [hix] at hn⟩
  rw [he, List.getElem?_replicate]
  split <;> nofun

/-- Who holds an index is told by the banks, and R52 by that and the table. -/
theorem State.SingleOwner.congr (h : s.SingleOwner) (he : t.enabled = s.enabled)
    (hh : ∀ n k, t.holds n k ↔ s.holds n k) : t.SingleOwner := by
  simpa only [State.SingleOwner, he, hh] using h

/-- Writes of the command port bind nothing and free nothing. -/
theorem State.SingleOwner.portOnly (h : s.SingleOwner) (n : Nat) {f : Bank → Bank} (hf : portOnly f) :
    (s.modifyBank n f).SingleOwner := by
  refine h.congr rfl fun m k => ?_
  unfold State.holds
  rw [State.core?_modifyBank]
  split
  next =>
    rw [State.core?_eq]
    cases s.banks[m]? with
    | none => rfl
    | some b =>
      obtain ⟨cmd, a0, a1, a2, a3, a4, st, busy, ov, e⟩ := hf b
      simp [e]
  next => rfl

/-- Every elementary change keeps the single owner, given how the registers of a bank belong together. -/
theorem singleOwner_kept : Kept (fun s => s.SingleOwner ∧ s.Lifecycle ∧ s.noRawTimer) False where
  poke _ _ _ h := h
  phyReg _ _ _ _ _ h := h
  sramWord _ _ _ _ _ h := h
  marks _ _ h := h
  act n r s h := ⟨h.1.act h.2.1 n r, lifecycle_kept.act n r s h.2⟩
  port s n f h hf := ⟨h.1.portOnly n hf, lifecycle_kept.port s n f h.2 hf⟩
  time _ _ h := h
  down _ _ h := h
  fired s n h :=
    ⟨h.1.congr (s.timerFire_queues n).2.2 fun m k => by simp only [State.holds, State.timerFire_core?],
      lifecycle_kept.fired s n h.2⟩
  reset s h := ⟨State.SingleOwner.reset rfl rfl, lifecycle_kept.reset s h.2⟩
  arm := False.elim
  cancel := False.elim
  queues s inp sch trn c bp bl h hi hs := ⟨h.1, lifecycle_kept.queues s inp sch trn c bp bl h.2 hi hs⟩

/-- Settles O14: an induction over what a step can do, whose case for an atomic action is
`State.SingleOwner.act`. -/
theorem singleOwnerKept : Obligations.SingleOwnerKept := by
  refine ⟨fun p => ⟨State.SingleOwner.reset rfl rfl, State.Lifecycle.reset rfl, nofun⟩, ?_⟩
  exact fun s t ho hl hn e => singleOwner_kept.step s t hn.allowed ⟨ho, hl, hn⟩ e

end Sys2Proof.Machine
end

section
/-! What no action writes in a captured snapshot (10_state.md R36), the fields of STATUS (R45), and what is not
there (R30). -/

namespace Sys2Proof.Machine

variable {s t : State} {n m k : Nat} {c : Core}

/-! ### The snapshot -/

/-- The two snapshots have the same addresses and the same originals. -/
def sameOrig (ss ss' : List Slot) : Prop := ss'.map (fun x => (x.addr, x.orig)) = ss.map fun x => (x.addr, x.orig)

/-- A write of `mod` leaves the addresses and the originals. -/
theorem sameOrig_setMod (ss : List Slot) (k : Nat) (v : Word) :
    sameOrig ss (ss.modify k fun y => { y with mod := v }) := by
  apply List.ext_getElem?
  intro m
  rw [List.getElem?_map, List.getElem?_map, List.getElem?_modify]
  split
  · rw [Option.map_eq_map, Option.map_map]; rfl
  · simp

/-- What an action leaves of a captured snapshot in its own bank. -/
theorem coreAfter_snapshot (s : State) (r : Req) {ss : List Slot} (hc : c.captured = true) (hs : c.slots = some ss)
    (hc' : (s.coreAfter r c).captured = true) :
    (r = .dropSlots ∧ c.pllIndex = none ∧ (s.coreAfter r c).slots = none) ∨
      ∃ ss', (s.coreAfter r c).slots = some ss' ∧ sameOrig ss ss' := by
  have kept : ∀ {c' : Core}, c'.slots = c.slots → ∃ ss', c'.slots = some ss' ∧ sameOrig ss ss' :=
    fun h => ⟨ss, h.trans hs, rfl⟩
  cases r
  case claim sel k =>
    simp only [State.coreAfter] at hc' ⊢
    split at hc'
    next hw => cases hc'
    next hw => rw [if_neg hw]; exact .inr (kept rfl)
  case dropSlots =>
    simp only [State.coreAfter, Req.effect, Core.dropSlots]
    split
    next hr => exact .inl ⟨trivial, (Core.releasing_iff.1 hr).1, rfl⟩
    next => exact .inr (kept rfl)
  case setMod k v => exact .inr ⟨_, by simp [State.coreAfter, Req.effect, Core.setMod, hs], sameOrig_setMod ss k v⟩
  case addMod v =>
    have hm : c.mayFill = false := by simp [Core.mayFill, hc]
    refine .inr (kept ?_)
    simp only [State.coreAfter, Req.effect, Core.addMod, hm]
    split <;> rfl
  case setCaptured =>
    refine .inr (kept ?_)
    simp only [State.coreAfter, Req.effect, Core.setCaptured]
    split
    · simp [hs]
    · rfl
  case release | testAndClear =>
    refine .inr (kept ?_)
    simp only [State.coreAfter]
    split <;> rfl
  case setFsm | arm | addOrig | setDone | dropSel | dropCaptured | dropArmed =>
    refine .inr (kept ?_)
    simp only [State.coreAfter, Req.effect, Core.enter, Core.arm, Core.addOrig, Core.setDone, Core.dropSel,
      Core.dropCaptured, Core.dropArmed]
    split <;> rfl
  all_goals exact .inr (kept rfl)

/-- Settles O18: of the actions that write `slots`, those of a capture find a snapshot that is held, a write of `mod`
leaves the originals, and the one that is left is RELEASE's. -/
theorem origNeverWritten : Obligations.OrigNeverWritten := by
  intro n r s m c ss hm hc hs
  rw [performReq_core?]
  split
  next hn =>
    refine ⟨s.coreAfter r c, by rw [hm]; rfl, fun hc' => ?_⟩
    rcases coreAfter_snapshot s r hc hs hc' with ⟨hr, hk, hn'⟩ | h
    · exact .inl ⟨hr, hn.symm, hk, hn'⟩
    · exact .inr h
  next => exact ⟨c, hm, fun _ => .inr ⟨ss, hs, rfl⟩⟩

/-! ### STATUS -/

theorem Core.statusWord_code (c : Core) : c.statusWord &&& 0xFF#32 = c.code.code.setWidth 32 := by
  apply BitVec.eq_of_getLsbD_eq
  intro i hi
  interval_cases i <;> simp [Core.statusWord, place, bit]

theorem Core.statusWord_fsm (c : Core) : c.statusWord.extractLsb' 12 3 = c.fsm.code := by
  apply BitVec.eq_of_getLsbD_eq
  intro i hi
  interval_cases i <;> simp [Core.statusWord, place, bit]

theorem Core.statusWord_above (c : Core) : c.statusWord &&& 0xFFFF8000#32 = 0#32 := by
  apply BitVec.eq_of_getLsbD_eq
  intro i hi
  interval_cases i <;> simp [Core.statusWord, place, bit]

theorem Core.statusWord_bits (c : Core) :
    c.statusWord.getLsbD 8 = c.busy ∧ c.statusWord.getLsbD 9 = c.overrun ∧
      c.statusWord.getLsbD 10 = c.captured ∧ c.statusWord.getLsbD 11 = c.done := by
  simp [Core.statusWord, place, bit]

/-- The numeric value of a status code is its place in the table of 60_exceptions.md R370. -/
theorem Status.code_iff (st : Status) (k : Nat) : st.code.toNat = k ↔
    [Status.ok, .invalidArgument, .busTimeout, .busProtocolError, .resourceConflict, .hwReadAnomaly, .cancelled,
      .busy, .invalidState, .illegalCommand, .dividerError][k]? = some st := by
  constructor
  · rintro rfl
    cases st <;> rfl
  · intro h
    have hk := (List.getElem?_eq_some_iff.1 h).1
    simp only [List.length_cons, List.length_nil] at hk
    interval_cases k <;> cases h <;> rfl

/-- The numeric value of a state is its place in the table of 10_state.md R31. -/
theorem Fsm.code_iff (f : Fsm) (k : Nat) : f.code.toNat = k ↔
    [Fsm.unbound, .idle, .captured, .targetComputed, .stepping, .armedForRollback, .rollingBack, .done][k]? =
      some f := by
  constructor
  · rintro rfl
    cases f <;> rfl
  · intro h
    have hk := (List.getElem?_eq_some_iff.1 h).1
    simp only [List.length_cons, List.length_nil] at hk
    interval_cases k <;> cases h <;> rfl

/-- Settles O19: STATUS field by field, and the two tables of numeric values. -/
theorem statusWord : Obligations.StatusWord := by
  have hcode : ∀ c : Core, (c.statusWord &&& 0xFF#32).toNat = c.code.code.toNat := fun c => by
    rw [c.statusWord_code, BitVec.toNat_setWidth_of_le (by decide)]
  have hfsm : ∀ c : Core, (c.statusWord.extractLsb' 12 3).toNat = c.fsm.code.toNat := fun c => by
    rw [c.statusWord_fsm]
  refine ⟨fun c => ?_, fun c k => ?_, fun c k => ?_⟩
  · obtain ⟨hb, ho, hc, hd⟩ := c.statusWord_bits
    exact ⟨hcode c, hb, ho, hc, hd, hfsm c, c.statusWord_above⟩
  · rw [hcode]
    exact c.code.code_iff k
  · rw [hfsm]
    exact c.fsm.code_iff k

/-! ### Nothing there -/

/-- A host command is run on the bank it was written to. -/
theorem exec_host {i : Instr} (h : isHost i = true) (s : State) : exec i s = s.runCommand i (codeOf i) := by
  cases i
  case timerArm | timerCancel | timerFire | m2pWriteUncommitted | m2pWriteCommitted | m2pRead | m2pBusReset |
    p2mReadAck | p2mWriteAck => cases h
  all_goals rfl

theorem State.runCommand_of_none (h : s.core? s.cur = none) (i : Instr) (code : Platform → Core → Code Status) :
    s.runCommand i code = .fault .noSuchInstance := by
  rw [State.runCommand, h]

theorem State.onInstance_of_ge (h : s.banks.length ≤ s.cur) (f : State → Nat → State) :
    s.onInstance f = .fault .noSuchInstance := if_neg (Nat.not_lt.2 h)

/-- A port beyond the last one, or a lane beyond the second, has no registers (00_scope.md R7). -/
theorem laneRegs?_eq_none {p : Platform} {port lane : Nat} (h : p.busPorts.length ≤ port ∨ 2 ≤ lane) :
    p.laneRegs? port lane = none := by
  unfold Platform.laneRegs?
  rcases h with h | h
  · rw [List.getElem?_eq_none_iff.2 h]
  · split
    · rfl
    · rw [if_neg (by omega), if_neg (by omega)]

theorem State.onLane_of_none (h : s.plat.laneRegs? s.busPort s.busLane = none) (f : Nat → Nat → LaneRegs → State) :
    s.onLane f = .fault .noSuchLane := by
  rw [State.onLane, h]

/-- Settles O10: each meaning looks for its bank or its lane first. -/
theorem nothingThereFaults : Obligations.NothingThereFaults := by
  constructor
  · rintro s i hlen (hi | rfl | rfl | rfl)
    · have hc : s.core? s.cur = none := by rw [State.core?_eq, List.getElem?_eq_none_iff.2 hlen]; rfl
      rw [exec_host hi, State.runCommand_of_none hc]
    all_goals exact State.onInstance_of_ge hlen _
  · intro s a d hlane i hi
    have hl := laneRegs?_eq_none hlane
    simp only [List.mem_cons, List.not_mem_nil, or_false] at hi
    rcases hi with rfl | rfl | rfl | rfl | rfl | rfl
    exacts [State.onLane_of_none hl fun p l r => s.takeWriteUncommitted p l r a d,
      State.onLane_of_none hl fun p l r => s.takeWriteCommitted p l r a d,
      State.onLane_of_none hl fun p l r => s.takeRead p l r a d, State.onLane_of_none hl fun _ _ r => s.takeBusReset r,
      State.onLane_of_none hl fun _ _ r => s.postResponse r 4 d,
      State.onLane_of_none hl fun _ _ r => s.postResponse r 5 d]

end Sys2Proof.Machine
end

section
/-! The actions that the pseudocode of a command makes, whatever answers it has. -/

namespace Sys2Proof.Machine

/-! ### The actions a command's pseudocode makes -/

/-- Whatever the answers, every action the pseudocode makes satisfies `P`: with what follows it, it satisfies what all
actions with `P` and all that follow satisfy. -/
structure Code.Makes {α : Type} (P : Req → Prop) (c : Code α) : Prop where
  all : ∀ Q : Req → Prop, (∀ r, P r → Q r) → ∀ k : α → Prog, (∀ a, (k a).All Q) → (c k).All Q

namespace Code.Makes

variable {α β : Type} {P Q : Req → Prop} {r : Req}

theorem mono {c : Code α} (hc : c.Makes P) (h : ∀ r, P r → Q r) : c.Makes Q :=
  ⟨fun R hR => hc.all R fun r hr => hR r (h r hr)⟩

theorem pure (a : α) : Code.Makes P (Pure.pure a : Code α) := ⟨fun _ _ _ hk => hk a⟩

theorem bind {x : Code α} {f : α → Code β} (hx : x.Makes P) (hf : ∀ a, (f a).Makes P) : (x >>= f).Makes P :=
  ⟨fun R hR k hk => hx.all R hR _ fun a => (hf a).all R hR k hk⟩

theorem ite {c : Prop} [Decidable c] {x y : Code α} (hx : x.Makes P) (hy : y.Makes P) :
    (if c then x else y).Makes P := by
  split
  · exact hx
  · exact hy

theorem onlyIf {b : Bool} {x : Code Unit} (hx : x.Makes P) : (onlyIf b x).Makes P := by
  cases b
  · exact .pure ()
  · exact hx

/-- An action whose answer is passed on. -/
theorem act {f : Resp → α} (h : P r) : Code.Makes P (fun k => .act r fun a => k (f a)) :=
  ⟨fun _ hR _ hk => ⟨hR r h, fun a => hk (f a)⟩⟩

theorem perform (h : P r) : (perform r).Makes P := ⟨fun _ hR _ hk => ⟨hR r h, fun _ => hk ()⟩⟩

theorem performAll {rs : List Req} (h : ∀ r ∈ rs, P r) : (performAll rs).Makes P := by
  induction rs with
  | nil => exact .pure ()
  | cons r rest ih =>
    exact .bind (.perform (h r (by simp))) fun _ => ih fun r' hr' => h r' (by simp [hr'])

end Code.Makes

/-- The end of a command makes its two writes of STATUS. -/
theorem Prog.ending_all {P : Req → Prop} (hc : ∀ st, P (.setCode st)) (hb : P .clearBusy) (st : Status) :
    (Prog.ending st).All P :=
  ⟨hc st, fun _ => ⟨hb, fun _ => trivial⟩⟩

/-- The actions that write neither the ownership table nor `sel` nor RESULT: all that most of the pseudocode makes. -/
def Req.isPlain (r : Req) : Bool := !r.writesTable && !r.writesSel && !r.writesResult

/-- The pseudocode makes such actions only. -/
abbrev Code.Plain {α : Type} (c : Code α) : Prop := c.Makes fun r => r.isPlain = true

theorem performAll_plain {rs : List Req} (h : rs.all Req.isPlain = true) : (performAll rs).Plain :=
  .performAll (List.all_eq_true.1 h)

/-! ### The pseudocode of the rules -/

section

variable (plat : Platform) (p l : Nat)

theorem raise_plain {α : Type} (st : Status) : (raise st : Code α).Plain :=
  ⟨fun _ hR _ _ => Prog.ending_all (fun _ => hR _ rfl) (hR _ rfl) st⟩

theorem memRead_plain (off : Word) : (memRead off).Plain := .act rfl
theorem memWrite_plain (off v : Word) : (memWrite off v).Plain := .perform rfl
theorem readTime_plain : readTime.Plain := .act rfl
theorem sleepUs_plain (d : Time) : (sleepUs d).Plain := .perform rfl
theorem sleepMs_plain (d : Nat) : (sleepMs d).Plain := .perform rfl
theorem sampleShutdown_plain : sampleShutdown.Plain := .act rfl
theorem sampleDone_plain : sampleDone.Plain := .act rfl
theorem awaitDone_plain (b : Bool) : (awaitDone b).Plain := .act rfl
theorem pollShutdown_plain : pollShutdown.Plain := .perform rfl
theorem readRbStatus_plain : readRbStatus.Plain := .act rfl
theorem testAndClear_plain (fired : Bool) : (testAndClear fired).Plain := .act rfl

/-! #### The bus (40_message_bus.md) -/

theorem waitClearFrom_plain (reg mask : Word) (timeout t0 : Time) (n : Nat) :
    (waitClearFrom plat reg mask timeout t0 n).Plain := by
  induction n with
  | zero => exact .pure _
  | succ n ih =>
    exact .bind (memRead_plain _) fun _ => .ite (.pure _) <|
      .bind readTime_plain fun _ => .ite (.pure _) <| .bind (sleepUs_plain _) fun _ => ih

theorem waitClear_plain (reg mask : Word) (timeout : Time) : (waitClear plat reg mask timeout).Plain :=
  .bind readTime_plain fun _ => waitClearFrom_plain ..

theorem waitAckFrom_plain (sts : Word) (expected : Nat) (t0 : Time) (n : Nat) :
    (waitAckFrom plat sts expected t0 n).Plain := by
  induction n with
  | zero => exact .pure _
  | succ n ih =>
    exact .bind (memRead_plain _) fun _ => .ite (.pure _) <|
      .bind readTime_plain fun _ => .ite (.pure _) <| .bind (sleepUs_plain _) fun _ => ih

theorem waitAck_plain (expected : Nat) : (waitAck plat p l expected).Plain :=
  .bind readTime_plain fun _ => waitAckFrom_plain ..

theorem clearResponse_plain : (clearResponse plat p l).Plain := memWrite_plain ..

theorem busReset_plain : (busReset plat p l).Plain :=
  .bind (memWrite_plain ..) fun _ => .bind (waitClear_plain ..) fun _ => clearResponse_plain ..

theorem readAttempt_plain (a : BitVec 12) : (readAttempt plat p l a).Plain :=
  .bind (waitClear_plain ..) fun _ => .ite (.bind (busReset_plain ..) fun _ => .pure _) <|
    .bind (clearResponse_plain ..) fun _ => .bind (memWrite_plain ..) fun _ => .bind (waitAck_plain ..) fun _ =>
      .ite (.bind (busReset_plain ..) fun _ => .pure _) (.bind (clearResponse_plain ..) fun _ => .pure _)

theorem mbReadFrom_plain (a : BitVec 12) (n : Nat) : (mbReadFrom plat p l a n).Plain := by
  induction n with
  | zero => exact .bind (readAttempt_plain ..) fun _ => .ite (.pure _) (.pure _)
  | succ n ih => exact .bind (readAttempt_plain ..) fun _ => .ite (.pure _) ih

theorem mbRead_plain (a : BitVec 12) : (mbRead plat p l a).Plain := mbReadFrom_plain ..

theorem writeAttempt_plain (a : BitVec 12) (d : Byte) (committed : Bool) :
    (writeAttempt plat p l a d committed).Plain :=
  .bind (waitClear_plain ..) fun _ => .ite (.bind (busReset_plain ..) fun _ => .pure _) <|
    .bind (clearResponse_plain ..) fun _ => .bind (memWrite_plain ..) fun _ => .bind (waitClear_plain ..) fun _ =>
      .ite (.bind (busReset_plain ..) fun _ => .pure _) <|
        .ite
          (.bind (waitAck_plain ..) fun _ => .ite (.bind (busReset_plain ..) fun _ => .pure _)
            (.bind (clearResponse_plain ..) fun _ => .pure _))
          (.bind (memRead_plain _) fun _ => .ite (.bind (busReset_plain ..) fun _ => .pure _)
            (.bind (clearResponse_plain ..) fun _ => .pure _))

theorem mbWriteFrom_plain (a : BitVec 12) (d : Byte) (committed : Bool) (n : Nat) :
    (mbWriteFrom plat p l a d committed n).Plain := by
  induction n with
  | zero => exact writeAttempt_plain ..
  | succ n ih => exact .bind (writeAttempt_plain ..) fun _ => .ite (.pure _) ih

theorem mbWrite_plain (a : BitVec 12) (d : Byte) (committed : Bool) : (mbWrite plat p l a d committed).Plain :=
  mbWriteFrom_plain ..

theorem mbRmw_plain (a : BitVec 12) (clr set : Byte) (committed : Bool) :
    (mbRmw plat p l a clr set committed).Plain :=
  .bind (mbRead_plain ..) fun _ => .ite (.pure _) (.ite (.pure _) (mbWrite_plain ..))

theorem sramRead_plain (addr : BitVec 16) : (sramRead plat p l addr).Plain :=
  .bind (mbWrite_plain ..) fun _ => .ite (.pure _) <| .bind (mbWrite_plain ..) fun _ => .ite (.pure _) <|
    .bind (mbRead_plain ..) fun _ => .ite (.pure _) <| .bind (mbRead_plain ..) fun _ => .ite (.pure _) (.pure _)

theorem sramWrite_plain (addr data : BitVec 16) : (sramWrite plat p l addr data).Plain :=
  .bind (mbWrite_plain ..) fun _ => .ite (.pure _) <| .bind (mbWrite_plain ..) fun _ => .ite (.pure _) <|
    .bind (mbWrite_plain ..) fun _ => .ite (.pure _) (mbWrite_plain ..)

theorem onLanes_plain {op : Nat → Code Status} (h : ∀ l, (op l).Plain) (ls : List Nat) : (onLanes op ls).Plain := by
  induction ls with
  | nil => exact .pure _
  | cons l rest ih => exact .bind (h l) fun _ => .ite (.pure _) ih

/-! #### The divider datapath (41_phy_datapath.md) -/

theorem readOffsets_plain (as : List Word) : (readOffsets as).Plain := by
  induction as with
  | nil => exact .pure _
  | cons a rest ih => exact .bind (memRead_plain a) fun _ => .bind ih fun _ => .pure _

theorem readBusSlots_plain (as : List (BitVec 12)) : (readBusSlots plat p l as).Plain := by
  induction as with
  | nil => exact .pure _
  | cons a rest ih => exact .bind (mbRead_plain ..) fun _ => .ite (.pure _) (.bind ih fun _ => .pure _)

theorem readSramWords_plain (as : List (BitVec 16)) : (readSramWords plat p l as).Plain := by
  induction as with
  | nil => exact .pure _
  | cons a rest ih =>
    exact .bind (sramRead_plain ..) fun _ => .ite (.pure _) (.bind ih fun _ => .pure _)

theorem captureV_plain (sel : Option Selector) : (captureV plat sel).Plain := by
  unfold captureV
  split
  · exact .bind (memRead_plain _) fun _ => .bind (memRead_plain _) fun _ => .pure _
  · exact .bind (readOffsets_plain _) fun _ => .ite (.pure _) (.pure _)
  · exact .bind (readBusSlots_plain ..) fun _ => .pure _
  · exact .bind (mbRead_plain ..) fun _ => .ite (.pure _) (.bind (readSramWords_plain ..) fun _ => .pure _)
  · exact .bind (memRead_plain _) fun _ => .bind (memRead_plain _) fun _ => .pure _
  · exact .pure _

theorem writeOffsets_plain (ws : List (Nat × Word)) : (writeOffsets ws).Plain := by
  induction ws with
  | nil => exact .pure _
  | cons w rest ih => exact .bind (memWrite_plain ..) fun _ => ih

theorem writeBusSlots_plain (ws : List (Nat × Word)) : (writeBusSlots plat p l ws).Plain := by
  induction ws with
  | nil => exact .pure _
  | cons w rest ih => exact .bind (mbWrite_plain ..) fun _ => .ite (.pure _) ih

theorem writeSramWords_plain (ws : List (Nat × Word)) : (writeSramWords plat p l ws).Plain := by
  induction ws with
  | nil => exact .pure _
  | cons w rest ih => exact .bind (sramWrite_plain ..) fun _ => .ite (.pure _) ih

theorem writeV_plain (sel : Option Selector) (copy : List (Nat × Word)) : (writeV plat sel copy).Plain := by
  unfold writeV
  split
  · exact .bind (writeOffsets_plain _) fun _ => .pure _
  · exact .bind (writeOffsets_plain _) fun _ => .pure _
  · exact onLanes_plain (fun _ => writeBusSlots_plain ..) _
  · exact onLanes_plain (fun _ => writeSramWords_plain ..) _
  · exact .bind (writeOffsets_plain _) fun _ => .pure _
  · exact .pure _

theorem writeOrig_plain (sel : Option Selector) (slots : List Slot) : (writeOrig plat sel slots).Plain :=
  writeV_plain ..

theorem writeMod_plain (puts : List (Nat × Word)) : (writeMod puts).Plain :=
  .performAll fun r hr => by
    obtain ⟨x, -, rfl⟩ := List.mem_map.1 hr
    rfl

theorem fillWrites_plain (slots : List Slot) : (performAll (fillWrites slots)).Plain :=
  .performAll fun r hr => by
    obtain ⟨y, -, hy⟩ := List.mem_flatMap.1 hr
    simp only [List.mem_cons, List.not_mem_nil, or_false] at hy
    rcases hy with rfl | rfl <;> rfl

theorem setC20s_plain (ws : List C20Write) : (performAll (ws.map .setC20)).Plain :=
  .performAll fun r hr => by
    obtain ⟨x, -, rfl⟩ := List.mem_map.1 hr
    rfl

/-! #### The rollback (43_rollback_scheduler.md) and the stepping (42_stepping_controller.md) -/

/-- A restore whose success is recorded in `applied_mod`, and what follows it. -/
theorem restore_plain {α : Type} (sel : Option Selector) (slots : List Slot) {f : Status → Code α}
    (hf : ∀ st, (f st).Plain) :
    Code.Plain (do
      let st ← writeOrig plat sel slots
      onlyIf (st = .ok) (perform (.setApplied false))
      f st) :=
  .bind (writeOrig_plain ..) fun st => .bind (.onlyIf (.perform rfl)) fun _ => hf st

theorem rollbackNow_plain (fired : Bool) : (rollbackNow fired plat).Plain :=
  .bind (testAndClear_plain fired) fun o => by
    match o with
    | some (sel, slots) =>
      exact restore_plain plat sel slots fun st =>
        .bind (.perform rfl) fun _ => .bind (.perform rfl) fun _ => .bind (.perform rfl) fun _ => .pure _
    | none =>
      exact .bind sampleDone_plain fun _ => .ite readRbStatus_plain <|
        .bind (awaitDone_plain _) fun _ => readRbStatus_plain

theorem raiseOrFail_plain {α : Type} (fromPhy : Bool) (st : Status) : (raiseOrFail fromPhy st : Code α).Plain :=
  .bind (.onlyIf (.perform rfl)) fun _ => raise_plain st

theorem fail_plain {α : Type} (st : Status) : (fail st : Code α).Plain := raiseOrFail_plain true st

theorem cancelStepping_plain {α : Type} (c : Core) : (cancelStepping plat c : Code α).Plain :=
  restore_plain plat _ _ fun _ => fail_plain _

theorem commitStep_plain (r : StepRun) (mods : List Word) : (commitStep plat r mods).Plain :=
  .bind (writeV_plain ..) fun _ => .bind (.onlyIf (fail_plain _)) fun _ => .perform rfl

theorem stepFrom_plain (r : StepRun) (fi : B64) (mods : List Word) (n : Nat) : (stepFrom plat r fi mods n).Plain := by
  induction n generalizing fi mods with
  | zero => exact .pure _
  | succ n ih =>
    exact .bind (.perform rfl) fun _ => .bind sampleShutdown_plain fun _ =>
      .bind (.onlyIf (cancelStepping_plain ..)) fun _ => .bind (.perform rfl) fun _ => .bind (writeMod_plain _) fun _ => .bind (.onlyIf (fail_plain _)) fun _ =>
        .bind (.onlyIf (commitStep_plain ..)) fun _ => .bind (.onlyIf (sleepMs_plain _)) fun _ => ih ..

theorem setPlan_plain (n : Nat) (size : B64) : (setPlan n size).Plain :=
  .bind (.perform rfl) fun _ => .bind (.perform rfl) fun _ => .pure _

theorem planSteps_plain (fromPhy : Bool) (c target shift : B64) : (planSteps fromPhy c target shift).Plain :=
  .ite (setPlan_plain ..) <| .bind (.onlyIf (raiseOrFail_plain ..)) fun _ => .bind (.perform rfl) fun _ => by
    split
    · exact raiseOrFail_plain ..
    · exact setPlan_plain ..

theorem setPllClock_plain (view : Core) (target shift : B64) (wait : Nat) (commit fromPhy : Bool) :
    (setPllClock plat view target shift wait commit fromPhy).Plain :=
  .bind (.onlyIf (raiseOrFail_plain ..)) fun _ => .bind (.onlyIf (raiseOrFail_plain ..)) fun _ =>
    .bind (.onlyIf (raiseOrFail_plain ..)) fun _ => .bind (performAll_plain rfl) fun _ =>
      .bind (planSteps_plain ..) fun _ => .bind (performAll_plain rfl) fun _ =>
        .bind (stepFrom_plain ..) fun _ => .bind (.perform rfl) fun _ => .perform rfl

end

end Sys2Proof.Machine
end

section
/-! What a command leaves alone where nothing else moves (10_state.md R46, R49, R51). -/

namespace Sys2Proof.Machine

variable {s t u : State} {n : Nat} {i : Instr}

/-! ### The actions of each host command -/

/-- The actions a command keeps to: the ownership table and `sel` are for CONSTRUCT and RELEASE to write, RESULT for a
command that returns a value, and a command without accesses makes only actions on its own registers. -/
structure Req.Within (i : Instr) (r : Req) : Prop where
  table : i ≠ .construct → i ≠ .release → r.writesTable = false
  sel : i ≠ .construct → i ≠ .release → r.writesSel = false
  result : returnsValue i = false → r.writesResult = false
  own : touchesNothing i = true → r.isLocal = true

theorem Req.isPlain_iff {r : Req} :
    r.isPlain = true ↔ r.writesTable = false ∧ r.writesSel = false ∧ r.writesResult = false := by
  simp [Req.isPlain, and_assoc]

theorem Req.within_of_isPlain {r : Req} (hr : r.isPlain = true) (hl : touchesNothing i = true → r.isLocal = true) :
    r.Within i := by
  obtain ⟨htable, hsel, hresult⟩ := Req.isPlain_iff.1 hr
  exact ⟨fun _ _ => htable, fun _ _ => hsel, fun _ => hresult, hl⟩

/-- Pseudocode of plain actions, of a command that may make accesses. -/
theorem Code.Makes.within {α : Type} {x : Code α} (h : x.Plain) (hi : touchesNothing i = false) :
    x.Makes (Req.Within i) :=
  h.mono fun _ hr => Req.within_of_isPlain hr fun h => absurd (hi.symm.trans h) nofun

/-- RESULT is written by a command that returns a value. -/
theorem setResult_within (h : returnsValue i = true) (v : BitVec 64) : (perform (.setResult v)).Makes (Req.Within i) :=
  .perform ⟨fun _ _ => rfl, fun _ _ => rfl, fun hf => absurd (h.symm.trans hf) nofun, fun _ => rfl⟩

/-- A datum that is read, with the status of the read, and goes to RESULT. -/
theorem readResult_within {α : Type} {x : Code (Status × α)} (h : x.Plain) (hi : touchesNothing i = false)
    (hr : returnsValue i = true) (f : α → BitVec 64) :
    Code.Makes (Req.Within i) (do
      let (st, d) ← x
      perform (.setResult (f d))
      return st) :=
  .bind (h.within hi) fun _ => .bind (setResult_within hr _) fun _ => .pure _

theorem constructCode_within (plat : Platform) (c : Core) : (constructCode plat c).Makes (Req.Within .construct) := by
  unfold constructCode
  split
  · exact .pure _
  · refine .bind ((memRead_plain _).within rfl) fun _ => .bind (.act ?_) fun _ => .pure _
    exact ⟨fun h => absurd rfl h, fun h => absurd rfl h, fun _ => rfl, nofun⟩

theorem releaseCode_within (plat : Platform) (c : Core) : (releaseCode plat c).Makes (Req.Within .release) := by
  have h : ∀ r : Req, r.writesResult = false → r.Within .release :=
    fun r hr => ⟨fun _ h => absurd rfl h, fun _ h => absurd rfl h, fun _ => hr, nofun⟩
  have hall : ∀ r ∈ unbindWrites, r.writesResult = false := by decide
  have hrest : ∀ st : Status, Code.Makes (Req.Within .release) (do
      perform .release
      performAll unbindWrites
      return st) := fun st =>
    .bind (.perform (h _ rfl)) fun _ => .bind (.performAll fun r hr => h r (hall r hr)) fun _ => .pure _
  exact .ite (.bind ((rollbackNow_plain plat false).within rfl) hrest) (.bind (.pure _) hrest)

theorem readRegistersCode_plain (plat : Platform) (c : Core) : (readRegistersCode plat c).Plain :=
  .ite (.pure _) <| .bind (captureV_plain ..) fun _ => .ite (.pure _) <| .bind (fillWrites_plain _) fun _ =>
    .bind (setC20s_plain _) fun _ => .bind (.perform rfl) fun _ => .bind (.perform rfl) fun _ =>
      .bind (.perform rfl) fun _ => .bind (.perform rfl) fun _ => .pure _

theorem programMmioCode_plain (m : Bool) (plat : Platform) (c : Core) : (programMmioCode m plat c).Plain :=
  .bind (writeV_plain ..) fun _ => .ite (.pure _) (.bind (.perform rfl) fun _ => .pure _)

theorem setPllClockCode_plain (commit : Bool) (plat : Platform) (c : Core) : (setPllClockCode commit plat c).Plain :=
  .bind (setPllClock_plain ..) fun _ => .pure _

theorem programPhyCode_plain (commit reset : Bool) (plat : Platform) (c : Core) :
    (programPhyCode commit reset plat c).Plain :=
  .bind (performAll_plain rfl) fun _ =>
    .ite (.pure _) <| .ite (.pure _) <|
      .bind (performAll_plain rfl) fun _ =>
        .ite (.bind (.perform rfl) fun _ => .pure _) <|
          .bind (setPllClock_plain ..) fun _ => .bind (.onlyIf (.perform rfl)) fun _ => .pure _

theorem waitUntilDoneCode_plain (plat : Platform) (c : Core) : (waitUntilDoneCode plat c).Plain :=
  .bind sampleDone_plain fun _ => .ite (.pure _) <| .bind sampleShutdown_plain fun _ => .ite (rollbackNow_plain ..) <|
    .bind (awaitDone_plain _) fun _ => .ite readRbStatus_plain <| .bind pollShutdown_plain fun _ => rollbackNow_plain ..

theorem rollbackCode_plain (plat : Platform) (c : Core) : (rollbackCode plat c).Plain :=
  .ite (rollbackNow_plain ..) <| restore_plain plat _ _ fun _ => .bind (.perform rfl) fun _ => .pure _

theorem calcFeedbackDividersCode_within (plat : Platform) (c : Core) :
    (calcFeedbackDividersCode plat c).Makes (Req.Within .calcFeedbackDividers) := by
  refine .ite (.pure _) (.bind (.performAll fun r hr => ?_) fun _ => .pure _)
  obtain ⟨x, -, rfl⟩ := List.mem_map.1 hr
  exact Req.within_of_isPlain rfl fun _ => rfl

theorem getCachedCode_within (plat : Platform) (c : Core) : (getCachedCode plat c).Makes (Req.Within .getCached) := by
  refine .ite (.pure _) ?_
  split
  · exact .pure _
  · exact .bind (setResult_within rfl _) fun _ => .pure _

/-- Every host command keeps to its actions. -/
theorem codeOf_within (h : isHost i = true) (plat : Platform) (c : Core) : (codeOf i plat c).Makes (Req.Within i) := by
  cases i
  case timerArm | timerCancel | timerFire | m2pWriteUncommitted | m2pWriteCommitted | m2pRead | m2pBusReset |
    p2mReadAck | p2mWriteAck => cases h
  case construct => exact constructCode_within plat c
  case release => exact releaseCode_within plat c
  case readRegisters => exact (readRegistersCode_plain plat c).within rfl
  case calcPllClock m => exact .bind (setResult_within rfl _) fun _ => .pure _
  case calcFeedbackDividers => exact calcFeedbackDividersCode_within plat c
  case programMmio m => exact (programMmioCode_plain m plat c).within rfl
  case printRegisters => exact .pure _
  case getCached => exact getCachedCode_within plat c
  case programPhy commit reset => exact (programPhyCode_plain commit reset plat c).within rfl
  case setPllClock commit => exact (setPllClockCode_plain commit plat c).within rfl
  case getPllClock => exact .bind (setResult_within rfl _) fun _ => .pure _
  case waitUntilDone => exact (waitUntilDoneCode_plain plat c).within rfl
  case rollback => exact (rollbackCode_plain plat c).within rfl
  case mbWaitClear => exact (waitClear_plain ..).within rfl
  case mbReadOnce p l => exact readResult_within (readAttempt_plain ..) rfl rfl _
  case mbRead p l => exact readResult_within (mbRead_plain ..) rfl rfl _
  case mbWriteOnce p l k => exact (onLanes_plain (fun _ => writeAttempt_plain ..) _).within rfl
  case mbWrite p l k => exact (onLanes_plain (fun _ => mbWrite_plain ..) _).within rfl
  case mbRmw p l k => exact (onLanes_plain (fun _ => mbRmw_plain ..) _).within rfl
  case mbReset p l => exact (onLanes_plain (fun _ => .bind (busReset_plain ..) fun _ => .pure _) _).within rfl
  case sramRead p l => exact readResult_within (sramRead_plain ..) rfl rfl _
  case sramWrite p l => exact (onLanes_plain (fun _ => sramWrite_plain ..) _).within rfl

/-- So does the command with its checks and its end (60_exceptions.md R372). -/
theorem guarded_within (h : isHost i = true) (plat : Platform) (view : Core) :
    (guarded i (codeOf i) plat view).All (Req.Within i) := by
  have hend : ∀ st, (Prog.ending st).All (Req.Within i) :=
    Prog.ending_all (fun _ => Req.within_of_isPlain rfl fun _ => rfl) (Req.within_of_isPlain rfl fun _ => rfl)
  unfold guarded
  split
  · exact hend _
  · exact hend _
  · exact hend _
  · split
    · exact (codeOf_within h plat view).all _ (fun _ => id) _ hend
    · exact hend _

/-! ### What a command leaves alone -/

/-- What the command leaves of the registers of its bank. -/
structure Core.FramedBy (i : Instr) (c c' : Core) : Prop where
  cmd : c'.cmd = c.cmd
  arg0 : c'.arg0 = c.arg0
  arg1 : c'.arg1 = c.arg1
  arg2 : c'.arg2 = c.arg2
  arg3 : c'.arg3 = c.arg3
  arg4 : c'.arg4 = c.arg4
  overrun : c'.overrun = c.overrun
  result : returnsValue i = false → c'.result = c.result
  binding : i ≠ .construct → i ≠ .release → c'.sel = c.sel ∧ c'.pllIndex = c.pllIndex

/-- What the command, run on bank `n`, leaves of the machine. -/
structure State.FramedBy (i : Instr) (n : Nat) (s t : State) : Prop where
  plat : t.plat = s.plat
  shutdown : t.shutdown = s.shutdown
  inputs : t.inputs = s.inputs
  sched : t.sched = s.sched
  cur : t.cur = s.cur
  others : ∀ m, m ≠ n → t.banks[m]? = s.banks[m]?
  untouched : touchesNothing i = true → ∃ bs, t = { s with banks := bs }
  table : i ≠ .construct → i ≠ .release → t.enabled = s.enabled
  bank : ∀ b, s.banks[n]? = some b →
    ∃ b', t.banks[n]? = some b' ∧ b'.path = b.path ∧ b.core.FramedBy i b'.core

theorem Core.FramedBy.refl (i : Instr) (c : Core) : c.FramedBy i c :=
  ⟨rfl, rfl, rfl, rfl, rfl, rfl, rfl, fun _ => rfl, fun _ _ => ⟨rfl, rfl⟩⟩

theorem Core.FramedBy.trans {c c' c'' : Core} (h : c.FramedBy i c') (h' : c'.FramedBy i c'') : c.FramedBy i c'' where
  cmd := h'.cmd.trans h.cmd
  arg0 := h'.arg0.trans h.arg0
  arg1 := h'.arg1.trans h.arg1
  arg2 := h'.arg2.trans h.arg2
  arg3 := h'.arg3.trans h.arg3
  arg4 := h'.arg4.trans h.arg4
  overrun := h'.overrun.trans h.overrun
  result hr := (h'.result hr).trans (h.result hr)
  binding hc hr := ⟨(h'.binding hc hr).1.trans (h.binding hc hr).1, (h'.binding hc hr).2.trans (h.binding hc hr).2⟩

theorem State.FramedBy.trans (h : s.FramedBy i n t) (h' : t.FramedBy i n u) : s.FramedBy i n u where
  plat := h'.plat.trans h.plat
  shutdown := h'.shutdown.trans h.shutdown
  inputs := h'.inputs.trans h.inputs
  sched := h'.sched.trans h.sched
  cur := h'.cur.trans h.cur
  others m hm := (h'.others m hm).trans (h.others m hm)
  untouched hi := by
    obtain ⟨bs, rfl⟩ := h.untouched hi
    obtain ⟨bs', rfl⟩ := h'.untouched hi
    exact ⟨bs', rfl⟩
  table hc hr := (h'.table hc hr).trans (h.table hc hr)
  bank b hb := by
    obtain ⟨b1, hb1, hp1, hf1⟩ := h.bank b hb
    obtain ⟨b2, hb2, hp2, hf2⟩ := h'.bank b1 hb1
    exact ⟨b2, hb2, hp2.trans hp1, hf1.trans hf2⟩

/-- A change of one bank that keeps its path and what the command leaves of its registers. -/
theorem State.FramedBy.modifyBank (s : State) (n : Nat) {f : Bank → Bank} (hp : ∀ b, (f b).path = b.path)
    (hf : ∀ b : Bank, b.core.FramedBy i (f b).core) : s.FramedBy i n (s.modifyBank n f) where
  plat := rfl
  shutdown := rfl
  inputs := rfl
  sched := rfl
  cur := rfl
  others m hm := by
    rw [State.modifyBank_banks, List.getElem?_modify]
    simp [Ne.symm hm]
  untouched _ := ⟨_, rfl⟩
  table _ _ := rfl
  bank b hb := ⟨f b, by simp [hb], hp b, hf b⟩

/-- An action spares what the command that makes it leaves of its registers. -/
theorem Req.Within.framed {r : Req} (h : r.Within i) (s : State) (c : Core) : c.FramedBy i (s.coreAfter r c) := by
  have hs := s.coreAfter_spares r c
  exact ⟨hs.cmd, hs.arg0, hs.arg1, hs.arg2, hs.arg3, hs.arg4, hs.overrun, fun hr => hs.result (h.result hr),
    fun hc hr => ⟨hs.sel (h.sel hc hr), hs.pllIndex (h.table hc hr)⟩⟩

/-- An action the command keeps to leaves what the command leaves. -/
theorem performReq_framed {r : Req} (h : r.Within i) (n : Nat) (s : State) : s.FramedBy i n (performReq n r s).2 := by
  obtain ⟨hin, hsch, hpl, hsd, -, -, hcur, -⟩ := performReq_keeps n r s
  have hm := State.FramedBy.modifyBank (i := i) s n (f := fun b => { b with core := s.coreAfter r b.core })
    (fun _ => rfl) fun b => h.framed s b.core
  have hb := performReq_banks n r s
  exact {
    plat := hpl
    shutdown := hsd
    inputs := hin
    sched := hsch
    cur := hcur
    others := fun m hm' => by rw [hb]; exact hm.others m hm'
    untouched := fun hi => by rw [performReq_local n r s (h.own hi)]; exact ⟨_, rfl⟩
    table := fun hc hr => performReq_enabled_of_not_writesTable n s (h.table hc hr)
    bank := fun b hb' => by rw [hb]; exact hm.bank b hb' }

/-- A run of such actions, where nothing else moves, leaves it too, whether the command ends or waits. -/
theorem run_framed {p : Prog} (hp : p.All (Req.Within i)) (n : Nat) (cmd : Option Instr) (view : Core)
    (hist : List Resp) (hq : s.quiet) : s.FramedBy i n (run (.seq n cmd view) hist p s) := by
  induction p generalizing hist s with
  | ret st => exact .modifyBank s n (fun _ => rfl) fun b => .refl i b.core
  | act r k ih =>
    have hf := performReq_framed hp.1 n s
    have hq' := performReq_quiet n r s hq
    rw [run_act _ _ _ _ hq]
    split
    next s2 e =>
      rw [show performReq n r s = (none, s2) from e] at hf
      exact hf.trans (.modifyBank s2 n (fun _ => rfl) fun b => .refl i b.core)
    next a s2 e =>
      rw [show performReq n r s = (some a, s2) from e] at hf hq'
      exact hf.trans (ih a (hp.2 a) (hist ++ [a]) hq')

/-- Settles O23: the actions each command keeps to, and what every such action leaves alone. -/
theorem commandFrame : Obligations.CommandFrame := by
  intro s t b i hb hq hi e
  rw [exec_host hi, State.runCommand_of_bank hb] at e
  cases e
  have h := run_framed (guarded_within hi s.plat b.core) s.cur (some i) b.core [] hq
  obtain ⟨b', hb', hpath, hc⟩ := h.bank b hb
  refine ⟨h.plat, h.shutdown, h.inputs, h.sched.trans hq, h.cur, h.others, fun ht => ?_, h.table, b', hb', hpath, hc.cmd,
    hc.arg0, hc.arg1, hc.arg2, hc.arg3, hc.arg4, hc.overrun, hc.result, hc.binding⟩
  obtain ⟨bs, e⟩ := h.untouched ht
  rw [e]
  exact ⟨rfl, rfl, rfl, rfl, rfl, rfl⟩

end Sys2Proof.Machine
end

section
/-! The three stores stay in canonical form (20_memory.md R80 to R82, log 2). -/

namespace Sys2Proof.Machine

/-- Of the atomic actions only an MMIO write changes the stores. -/
theorem performReq_stores (n : Nat) {r : Req} (s : State) (h : ∀ off v, r ≠ .write off v) :
    (performReq n r s).2.mmio = s.mmio ∧ (performReq n r s).2.phy = s.phy ∧ (performReq n r s).2.sram = s.sram := by
  cases r
  case write off v => exact absurd rfl (h off v)
  case awaitDone b =>
    simp only [performReq, State.awaitDone_snd]
    exact ⟨rfl, rfl, rfl⟩
  case claim sel k =>
    simp only [performReq]
    cases hc : s.core? n with
    | none => rw [State.claim_of_none hc]; exact ⟨rfl, rfl, rfl⟩
    | some c => rw [State.claim_of_core hc]; split <;> exact ⟨rfl, rfl, rfl⟩
  case release =>
    simp only [performReq, State.tryRelease_snd]
    cases hc : s.core? n with
    | none => rw [State.release_of_none hc]; exact ⟨rfl, rfl, rfl⟩
    | some c =>
      cases hk : c.pllIndex with
      | none => rw [State.release_of_no_index hc hk]; exact ⟨rfl, rfl, rfl⟩
      | some k => rw [State.release_of_index hc hk]; split <;> exact ⟨rfl, rfl, rfl⟩
  case testAndClear fired =>
    simp only [performReq, State.testAndClear]
    split <;> exact ⟨rfl, rfl, rfl⟩
  all_goals exact ⟨rfl, rfl, rfl⟩

/-- Each elementary change of a store writes bytes, and a byte written keeps the canonical form. -/
theorem storesWf_keptByStores : KeptByStores State.StoresWf where
  poke _ _ _ h := ⟨Memory.putWord_wf _ _ _ h.1, h.2⟩
  phyReg _ _ _ _ _ h := ⟨h.1, Memory.put_wf _ _ _ h.2.1, h.2.2⟩
  sramWord _ _ _ _ _ h := ⟨h.1, h.2.1, Memory.put_wf _ _ _ (Memory.put_wf _ _ _ h.2.2)⟩
  marks _ _ h := h

theorem State.StoresWf.act {s : State} (h : s.StoresWf) (n : Nat) (r : Req) : (performReq n r s).2.StoresWf := by
  by_cases hw : ∃ off v, r = .write off v
  · obtain ⟨off, v, rfl⟩ := hw
    exact storesWf_keptByStores.mmioWrite s off v h
  · obtain ⟨hm, hp, hs⟩ := performReq_stores n (r := r) s fun off v e => hw ⟨off, v, e⟩
    rwa [State.StoresWf, hm, hp, hs]

/-- Every elementary change keeps the stores canonical; those of the timer leave them alone. -/
theorem storesWf_kept : Kept State.StoresWf True where
  toKeptByStores := storesWf_keptByStores
  act n r _ h := h.act n r
  port _ _ _ h _ := h
  time _ _ h := h
  down _ _ h := h
  fired s n h := by
    unfold State.timerFire
    split
    · split <;> exact h
    · exact h
  reset _ h := h
  arm _ s n h := by
    unfold State.timerArm
    split
    · split <;> exact h
    · exact h
  cancel _ s n h := by
    unfold State.timerCancel
    split <;> exact h
  queues _ _ _ _ _ _ _ h _ _ := h

/-- Settles O13: an induction over what a step can do, whose case for an atomic action is `State.StoresWf.act`. -/
theorem storesKept : Obligations.StoresKept :=
  fun s t h e => storesWf_kept.step s t (fun _ _ => .inl trivial) h e

end Sys2Proof.Machine
end

section
/-! The PHY of a lane, register by register and SRAM word by SRAM word (20_memory.md R81, R82), and what the groups
of writes through the SRAM window do there (40_message_bus.md R174 to R177). -/

namespace Sys2Proof.Machine

variable {s : State} {p l q k : Nat}

/-! ### Bytes of a word -/

theorem joinBytes_hiByte_loByte (v : BitVec 16) : joinBytes (hiByte v) (loByte v) = v := by
  apply BitVec.eq_of_getLsbD_eq
  intro i hi
  interval_cases i <;> simp [joinBytes, hiByte, loByte]

/-! ### Where registers and words lie -/

theorem phyKey_inj {a b : BitVec 12} : phyKey p l a = phyKey p l b ↔ a = b := by
  rw [← BitVec.toNat_inj]
  unfold phyKey
  omega

/-- Every SRAM word of every lane has a place of its own, and a place is even. -/
theorem sramKey_inj (hl : l < 2) (hk : k < 2) {a b : BitVec 16} :
    sramKey q k b = sramKey p l a ↔ (q = p ∧ k = l) ∧ b = a := by
  rw [← BitVec.toNat_inj]
  unfold sramKey
  omega

theorem sramKey_ne_succ (a b : BitVec 16) : sramKey q k b ≠ sramKey p l a + 1 := by
  unfold sramKey
  omega

/-! ### One register and one word -/

theorem Memory.put_read_self (m : Memory) (a : Nat) (h : m.wf = true) : m.put a (m.read a) = m := by
  refine Memory.ext_read _ _ (Memory.put_wf m a _ h) h fun x => ?_
  rw [Memory.read_put m a _ x h]
  split
  · subst_vars; rfl
  · rfl

theorem State.phyReg_setPhyReg (hw : s.phy.wf = true) (a b : BitVec 12) (d : Byte) :
    (s.setPhyReg p l a d).phyReg p l b = if b = a then d else s.phyReg p l b := by
  simp only [State.phyReg, State.setPhyReg_phy, Memory.read_put _ _ _ _ hw, phyKey_inj]

/-- To write a register the value it holds changes nothing (20_memory.md R87). -/
theorem State.setPhyReg_phyReg_self (hw : s.phy.wf = true) (a : BitVec 12) :
    s.setPhyReg p l a (s.phyReg p l a) = s := by
  rw [State.setPhyReg, State.phyReg, Memory.put_read_self _ _ hw]

/-- An SRAM word that is written is read back, and every other word of every lane is left alone. -/
theorem State.sramWord_setSramWord (hw : s.sram.wf = true) (hl : l < 2) (hk : k < 2) (a v b : BitVec 16) :
    (s.setSramWord p l a v).sramWord q k b = if (q = p ∧ k = l) ∧ b = a then v else s.sramWord q k b := by
  have hw' := Memory.put_wf _ (sramKey p l a) (v.extractLsb' 0 8) hw
  have hlo : ((s.setSramWord p l a v).sram).read (sramKey q k b) =
      if (q = p ∧ k = l) ∧ b = a then loByte v else s.sram.read (sramKey q k b) := by
    rw [State.setSramWord_sram, Memory.read_put_ne _ _ _ _ (sramKey_ne_succ a b), Memory.read_put _ _ _ _ hw]
    simp only [sramKey_inj hl hk, loByte]
  have hhi : ((s.setSramWord p l a v).sram).read (sramKey q k b + 1) =
      if (q = p ∧ k = l) ∧ b = a then hiByte v else s.sram.read (sramKey q k b + 1) := by
    rw [State.setSramWord_sram, Memory.read_put _ _ _ _ hw', Memory.read_put_ne _ _ _ _ (sramKey_ne_succ b a).symm]
    simp only [Nat.add_right_cancel_iff, sramKey_inj hl hk, hiByte]
  rw [State.sramWord, hlo, hhi]
  split
  · exact joinBytes_hiByte_loByte v
  · rfl

/-! ### Uncommitted writes -/

theorem State.isUncommitted_iff {a : BitVec 12} : s.isUncommitted p l a = true ↔ (p, l, a) ∈ s.uncommitted := by
  simp [State.isUncommitted]

/-- An uncommitted write makes its register one of the uncommitted ones (log 8). -/
theorem State.isUncommitted_phyWrite_false (a b : BitVec 12) (d : Byte) :
    (s.phyWrite p l a d false).isUncommitted p l b = true ↔ b = a ∨ s.isUncommitted p l b = true := by
  simp only [State.isUncommitted_iff, State.phyWrite, State.setUncommitted, Bool.false_eq_true, if_false,
    State.setPhyReg_uncommitted]
  split
  next hm =>
    exact ⟨.inr, fun hb => hb.elim (fun e => e ▸ hm) id⟩
  next => simp [or_comm]

theorem State.phyReg_phyWrite_false (hw : s.phy.wf = true) (a b : BitVec 12) (d : Byte) :
    (s.phyWrite p l a d false).phyReg p l b = if b = a then d else s.phyReg p l b :=
  State.phyReg_setPhyReg hw a b d

theorem State.phyWrite_false_phy_wf (hw : s.phy.wf = true) (a : BitVec 12) (d : Byte) :
    (s.phyWrite p l a d false).phy.wf = true := Memory.put_wf _ _ _ hw

theorem State.phyWrite_false_sram (a : BitVec 12) (d : Byte) : (s.phyWrite p l a d false).sram = s.sram := rfl

/-- Where no register of a lane is uncommitted there is nothing to clear. -/
theorem State.clearUncommitted_eq_self (h : ∀ y, (p, l, y) ∉ s.uncommitted) : s.clearUncommitted p l = s := by
  rw [State.clearUncommitted, List.filter_eq_self.2]
  rintro ⟨q, k, y⟩ hy
  by_contra hc
  simp only [Bool.not_eq_true, Bool.not_eq_false', Bool.and_eq_true, beq_iff_eq] at hc
  obtain ⟨rfl, rfl⟩ := hc
  exact h y hy

/-! ### Committed writes -/

/-- A committed write that ends an SRAM_WRITE stores the word the window's write registers hold
(40_message_bus.md R177). -/
theorem State.phyWrite_of_endsSramWrite {a : BitVec 12} (d : Byte) (hw : s.endsSramWrite p l a = true)
    (hr : s.endsSramSelect p l a = false) :
    s.phyWrite p l a d true = ((s.setPhyReg p l a d).storeWriteData p l).clearUncommitted p l := by
  simp [State.phyWrite, State.commitWrite, hw, hr]

/-- A committed write that ends the addressing of an SRAM_READ loads the window's read-data registers
(40_message_bus.md R176). -/
theorem State.phyWrite_of_endsSramSelect {a : BitVec 12} (d : Byte) (hw : s.endsSramWrite p l a = false)
    (hr : s.endsSramSelect p l a = true) :
    s.phyWrite p l a d true = ((s.setPhyReg p l a d).loadReadData p l).clearUncommitted p l := by
  simp [State.phyWrite, State.commitWrite, hw, hr]

/-- A committed write on a lane that has no uncommitted register stores its byte and does nothing else (log 8). -/
theorem State.phyWrite_true_eq_setPhyReg (h : ∀ y, (p, l, y) ∉ s.uncommitted) (a : BitVec 12) (d : Byte) :
    s.phyWrite p l a d true = s.setPhyReg p l a d := by
  have hu : ∀ y, s.isUncommitted p l y = false := fun y => Bool.eq_false_iff.2 fun e => h y (State.isUncommitted_iff.1 e)
  have hw : s.endsSramWrite p l a = false := by simp [State.endsSramWrite, hu]
  have hr : s.endsSramSelect p l a = false := by simp [State.endsSramSelect, hu]
  simp only [State.phyWrite, State.commitWrite, hw, hr, if_true, Bool.false_eq_true, if_false]
  exact State.clearUncommitted_eq_self h

/-! ### The SRAM window -/

/-- The read-data registers hold the word that the read-address registers name, once they are loaded
(40_message_bus.md R176). -/
theorem State.sramData_loadReadData (hw : s.phy.wf = true)
    (hne : s.plat.c20Window.rdDataH ≠ s.plat.c20Window.rdDataL) :
    (s.loadReadData p l).sramData p l =
      s.sramWord p l (joinBytes (s.phyReg p l s.plat.c20Window.rdAddrH) (s.phyReg p l s.plat.c20Window.rdAddrL)) := by
  have hw' : ∀ a d, (s.setPhyReg p l a d).phy.wf = true := fun a d => Memory.put_wf _ _ _ hw
  simp only [State.sramData, State.phyRead, State.loadReadData_plat]
  simp only [State.loadReadData, State.phyReg_setPhyReg (hw' _ _), State.phyReg_setPhyReg hw, if_neg hne, if_true]
  exact joinBytes_hiByte_loByte _

/-- The committed write that ends an SRAM_WRITE stores its byte, below the high byte written before it, at the address
in the write-address registers (40_message_bus.md R177). -/
theorem State.phyWrite_wrDataL_sram (hd : windowDistinct s.plat.c20Window) (hw : s.phy.wf = true) (d : Byte)
    (hends : s.endsSramWrite p l s.plat.c20Window.wrDataL = true) :
    (s.phyWrite p l s.plat.c20Window.wrDataL d true).sram = (s.setSramWord p l
      (joinBytes (s.phyReg p l s.plat.c20Window.wrAddrH) (s.phyReg p l s.plat.c20Window.wrAddrL))
      (joinBytes (s.phyReg p l s.plat.c20Window.wrDataH) d)).sram := by
  simp only [windowDistinct, List.nodup_cons, List.mem_cons, not_or] at hd
  have hnot : s.endsSramSelect p l s.plat.c20Window.wrDataL = false := by simp [State.endsSramSelect, hd]
  rw [State.phyWrite_of_endsSramWrite d hends hnot, State.clearUncommitted_sram]
  simp only [State.storeWriteData, State.phyReg_setPhyReg hw, State.setPhyReg_plat, hd, if_true, if_false,
    State.setSramWord_sram, State.setPhyReg_sram]

/-- The committed write that ends the addressing of an SRAM_READ shows the word that the two read-address registers
name, and writes no word (40_message_bus.md R176). -/
theorem State.phyWrite_rdAddrL_loads (hd : windowDistinct s.plat.c20Window) (hw : s.phy.wf = true) (d : Byte)
    (hends : s.endsSramSelect p l s.plat.c20Window.rdAddrL = true) :
    (s.phyWrite p l s.plat.c20Window.rdAddrL d true).sramData p l =
        s.sramWord p l (joinBytes (s.phyReg p l s.plat.c20Window.rdAddrH) d) ∧
      (s.phyWrite p l s.plat.c20Window.rdAddrL d true).sram = s.sram := by
  simp only [windowDistinct, List.nodup_cons, List.mem_cons, not_or] at hd
  have hnot : s.endsSramWrite p l s.plat.c20Window.rdAddrL = false := by
    simp [State.endsSramWrite, hd, eq_comm (a := s.plat.c20Window.rdAddrL)]
  rw [State.phyWrite_of_endsSramSelect d hnot hends]
  refine ⟨?_, rfl⟩
  have hw' : (s.setPhyReg p l s.plat.c20Window.rdAddrL d).phy.wf = true := Memory.put_wf _ _ _ hw
  calc (((s.setPhyReg p l s.plat.c20Window.rdAddrL d).loadReadData p l).clearUncommitted p l).sramData p l
      = ((s.setPhyReg p l s.plat.c20Window.rdAddrL d).loadReadData p l).sramData p l := rfl
    _ = s.sramWord p l (joinBytes (s.phyReg p l s.plat.c20Window.rdAddrH) d) := by
      rw [State.sramData_loadReadData hw' (by simp [hd])]
      simp only [State.sramWord, State.phyReg_setPhyReg hw, State.setPhyReg_plat, State.setPhyReg_sram, hd, if_true,
        if_false]

/-- The four writes of SRAM_WRITE leave the SRAM with the word stored (40_message_bus.md R177): the first three make the
group that the committed one ends, and each register still holds what it was written. -/
theorem State.sramStore_sram (hd : windowDistinct s.plat.c20Window) (hw : s.phy.wf = true) (a v : BitVec 16) :
    (s.sramStore p l a v).sram = (s.setSramWord p l a v).sram := by
  unfold State.sramStore
  dsimp only
  generalize ht : ((s.phyWrite p l s.plat.c20Window.wrAddrH (hiByte a) false).phyWrite p l s.plat.c20Window.wrAddrL
    (loByte a) false).phyWrite p l s.plat.c20Window.wrDataH (hiByte v) false = t
  have hplat : t.plat = s.plat := by simp only [← ht, State.phyWrite_plat]
  have hsram : t.sram = s.sram := by simp only [← ht, State.phyWrite_false_sram]
  have hw1 := State.phyWrite_false_phy_wf (p := p) (l := l) hw s.plat.c20Window.wrAddrH (hiByte a)
  have hw2 := State.phyWrite_false_phy_wf (p := p) (l := l) hw1 s.plat.c20Window.wrAddrL (loByte a)
  have hwf : t.phy.wf = true := by rw [← ht, State.phyWrite_false_phy_wf hw2]
  have hends : t.endsSramWrite p l t.plat.c20Window.wrDataL = true := by
    rw [State.endsSramWrite, hplat]
    subst ht
    simp [State.isUncommitted_phyWrite_false]
  have hreg : ∀ b, t.phyReg p l b = if b = s.plat.c20Window.wrDataH then hiByte v else
      if b = s.plat.c20Window.wrAddrL then loByte a else
      if b = s.plat.c20Window.wrAddrH then hiByte a else s.phyReg p l b := fun b => by
    rw [← ht, State.phyReg_phyWrite_false hw2, State.phyReg_phyWrite_false hw1, State.phyReg_phyWrite_false hw]
  rw [← hplat, State.phyWrite_wrDataL_sram (hplat ▸ hd) hwf _ hends]
  simp only [windowDistinct, List.nodup_cons, List.mem_cons, not_or] at hd
  simp only [hplat, hreg, hd, if_true, if_false, joinBytes_hiByte_loByte, State.setSramWord_sram, hsram]

/-- The two writes that open an SRAM_READ leave the word in the read-data registers and the SRAM as it was
(40_message_bus.md R176): the first makes the group that the committed one ends. -/
theorem State.sramSelect_loads (hd : windowDistinct s.plat.c20Window) (hw : s.phy.wf = true) (a : BitVec 16) :
    (s.sramSelect p l a).sramData p l = s.sramWord p l a ∧ (s.sramSelect p l a).sram = s.sram := by
  unfold State.sramSelect
  dsimp only
  generalize ht : s.phyWrite p l s.plat.c20Window.rdAddrH (hiByte a) false = t
  have hplat : t.plat = s.plat := by rw [← ht, State.phyWrite_plat]
  have hsram : t.sram = s.sram := by rw [← ht, State.phyWrite_false_sram]
  have hwf : t.phy.wf = true := by rw [← ht, State.phyWrite_false_phy_wf hw]
  have hends : t.endsSramSelect p l t.plat.c20Window.rdAddrL = true := by
    rw [State.endsSramSelect, hplat]
    subst ht
    simp [State.isUncommitted_phyWrite_false]
  have hreg : t.phyReg p l t.plat.c20Window.rdAddrH = hiByte a := by
    rw [hplat, ← ht, State.phyReg_phyWrite_false hw, if_pos rfl]
  obtain ⟨hdata, hsame⟩ := State.phyWrite_rdAddrL_loads (hplat ▸ hd) hwf (loByte a) hends
  rw [← hplat, hdata, hsame, hreg, joinBytes_hiByte_loByte, State.sramWord, hsram]
  exact ⟨rfl, rfl⟩

/-- Settles O57: SRAM_WRITE's four writes leave the SRAM as one write of the word does, SRAM_READ's two load the word,
and without uncommitted registers a committed write stores its byte only. -/
theorem sramWindow : Obligations.SramWindow := by
  intro s p l hd hl hp hs a v
  have hstore : ∀ q k a', k < 2 → (s.sramStore p l a v).sramWord q k a' =
      if (q = p ∧ k = l) ∧ a' = a then v else s.sramWord q k a' := fun q k a' hk => by
    rw [← State.sramWord_setSramWord hs hl hk, State.sramWord, State.sramStore_sram hd hp]
    rfl
  obtain ⟨hdata, hsram⟩ := State.sramSelect_loads (p := p) (l := l) hd hp a
  refine ⟨fun a' => by simp [hstore p l a' hl], fun q k a' hk hne => by rw [hstore q k a' hk, if_neg fun h => hne h.1],
    hdata, hsram, fun x d hu => ?_⟩
  have hset := State.phyWrite_true_eq_setPhyReg hu x d
  exact ⟨hset, fun e => by rw [hset, e, State.setPhyReg_phyReg_self hp]⟩

end Sys2Proof.Machine
end

section
/-! The command words and the wire words, field by field (30_encoding.md R110 to R125): what a decoder reads from an
encoded word, and that a word that decodes is made of what the decoder read. -/

namespace Sys2Proof

open Machine

variable {w f : Word} {i j : Instr}

/-! ### The bits a command uses (30_encoding.md R111) -/

theorem onlyFields_eq_some_iff : onlyFields w f j = some i ↔ w &&& ~~~(0xFF#32 ||| f) = 0#32 ∧ j = i := by
  unfold onlyFields
  split <;> simp [*]

theorem onlyFields_eq_none_iff : onlyFields w f j = none ↔ ¬ w &&& ~~~(0xFF#32 ||| f) = 0#32 := by
  unfold onlyFields
  split <;> simp [*]

/-- A word that sets no bit outside a mask is not changed by the mask. -/
theorem and_of_outside {m : Word} (h : w &&& ~~~m = 0#32) : w &&& m = w := by
  calc w &&& m = w &&& m ||| w &&& ~~~m := by rw [h, BitVec.or_zero]
    _ = w := by rw [← BitVec.and_or_distrib_left, BitVec.or_not_self, BitVec.and_allOnes]

theorem getLsbD_of_outside {m : Word} (h : w &&& ~~~m = 0#32) {n : Nat} (hm : m.getLsbD n = false) :
    w.getLsbD n = false := by
  rw [← and_of_outside h, BitVec.getLsbD_and, hm, Bool.and_false]

theorem extractLsb'_of_outside {m : Word} (h : w &&& ~~~m = 0#32) {lo n : Nat} (hm : m.extractLsb' lo n = 0#n) :
    w.extractLsb' lo n = 0#n := by
  rw [← and_of_outside h, BitVec.extractLsb'_and, hm, BitVec.and_zero]

/-- A word with no bit outside a smaller mask has none outside a larger one. -/
theorem outside_mono {m m' : Word} (h : w &&& ~~~m = 0#32) (hm : m &&& ~~~m' = 0#32) : w &&& ~~~m' = 0#32 := by
  rw [← and_of_outside h, BitVec.and_assoc, hm, BitVec.and_zero]

/-- `OP` as the mask of spec/opcode_table.json takes it and as the decoder does. -/
theorem toNat_and_opcode (w : Word) : (w &&& 0xFF#32).toNat = (w.extractLsb' 0 8).toNat := by
  rw [BitVec.toNat_and, BitVec.extractLsb'_toNat, Nat.shiftRight_zero]
  exact Nat.and_two_pow_sub_one_eq_mod w.toNat 8

/-- A CMD word decodes exactly if it belongs to a row of the table of 30_encoding.md R119. -/
theorem decodeHost_eq_none_iff (w : Word) : decodeHost w = none ↔
    ∀ row ∈ hostRows, ¬ ((w &&& 0xFF#32).toNat = row.1 ∧ w &&& ~~~(0xFF#32 ||| row.2) = 0#32) := by
  rw [toNat_and_opcode]
  unfold decodeHost
  generalize (w.extractLsb' 0 8).toNat = op
  simp only [hostRows, List.cons_append, List.nil_append, List.forall_mem_cons, List.not_mem_nil, false_imp_iff,
    implies_true, and_true, not_and]
  split <;> simp_all [onlyFields_eq_none_iff, maskC, maskR, maskM, maskK, maskBus]

theorem exists_row_of_decodeHost (h : decodeHost w = some i) :
    ∃ row ∈ hostRows, (w &&& 0xFF#32).toNat = row.1 ∧ w &&& ~~~(0xFF#32 ||| row.2) = 0#32 := by
  by_contra hno
  rw [(decodeHost_eq_none_iff w).2 fun row hr he => hno ⟨row, hr, he⟩] at h
  cases h

/-- Settles O5: the decoder and the table of 30_encoding.md R119 have the same rows. -/
theorem illegalWords : Obligations.IllegalWords := decodeHost_eq_none_iff

/-! ### What the decoder reads from a bus command's word (30_encoding.md R110) -/

section BusCmd

variable (op : BitVec 8) (p : Nat) (l : BitVec 2) (k : Bool)

theorem opcode_busCmd : (busCmd op p l k).extractLsb' 0 8 = op := by
  apply BitVec.eq_of_getLsbD_eq
  intro n hn
  interval_cases n <;> simp [busCmd, cmdWord, place, bit]

theorem cmdK_busCmd : cmdK (busCmd op p l k) = k := by
  simp [cmdK, busCmd, cmdWord, place, bit]

theorem cmdLanes_busCmd : cmdLanes (busCmd op p l k) = l := by
  apply BitVec.eq_of_getLsbD_eq
  intro n hn
  interval_cases n <;> simp [cmdLanes, busCmd, cmdWord, place, bit]

theorem cmdPort_busCmd {p : Nat} (hp : p < 64) : cmdPort (busCmd op p l k) = p := by
  have hport : (busCmd op p l k).extractLsb' 22 6 = BitVec.ofNat 6 p := by
    apply BitVec.eq_of_getLsbD_eq
    intro n hn
    interval_cases n <;> simp [busCmd, cmdWord, place, bit]
  rw [cmdPort, hport, BitVec.toNat_ofNat, Nat.mod_eq_of_lt hp]

theorem busCmd_outside : busCmd op p l k &&& ~~~(0xFF#32 ||| (maskBus ||| maskK)) = 0#32 := by
  apply BitVec.eq_of_getLsbD_eq
  intro n hn
  interval_cases n <;> simp [busCmd, cmdWord, place, bit, maskBus, maskK]

theorem busCmd_outside_unset : busCmd op p l false &&& ~~~(0xFF#32 ||| maskBus) = 0#32 := by
  apply BitVec.eq_of_getLsbD_eq
  intro n hn
  interval_cases n <;> simp [busCmd, cmdWord, place, bit, maskBus]

end BusCmd

/-- The word of a host command decodes to it. -/
theorem decodeHost_encode (hi : isHost i = true) (hw : i.wellFormed = true) : decodeHost (encode i) = some i := by
  cases i
  case timerArm | timerCancel | timerFire | m2pWriteUncommitted | m2pWriteCommitted | m2pRead | m2pBusReset |
    p2mReadAck | p2mWriteAck => cases hi
  case calcPllClock flag | programMmio flag | setPllClock flag => cases flag <;> rfl
  case programPhy c r => cases c <;> cases r <;> rfl
  case mbReadOnce p l | mbRead p l | mbReset p l | sramRead p l | sramWrite p l =>
    have hp : p < 64 := of_decide_eq_true hw
    simp [encode, decodeHost, opcode_busCmd, onlyFields_eq_some_iff, busCmd_outside_unset, cmdPort_busCmd _ _ _ hp,
      cmdLanes_busCmd]
  case mbWriteOnce p l k | mbWrite p l k | mbRmw p l k =>
    have hp : p < 64 := of_decide_eq_true hw
    simp [encode, decodeHost, opcode_busCmd, onlyFields_eq_some_iff, busCmd_outside, cmdPort_busCmd _ _ _ hp,
      cmdLanes_busCmd, cmdK_busCmd]
  all_goals rfl

/-! ### The channel of a word -/

theorem decode_of_decodeWire (h : decodeWire w = some i) : decode w = some i := by
  simp [decode, channelOf, decodeOn, h]

theorem decodeWire_eq_none (htop : wireTop w = false) (hne : w ≠ m2pReset) : decodeWire w = none := by
  rw [decodeWire, decodeM2p_idle w htop hne]
  simp [decodeP2m, htop]

/-- A CMD word that decodes is no wire word and no internal code: its bit 31 is 0, and the opcodes differ from
the codes of 30_encoding.md R120. -/
theorem decode_of_decodeHost (h : decodeHost w = some i) : decode w = some i := by
  obtain ⟨row, hrow, hop, hout⟩ := exists_row_of_decodeHost h
  have htop : wireTop w = false := by
    have hbit : ∀ row ∈ hostRows, (0xFF#32 ||| row.2).getLsbD 31 = false := by decide
    exact getLsbD_of_outside hout (hbit row hrow)
  have hne : w ≠ m2pReset := by
    rintro rfl
    cases h
  have hint : decodeInternal w = none := by
    have hcodes : ∀ row ∈ hostRows, row.1 ≠ 0x30 ∧ row.1 ≠ 0x31 ∧ row.1 ≠ 0x32 := by decide
    obtain ⟨harm, hcancel, hfire⟩ := hcodes row hrow
    rw [decodeInternal, ← toNat_and_opcode, hop]
    split <;> trivial
  simp [decode, channelOf, decodeOn, decodeWire_eq_none htop hne, hint, h]

/-- A response type is no request type: the two directions share no code (30_encoding.md R125). -/
theorem decodeM2p_p2m {t : BitVec 4} (ht : t = 4 ∨ t = 5) (d : Byte) : decodeM2p (p2mWord t d) = none := by
  have hne : p2mWord t d ≠ m2pReset := fun h => absurd (h ▸ wireTop_p2m t d) (by decide)
  rw [decodeM2p, if_neg hne, wireType_p2m]
  rcases ht with rfl | rfl <;> exact ite_self _

theorem decodeP2m_readAck (d : Byte) : decodeP2m (p2mWord 4 d) = some (.p2mReadAck d) := by
  rw [decodeP2m, wireTop_p2m, wireBit15_p2m, wireType_p2m, wireData_p2m]
  rfl

theorem decodeP2m_writeAck (d : Byte) : decodeP2m (p2mWord 5 d) = some (.p2mWriteAck d) := by
  rw [decodeP2m, wireTop_p2m, wireBit15_p2m, wireType_p2m, wireData_p2m]
  rfl

/-- The word of an internal operation or of a wire command decodes to it. -/
theorem decode_encode_of_not_host (hi : isHost i = false) : decode (encode i) = some i := by
  have hwire : decodeM2p (encode i) = some i ∨ decodeM2p (encode i) = none ∧ decodeP2m (encode i) = some i →
      decode (encode i) = some i := by
    rintro (h | ⟨hm, hp⟩) <;> exact decode_of_decodeWire (by simp [decodeWire, *])
  cases i
  case timerArm | timerCancel | timerFire => decide
  case m2pWriteUncommitted a d => exact hwire (.inl (decodeM2p_uncommitted a d))
  case m2pWriteCommitted a d => exact hwire (.inl (decodeM2p_committed a d))
  case m2pRead a d => exact hwire (.inl (decodeM2p_read a d))
  case m2pBusReset => exact hwire (.inl decodeM2p_reset)
  case p2mReadAck d => exact hwire (.inr ⟨decodeM2p_p2m (.inl rfl) d, decodeP2m_readAck d⟩)
  case p2mWriteAck d => exact hwire (.inr ⟨decodeM2p_p2m (.inr rfl) d, decodeP2m_writeAck d⟩)
  all_goals cases hi

theorem decodeTableWord_toNat (w : Word) : decodeTableWord 32 w.toNat = decode w := by
  rw [decodeTableWord, if_pos ⟨Nat.le_refl _, w.isLt⟩, BitVec.ofNat_toNat, BitVec.setWidth_eq]

/-- Settles O1: a host command's word is no word of the two channels that go before it, and the other words decode on
their own channel. -/
theorem decodeEncode : Obligations.DecodeEncode := by
  intro i hw
  rw [decodeTableWord_toNat]
  cases hi : isHost i with
  | true => exact decode_of_decodeHost (decodeHost_encode hi hw)
  | false => exact decode_encode_of_not_host hi

/-! ### A word that decodes is made of what was read from it (30_encoding.md R110, R111, R122) -/

/-- A CMD word with no bit outside OP and the fields of R110 is made of them. -/
theorem cmdWord_fields (h : w &&& ~~~0x0FFF00FF#32 = 0#32) :
    cmdWord (w.extractLsb' 0 8) (cmdC w) (cmdR w) (cmdM w) (cmdK w) (cmdLanes w) (cmdPort w) = w := by
  have hport : BitVec.ofNat 6 (cmdPort w) = w.extractLsb' 22 6 := BitVec.ofNat_toNat _ _
  rw [cmdWord, hport]
  apply BitVec.eq_of_getLsbD_eq
  intro n hn
  have hzero := getLsbD_of_outside h (n := n)
  interval_cases n <;> simp_all [place, bit, cmdC, cmdR, cmdM, cmdK, cmdLanes]

/-- A flag that the command does not use is 0. -/
theorem used_and_bit (h : w &&& ~~~(0xFF#32 ||| f) = 0#32) {n : Nat} (hn : (0xFF#32).getLsbD n = false) :
    (f.getLsbD n && w.getLsbD n) = w.getLsbD n := by
  cases hf : f.getLsbD n with
  | true => rfl
  | false => rw [getLsbD_of_outside h (by rw [BitVec.getLsbD_or, hn, hf]; rfl), Bool.and_false]

/-- A word with no bit outside OP and C, R, M is made of OP and of the flags that its command uses. -/
theorem plainCmd_fields {op : Nat} (hop : (w.extractLsb' 0 8).toNat = op) (h : w &&& ~~~(0xFF#32 ||| f) = 0#32)
    (hf : (0xFF#32 ||| f) &&& ~~~0x000700FF#32 = 0#32) :
    plainCmd (BitVec.ofNat 8 op) (f.getLsbD 16 && cmdC w) (f.getLsbD 17 && cmdR w) (f.getLsbD 18 && cmdM w) = w := by
  have hout := outside_mono h hf
  have hK : cmdK w = false := getLsbD_of_outside hout rfl
  have hL : cmdLanes w = 0#2 := extractLsb'_of_outside hout (by decide)
  have hP : cmdPort w = 0 := congrArg BitVec.toNat (extractLsb'_of_outside hout (by decide : _ = 0#6))
  rw [cmdC, cmdR, cmdM, used_and_bit h rfl, used_and_bit h rfl, used_and_bit h rfl]
  conv => rhs; rw [← cmdWord_fields (outside_mono hout (by decide))]
  rw [plainCmd, hK, hL, hP, ← hop, BitVec.ofNat_toNat, BitVec.setWidth_eq]
  rfl

/-- A word with no bit outside OP, PORT, LANES and K is made of OP, PORT, LANES, and of K where its command uses it. -/
theorem busCmd_fields {op : Nat} (hop : (w.extractLsb' 0 8).toNat = op) (h : w &&& ~~~(0xFF#32 ||| f) = 0#32)
    (hf : (0xFF#32 ||| f) &&& ~~~0x0FF800FF#32 = 0#32) :
    busCmd (BitVec.ofNat 8 op) (cmdPort w) (cmdLanes w) (f.getLsbD 19 && cmdK w) = w := by
  have hout := outside_mono h hf
  have hC : cmdC w = false := getLsbD_of_outside hout rfl
  have hR : cmdR w = false := getLsbD_of_outside hout rfl
  have hM : cmdM w = false := getLsbD_of_outside hout rfl
  rw [cmdK, used_and_bit h rfl]
  conv => rhs; rw [← cmdWord_fields (outside_mono hout (by decide))]
  rw [busCmd, hC, hR, hM, ← hop, BitVec.ofNat_toNat, BitVec.setWidth_eq]
  rfl

/-- A CMD word that decodes is the word of its command: the eight rows with PORT and LANES, then the plain ones. -/
theorem encode_of_decodeHost (h : decodeHost w = some i) : i.wellFormed = true ∧ encode i = w := by
  have hport : cmdPort w < 64 := BitVec.isLt _
  unfold decodeHost at h
  split at h
  case h_23 => cases h
  all_goals
    rename_i hop
    obtain ⟨hout, rfl⟩ := onlyFields_eq_some_iff.1 h
  case h_15 | h_16 | h_17 | h_18 | h_19 | h_20 | h_21 | h_22 =>
    exact ⟨decide_eq_true hport, (busCmd_fields hop hout (by decide) :)⟩
  all_goals exact ⟨rfl, (plainCmd_fields hop hout (by decide) :)⟩

theorem getLsbD_of_extractLsb' {lo k : Nat} (h : w.extractLsb' lo k = 0#k) {n : Nat} (hlo : lo ≤ n)
    (hhi : n < lo + k) : w.getLsbD n = false := by
  have hbit := congrArg (BitVec.getLsbD · (n - lo)) h
  simpa [show n - lo < k by omega, Nat.add_sub_cancel' hlo] using hbit

/-- A word with PENDING whose reserved bits are 0 is made of its type, address and data (30_encoding.md R122). -/
theorem m2pWord_fields {c : Nat} (hc : wireType w = c) (htop : wireTop w = true) (hhi : w.extractLsb' 24 3 = 0#3)
    (hlo : w.extractLsb' 12 4 = 0#4) : m2pWord (BitVec.ofNat 4 c) (m2pAddr w) (wireData w) = w := by
  have htype : BitVec.ofNat 4 c = w.extractLsb' 27 4 := by rw [← hc]; exact BitVec.ofNat_toNat _ _
  rw [htype]
  apply BitVec.eq_of_getLsbD_eq
  intro n hn
  have hhi0 := getLsbD_of_extractLsb' hhi (n := n)
  have hlo0 := getLsbD_of_extractLsb' hlo (n := n)
  interval_cases n <;> simp_all [m2pWord, place, m2pAddr, wireData, wireTop]

/-- An M2P word that decodes is the reset word, or PENDING with the type, address and data of its command. -/
theorem encode_of_decodeM2p (h : decodeM2p w = some i) : i.wellFormed = true ∧ encode i = w := by
  unfold decodeM2p at h
  split at h
  case isTrue hw => cases h; exact ⟨rfl, hw.symm⟩
  split at h
  case isFalse => cases h
  rename_i hbits
  simp only [Bool.and_eq_true, beq_iff_eq] at hbits
  obtain ⟨⟨htop, hhi⟩, hlo⟩ := hbits
  split at h
  case h_4 => cases h
  all_goals
    rename_i htype
    cases h
    exact ⟨rfl, (m2pWord_fields htype htop hhi hlo :)⟩

/-- Settles O2, decoder by decoder. -/
theorem encodeDecode : Obligations.EncodeDecode :=
  fun _ _ h => h.elim encode_of_decodeHost encode_of_decodeM2p

end Sys2Proof
end

section
/-! The examples of 30_encoding.md (R124, R128), what one event of `inputs` does (R111, R112), and the operand checks
(R111, R113, R115). -/

namespace Sys2Proof.Machine

variable {s : State} {b : Bank} {n : Nat} {w : Word} {i : Instr} {rest : List Event}

/-! ### Examples -/

/-- Settles O3, by evaluation of the ten words. -/
theorem commandWords : Obligations.CommandWords := by
  unfold Obligations.CommandWords
  decide

/-- A word with ERROR set is no response, whatever its type (30_encoding.md R123). -/
theorem decodeP2m_of_error (h : wireBit15 w = true) : decodeP2m w = none := by
  rw [decodeP2m, h, Bool.not_true, Bool.and_false]
  rfl

theorem ackStatus_of_error (h : wireBit15 w = true) (expected : Nat) : ackStatus expected w = .busProtocolError :=
  if_pos h

/-- Settles O4: the words by evaluation, and the error response by its bit 15. -/
theorem wireWords : Obligations.WireWords := by
  refine ⟨rfl, rfl, rfl, rfl, rfl, rfl, rfl, rfl, rfl, rfl, rfl, ⟨0, rfl⟩, rfl, fun w expected h => ?_⟩
  exact ⟨decodeP2m_of_error h, ackStatus_of_error h expected⟩

/-! ### One event of `inputs` -/

theorem State.fetch_of_inputs {e : Event} (hv : s.plat.valid = true) (hin : s.inputs = e :: rest) :
    s.fetch = { s with inputs := rest }.fetchEvent e := by
  rw [State.fetch, if_pos hv, hin]

/-- A step whose event leaves an instruction to run is that instruction's meaning. -/
theorem step_of_instr {e : Event} {t : State} (hv : s.plat.valid = true) (hin : s.inputs = e :: rest)
    (he : { s with inputs := rest }.fetchEvent e = .instr i t) : step s = exec i t := by
  rw [step, State.fetch_of_inputs hv hin, he]

/-- A step whose event is a move ends with it. -/
theorem step_of_moved {e : Event} {t : State} (hv : s.plat.valid = true) (hin : s.inputs = e :: rest)
    (he : { s with inputs := rest }.fetchEvent e = .moved t) : step s = .next t := by
  rw [step, State.fetch_of_inputs hv hin, he]

/-- A command that ends at once changes STATUS and nothing else. -/
theorem run_ending_of_bank (hb : s.banks[n]? = some b) (hq : s.quiet) (cmd : Option Instr) (view : Core)
    (hist : List Resp) (st : Status) : run (.seq n cmd view) hist (.ending st) s = s.ended n b b.core st := by
  conv_lhs => rw [← State.withCore_self hb]
  exact run_end (lt_of_bank hb) _ _ _ _ _ hq

theorem State.fetchHost_busy (hb : s.banks[n]? = some b) (hbusy : b.core.busy = true) (w : Word) :
    s.fetchHost n w = .moved (s.withCore n b b.core.setOverrun) := by
  rw [State.fetchHost, State.core?_of_bank hb, ← State.modifyCore_of_bank hb]
  exact if_pos hbusy

theorem State.fetchHost_instr (hb : s.banks[n]? = some b) (hbusy : b.core.busy = false) (hd : decodeHost w = some i) :
    s.fetchHost n w = .instr i { s.withCore n b (b.core.accept w) with cur := n } := by
  simp only [State.fetchHost, State.core?_of_bank hb, hbusy, hd, State.modifyCore_of_bank hb, Bool.false_eq_true,
    if_false]

/-- An accepted word that does not decode runs to its end at once. -/
theorem State.fetchHost_illegal (hb : s.banks[n]? = some b) (hbusy : b.core.busy = false) (hq : s.quiet)
    (hd : decodeHost w = none) :
    s.fetchHost n w = .moved ({ s with cur := n }.ended n b (b.core.accept w) .illegalCommand) := by
  simp only [State.fetchHost, State.core?_of_bank hb, hbusy, hd, State.modifyCore_of_bank hb, Bool.false_eq_true,
    if_false]
  exact congrArg Fetched.moved (run_end (s := { s with cur := n }) (lt_of_bank hb) _ _ _ _ _ hq)

/-- Settles O7: the fetch finds the instruction in each of the three events. -/
theorem stepRunsDecoded : Obligations.StepRunsDecoded := by
  refine ⟨fun s n w rest b i hv hin hb hbusy hd => ?_, fun s n w rest i hv hin hd => ?_,
    fun s p l w rest i hv hin hd => ?_⟩
  · exact step_of_instr hv hin (State.fetchHost_instr (s := { s with inputs := rest }) hb hbusy hd)
  · exact step_of_instr hv hin (by rw [State.fetchEvent, hd])
  · exact step_of_instr hv hin (by rw [State.fetchEvent, hd])

/-- Settles O6: the word decodes to nothing (`illegalWords`), and its program ends at once. -/
theorem illegalCommandEnds : Obligations.IllegalCommandEnds := by
  intro s n w rest b hv hq hin hb hbusy hrows
  have hd := (decodeHost_eq_none_iff w).2 hrows
  exact step_of_moved hv hin (State.fetchHost_illegal (s := { s with inputs := rest }) hb hbusy hq hd)

/-- A write of an operand register is a move of that register. -/
theorem step_of_hostArg {k : Nat} {v : BitVec 64} (hv : s.plat.valid = true) (hb : s.banks[n]? = some b)
    (hin : s.inputs = .hostArg n k v :: rest) :
    step s = .next ({ s with inputs := rest }.withCore n b (b.core.writeArg k v)) := by
  rw [← State.modifyCore_of_bank (s := { s with inputs := rest }) hb]
  exact step_of_moved hv hin rfl

/-- Settles O8: a dropped write and an operand write are moves of the bank's registers. -/
theorem portWrites : Obligations.PortWrites := by
  refine ⟨fun s n w rest b hv hin hb hbusy => ?_, fun s n v rest b hv hb => ?_⟩
  · exact step_of_moved hv hin (State.fetchHost_busy (s := { s with inputs := rest }) hb hbusy w)
  · exact ⟨step_of_hostArg hv hb, step_of_hostArg hv hb, step_of_hostArg hv hb, step_of_hostArg hv hb,
      step_of_hostArg hv hb⟩

/-! ### The operand checks -/

/-- A binary64 value is finite where its exponent field is not all ones (30_encoding.md R113). -/
theorem isFinite_iff (x : BitVec 64) : B64.isFinite x = true ↔ ¬ notFinite x := by
  have hx := x.isLt
  rw [B64.isFinite, decide_eq_true_eq, B64.mag, B64.infMag, notFinite]
  omega

theorem fitsU_iff (k : Nat) (x : BitVec 64) : fitsU k x = true ↔ ¬ 2 ^ k ≤ x.toNat := by
  rw [fitsU, decide_eq_true_eq, Nat.not_le]

theorem busOperandsOk_iff (p : Platform) (port : Nat) (lanes : BitVec 2) :
    busOperandsOk p port lanes = true ↔ ¬ p.busPorts.length ≤ port ∧ ¬ lanes = 0#2 := by
  rw [busOperandsOk, Bool.and_eq_true, decide_eq_true_eq, bne_iff_ne, Platform.numPorts, Nat.not_le]
  rfl

/-- The operand checks pass where no operand is bad. -/
theorem operandsOk_iff (p : Platform) (i : Instr) (c : Core) : operandsOk p i c = true ↔ ¬ badOperand p i c := by
  cases i
  all_goals simp only [operandsOk, badOperand, isFinite_iff, fitsU_iff, busOperandsOk_iff, Bool.and_eq_true,
    decide_eq_true_eq, not_or, not_not, not_false_eq_true, and_assoc]

/-- Where the table of 42_stepping_controller.md R278 has the entry `run`, the command's rule runs: the two tables agree
entry by entry. -/
theorem legality_of_entry {f : Fsm} (h : legalityEntry i f = some none) : legality i f = .run := by
  cases i <;> cases f <;> cases h <;> rfl

/-- A command the table runs ends INVALID_ARGUMENT where an operand is bad. -/
theorem guarded_badOperand {code : Platform → Core → Code Status} {p : Platform} {c : Core}
    (hl : legality i c.fsm = .run) (ho : badOperand p i c) : guarded i code p c = .ending .invalidArgument := by
  rw [guarded, hl]
  exact if_neg fun hok => (operandsOk_iff p i c).1 hok ho

theorem isHost_of_badOperand {p : Platform} {c : Core} (h : badOperand p i c) : isHost i = true := by
  cases i
  case timerArm | timerCancel | timerFire | m2pWriteUncommitted | m2pWriteCommitted | m2pRead | m2pBusReset |
    p2mReadAck | p2mWriteAck => cases h
  all_goals rfl

/-- Settles O21: the operand check comes right after the legality check, before any action of the command. -/
theorem operandChecks : Obligations.OperandChecks := by
  intro s b i hb hq hentry hbad
  rw [exec_host (isHost_of_badOperand hbad), State.runCommand_of_bank hb,
    guarded_badOperand (legality_of_entry hentry) hbad]
  exact congrArg Host.Outcome.next (run_ending_of_bank hb hq _ _ _ _)

end Sys2Proof.Machine
end

section
/-! How a bus command comes to its end (60_exceptions.md R371, R372): what its pseudocode reaches, whoever runs it, and
the write of RESULT and STATUS that follows. -/

namespace Sys2Proof.Machine

variable {α β : Type} {s t u : State} {b : Bank} {i : Instr} {p l : Nat} {L : List Nat}

/-! ### What a piece of pseudocode reaches -/

/-- Whoever runs the code from `s`, and whatever comes after it, it gives an answer and leaves a state of which `P`
holds. -/
def Code.reaches (c : Code α) (s : State) (P : α → State → Prop) : Prop :=
  ∀ (who : Runner) (hist : List Resp) (k : α → Prog), ∃ hist' a t, P a t ∧ run who hist (c k) s = run who hist' (k a) t

theorem Code.reaches.mono {c : Code α} {P Q : α → State → Prop} (h : c.reaches s P) (hPQ : ∀ a t, P a t → Q a t) :
    c.reaches s Q := fun who hist k =>
  let ⟨hist', a, t, hP, e⟩ := h who hist k
  ⟨hist', a, t, hPQ a t hP, e⟩

theorem Code.reaches_pure {a : α} {P : α → State → Prop} (h : P a s) : (pure a : Code α).reaches s P :=
  fun _ hist _ => ⟨hist, a, s, h, rfl⟩

theorem Code.reaches.bind {c : Code α} {f : α → Code β} {P : α → State → Prop} {Q : β → State → Prop}
    (h : c.reaches s P) (hf : ∀ a t, P a t → (f a).reaches t Q) : (c >>= f).reaches s Q := fun who hist k =>
  let ⟨hist1, a, t, hP, e1⟩ := h who hist fun a => f a k
  let ⟨hist2, b, u, hQ, e2⟩ := hf a t hP who hist1 k
  ⟨hist2, b, u, hQ, e1.trans e2⟩

/-- Code that ends with one answer in one state reaches these. -/
theorem Code.ends.reaches {c : Code α} {a : α} (h : c.ends s a t) : c.reaches s fun a' t' => a' = a ∧ t' = t :=
  fun who hist k =>
  let ⟨hist', e⟩ := h who hist
  ⟨hist', a, t, ⟨rfl, rfl⟩, e k⟩

/-! ### The end of a command -/

theorem isHost_of_entry {f : Fsm} {o : Option Status} (h : legalityEntry i f = some o) : isHost i = true := by
  cases i
  case timerArm | timerCancel | timerFire | m2pWriteUncommitted | m2pWriteCommitted | m2pRead | m2pBusReset |
    p2mReadAck | p2mWriteAck => cases h
  all_goals rfl

/-- A command that the table runs, and whose operands are good, runs its pseudocode. -/
theorem exec_eq_run (hb : s.banks[s.cur]? = some b) (hl : legalityEntry i b.core.fsm = some none)
    (ho : ¬ badOperand s.plat i b.core) :
    exec i s = .next (run (.seq s.cur (some i) b.core) [] (codeOf i s.plat b.core Prog.ending) s) := by
  rw [exec_host (isHost_of_entry hl), State.runCommand_of_bank hb,
    guarded_run (legality_of_entry hl) ((operandsOk_iff _ _ _).2 ho)]

/-- A command whose pseudocode leaves its bank alone ends with the status the pseudocode gives. -/
theorem exec_of_reaches (hb : s.banks[s.cur]? = some b) (hl : legalityEntry i b.core.fsm = some none)
    (ho : ¬ badOperand s.plat i b.core) {P : Status → State → Prop} (h : (codeOf i s.plat b.core).reaches s P)
    (hP : ∀ st t, P st t → t.banks = s.banks ∧ t.quiet) :
    ∃ st t, P st t ∧ exec i s = .next (t.ended s.cur b b.core st) := by
  obtain ⟨hist, st, t, ht, e⟩ := h (.seq s.cur (some i) b.core) [] Prog.ending
  obtain ⟨hbanks, hq⟩ := hP st t ht
  exact ⟨st, t, ht, by rw [exec_eq_run hb hl ho, e, run_ending_of_bank (hbanks ▸ hb) hq]⟩

/-- A command that returns a value writes RESULT before it ends (40_message_bus.md R163, R165, R176). -/
def withResult {n : Nat} (c : Code (Status × BitVec n)) : Code Status := do
  let (st, d) ← c
  perform (.setResult (d.setWidth 64))
  return st

theorem codeOf_mbRead (plat : Platform) (c : Core) (lanes : BitVec 2) :
    codeOf (.mbRead p lanes) plat c = withResult (mbRead plat p (lowestLane lanes) (operandAddr c.arg0)) := rfl

theorem codeOf_mbReadOnce (plat : Platform) (c : Core) (lanes : BitVec 2) :
    codeOf (.mbReadOnce p lanes) plat c = withResult (readAttempt plat p (lowestLane lanes) (operandAddr c.arg0)) := rfl

theorem codeOf_sramRead (plat : Platform) (c : Core) (lanes : BitVec 2) :
    codeOf (.sramRead p lanes) plat c = withResult (sramRead plat p (lowestLane lanes) (operandHalf c.arg0)) := rfl

/-- Such a command ends with the status and the value its pseudocode gives. -/
theorem exec_of_reaches_result {n : Nat} {c : Code (Status × BitVec n)} (hb : s.banks[s.cur]? = some b)
    (hl : legalityEntry i b.core.fsm = some none) (ho : ¬ badOperand s.plat i b.core)
    (hc : codeOf i s.plat b.core = withResult c) {P : Status × BitVec n → State → Prop} (h : c.reaches s P)
    (hP : ∀ x t, P x t → t.banks = s.banks ∧ t.quiet) :
    ∃ x t, P x t ∧ exec i s = .next (t.ended s.cur b { b.core with result := x.2.setWidth 64 } x.1) := by
  obtain ⟨hist, ⟨st, d⟩, t, ht, e⟩ := h (.seq s.cur (some i) b.core) [] fun x => (do
    perform (.setResult (x.2.setWidth 64)); return x.1 : Code Status) Prog.ending
  obtain ⟨hbanks, hq⟩ := hP _ t ht
  have hbt : t.banks[s.cur]? = some b := hbanks ▸ hb
  refine ⟨(st, d), t, ht, ?_⟩
  rw [exec_eq_run hb hl ho, hc, withResult, Code.bind_apply, e, Code.bind_apply, ← State.withCore_self hbt,
    run_local_at (lt_of_bank hbt) _ _ _ _ _ _ hq rfl, Code.pure_apply, run_end (lt_of_bank hbt) _ _ _ _ _ hq,
    State.withCore_self hbt]
  rfl

/-! ### The lanes of a bus command (30_encoding.md R116) -/

theorem setLanes_eq (lanes : BitVec 2) : setLanes lanes = [0, 1].filter fun l => lanes.getLsbD l := rfl

/-- The first lane of a mask that names one is its lowest. -/
theorem setLanes_head? {lanes : BitVec 2} (h : lanes ≠ 0#2) : (setLanes lanes).head? = some (lowestLane lanes) := by
  revert lanes
  decide

theorem lt_two_of_mem_setLanes {lanes : BitVec 2} (h : l ∈ setLanes lanes) : l < 2 :=
  List.mem_range.1 (List.mem_filter.1 h).1

/-- A port that exists has two lanes (00_scope.md R7). -/
theorem exists_laneRegs? {plat : Platform} (hp : p < plat.busPorts.length) (hl : l < 2) :
    ∃ r, plat.laneRegs? p l = some r := by
  have hq := List.getElem?_eq_getElem hp
  rcases Nat.lt_succ_iff_lt_or_eq.1 hl with h0 | rfl
  · exact ⟨plat.busPorts[p].lane0, by simp only [Platform.laneRegs?, hq, Nat.lt_one_iff.1 h0, if_true]⟩
  · exact ⟨plat.busPorts[p].lane1, by simp only [Platform.laneRegs?, hq, one_ne_zero, if_false, if_true]⟩

/-! ### A PHY that answers -/

/-- A state that differs in the PHYs' registers, SRAM and marks of uncommitted writes at most. -/
def State.phyOnly (s t : State) : Prop := ∃ ph sr un, t = { s with phy := ph, sram := sr, uncommitted := un }

theorem State.phyOnly.refl (s : State) : s.phyOnly s := ⟨_, _, _, rfl⟩

theorem State.phyOnly.trans (h : s.phyOnly t) (h' : t.phyOnly u) : s.phyOnly u := by
  obtain ⟨ph, sr, un, rfl⟩ := h
  obtain ⟨ph', sr', un', rfl⟩ := h'
  exact ⟨ph', sr', un', rfl⟩

theorem State.phyOnly_phyWrite (s : State) (p l : Nat) (a : BitVec 12) (d : Byte) (k : Bool) :
    s.phyOnly (s.phyWrite p l a d k) := s.phyWrite_eq p l a d k

theorem State.phyOnly_rmw (s : State) (p l : Nat) (a : BitVec 12) (clr set : Byte) (k : Bool) :
    s.phyOnly (s.rmw p l a clr set k) := by
  unfold State.rmw
  split
  · exact .refl s
  · exact s.phyOnly_phyWrite ..

theorem State.phyOnly_sramSelect (s : State) (p l : Nat) (a : BitVec 16) : s.phyOnly (s.sramSelect p l a) :=
  (s.phyOnly_phyWrite ..).trans (State.phyOnly_phyWrite ..)

theorem State.phyOnly_sramStore (s : State) (p l : Nat) (a v : BitVec 16) : s.phyOnly (s.sramStore p l a v) :=
  (s.phyOnly_phyWrite ..).trans ((State.phyOnly_phyWrite ..).trans
    ((State.phyOnly_phyWrite ..).trans (State.phyOnly_phyWrite ..)))

theorem State.phyOnly_foldl {f : State → Nat → State} (h : ∀ (t : State) l, t.phyOnly (f t l)) (lanes : List Nat) (s : State) :
    s.phyOnly (lanes.foldl f s) := by
  induction lanes generalizing s with
  | nil => exact .refl s
  | cons l rest ih => exact (h s l).trans (ih (f s l))

theorem State.phyOnly.plat (h : s.phyOnly t) : t.plat = s.plat := by
  obtain ⟨ph, sr, un, rfl⟩ := h
  rfl

/-- On ready lanes a bus operation gives its answer, and beside its effect on the PHY only the lanes' registers and the
trace differ. -/
theorem BusOp.reaches {c : Code α} {res : α} (h : BusOp s p L c res u) (hu : s.phyOnly u) (hr : s.lanesReady p L)
    (hq : s.quiet) : c.reaches s fun a t => a = res ∧ ∃ m tr, s.touched p L m ∧ t = u.after m tr := by
  intro who hist k
  obtain ⟨hist', m, tr, hm, e⟩ := h who hist k s.mmio s.trace (hr.held hq)
  obtain ⟨ph, sr, un, rfl⟩ := hu
  exact ⟨hist', res, _, ⟨rfl, m, tr, hm.store, rfl⟩, e⟩

theorem State.phyOnly.after (hu : s.phyOnly u) (hq : s.quiet) {m : Memory} {tr : List Record} :
    (u.after m tr).banks = s.banks ∧ (u.after m tr).quiet := by
  obtain ⟨ph, sr, un, rfl⟩ := hu
  exact ⟨rfl, hq⟩

/-- A command whose pseudocode is one bus operation on ready lanes. -/
theorem exec_of_busOp (hb : s.banks[s.cur]? = some b) (hq : s.quiet) (hl : legalityEntry i b.core.fsm = some none)
    (ho : ¬ badOperand s.plat i b.core) (hr : s.lanesReady p L) {st : Status}
    (h : BusOp s p L (codeOf i s.plat b.core) st u) (hu : s.phyOnly u) :
    ∃ m tr, s.touched p L m ∧ exec i s = .next ((u.after m tr).ended s.cur b b.core st) := by
  obtain ⟨st', t, ⟨rfl, m, tr, hm, rfl⟩, e⟩ := exec_of_reaches hb hl ho (h.reaches hu hr hq) fun st' t ht => by
    obtain ⟨-, m, tr, -, rfl⟩ := ht
    exact hu.after hq
  exact ⟨m, tr, hm, e⟩

/-- The same for a command that returns a value. -/
theorem exec_of_busOp_result {n : Nat} {c : Code (Status × BitVec n)} (hb : s.banks[s.cur]? = some b) (hq : s.quiet)
    (hl : legalityEntry i b.core.fsm = some none) (ho : ¬ badOperand s.plat i b.core)
    (hc : codeOf i s.plat b.core = withResult c) (hr : s.lanesReady p L) {st : Status} {d : BitVec n}
    (h : BusOp s p L c (st, d) u) (hu : s.phyOnly u) :
    ∃ m tr, s.touched p L m ∧
      exec i s = .next ((u.after m tr).ended s.cur b { b.core with result := d.setWidth 64 } st) := by
  obtain ⟨x, t, ⟨rfl, m, tr, hm, rfl⟩, e⟩ := exec_of_reaches_result hb hl ho hc (h.reaches hu hr hq) fun x t ht => by
    obtain ⟨-, m, tr, -, rfl⟩ := ht
    exact hu.after hq
  exact ⟨m, tr, hm, e⟩

/-- A command that makes a single-lane operation on every set lane, ascending (30_encoding.md R116). -/
theorem exec_of_onLanes {op : Nat → Code Status} {f : State → Nat → State} (hb : s.banks[s.cur]? = some b) (hq : s.quiet)
    (hl : legalityEntry i b.core.fsm = some none) (ho : ¬ badOperand s.plat i b.core)
    (hc : codeOf i s.plat b.core = onLanes op L) (hr : s.lanesReady p L) (hf : ∀ (t : State) l, t.phyOnly (f t l))
    (h : ∀ t l, t.plat = s.plat → l ∈ L → BusOp t p L (op l) .ok (f t l)) :
    ∃ m tr, s.touched p L m ∧ exec i s = .next (((L.foldl f s).after m tr).ended s.cur b b.core .ok) := by
  have hop : BusOp s p L (onLanes op L) .ok (L.foldl f s) := busOp_onLanes (fun t l => (hf t l).plat) h L fun _ hm => hm
  exact exec_of_busOp hb hq hl ho hr (hc ▸ hop) (State.phyOnly_foldl hf L s)

/-- The attempt of MB_WRITE_ONCE, with the configuration under another name. -/
theorem busOp_writeAttempt_of {plat : Platform} (e : s.plat = plat) (hl : l ∈ L) (a : BitVec 12) (d : Byte)
    (committed : Bool) : BusOp s p L (writeAttempt plat p l a d committed) .ok (s.phyWrite p l a d committed) := by
  subst e
  exact busOp_writeAttempt hl a d committed

theorem busOp_mbRmw_of {plat : Platform} (e : s.plat = plat) (hl : l ∈ L) (a : BitVec 12) (clr set : Byte)
    (committed : Bool) : BusOp s p L (mbRmw plat p l a clr set committed) .ok (s.rmw p l a clr set committed) := by
  subst e
  exact busOp_mbRmw hl a clr set committed

/-- Settles O52: one attempt and three make the same read on a ready lane. -/
theorem busReads : Obligations.BusReads := by
  intro s b i p l lanes hb hq hi hl ho hlane hr
  obtain rfl : l = lowestLane lanes := hlane
  have hmem : lowestLane lanes ∈ [lowestLane lanes] := .head _
  rcases hi with rfl | rfl
  · exact exec_of_busOp_result hb hq hl ho (codeOf_mbRead ..) hr (busOp_mbRead hmem _) (.refl s)
  · exact exec_of_busOp_result hb hq hl ho (codeOf_mbReadOnce ..) hr (busOp_readAttempt hmem _) (.refl s)

/-- Settles O53: each set lane takes one write, whether the command could make one attempt or three. -/
theorem busWrites : Obligations.BusWrites := by
  intro s b i p lanes k L hb hq hi hl ho hL hr
  obtain rfl : L = setLanes lanes := hL
  rcases hi with rfl | rfl
  · exact exec_of_onLanes hb hq hl ho rfl hr (fun t l => t.phyOnly_phyWrite ..) fun t l ht hm =>
      busOp_mbWrite_of ht hm _ _ k
  · exact exec_of_onLanes hb hq hl ho rfl hr (fun t l => t.phyOnly_phyWrite ..) fun t l ht hm =>
      busOp_writeAttempt_of ht hm _ _ k

/-- Settles O54: `State.rmw` is the read-modify-write of one lane. -/
theorem busReadModifyWrites : Obligations.BusReadModifyWrites := by
  intro s b p lanes k L a clr set hb hq hl ho hL hr ha hclr hset
  obtain rfl : L = setLanes lanes := hL
  subst ha hclr hset
  exact exec_of_onLanes hb hq hl ho rfl hr (fun t l => t.phyOnly_rmw ..) fun t l ht hm => busOp_mbRmw_of ht hm _ _ _ k

/-- Settles O56: the window's accesses on the lowest lane, and on every set one. -/
theorem sramCommands : Obligations.SramCommands := by
  intro s b p lanes L l hb hq hl hL hlane
  obtain rfl : L = setLanes lanes := hL
  obtain rfl : l = lowestLane lanes := hlane
  refine ⟨fun ho hr => ?_, fun ho hr => ?_⟩
  · exact exec_of_busOp_result (i := .sramRead p lanes) hb hq hl ho (codeOf_sramRead ..) hr (busOp_sramRead (.head _) _)
      (s.phyOnly_sramSelect ..)
  · exact exec_of_onLanes hb hq hl ho rfl hr (fun t l => t.phyOnly_sramStore ..) fun t l ht hm =>
      busOp_sramWrite_of ht hm _ _

/-! ### Wire words -/

theorem State.onLane_of_some {r : LaneRegs} (hr : s.plat.laneRegs? s.busPort s.busLane = some r)
    (f : Nat → Nat → LaneRegs → State) : s.onLane f = .next (f s.busPort s.busLane r) := by
  rw [State.onLane, hr]

/-- What the PHY writes does not depend on a word of the MMIO store. -/
theorem State.phyWrite_pokeWord (s : State) (off v : Word) (a : BitVec 12) (d : Byte) (k : Bool) :
    (s.pokeWord off v).phyWrite p l a d k = { s.phyWrite p l a d k with mmio := s.mmio.putWord off v } := by
  have e := State.withAccess_phyWrite (s := s) (p := p) (l := l) (s.mmio.putWord off v) s.trace a d k
  obtain ⟨ph, sr, un, h⟩ := s.phyWrite_eq p l a d k
  rw [h] at e ⊢
  exact e

/-- The words of the six wire instructions. -/
def Instr.isWire : Instr → Bool
  | .m2pWriteUncommitted _ _ | .m2pWriteCommitted _ _ | .m2pRead _ _ | .m2pBusReset | .p2mReadAck _ | .p2mWriteAck _ => true
  | _ => false

/-- A wire word run as an instruction acts on the lane it is on (log 15). -/
theorem exec_wire {r : LaneRegs} (hr : s.plat.laneRegs? s.busPort s.busLane = some r) (hi : Instr.isWire i = true) :
    exec i s = .next (s.wireAct s.busPort s.busLane r i) := by
  have harm : exec i s = s.onLane fun p l r => s.wireAct p l r i := by
    cases i
    case m2pWriteUncommitted | m2pWriteCommitted | m2pRead | m2pBusReset | p2mReadAck | p2mWriteAck => rfl
    all_goals cases hi
  rw [harm, State.onLane_of_some hr]

/-- A read's response, as the word the PHY posts (30_encoding.md R123, 10_state.md R53). -/
theorem p2mWord_four (d : Byte) : p2mWord 4 d = 0x80000000 ||| (4 <<< 27) ||| (d.setWidth 32 <<< 16) := by
  rw [p2mWord, show place (4 : BitVec 4) 27 = ((4 <<< 27 : Nat) : Word) by decide]
  rfl

/-- A write's response. -/
theorem p2mWord_five (d : Byte) : p2mWord 5 d = 0x80000000 ||| (5 <<< 27) ||| (d.setWidth 32 <<< 16) := by
  rw [p2mWord, show place (5 : BitVec 4) 27 = ((5 <<< 27 : Nat) : Word) by decide]
  rfl

/-- Settles O58: each word is an action on the lane it is on; a write leaves the MMIO store to the words. -/
theorem wireWordsAct : Obligations.WireWordsAct := by
  intro s r a d hr
  have hack : p2mWord 5 0 = 0x80000000 ||| (5 <<< 27) := by
    rw [p2mWord_five]
    simp
  have hreset : m2pReset &&& 0x7FFF7FFF#32 = 0 := by decide
  have acts : ∀ {i : Instr} {t : State}, Instr.isWire i = true → s.wireAct s.busPort s.busLane r i = t →
      exec i s = .next t := fun hi e => (exec_wire hr hi).trans (congrArg Host.Outcome.next e)
  refine ⟨acts rfl ?_, acts rfl ?_, acts rfl ?_, acts rfl ?_, acts rfl ?_, acts rfl ?_⟩
  · exact State.phyWrite_pokeWord s _ _ a d false
  · change ((s.pokeWord r.ctl _).phyWrite _ _ a d true).postResponse r 5 0 = _
    rw [State.phyWrite_pokeWord, State.postResponse, State.pokeWord, hack]
    rfl
  · change ((s.pokeWord r.ctl _).postResponse r 4 _) = _
    rw [State.postResponse, p2mWord_four]
    rfl
  · change s.pokeWord r.ctl (m2pReset &&& 0x7FFF7FFF#32) = _
    rw [hreset]
    rfl
  · change s.postResponse r 4 d = _
    rw [State.postResponse, p2mWord_four]
    rfl
  · change s.postResponse r 5 d = _
    rw [State.postResponse, p2mWord_five]
    rfl

end Sys2Proof.Machine
end

section
/-! Bus commands where the PHY never answers (40_message_bus.md R157 to R160), and the waits that see the same word at
every poll (R151, R156). -/

namespace Sys2Proof.Machine

variable {s t : State} {b : Bank} {i : Instr} {p l : Nat} {r : LaneRegs}

/-! ### No answer -/

theorem Code.tries.reaches {α : Type} {c : Code α} {a : α} {n : Nat} (h : c.tries s r n a) :
    c.reaches s fun a' t => a' = a ∧ Tried s r n t := by
  obtain ⟨t, e, ht⟩ := h
  exact e.reaches.mono fun _ _ ⟨ha, he⟩ => ⟨ha, he ▸ ht⟩

theorem Tried.banks_quiet {n : Nat} (h : Tried s r n t) (hq : s.quiet) : t.banks = s.banks ∧ t.quiet := by
  obtain ⟨m, tr, now, rfl, -⟩ := h
  exact ⟨rfl, hq⟩

/-- A bus command that has failed after this many attempts, each with its bus reset. -/
def State.failsAfter (s : State) (i : Instr) (b : Bank) (r : LaneRegs) (attempts : Nat) : Prop :=
  ∃ t, Tried s r attempts t ∧ exec i s = .next (t.ended s.cur b
    { b.core with result := if returnsValue i then 0 else b.core.result } .busTimeout)

theorem failsAfter_of_tries {attempts : Nat} (hb : s.banks[s.cur]? = some b) (hq : s.quiet)
    (hl : legalityEntry i b.core.fsm = some none) (ho : ¬ badOperand s.plat i b.core) (hi : returnsValue i = false)
    (h : (codeOf i s.plat b.core).tries s r attempts .busTimeout) : s.failsAfter i b r attempts := by
  obtain ⟨st, t, ⟨rfl, ht⟩, e⟩ := exec_of_reaches hb hl ho h.reaches fun _ _ h => h.2.banks_quiet hq
  exact ⟨t, ht, by rw [e, hi]; rfl⟩

theorem failsAfter_of_tries_result {attempts n : Nat} {c : Code (Status × BitVec n)} (hb : s.banks[s.cur]? = some b)
    (hq : s.quiet) (hl : legalityEntry i b.core.fsm = some none) (ho : ¬ badOperand s.plat i b.core)
    (hi : returnsValue i = true) (hc : codeOf i s.plat b.core = withResult c)
    (h : c.tries s r attempts (.busTimeout, 0)) : s.failsAfter i b r attempts := by
  obtain ⟨x, t, ⟨rfl, ht⟩, e⟩ := exec_of_reaches_result hb hl ho hc h.reaches fun _ _ h => h.2.banks_quiet hq
  have hzero : (0 : BitVec n).setWidth 64 = 0 := by simp
  exact ⟨t, ht, by rw [e, hi, if_pos rfl, hzero]⟩

/-- What is seen of a command that has failed so. -/
theorem State.failsAfter.observed {attempts : Nat} (h : s.failsAfter i b r attempts) (hb : s.banks[s.cur]? = some b) :
    ∃ t tr, exec i s = .next t ∧ t.phy = s.phy ∧ t.sram = s.sram ∧ t.uncommitted = s.uncommitted ∧
      t.count (.write r.ctl 0x00008000) = s.count (.write r.ctl 0x00008000) + attempts ∧
      t.trace = tr ++ s.trace ∧ (∀ y ∈ tr, y.isOnLane r = true) ∧
      (∀ a, ¬ onLaneRegs r a → t.mmio.read a = s.mmio.read a) ∧
      t.banks[s.cur]? = some { b with
        seq := none
        core := { b.core with
          code := .busTimeout, busy := false, result := if returnsValue i then 0 else b.core.result } } := by
  obtain ⟨u, hu, e⟩ := h
  obtain ⟨-, -, -, -, -, -, -, hcount⟩ := hu.keeps
  obtain ⟨m, tr, now, rfl, hm, hon, -⟩ := hu
  exact ⟨_, tr, e, rfl, rfl, rfl, hcount, rfl, hon, hm.frame, by simp [State.ended, lt_of_bank hb]⟩

/-- Settles O59: every command fails at its first bus operation on its lowest lane. -/
theorem silentPhyTimesOut : Obligations.SilentPhyTimesOut := by
  intro s b i p l attempts lanes k r hb hq hv hauto hw hr hlane hi hl ho
  obtain rfl : l = lowestLane lanes := hlane
  have h : Silent s p (lowestLane lanes) r := ⟨laneFacts _ hv _ _ _ hr, hw, hauto, hq⟩
  refine State.failsAfter.observed ?_ hb
  simp only [List.mem_cons, List.not_mem_nil, or_false] at hi
  rcases hi with ⟨rfl | rfl | rfl | rfl | rfl, rfl⟩ | ⟨rfl | rfl, rfl⟩
  · exact failsAfter_of_tries_result hb hq hl ho rfl (codeOf_mbRead ..) (h.mbRead _)
  · exact failsAfter_of_tries hb hq hl ho rfl
      (tries_onLanes (setLanes_head? fun h0 => ho (Or.inr (Or.inl h0))) (h.mbWrite _ _ k))
  · exact failsAfter_of_tries hb hq hl ho rfl
      (tries_onLanes (setLanes_head? fun h0 => ho (Or.inr (Or.inl h0))) (h.mbRmw _ _ _ k))
  · exact failsAfter_of_tries_result hb hq hl ho rfl (codeOf_sramRead ..) (h.sramRead _)
  · exact failsAfter_of_tries hb hq hl ho rfl
      (tries_onLanes (setLanes_head? fun h0 => ho (Or.inr (Or.inl h0))) (h.sramWrite _ _))
  · exact failsAfter_of_tries_result hb hq hl ho rfl (codeOf_mbReadOnce ..) (h.readAttempt _)
  · exact failsAfter_of_tries hb hq hl ho rfl
      (tries_onLanes (setLanes_head? fun h0 => ho (Or.inr (Or.inl h0))) (h.writeAttempt _ _ k))

/-! ### Polling -/

/-- The accesses and sleeps of a wait that sees `v` at each poll and sleeps `k` times: the same in either order. -/
def pollRecords (reg v : Word) (d : Time) (k : Nat) : List Record :=
  (List.replicate k [.read reg v, .sleep d]).flatten ++ [.read reg v]

theorem pollRecords_succ (reg v : Word) (d : Time) (k : Nat) :
    pollRecords reg v d (k + 1) = [.read reg v, .sleep d] ++ pollRecords reg v d k := by
  rw [pollRecords, List.replicate_succ, List.flatten_cons, List.append_assoc, pollRecords]

/-- The newest record first or last. -/
theorem pollRecords_succ' (reg v : Word) (d : Time) (k : Nat) :
    pollRecords reg v d (k + 1) = pollRecords reg v d k ++ [.sleep d, .read reg v] := by
  induction k with
  | zero => rfl
  | succ k ih =>
    conv_lhs => rw [pollRecords_succ, ih]
    rw [pollRecords_succ, List.append_assoc]

theorem reverse_pollRecords (reg v : Word) (d : Time) (k : Nat) :
    (pollRecords reg v d k).reverse = pollRecords reg v d k := by
  induction k with
  | zero => rfl
  | succ k ih =>
    rw [pollRecords_succ, List.reverse_append, ih]
    exact (pollRecords_succ' reg v d k).symm.trans (pollRecords_succ reg v d k)

/-- The state after such a wait. -/
def State.polled (s : State) (reg : Word) (d : Time) (k : Nat) : State :=
  (s.later (k * d)).traced (pollRecords reg (s.mmioRead reg) d k)

theorem State.polled_zero (s : State) (reg : Word) (d : Time) :
    s.polled reg d 0 = s.record (.read reg (s.mmioRead reg)) := by
  unfold State.polled
  rw [Nat.zero_mul]
  rfl

theorem State.polled_succ (s : State) (reg : Word) (d : Time) (k : Nat) :
    s.polled reg d (k + 1) = ((s.record (.read reg (s.mmioRead reg))).sleep d).polled reg d k := by
  unfold State.polled
  rw [pollRecords_succ', Nat.succ_mul, Nat.add_comm (k * d) d]
  unfold State.later State.traced State.sleep State.record
  simp only [Nat.add_assoc, List.append_assoc, List.cons_append, List.nil_append]
  rfl

/-- The loop of `wait_clear` that has `k` sleeps to go before its time is up, on a bit that stays set. -/
theorem ends_waitClearFrom_set {plat : Platform} {reg mask : Word} {T t0 : Time} (k : Nat) {n : Nat} (hn : k < n)
    {s : State} (hq : s.quiet) (hv : s.mmioRead reg &&& mask ≠ 0) (ht0 : t0 ≤ s.now)
    (hless : ∀ j < k, s.now + j * plat.pollUs < t0 + T) (hup : t0 + T ≤ s.now + k * plat.pollUs) :
    (waitClearFrom plat reg mask T t0 n).ends s .busTimeout (s.polled reg plat.pollUs k) := by
  obtain ⟨n, rfl⟩ := Nat.exists_eq_succ_of_ne_zero (Nat.ne_of_gt (Nat.zero_lt_of_lt hn))
  induction k generalizing n s with
  | zero =>
    have hover : s.now - t0 ≥ T := Nat.le_sub_of_add_le' (by simpa using hup)
    rw [State.polled_zero]
    refine (ends_memRead reg hq).bind ?_
    rw [if_neg hv]
    refine (ends_readTime (s := s.record _) hq).bind ?_
    rw [State.record_now, if_pos hover]
    exact Code.ends_pure _ _
  | succ k ih =>
    have hover : ¬ s.now - t0 ≥ T :=
      Nat.not_le.2 (Nat.sub_lt_left_of_lt_add ht0 (by simpa using hless 0 (Nat.succ_pos k)))
    have hshift : ∀ j, s.now + plat.pollUs + j * plat.pollUs = s.now + (j + 1) * plat.pollUs := fun j => by ring
    obtain ⟨n, rfl⟩ := Nat.exists_eq_succ_of_ne_zero (Nat.ne_of_gt (Nat.zero_lt_of_lt (Nat.lt_of_succ_lt_succ hn)))
    rw [State.polled_succ]
    refine (ends_memRead reg hq).bind ?_
    rw [if_neg hv]
    refine (ends_readTime (s := s.record _) hq).bind ?_
    rw [State.record_now, if_neg hover]
    refine (ends_sleepUs plat.pollUs (s := s.record _) hq).bind
      (ih (s := (s.record _).sleep _) hq hv (Nat.le_add_right_of_le ht0) (fun j hj => ?_) ?_ n (Nat.lt_of_succ_lt_succ hn))
    · exact (hshift j).trans_lt (hless (j + 1) (Nat.succ_lt_succ hj))
    · exact hup.trans_eq (hshift k).symm

/-- How many intervals `d` it takes for the time `T` to be up. -/
theorem ceil_intervals {T d k : Nat} (hd : 0 < d) (hk : k = (T + d - 1) / d) :
    T ≤ k * d ∧ (∀ j < k, j * d < T) ∧ k < T / d + 2 := by
  subst hk
  have hup : T ≤ (T + d - 1) / d * d := by
    have := Nat.lt_div_mul_add (a := T + d - 1) hd
    omega
  refine ⟨hup, fun j hj => ?_, ?_⟩
  · have := (Nat.le_div_iff_mul_le hd).1 (Nat.succ_le_of_lt hj)
    rw [Nat.succ_mul] at this
    omega
  · have := Nat.div_le_div_right (c := d) (show T + d - 1 ≤ T + d by omega)
    rw [Nat.add_div_right _ hd] at this
    omega

/-- A wait for a bit that stays set polls until its time is up (40_message_bus.md R151). -/
theorem ends_waitClear_set {plat : Platform} {reg mask : Word} {T : Time} (hd : 0 < plat.pollUs) (hq : s.quiet)
    (hv : s.mmioRead reg &&& mask ≠ 0) {k : Nat} (hk : k = (T + plat.pollUs - 1) / plat.pollUs) :
    (waitClear plat reg mask T).ends s .busTimeout (s.polled reg plat.pollUs k) := by
  obtain ⟨hup, hless, hn⟩ := ceil_intervals hd hk
  exact (ends_readTime hq).bind (ends_waitClearFrom_set k hn hq hv le_rfl
    (fun j hj => Nat.add_lt_add_left (hless j hj) _) (Nat.add_le_add_left hup _))

/-- A wait for a bit that is clear reads once (40_message_bus.md R151). -/
theorem ends_waitClear_clear (plat : Platform) {reg mask : Word} (T : Time) (hq : s.quiet)
    (hv : s.mmioRead reg &&& mask = 0) :
    (waitClear plat reg mask T).ends s .ok (s.record (.read reg (s.mmioRead reg))) := fun who hist =>
  ⟨_, fun k => run_waitClear_clear who hist plat reg mask T k hq hv⟩

/-- The poll interval of an admissible configuration is positive (00_scope.md R9). -/
theorem pollUs_pos {plat : Platform} (h : plat.valid = true) : 0 < plat.pollUs := by
  simp only [Platform.valid, Platform.countsOk, List.all_cons, Bool.and_eq_true, decide_eq_true_eq] at h
  obtain ⟨⟨⟨-, -, -, -, -, -, hpoll, -⟩, -⟩, -⟩ := h
  exact hpoll

/-- A command whose pseudocode ends in one state, with its bank left alone. -/
theorem exec_of_ends (hb : s.banks[s.cur]? = some b) (hl : legalityEntry i b.core.fsm = some none)
    (ho : ¬ badOperand s.plat i b.core) {st : Status} (h : (codeOf i s.plat b.core).ends s st t)
    (ht : t.banks = s.banks) (hq : t.quiet) : exec i s = .next (t.ended s.cur b b.core st) := by
  obtain ⟨st', t', ⟨rfl, rfl⟩, e⟩ := exec_of_reaches hb hl ho h.reaches fun _ _ ⟨_, e⟩ => e ▸ ⟨ht, hq⟩
  exact e

/-- Settles O51: the two ways the wait can go. -/
theorem waitClearEnds : Obligations.WaitClearEnds := by
  intro s b reg mask v hb hq hvalid hl ho hreg hmask hv
  subst hreg hmask hv
  refine ⟨fun hclear => ?_, fun hset k hk => ?_⟩
  · exact exec_of_ends hb hl ho (ends_waitClear_clear _ _ hq hclear) rfl hq
  · exact exec_of_ends hb hl ho (ends_waitClear_set (pollUs_pos hvalid) hq hset hk) rfl hq

end Sys2Proof.Machine
end

section
/-! MB_RESET (40_message_bus.md R156, R173): it ends OK whatever the PHY and the configuration are, and where the PHY
either takes a reset at once or never does, its accesses and what they leave are known word for word. -/

namespace Sys2Proof.Machine

variable {s t : State} {b : Bank} {p l : Nat} {r : LaneRegs} {plat : Platform} {bs : List Bank}

/-! ### Whatever the PHY does -/

/-- Nothing moves by itself, and the banks are these. -/
def State.rests (bs : List Bank) (s : State) : Prop := s.banks = bs ∧ s.quiet

theorem State.rests.memWrite (h : s.rests bs) (off v : Word) :
    (memWrite off v).reaches s fun _ t => t.rests bs := by
  refine (ends_memWrite off v h.2).reaches.mono fun _ t ht => ?_
  obtain ⟨m, ph, sr, un, e⟩ := s.storesOnly_mmioWrite off v
  rw [ht.2, e]
  exact h

theorem State.rests.waitClearFrom (reg mask : Word) (T t0 : Time) (n : Nat) {s : State} (h : s.rests bs) :
    (waitClearFrom plat reg mask T t0 n).reaches s fun _ t => t.rests bs := by
  induction n generalizing s with
  | zero => exact Code.reaches_pure h
  | succ n ih =>
    refine (ends_memRead reg h.2).reaches.bind fun v t ht => ?_
    have h1 : t.rests bs := ht.2 ▸ h
    split
    · exact Code.reaches_pure h1
    · refine (ends_readTime h1.2).reaches.bind fun now t' ht' => ?_
      obtain rfl := ht'.2
      split
      · exact Code.reaches_pure h1
      · exact (ends_sleepUs plat.pollUs h1.2).reaches.bind fun _ u hu => ih (hu.2 ▸ h1)

theorem State.rests.busReset (h : s.rests bs) (p l : Nat) : (busReset plat p l).reaches s fun _ t => t.rests bs :=
  (h.memWrite _ _).bind fun _ _ h1 =>
    ((ends_readTime h1.2).reaches.bind fun _ _ ht => (show State.rests bs _ from ht.2 ▸ h1).waitClearFrom _ _ _ _ _).bind
      fun _ _ h2 => h2.memWrite _ _

/-- The reset of each lane gives no failure that could end the command (40_message_bus.md R173). -/
theorem reaches_busResets (p : Nat) (lanes : List Nat) {s : State} (h : s.rests bs) :
    (onLanes (fun l => do busReset plat p l; return .ok) lanes).reaches s fun st t => st = .ok ∧ t.rests bs := by
  induction lanes generalizing s with
  | nil => exact Code.reaches_pure ⟨rfl, h⟩
  | cons l rest ih =>
    have hop : (do busReset plat p l; return .ok : Code Status).reaches s fun st t => st = .ok ∧ t.rests bs :=
      (h.busReset p l).bind fun _ _ h1 => Code.reaches_pure ⟨rfl, h1⟩
    refine hop.bind fun st t ht => ?_
    obtain ⟨rfl, h1⟩ := ht
    exact ih h1

/-! ### Exact accesses -/

/-- A word written twice holds what was written last, and nothing else differs. -/
theorem Memory.putWord_putWord (m : Memory) (h : m.wf = true) (off v w : Word) :
    (m.putWord off v).putWord off w = m.putWord off w := by
  have hv := Memory.putWord_wf m off v h
  refine Memory.ext_read _ _ (Memory.putWord_wf _ off w hv) (Memory.putWord_wf m off w h) fun x => ?_
  by_cases hx : inWord off x
  · obtain ⟨k, hk, rfl⟩ := hx
    rw [Memory.read_putWord_byte _ _ _ hv k hk, Memory.read_putWord_byte _ _ _ h k hk]
  · rw [Memory.read_putWord_ne _ _ _ _ hx, Memory.read_putWord_ne _ _ _ _ hx, Memory.read_putWord_ne _ _ _ _ hx]

/-- `clear_response` clears READY and ERROR (40_message_bus.md R155), whatever the PHY does. -/
theorem LaneFacts.clearResponse (h : LaneFacts s.plat p l r) :
    s.mmioWrite r.sts clearResponseWord = s.pokeWord r.sts (s.mmioRead r.sts &&& 0x7FFF7FFF) := by
  have hmask : ~~~(clearResponseWord &&& 0x80008000#32) = 0x7FFF7FFF := by decide
  simp only [State.mmioWrite, State.written, h.stsNoLane, h.stsIsSts, if_true, hmask, ite_self]

theorem LaneFacts.ends_clearResponse (h : LaneFacts s.plat p l r) (hq : s.quiet) : (memWrite r.sts clearResponseWord).ends s
    () ((s.pokeWord r.sts (s.mmioRead r.sts &&& 0x7FFF7FFF)).record (.write r.sts clearResponseWord)) :=
  h.clearResponse ▸ ends_memWrite r.sts clearResponseWord hq

/-- What a lane's M2P_CTL holds once the reset word is written: nothing where the PHY takes it at once (log 7), and the
word itself where the PHY takes nothing. -/
def State.resetWord (s : State) : Word := if s.phyAuto then 0 else m2pReset

theorem LaneFacts.writeReset (h : LaneFacts s.plat p l r) (hw : s.mmio.wf = true) :
    s.mmioWrite r.ctl m2pReset = s.pokeWord r.ctl s.resetWord := by
  cases ha : s.phyAuto
  · rw [State.mmioWrite, State.written, h.ctlNoSts, ha, State.resetWord, ha]
    rfl
  · rw [OnLane.write_reset ⟨h, hw, ha⟩, State.resetWord, ha]
    exact congrArg (fun m => { s with mmio := m }) (Memory.putWord_putWord _ hw _ _ _)

/-- How often the wait of a bus reset sleeps: not at all where the RESET bit is clear, else until P_T_RST_US is over
(40_message_bus.md R156). -/
def State.resetPolls (s : State) : Nat :=
  if s.phyAuto then 0 else (s.plat.tRstUs + s.plat.pollUs - 1) / s.plat.pollUs

/-- The accesses and sleeps of a bus reset, oldest first. -/
def State.resetRecords (s : State) (p l : Nat) : List Record :=
  .write (s.plat.ctl p l) m2pReset :: pollRecords (s.plat.ctl p l) s.resetWord s.plat.pollUs s.resetPolls ++
    [.write (s.plat.sts p l) clearResponseWord]

/-- The MMIO store a bus reset of a lane leaves. -/
def State.resetStore (s : State) (p : Nat) (m : Memory) (l : Nat) : Memory :=
  (m.putWord (s.plat.ctl p l) s.resetWord).putWord (s.plat.sts p l) (m.readWord (s.plat.sts p l) &&& 0x7FFF7FFF)

/-- The state after bus resets of these lanes. -/
def State.resetOnLanes (s : State) (p : Nat) (lanes : List Nat) : State :=
  (s.after (lanes.foldl (s.resetStore p) s.mmio) (lanes.flatMap (s.resetRecords p)).reverse).later
    (lanes.length * (s.resetPolls * s.plat.pollUs))

/-- The wait of a bus reset. -/
theorem ends_waitReset (hd : 0 < s.plat.pollUs) {t : State} (hq : t.quiet) {reg : Word}
    (hv : t.mmioRead reg = s.resetWord) :
    ∃ st, (waitClear s.plat reg bit15 s.plat.tRstUs).ends t st (t.polled reg s.plat.pollUs s.resetPolls) := by
  rw [State.resetWord] at hv
  rw [State.resetPolls]
  cases ha : s.phyAuto <;> rw [ha] at hv
  · exact ⟨_, ends_waitClear_set hd hq (by rw [hv]; decide) rfl⟩
  · rw [if_pos rfl, State.polled_zero]
    exact ⟨_, ends_waitClear_clear _ _ hq (by rw [hv]; decide)⟩

/-- One bus reset. -/
theorem LaneFacts.ends_busReset (h : LaneFacts s.plat p l r) (hd : 0 < s.plat.pollUs) (hw : s.mmio.wf = true)
    (hq : s.quiet) : (busReset s.plat p l).ends s () (s.resetOnLanes p [l]) := by
  unfold Machine.busReset Machine.clearResponse
  rw [h.ctl_eq, h.sts_eq]
  have e1 := ends_memWrite r.ctl m2pReset hq
  rw [h.writeReset hw] at e1
  obtain ⟨st, e2⟩ := ends_waitReset (s := s) (reg := r.ctl) hd (t := (s.pokeWord r.ctl s.resetWord).record
    (.write r.ctl m2pReset)) hq (Memory.readWord_putWord_eq _ _ _ hw)
  have hsts : (s.mmio.putWord r.ctl s.resetWord).readWord r.sts = s.mmio.readWord r.sts :=
    Memory.readWord_putWord_aligned _ _ _ _ h.ctlAligned h.stsAligned h.distinct
  have hend : s.resetOnLanes p [l] = (((((s.pokeWord r.ctl s.resetWord).record (.write r.ctl m2pReset)).polled r.ctl
      s.plat.pollUs s.resetPolls).pokeWord r.sts ((s.mmio.putWord r.ctl s.resetWord).readWord r.sts &&& 0x7FFF7FFF)).record
        (.write r.sts clearResponseWord)) := by
    have hctl : ((s.pokeWord r.ctl s.resetWord).record (.write r.ctl m2pReset)).mmioRead r.ctl = s.resetWord :=
      Memory.readWord_putWord_eq _ _ _ hw
    simp only [State.resetOnLanes, State.resetStore, State.resetRecords, List.foldl_cons, List.foldl_nil, h.ctl_eq,
      h.sts_eq, hsts, List.flatMap_cons, List.flatMap_nil, List.append_nil, List.length_singleton, Nat.one_mul,
      List.reverse_append, List.reverse_cons, reverse_pollRecords, State.polled, hctl]
    simp [State.after, State.later, State.record, State.traced, State.pokeWord]
  rw [hend]
  exact e1.bind (e2.bind (LaneFacts.ends_clearResponse (s := State.polled _ _ _ _) h hq))

theorem State.resetOnLanes_cons (s : State) (p l : Nat) (rest : List Nat) :
    s.resetOnLanes p (l :: rest) = (s.resetOnLanes p [l]).resetOnLanes p rest := by
  have htime : ∀ d : Nat, s.now + (rest.length + 1) * d = s.now + d + rest.length * d := fun d => by ring
  have hstore : (s.resetOnLanes p [l]).resetStore p = s.resetStore p := rfl
  have hrecs : (s.resetOnLanes p [l]).resetRecords p = s.resetRecords p := rfl
  have hpolls : (s.resetOnLanes p [l]).resetPolls = s.resetPolls := rfl
  rw [State.resetOnLanes, State.resetOnLanes, hstore, hrecs, hpolls]
  simp [State.resetOnLanes, State.after, State.later, htime]

/-- Bus resets of one lane after the other. -/
theorem ends_busResets (hd : 0 < s.plat.pollUs) (lanes : List Nat) (hf : ∀ l ∈ lanes, ∃ r, LaneFacts s.plat p l r)
    (hw : s.mmio.wf = true) (hq : s.quiet) :
    (onLanes (fun l => do busReset s.plat p l; return .ok) lanes).ends s .ok (s.resetOnLanes p lanes) := by
  induction lanes generalizing s with
  | nil =>
    have hnil : s.resetOnLanes p [] = s := by simp [State.resetOnLanes, State.after, State.later]
    rw [hnil]
    exact Code.ends_pure _ _
  | cons l rest ih =>
    obtain ⟨r, hr⟩ := hf l (.head _)
    have hop : (do busReset s.plat p l; return .ok : Code Status).ends s .ok (s.resetOnLanes p [l]) :=
      (hr.ends_busReset hd hw hq).bind (Code.ends_pure _ _)
    rw [State.resetOnLanes_cons]
    exact hop.bind (ih (s := s.resetOnLanes p [l]) hd (fun l' hl' => hf l' (.tail _ hl'))
      (Memory.putWord_wf _ _ _ (Memory.putWord_wf _ _ _ hw)) hq)

/-- The lanes that a bus command names exist. -/
theorem laneFacts_of_busOperands {lanes : BitVec 2} (hv : plat.valid = true) (hp : ¬ plat.busPorts.length ≤ p)
    (hl : l ∈ setLanes lanes) : ∃ r, LaneFacts plat p l r := by
  obtain ⟨r, hr⟩ := exists_laneRegs? (Nat.not_le.1 hp) (lt_two_of_mem_setLanes hl)
  exact ⟨r, laneFacts plat hv p l r hr⟩

/-- Settles O55: its end holds of any PHY and configuration; its accesses where a PHY takes resets at once or never. -/
theorem busResets : Obligations.BusResets := by
  intro s b p lanes L hb hq hl ho hL
  obtain rfl : L = setLanes lanes := hL
  have hexact : s.plat.valid = true → s.mmio.wf = true →
      exec (.mbReset p lanes) s = .next ((s.resetOnLanes p (setLanes lanes)).ended s.cur b b.core .ok) := fun hv hw =>
    exec_of_ends hb hl ho (ends_busResets (pollUs_pos hv) _
      (fun l hm => laneFacts_of_busOperands hv (fun hp => ho (Or.inl hp)) hm) hw hq) rfl hq
  refine ⟨?_, fun hv hw ha => ?_, fun hv hw ha k hk => ?_⟩
  · obtain ⟨st, t, ⟨rfl, hbanks, -⟩, e⟩ := exec_of_reaches hb hl ho
      (reaches_busResets (bs := s.banks) p (setLanes lanes) ⟨rfl, hq⟩) fun _ _ h => h.2
    exact ⟨_, e, by simp [State.ended, hbanks, lt_of_bank hb]⟩
  · have hword : s.resetWord = 0 := if_pos ha
    have hpolls : s.resetPolls = 0 := if_pos ha
    have hstore : s.resetStore p = fun m l => (m.putWord (s.plat.ctl p l) 0).putWord (s.plat.sts p l)
        (m.readWord (s.plat.sts p l) &&& 0x7FFF7FFF) := by
      funext m l
      rw [State.resetStore, hword]
    have hrecs : s.resetRecords p = fun l => [.write (s.plat.ctl p l) 0x00008000, .read (s.plat.ctl p l) 0,
        .write (s.plat.sts p l) 0x80008000] := by
      funext l
      rw [State.resetRecords, hword, hpolls]
      rfl
    rw [hexact hv hw, State.resetOnLanes, hstore, hrecs, hpolls, Nat.zero_mul, Nat.mul_zero, setLanes_eq]
    rfl
  · have hoff : ¬ s.phyAuto = true := by rw [ha]; decide
    have hword : s.resetWord = 0x00008000 := if_neg hoff
    have hpolls : s.resetPolls = k := (if_neg hoff).trans hk.symm
    have hstore : s.resetStore p = fun m l => (m.putWord (s.plat.ctl p l) 0x00008000).putWord (s.plat.sts p l)
        (m.readWord (s.plat.sts p l) &&& 0x7FFF7FFF) := by
      funext m l
      rw [State.resetStore, hword]
    have hrecs : s.resetRecords p = fun l => .write (s.plat.ctl p l) 0x00008000 ::
        (List.replicate k [.read (s.plat.ctl p l) 0x00008000, .sleep s.plat.pollUs]).flatten ++
          [.read (s.plat.ctl p l) 0x00008000, .write (s.plat.sts p l) 0x80008000] := by
      funext l
      rw [State.resetRecords, hword, hpolls, pollRecords, List.cons_append, List.append_assoc]
      rfl
    rw [hexact hv hw, State.resetOnLanes, hstore, hrecs, hpolls]

end Sys2Proof.Machine
end

section
/-! Bad answers of a PHY (40_message_bus.md R153, R157 to R169): accesses with scheduled moves of the environment before
them, an attempt that sees a bad answer, and the attempts of a command. -/

namespace Sys2Proof.Machine

variable {s t u v : State} {b : Bank} {i : Instr} {p l : Nat} {r : LaneRegs} {e e' : List Event} {w x : Word}

/-! ### A write that is made again (log 8) -/

theorem State.not_uncommitted_after_commit (s : State) (p l : Nat) (a : BitVec 12) (d : Byte) (y : BitVec 12) :
    (p, l, y) ∉ (s.phyWrite p l a d true).uncommitted := by
  simp [State.phyWrite, State.commitWrite, State.clearUncommitted]

/-- The register of a committed write holds its byte: the read-data registers that the write may load are others. -/
theorem State.phyReg_phyWrite_true (hd : windowDistinct s.plat.c20Window) (hw : s.phy.wf = true) (a : BitVec 12)
    (d : Byte) : (s.phyWrite p l a d true).phyReg p l a = d ∧ (s.phyWrite p l a d true).phy.wf = true := by
  have hw1 : (s.setPhyReg p l a d).phy.wf = true := Memory.put_wf _ _ _ hw
  have h1 : (s.setPhyReg p l a d).phyReg p l a = d := by rw [State.phyReg_setPhyReg hw, if_pos rfl]
  simp only [State.phyWrite, State.commitWrite, if_true]
  generalize hs2 : (if s.endsSramWrite p l a = true then (s.setPhyReg p l a d).storeWriteData p l
    else s.setPhyReg p l a d) = s2
  have hphy : s2.phy = (s.setPhyReg p l a d).phy ∧ s2.plat = s.plat := by
    subst hs2
    split <;> exact ⟨rfl, rfl⟩
  have hw2 : s2.phy.wf = true := hphy.1 ▸ hw1
  have h2 : s2.phyReg p l a = d := by rw [State.phyReg, hphy.1]; exact h1
  split
  next hends =>
    obtain ⟨rfl, -⟩ : a = s.plat.c20Window.rdAddrL ∧ _ := by simpa [State.endsSramSelect] using hends
    simp only [windowDistinct, List.nodup_cons, List.mem_cons, not_or] at hd
    have hw3 : ∀ y x, (s2.setPhyReg p l y x).phy.wf = true := fun y x => Memory.put_wf _ _ _ hw2
    refine ⟨?_, Memory.put_wf _ _ _ (hw3 _ _)⟩
    show (s2.loadReadData p l).phyReg p l _ = d
    simp only [State.loadReadData, hphy.2, State.phyReg_setPhyReg (hw3 _ _), State.phyReg_setPhyReg hw2, hd, if_false, h2]
  next => exact ⟨h2, hw2⟩

/-- A write performed twice leaves the PHY as one does. -/
theorem State.phyWrite_phyWrite (hd : windowDistinct s.plat.c20Window) (hw : s.phy.wf = true) (a : BitVec 12) (d : Byte)
    (k : Bool) : (s.phyWrite p l a d k).phyWrite p l a d k = s.phyWrite p l a d k := by
  cases k
  · have hreg : (s.phyWrite p l a d false).phyReg p l a = d := by rw [State.phyReg_phyWrite_false hw, if_pos rfl]
    have hmark := (State.isUncommitted_phyWrite_false (s := s) (p := p) (l := l) a a d).2 (.inl rfl)
    have hset := State.setPhyReg_phyReg_self (p := p) (l := l) (State.phyWrite_false_phy_wf (p := p) (l := l) hw a d) a
    rw [hreg] at hset
    generalize s.phyWrite p l a d false = t at hmark hset
    rw [State.phyWrite, if_neg Bool.false_ne_true, hset, State.setUncommitted, if_pos hmark]
  · obtain ⟨hreg, hwf⟩ := State.phyReg_phyWrite_true (p := p) (l := l) hd hw a d
    have hset := State.setPhyReg_phyReg_self (p := p) (l := l) hwf a
    rw [hreg] at hset
    rw [State.phyWrite_true_eq_setPhyReg (s.not_uncommitted_after_commit p l a d), hset]

/-- What the PHY writes does not depend on the MMIO store, the schedule and the trace. -/
theorem State.phyWrite_elsewhere (s : State) (p l : Nat) (a : BitVec 12) (d : Byte) (k : Bool) (m : Memory)
    (e : List Event) (tr : List Record) : ({ s with mmio := m, sched := e, trace := tr } : State).phyWrite p l a d k =
      { s.phyWrite p l a d k with mmio := m, sched := e, trace := tr } := by
  have h1 : ({ s with mmio := m, sched := e, trace := tr } : State).endsSramWrite p l a = s.endsSramWrite p l a := rfl
  have h2 : ({ s with mmio := m, sched := e, trace := tr } : State).endsSramSelect p l a = s.endsSramSelect p l a := rfl
  cases k
  · rfl
  · simp only [State.phyWrite, State.commitWrite, if_true, h1, h2]
    cases s.endsSramWrite p l a <;> cases s.endsSramSelect p l a <;> rfl

/-! ### Scheduled moves -/

/-- The state with other moves scheduled. -/
def State.withSched (s : State) (e : List Event) : State := { s with sched := e }

theorem State.interfere_go (h : s.sched = .go :: e) : s.interfere = s.withSched e := by
  rw [State.interfere, h]
  rfl

theorem State.interfere_poke {off : Word} (h : s.sched = .poke off x :: .go :: e) :
    s.interfere = (s.pokeWord off x).withSched e := by
  rw [State.interfere, h]
  rfl

/-- One visible action after the moves scheduled before it, none of which resets the block. -/
theorem run_act_after (who : Runner) (hist : List Resp) {q : Req} (k : Resp → Prog) {a : Resp} (hv : q.visible = true)
    (hi : s.interfere = t) (he : t.epoch = s.epoch) (hp : performReq who.inst q t = (some a, u)) :
    run who hist (.act q k) s = run who (hist ++ [a]) (k a) u := by
  conv => lhs; unfold run
  simp only [hv, if_true, hi, he, ne_eq, not_true_eq_false, if_false, hp]

theorem ends_memRead_after (off : Word) (hi : s.interfere = t) (he : t.epoch = s.epoch) :
    (memRead off).ends s (t.mmioRead off) (t.record (.read off (t.mmioRead off))) := fun who hist =>
  ⟨_, fun k => run_act_after who hist (q := .read off) (fun a => k a.asWord) rfl hi he rfl⟩

theorem ends_memWrite_after (off v : Word) (hi : s.interfere = t) (he : t.epoch = s.epoch) :
    (memWrite off v).ends s () ((t.mmioWrite off v).record (.write off v)) := fun who hist =>
  ⟨_, fun k => run_act_after who hist (q := .write off v) (fun _ => k ()) rfl hi he rfl⟩

/-- Reading the clock belongs to the action before it: nothing moves in between (log 5). -/
theorem ends_readTime_scheduled (s : State) : readTime.ends s s.now s := fun who hist =>
  ⟨hist ++ [.time s.now], fun k => by
    rw [readTime_apply]
    conv => lhs; unfold run
    simp only [Req.visible, Bool.false_eq_true, if_false, ne_eq, not_true_eq_false]
    rfl⟩

/-! ### Accesses of an answering lane -/

/-- The state `t` is `u` after accesses of a lane, with `n` requests `w` and `k` bus resets among them and `e` left of
the schedule. -/
def Answered (u : State) (r : LaneRegs) (w : Word) (e : List Event) (n k : Nat) (t : State) : Prop :=
  ∃ m tr, t = { u with mmio := m, sched := e, trace := tr ++ u.trace } ∧ LaneStore u.mmio m r ∧
    (tr.countP fun y => y == Record.write r.ctl w) = n ∧ (tr.countP fun y => y == Record.write r.ctl m2pReset) = k

theorem Answered.trans {n k n' k' : Nat} (h : Answered u r w e n k t) (h' : Answered t r w e' n' k' v) :
    Answered u r w e' (n' + n) (k' + k) v := by
  obtain ⟨m, tr, rfl, hm, hn, hk⟩ := h
  obtain ⟨m', tr', rfl, hm', hn', hk'⟩ := h'
  exact ⟨m', tr' ++ tr, by simp, hm.trans hm', by rw [List.countP_append, hn, hn'], by rw [List.countP_append, hk, hk']⟩

theorem Answered.onLane {n k : Nat} (ht : Answered u r w e n k t) (h : OnLane u p l r) : OnLane t p l r := by
  obtain ⟨m, tr, rfl, hm, -, -⟩ := ht
  exact ⟨h.facts, hm.wf, h.auto⟩

theorem Answered.plat {n k : Nat} (ht : Answered u r w e n k t) : t.plat = u.plat := by
  obtain ⟨m, tr, rfl, -⟩ := ht
  rfl

theorem Answered.sched {n k : Nat} (ht : Answered u r w e n k t) : t.sched = e := by
  obtain ⟨m, tr, rfl, -⟩ := ht
  rfl

theorem Answered.phyRead {n k : Nat} (ht : Answered u r w e n k t) (a : BitVec 12) : t.phyRead p l a = u.phyRead p l a := by
  obtain ⟨m, tr, rfl, -⟩ := ht
  rfl

/-- Where the write has been performed, performing it again changes nothing. -/
theorem Answered.phyWrite {n k : Nat} {a : BitVec 12} {d : Byte} {c : Bool} (ht : Answered u r w e n k t)
    (hu : u.phyWrite p l a d c = u) : t.phyWrite p l a d c = t := by
  obtain ⟨m, tr, rfl, -⟩ := ht
  rw [State.phyWrite_elsewhere, hu]

/-- Accesses where nothing is scheduled. -/
theorem answered_withAccess (hq : u.quiet) {m : Memory} (hm : LaneStore u.mmio m r) {tr : List Record} {n k : Nat}
    (hn : (tr.countP fun y => y == Record.write r.ctl w) = n)
    (hk : (tr.countP fun y => y == Record.write r.ctl m2pReset) = k) :
    Answered u r w [] n k (u.withAccess m (tr ++ u.trace)) := by
  refine ⟨m, tr, ?_, hm, hn, hk⟩
  rw [← show u.sched = [] from hq]
  rfl

/-- The same accesses beside a write of the PHY. -/
theorem Answered.phyWrite_both {n k : Nat} (ht : Answered u r w e n k t) (p l : Nat) (a : BitVec 12) (d : Byte) (c : Bool) :
    Answered (u.phyWrite p l a d c) r w e n k (t.phyWrite p l a d c) := by
  obtain ⟨m, tr, rfl, hm, hn, hk⟩ := ht
  rw [State.phyWrite_elsewhere u p l a d c m e]
  obtain ⟨ph, sr, un, hphy⟩ := u.phyWrite_eq p l a d c
  rw [hphy]
  exact ⟨m, tr, rfl, hm, hn, hk⟩

/-- The lane is on an answering PHY and its M2P_CTL holds no pending transaction. -/
structure Idle (s : State) (p l : Nat) (r : LaneRegs) : Prop where
  lane : OnLane s p l r
  idle : wireTop (s.mmioRead r.ctl) = false

/-- A wait for bits of M2P_CTL that are clear. -/
theorem OnLane.wait_go (h : OnLane s p l r) (hs : s.sched = .go :: e) (w : Word) (plat : Platform) {mask : Word} (T : Time)
    (hc : s.mmioRead r.ctl &&& mask = 0) : ∃ t, (waitClear plat r.ctl mask T).ends s .ok t ∧ Answered s r w e 0 0 t ∧
      t.mmio = s.mmio := by
  refine ⟨_, ?_, ⟨s.mmio, [.read r.ctl (s.mmioRead r.ctl)], rfl, LaneStore.refl h.stored, by simp, by simp⟩, rfl⟩
  refine (ends_readTime_scheduled s).bind ((ends_memRead_after r.ctl (State.interfere_go hs) rfl).bind ?_)
  rw [if_pos (show (s.withSched e).mmioRead r.ctl &&& mask = 0 from hc)]
  exact Code.ends_pure _ _

/-- `clear_response` (40_message_bus.md R155). -/
theorem OnLane.clear_go (h : OnLane s p l r) (hs : s.sched = .go :: e) (w : Word) : ∃ t,
    (memWrite r.sts clearResponseWord).ends s () t ∧ Answered s r w e 0 0 t ∧ t.mmioRead r.ctl = s.mmioRead r.ctl := by
  have e1 := ends_memWrite_after r.sts clearResponseWord (State.interfere_go hs) rfl
  rw [LaneFacts.clearResponse (s := s.withSched e) h.facts] at e1
  have hne := h.facts.distinct.symm
  exact ⟨_, e1, ⟨_, [.write r.sts clearResponseWord], rfl, (LaneStore.refl h.stored).sts _, by simp [hne], by simp [hne]⟩,
    Memory.readWord_putWord_aligned _ _ _ _ h.facts.stsAligned h.facts.ctlAligned hne⟩

/-- The reset request of a bus reset. -/
theorem OnLane.reset_go (h : OnLane s p l r) (hs : s.sched = .go :: e) (hw : w ≠ m2pReset) : ∃ t,
    (memWrite r.ctl m2pReset).ends s () t ∧ Answered s r w e 0 1 t ∧ t.mmioRead r.ctl = 0 := by
  have e1 := ends_memWrite_after r.ctl m2pReset (State.interfere_go hs) rfl
  rw [LaneFacts.writeReset (s := s.withSched e) h.facts h.stored, State.resetWord,
    if_pos (show (s.withSched e).phyAuto = true from h.auto)] at e1
  exact ⟨_, e1, ⟨_, [.write r.ctl m2pReset], rfl, (LaneStore.refl h.stored).ctl _, by simp [hw.symm], by simp⟩,
    Memory.readWord_putWord_eq _ _ _ h.stored⟩

/-- A bus reset (40_message_bus.md R156). -/
theorem OnLane.busReset_go (h : OnLane s p l r) (hs : s.sched = .go :: .go :: .go :: e) (hw : w ≠ m2pReset) : ∃ t,
    (busReset s.plat p l).ends s () t ∧ Answered s r w e 0 1 t ∧ Idle t p l r := by
  unfold busReset clearResponse
  rw [h.facts.ctl_eq, h.facts.sts_eq]
  obtain ⟨t1, e1, a1, c1⟩ := h.reset_go hs hw
  obtain ⟨t2, e2, a2, m2⟩ := (a1.onLane h).wait_go a1.sched w s.plat (mask := bit15) s.plat.tRstUs (by rw [c1]; rfl)
  have a12 := a1.trans a2
  obtain ⟨t3, e3, a3, c3⟩ := (a12.onLane h).clear_go a12.sched w
  refine ⟨t3, e1.bind (e2.bind e3), a12.trans a3, (a12.trans a3).onLane h, ?_⟩
  rw [c3, State.mmioRead, m2]
  exact (congrArg wireTop c1).trans rfl

/-- What a request leaves on M2P_CTL holds no PENDING. -/
theorem OnLane.taken (h : OnLane s p l r) (w : Word) :
    wireTop (((s.mmio.putWord r.ctl w).putWord r.ctl (w &&& 0x7FFF7FFF#32)).readWord r.ctl) = false := by
  rw [Memory.readWord_putWord_eq _ _ _ (Memory.putWord_wf _ _ _ h.stored)]
  exact wireTop_cleared w

/-- A read request is taken: beside the lane's registers nothing changes (40_message_bus.md R154). -/
theorem OnLane.took_read (h : OnLane s p l r) (a : BitVec 12) : ∃ m, LaneStore s.mmio m r ∧
    wireTop (m.readWord r.ctl) = false ∧ s.mmioWrite r.ctl (m2pWord 3 a 0) = { s with mmio := m } := by
  have hm := ((LaneStore.refl (r := r) h.stored).ctl (m2pWord 3 a 0)).ctl (m2pWord 3 a 0 &&& 0x7FFF7FFF#32)
  refine ⟨_, hm.sts (p2mWord 4 (s.phyRead p l a)), ?_, by rw [h.write_read]; rfl⟩
  rw [Memory.readWord_putWord_aligned _ _ _ _ h.facts.stsAligned h.facts.ctlAligned h.facts.distinct.symm]
  exact h.taken _

/-- The wire command of a write (30_encoding.md R122). -/
def writeCommand (committed : Bool) : BitVec 4 := if committed then 2 else 1

/-- A write request is taken: the write is performed, and beside the lane's registers nothing else changes. -/
theorem OnLane.took_write (h : OnLane s p l r) (a : BitVec 12) (d : Byte) (c : Bool) : ∃ m, LaneStore s.mmio m r ∧
    wireTop (m.readWord r.ctl) = false ∧
    s.mmioWrite r.ctl (m2pWord (writeCommand c) a d) = { s.phyWrite p l a d c with mmio := m } := by
  have hm := ((LaneStore.refl (r := r) h.stored).ctl (m2pWord (writeCommand c) a d)).ctl
    (m2pWord (writeCommand c) a d &&& 0x7FFF7FFF#32)
  cases c
  · refine ⟨_, hm, h.taken _, ?_⟩
    rw [writeCommand, if_neg Bool.false_ne_true, h.write_uncommitted, State.takeWriteUncommitted, State.clearPending,
      State.phyWrite_pokeWord, State.phyWrite_pokeWord]
    rfl
  · refine ⟨_, hm.sts (p2mWord 5 0), ?_, ?_⟩
    · rw [Memory.readWord_putWord_aligned _ _ _ _ h.facts.stsAligned h.facts.ctlAligned h.facts.distinct.symm]
      exact h.taken _
    · rw [writeCommand, if_pos rfl, h.write_committed, State.takeWriteCommitted, State.clearPending,
        State.phyWrite_pokeWord, State.phyWrite_pokeWord]
      rfl

/-- The request of a read. -/
theorem OnLane.readRequest_go (h : OnLane s p l r) (hs : s.sched = .go :: e) (a : BitVec 12) : ∃ t,
    (memWrite r.ctl (m2pWord 3 a 0)).ends s () t ∧ Answered s r (m2pWord 3 a 0) e 1 0 t ∧ Idle t p l r := by
  have e1 := ends_memWrite_after r.ctl (m2pWord 3 a 0) (State.interfere_go hs) rfl
  obtain ⟨m, hm, hc, hw⟩ := OnLane.took_read (s := s.withSched e) ⟨h.facts, h.stored, h.auto⟩ a
  rw [hw] at e1
  exact ⟨_, e1, ⟨m, [.write r.ctl (m2pWord 3 a 0)], rfl, hm, by simp, by simp [m2pWord_ne_reset]⟩,
    ⟨h.facts, hm.wf, h.auto⟩, hc⟩

/-- The request of a write. -/
theorem OnLane.writeRequest_go (h : OnLane s p l r) (hs : s.sched = .go :: e) (a : BitVec 12) (d : Byte) (c : Bool) : ∃ t,
    (memWrite r.ctl (m2pWord (writeCommand c) a d)).ends s () t ∧
      Answered (s.phyWrite p l a d c) r (m2pWord (writeCommand c) a d) e 1 0 t ∧ Idle t p l r := by
  have e1 := ends_memWrite_after r.ctl (m2pWord (writeCommand c) a d) (State.interfere_go hs) rfl
  obtain ⟨m, hm, hc, hw⟩ := OnLane.took_write (s := s.withSched e) ⟨h.facts, h.stored, h.auto⟩ a d c
  have hpw : (s.withSched e).phyWrite p l a d c = { s.phyWrite p l a d c with mmio := s.mmio, sched := e, trace := s.trace } :=
    s.phyWrite_elsewhere p l a d c s.mmio e s.trace
  rw [hw, hpw] at e1
  obtain ⟨ph, sr, un, hphy⟩ := s.phyWrite_eq p l a d c
  rw [hphy] at e1 ⊢
  exact ⟨_, e1, ⟨m, [.write r.ctl (m2pWord (writeCommand c) a d)], rfl, hm, by simp, by simp [m2pWord_ne_reset]⟩,
    ⟨h.facts, hm.wf, h.auto⟩, hc⟩

/-- A read of P2M_STS just after the PHY has changed it. -/
theorem OnLane.read_poke (h : OnLane s p l r) (hs : s.sched = .poke r.sts x :: .go :: e) (w : Word) : ∃ t,
    (memRead r.sts).ends s x t ∧ Answered s r w e 0 0 t := by
  have e1 := ends_memRead_after r.sts (State.interfere_poke hs) rfl
  have hx : ((s.pokeWord r.sts x).withSched e).mmioRead r.sts = x := Memory.readWord_putWord_eq _ _ _ h.stored
  rw [hx] at e1
  exact ⟨_, e1, _, [.read r.sts x], rfl, (LaneStore.refl h.stored).sts x, by simp, by simp⟩

/-! ### A bad answer -/

/-- A failure ends with the bus reset (40_message_bus.md R157). -/
theorem OnLane.fails_go {α : Type} (h : OnLane s p l r) (hs : s.sched = .go :: .go :: .go :: e) (hw : w ≠ m2pReset) (a : α) :
    ∃ t, (do busReset s.plat p l; return a : Code α).ends s a t ∧ Answered s r w e 0 1 t ∧ Idle t p l r := by
  obtain ⟨t, e1, a1, hi⟩ := h.busReset_go hs hw
  exact ⟨t, e1.bind (Code.ends_pure _ _), a1, hi⟩

/-- The wait for an answer that is there (40_message_bus.md R153). -/
theorem OnLane.ack_poke (h : OnLane s p l r) (hs : s.sched = .poke r.sts x :: .go :: e) (w : Word) (n : Nat)
    (hx : wireTop x = true) : ∃ t, (waitAck s.plat p l n).ends s (ackStatus n x, x) t ∧ Answered s r w e 0 0 t := by
  obtain ⟨t, e1, a1⟩ := h.read_poke hs w
  refine ⟨t, (ends_readTime_scheduled s).bind ?_, a1⟩
  rw [h.facts.sts_eq]
  refine e1.bind ?_
  rw [if_pos hx]
  exact Code.ends_pure _ _

theorem ackStatus_of_badAck {n : Nat} (h : badAck n x) : ackStatus n x = .busProtocolError := by
  rcases h.2 with he | ht
  · exact ackStatus_of_error he n
  · rw [ackStatus, if_pos ht, ite_self]

/-- A read attempt that sees a bad answer (40_message_bus.md R157, R162). -/
theorem Idle.readAttempt_bad (h : Idle s p l r) (a : BitVec 12) (hx : badAck 4 x)
    (hs : s.sched = .go :: .go :: .go :: .poke r.sts x :: .go :: .go :: .go :: .go :: e) : ∃ t,
    (readAttempt s.plat p l a).ends s (.busProtocolError, 0) t ∧ Answered s r (m2pWord 3 a 0) e 1 1 t ∧ Idle t p l r := by
  unfold readAttempt clearResponse
  rw [h.lane.facts.ctl_eq, h.lane.facts.sts_eq]
  obtain ⟨t1, e1, a1, -⟩ := h.lane.wait_go hs (m2pWord 3 a 0) s.plat (mask := bit31) s.plat.tPendUs ((and_bit31 _).2 h.idle)
  obtain ⟨t2, e2, a2, -⟩ := (a1.onLane h.lane).clear_go a1.sched (m2pWord 3 a 0)
  have a12 := a1.trans a2
  obtain ⟨t3, e3, a3, h3⟩ := (a12.onLane h.lane).readRequest_go a12.sched a
  have a13 := a12.trans a3
  obtain ⟨t4, e4, a4⟩ := h3.lane.ack_poke a13.sched (m2pWord 3 a 0) 4 hx.1
  have a14 := a13.trans a4
  obtain ⟨t5, e5, a5, h5⟩ := (a14.onLane h.lane).fails_go a14.sched (m2pWord_ne_reset 3 a 0)
    ((Status.busProtocolError, 0) : Status × Byte)
  rw [ackStatus_of_badAck hx, a13.plat] at e4
  rw [a14.plat] at e5
  exact ⟨t5, e1.bind (e2.bind (e3.bind (e4.bind e5))), a14.trans a5, h5⟩

/-- A bad answer to a write: of an uncommitted one only ERROR is looked at (40_message_bus.md R166). -/
def badWriteAck (c : Bool) (x : Word) : Prop := if c then badAck 5 x else wireBit15 x = true

/-- A write attempt that sees a bad answer: the write has been performed (40_message_bus.md R157, R166). -/
theorem Idle.writeAttempt_bad (h : Idle s p l r) (a : BitVec 12) (d : Byte) {c : Bool} (hx : badWriteAck c x)
    (hs : s.sched = .go :: .go :: .go :: .go :: .poke r.sts x :: .go :: .go :: .go :: .go :: e) : ∃ t,
    (writeAttempt s.plat p l a d c).ends s .busProtocolError t ∧
      Answered (s.phyWrite p l a d c) r (m2pWord (writeCommand c) a d) e 1 1 t ∧ Idle t p l r := by
  have hw := m2pWord_ne_reset (writeCommand c) a d
  unfold writeAttempt clearResponse
  rw [h.lane.facts.ctl_eq, h.lane.facts.sts_eq]
  obtain ⟨t1, e1, a1, -⟩ := h.lane.wait_go hs (m2pWord (writeCommand c) a d) s.plat (mask := bit31) s.plat.tPendUs
    ((and_bit31 _).2 h.idle)
  obtain ⟨t2, e2, a2, -⟩ := (a1.onLane h.lane).clear_go a1.sched (m2pWord (writeCommand c) a d)
  have a12 := a1.trans a2
  obtain ⟨t3, e3, a3, h3⟩ := (a12.onLane h.lane).writeRequest_go a12.sched a d c
  have a13 := (a12.phyWrite_both p l a d c).trans a3
  obtain ⟨t4, e4, a4, -⟩ := h3.lane.wait_go a13.sched (m2pWord (writeCommand c) a d) s.plat (mask := bit31) s.plat.tPendUs
    ((and_bit31 _).2 h3.idle)
  have a14 := a13.trans a4
  have lane4 := a14.onLane (h.lane.phyWrite a d c)
  have plat4 : t4.plat = s.plat := a14.plat.trans (State.phyWrite_plat a d c)
  cases c
  · obtain ⟨t5, e5, a5⟩ := lane4.read_poke a14.sched (m2pWord (writeCommand false) a d)
    obtain ⟨t6, e6, a6, h6⟩ := (a5.onLane lane4).fails_go a5.sched hw Status.busProtocolError
    have e56 := e5.bind (f := fun v => if wireBit15 v then (do
      busReset t5.plat p l; return .busProtocolError : Code Status) else (do
      memWrite r.sts clearResponseWord; return .ok)) (by rw [if_pos (show wireBit15 x = true from hx)]; exact e6)
    rw [a5.plat, plat4] at e56
    exact ⟨t6, e1.bind (e2.bind (e3.bind (e4.bind e56))), a14.trans (a5.trans a6), h6⟩
  · obtain ⟨t5, e5, a5⟩ := lane4.ack_poke a14.sched (m2pWord (writeCommand true) a d) 5 (show badAck 5 x from hx).1
    obtain ⟨t6, e6, a6, h6⟩ := (a5.onLane lane4).fails_go a5.sched hw Status.busProtocolError
    rw [ackStatus_of_badAck hx, plat4] at e5
    rw [a5.plat, plat4] at e6
    exact ⟨t6, e1.bind (e2.bind (e3.bind (e4.bind (e5.bind e6)))), a14.trans (a5.trans a6), h6⟩

/-- A good read attempt where nothing more is scheduled. -/
theorem Idle.readAttempt_good (h : Idle s p l r) (hq : s.quiet) (a : BitVec 12) : (readAttempt s.plat p l a).reaches s
    fun y t => y = (.ok, s.phyRead p l a) ∧ Answered s r (m2pWord 3 a 0) [] 1 0 t := by
  intro who hist k
  obtain ⟨hist', m, hm, -, e⟩ := run_readAttempt_ready hq h.lane who hist a k (LaneStore.refl h.lane.stored) s.trace h.idle
  have hne := h.lane.facts.distinct.symm
  exact ⟨hist', _, _, ⟨rfl, answered_withAccess hq hm (by simp [readRecords, hne])
    (by simp [readRecords, hne, m2pWord_ne_reset])⟩, e⟩

/-- A good write attempt where nothing more is scheduled. -/
theorem Idle.writeAttempt_good (h : Idle s p l r) (hq : s.quiet) (a : BitVec 12) (d : Byte) (c : Bool) :
    (writeAttempt s.plat p l a d c).reaches s fun st t =>
      st = .ok ∧ Answered (s.phyWrite p l a d c) r (m2pWord (writeCommand c) a d) [] 1 0 t := by
  intro who hist k
  obtain ⟨hist', m, taken, checked, hm, -, -, -, -, e⟩ := run_writeAttempt_ready hq h.lane who hist a d c k
    (LaneStore.refl h.lane.stored) s.trace h.idle
  have hne := h.lane.facts.distinct.symm
  obtain ⟨ph, sr, un, hphy⟩ := s.phyWrite_eq p l a d c
  rw [hphy] at e ⊢
  refine ⟨hist', _, _, ⟨rfl, answered_withAccess (u := { s with phy := ph, sram := sr, uncommitted := un }) hq hm ?_ ?_⟩, e⟩
  · cases c <;> simp [committedRecords, uncommittedRecords, writeCommand, hne]
  · cases c <;> simp [committedRecords, uncommittedRecords, hne, m2pWord_ne_reset]

/-! ### The attempts of a command (40_message_bus.md R160) -/

theorem badAnswers_cons (sts : Word) (lead : Nat) (x : Word) (vs : List Word) : badAnswers sts lead (x :: vs) =
    List.replicate lead .go ++ .poke sts x :: .go :: .go :: .go :: .go :: badAnswers sts lead vs := by
  simp [badAnswers, List.replicate]

/-- The read answers as `attempts` attempts against these bad answers do (40_message_bus.md R157, R162, R164): the first
that succeeds is the last. -/
def Code.readsAgainst (c : Code (Status × Byte)) (s : State) (p l : Nat) (r : LaneRegs) (a : BitVec 12) (vs : List Word)
    (attempts : Nat) : Prop :=
  c.reaches s fun y t => y = (if vs.length = attempts then (.busProtocolError, 0) else (.ok, s.phyRead p l a)) ∧
    Answered s r (m2pWord 3 a 0) [] (min (vs.length + 1) attempts) vs.length t

/-- The write answers so, and is performed (40_message_bus.md R157, R166, R168). -/
def Code.writesAgainst (c : Code Status) (s : State) (p l : Nat) (r : LaneRegs) (a : BitVec 12) (d : Byte) (k : Bool)
    (vs : List Word) (attempts : Nat) : Prop :=
  c.reaches s fun st t => st = (if vs.length = attempts then .busProtocolError else .ok) ∧
    Answered (s.phyWrite p l a d k) r (m2pWord (writeCommand k) a d) [] (min (vs.length + 1) attempts) vs.length t

/-- A further attempt after one that failed. -/
theorem Answered.attempt {n k : Nat} (h : Answered u r w e 1 1 t) (h' : Answered t r w [] (min (k + 1) (n + 1)) k v) :
    Answered u r w [] (min (k + 1 + 1) (n + 1 + 1)) (k + 1) v := by
  have hmin : min (k + 1 + 1) (n + 1 + 1) = min (k + 1) (n + 1) + 1 := Nat.succ_min_succ _ _
  exact hmin ▸ h.trans h'

/-- The only attempt (40_message_bus.md R162, R163). -/
theorem Idle.readAttempt (h : Idle s p l r) (a : BitVec 12) {vs : List Word} (hlen : vs.length ≤ 1)
    (hbad : ∀ v ∈ vs, badAck 4 v) (hs : s.sched = badAnswers r.sts 3 vs) :
    (readAttempt s.plat p l a).readsAgainst s p l r a vs 1 := by
  cases vs with
  | nil => exact h.readAttempt_good hs a
  | cons x rest =>
    obtain rfl : rest = [] := by simpa using hlen
    obtain ⟨t, e, ht, -⟩ := h.readAttempt_bad a (hbad x (.head _)) (hs.trans (badAnswers_cons ..))
    exact e.reaches.mono fun y t' ⟨hy, he⟩ => ⟨hy, he ▸ ht⟩

/-- At most `n + 1` attempts (40_message_bus.md R164). -/
theorem Idle.mbReadFrom (a : BitVec 12) (n : Nat) {s : State} {vs : List Word} (h : Idle s p l r)
    (hlen : vs.length ≤ n + 1) (hbad : ∀ v ∈ vs, badAck 4 v) (hs : s.sched = badAnswers r.sts 3 vs) :
    (mbReadFrom s.plat p l a n).readsAgainst s p l r a vs (n + 1) := by
  induction n generalizing s vs with
  | zero =>
    refine Code.reaches.bind (h.readAttempt a hlen hbad hs) fun y t ⟨hy, ht⟩ => ?_
    subst hy
    by_cases hv : vs.length = 0 + 1
    · rw [if_pos hv]
      exact Code.reaches_pure ⟨rfl, ht⟩
    · rw [if_neg hv]
      exact Code.reaches_pure ⟨rfl, ht⟩
  | succ n ih =>
    cases vs with
    | nil =>
      refine (h.readAttempt_good hs a).bind fun y t ⟨hy, ht⟩ => ?_
      subst hy
      exact Code.reaches_pure ⟨rfl, by simpa using ht⟩
    | cons x rest =>
      obtain ⟨t, e, ht, hi⟩ := h.readAttempt_bad a (hbad x (.head _)) (hs.trans (badAnswers_cons ..))
      have hrest := ih hi (Nat.le_of_succ_le_succ hlen) (fun v hv => hbad v (.tail _ hv)) ht.sched
      rw [ht.plat, Code.readsAgainst, ht.phyRead] at hrest
      refine e.reaches.bind fun y t' ⟨hy, ht'⟩ => ?_
      subst hy ht'
      exact hrest.mono fun y u hu => ⟨by simpa using hu.1, ht.attempt hu.2⟩

/-- The only attempt of a write (40_message_bus.md R166, R167). -/
theorem Idle.writeAttempt (h : Idle s p l r) (a : BitVec 12) (d : Byte) (k : Bool) {vs : List Word} (hlen : vs.length ≤ 1)
    (hbad : ∀ v ∈ vs, badWriteAck k v) (hs : s.sched = badAnswers r.sts 4 vs) :
    (writeAttempt s.plat p l a d k).writesAgainst s p l r a d k vs 1 := by
  cases vs with
  | nil => exact h.writeAttempt_good hs a d k
  | cons x rest =>
    obtain rfl : rest = [] := by simpa using hlen
    obtain ⟨t, e, ht, -⟩ := h.writeAttempt_bad a d (hbad x (.head _)) (hs.trans (badAnswers_cons ..))
    exact e.reaches.mono fun y t' ⟨hy, he⟩ => ⟨hy, he ▸ ht⟩

/-- At most `n + 1` attempts of a write that may be made again (40_message_bus.md R168). -/
theorem Idle.mbWriteFrom (a : BitVec 12) (d : Byte) (k : Bool) (n : Nat) {s : State} {vs : List Word} (h : Idle s p l r)
    (hagain : (s.phyWrite p l a d k).phyWrite p l a d k = s.phyWrite p l a d k)
    (hlen : vs.length ≤ n + 1) (hbad : ∀ v ∈ vs, badWriteAck k v) (hs : s.sched = badAnswers r.sts 4 vs) :
    (mbWriteFrom s.plat p l a d k n).writesAgainst s p l r a d k vs (n + 1) := by
  induction n generalizing s vs with
  | zero => exact h.writeAttempt a d k hlen hbad hs
  | succ n ih =>
    cases vs with
    | nil =>
      refine (h.writeAttempt_good hs a d k).bind fun st t ⟨hst, ht⟩ => ?_
      subst hst
      exact Code.reaches_pure ⟨rfl, by simpa using ht⟩
    | cons x rest =>
      obtain ⟨t, e, ht, hi⟩ := h.writeAttempt_bad a d (hbad x (.head _)) (hs.trans (badAnswers_cons ..))
      have hfix := ht.phyWrite hagain
      have hrest := ih hi (by rw [hfix, hfix]) (Nat.le_of_succ_le_succ hlen) (fun v hv => hbad v (.tail _ hv)) ht.sched
      rw [ht.plat.trans (State.phyWrite_plat a d k), Code.writesAgainst, hfix] at hrest
      refine e.reaches.bind fun st t' ⟨hst, ht'⟩ => ?_
      subst hst ht'
      exact hrest.mono fun y u hu => ⟨by simpa using hu.1, ht.attempt hu.2⟩

/-! ### The commands -/

/-- On the one lane of a mask an operation ends the command with its own status. -/
theorem reaches_onLanes_single {op : Nat → Code Status} {P : Status → State → Prop} (h : (op l).reaches s P) :
    (onLanes op [l]).reaches s P := by
  refine h.bind fun st t ht => ?_
  split
  · exact Code.reaches_pure ht
  next hok =>
    obtain rfl := not_not.1 hok
    exact Code.reaches_pure ht

theorem setLanes_single (hl : l < 2) : setLanes (1#2 <<< l) = [l] := by
  interval_cases l <;> decide

/-- What is seen of a command that has ended after accesses of a lane. -/
theorem Answered.observed {n k : Nat} (h : Answered u r w [] n k t) (hu : s.phyOnly u) (hb : s.banks[s.cur]? = some b)
    (c : Core) (st : Status) : (t.ended s.cur b c st).quiet ∧ (t.ended s.cur b c st).phy = u.phy ∧
      (t.ended s.cur b c st).sram = u.sram ∧ (t.ended s.cur b c st).uncommitted = u.uncommitted ∧
      (t.ended s.cur b c st).count (.write r.ctl w) = s.count (.write r.ctl w) + n ∧
      (t.ended s.cur b c st).count (.write r.ctl 0x00008000) = s.count (.write r.ctl 0x00008000) + k ∧
      (t.ended s.cur b c st).banks[s.cur]? = some { b with seq := none, core := { c with code := st, busy := false } } := by
  obtain ⟨ph, sr, un, rfl⟩ := hu
  obtain ⟨m, tr, rfl, -, hn, hk⟩ := h
  refine ⟨rfl, rfl, rfl, rfl, ?_, ?_, by simp [State.ended, lt_of_bank hb]⟩
  · simp only [State.count, State.ended_trace, List.countP_append, hn, Nat.add_comm]
  · rw [Nat.add_comm, ← hk]
    exact List.countP_append

/-- Accesses of a lane leave the banks alone. -/
theorem Answered.rests {n k : Nat} (h : Answered u r w [] n k t) (hu : s.phyOnly u) : t.banks = s.banks ∧ t.quiet := by
  obtain ⟨ph, sr, un, rfl⟩ := hu
  obtain ⟨m, tr, rfl, -⟩ := h
  exact ⟨rfl, rfl⟩

/-- The lane of a ready list. -/
theorem State.lanesReady.idle (h : s.lanesReady p [l]) (hr : s.plat.laneRegs? p l = some r) : Idle s p l r := by
  obtain ⟨r', hr'⟩ := h.2.2 l (.head _)
  obtain ⟨-, -, -, hregs, htop⟩ := id hr'
  obtain rfl : r' = r := Option.some.inj (hregs.symm.trans hr)
  exact ⟨hr'.onLane, htop⟩

/-- Settles O60: each bad answer fails one attempt and is followed by one bus reset; a write made again changes
nothing. -/
theorem badAnswersRetried : Obligations.BadAnswersRetried := by
  intro s b i p l attempts lanes r vs hb hv hready hr hphy hsram hwin hl ho hlen a d ha hd
  subst ha hd
  have hidle := hready.idle hr
  refine ⟨fun hi hlane hbad hs => ?_, fun k hi hlanes hbad hs => ?_⟩
  · obtain rfl : l = lowestLane lanes := hlane
    have hcode : ∃ c, codeOf i s.plat b.core = withResult c ∧
        c.readsAgainst s p (lowestLane lanes) r (b.core.arg0.setWidth 12) vs attempts := by
      rcases hi with ⟨rfl, rfl⟩ | ⟨rfl, rfl⟩
      · exact ⟨_, codeOf_mbRead .., hidle.mbReadFrom _ 2 hlen hbad hs⟩
      · exact ⟨_, codeOf_mbReadOnce .., hidle.readAttempt _ hlen hbad hs⟩
    obtain ⟨c, hc, hreads⟩ := hcode
    obtain ⟨y, t, ⟨rfl, ht⟩, e⟩ := exec_of_reaches_result hb hl ho hc hreads fun _ _ h => h.2.rests (.refl s)
    obtain ⟨hq, hp, hsr, hu, hn, hk, hbank⟩ := ht.observed (.refl s) hb _ _
    refine ⟨_, e, hq, hp, hsr, hu, hn, hk, hbank.trans ?_⟩
    split <;> simp
  · have hl2 : l < 2 := by
      by_contra h2
      rw [laneRegs?_eq_none (.inr (Nat.not_lt.1 h2))] at hr
      cases hr
    have hcode : ∃ op : Nat → Code Status, codeOf i s.plat b.core = onLanes op (setLanes lanes) ∧
        (op l).writesAgainst s p l r (b.core.arg0.setWidth 12) (b.core.arg1.setWidth 8) k vs attempts := by
      rcases hi with ⟨rfl, rfl⟩ | ⟨rfl, rfl⟩
      · exact ⟨_, rfl, hidle.mbWriteFrom _ _ k 2 (State.phyWrite_phyWrite hwin hphy _ _ k) hlen hbad hs⟩
      · exact ⟨_, rfl, hidle.writeAttempt _ _ k hlen hbad hs⟩
    obtain ⟨op, hc, hwrites⟩ := hcode
    rw [hlanes, setLanes_single hl2] at hc
    obtain ⟨st, t, ⟨rfl, ht⟩, e⟩ := exec_of_reaches hb hl ho (hc ▸ reaches_onLanes_single hwrites) fun _ _ h =>
      h.2.rests (s.phyOnly_phyWrite ..)
    obtain ⟨hq, hp, hsr, hu, hn, hk, hbank⟩ := ht.observed (s.phyOnly_phyWrite ..) hb _ _
    exact ⟨_, e, hq, hp, hsr, hu, hn, hk, hbank⟩

end Sys2Proof.Machine
end

section
/-! The commands of the divider datapath that make no access: the frequencies of a copy (41_phy_datapath.md R202, R212,
R222, R232, R242, R252; 42_stepping_controller.md R277), and what ends at once (R205, R310). -/

namespace Sys2Proof.Machine

variable {s : State} {b : Bank} {i : Instr} {x : Selector} {ss : List Slot} {plat : Platform} {c20 : Option C20Cache}
  {copy : List Word}

/-! ### Commands that end at once -/

theorem exec_waitUntilDone_of_done (hb : s.banks[s.cur]? = some b) (hq : s.quiet)
    (hl : legalityEntry .waitUntilDone b.core.fsm = some none) (hd : b.core.done = true) :
    exec .waitUntilDone s = .next (s.ended s.cur b b.core .ok) := by
  have hdone : (s.coreAt s.cur).done = true := by rw [State.coreAt_of_bank hb, hd]
  rw [exec_eq_run hb hl id]
  refine congrArg Host.Outcome.next ?_
  change run _ _ (waitUntilDoneCode s.plat b.core Prog.ending) s = _
  rw [waitUntilDoneCode, Code.bind_apply, run_sampleDone _ _ _ hq, Runner.inst, hdone]
  exact run_ending_of_bank hb hq _ _ _ _

/-- Settles O27: PRINT_REGISTERS is no action at all, and WAIT_UNTIL_DONE one sample of `done`. -/
theorem immediateCommands : Obligations.ImmediateCommands := fun _ _ hb hq =>
  ⟨fun hl => exec_of_ends hb hl id (Code.ends_pure _ _) rfl hq, fun hl => exec_waitUntilDone_of_done hb hq hl⟩

/-! ### The frequency of a copy, variant by variant -/

theorem freqV_combo {l : ComboLayout} (hx : x.layout = .combo l) :
    freqV plat (some x) c20 copy = freqOfNat (.ok, freqCombo plat.refclkComboKhz l copy) := by
  simp only [freqV, layoutOf, Option.map_some, hx]

theorem freqV_dkl {l : DklLayout} (hx : x.layout = .dkl l) :
    freqV plat (some x) c20 copy = (.ok, freqDkl plat.refclkDklMhz l copy) := by
  simp only [freqV, layoutOf, Option.map_some, hx]

theorem freqV_c10 {l : C10Layout} (hx : x.layout = .c10 l) :
    freqV plat (some x) c20 copy = freqOfNat (freqC10 plat.refclkC10Khz l.fields copy) := by
  simp only [freqV, layoutOf, Option.map_some, hx]

theorem freqV_c20 {l : C20Layout} (hx : x.layout = .c20 l) (c : C20Cache) :
    freqV plat (some x) (some c) copy = freqOfNat (freqC20 plat.refclkC20Khz (c20Block l c.ctx) c copy) := by
  simp only [freqV, layoutOf, Option.map_some, hx]

theorem freqV_dpmn {l : DpmnLayout} (hx : x.layout = .dpmn l) :
    freqV plat (some x) c20 copy = freqOfNat (.ok, freqDpmn l copy) := by
  simp only [freqV, layoutOf, Option.map_some, hx]

/-! ### CALC_PLL_CLOCK and GET_PLL_CLOCK -/

/-- The frequency of a bank that is bound and captured is that of the copy of its snapshot. -/
theorem Core.freq_of_bound {c : Core} (plat : Platform) (hsel : c.sel = some x) (hslots : c.slots = some ss) (m : Bool) :
    c.freq plat m = freqV plat (some x) c.c20.cache? (copyOf m ss) := by
  rw [Core.freq, Core.snapshot, hsel, hslots, Option.getD_some]

/-- A command whose pseudocode returns a frequency writes it to RESULT and ends with its status. -/
theorem exec_of_frequency {y : Status × B64} (hb : s.banks[s.cur]? = some b) (hq : s.quiet)
    (hl : legalityEntry i b.core.fsm = some none) (ho : ¬ badOperand s.plat i b.core)
    (hc : codeOf i s.plat b.core = withResult (pure y)) :
    exec i s = .next (s.ended s.cur b { b.core with result := y.2 } y.1) := by
  obtain ⟨y', t, ⟨rfl, rfl⟩, e⟩ := exec_of_reaches_result hb hl ho hc
    (Code.reaches_pure (P := fun y' t => y' = y ∧ t = s) ⟨rfl, rfl⟩) fun _ _ ⟨_, ht⟩ => by rw [ht]; exact ⟨rfl, hq⟩
  rw [e, BitVec.setWidth_eq]

/-- CALC_PLL_CLOCK gives the frequency of the copy its flag names, GET_PLL_CLOCK that of the copy last applied. -/
theorem exec_frequencies (hb : s.banks[s.cur]? = some b) (hq : s.quiet)
    (hl : legalityEntry .getPllClock b.core.fsm = some none) (hsel : b.core.sel = some x)
    (hslots : b.core.slots = some ss) {F : List Word → Status × B64}
    (hF : ∀ copy, freqV s.plat (some x) b.core.c20.cache? copy = F copy) (m : Bool) :
    exec (.calcPllClock m) s =
        .next (s.ended s.cur b { b.core with result := (F (copyOf m ss)).2 } (F (copyOf m ss)).1) ∧
      exec .getPllClock s = .next (s.ended s.cur b
        { b.core with result := (F (copyOf b.core.appliedMod ss)).2 } (F (copyOf b.core.appliedMod ss)).1) := by
  have hfreq : ∀ m, b.core.freq s.plat m = F (copyOf m ss) := fun m =>
    (Core.freq_of_bound s.plat hsel hslots m).trans (hF _)
  have hcode : ∀ m, withResult (pure (b.core.freq s.plat m)) = calcPllClockCode m s.plat b.core := fun m => by
    funext k
    simp only [withResult, calcPllClockCode, BitVec.setWidth_eq]
    rfl
  rw [← hfreq, ← hfreq]
  exact ⟨exec_of_frequency hb hq hl id (hcode m).symm, exec_of_frequency hb hq hl id (hcode b.core.appliedMod).symm⟩

/-- Settles O32: each of the three formulas looks at the first two words of the copy. -/
theorem frequencyMmio : Obligations.FrequencyMmio := by
  intro s b x ss m v0 v1 a0 a1 hb hq hl hsel hslots hv0 hv1 ha0 ha1 f hf
  subst hv0 hv1 ha0 ha1
  refine exec_frequencies hb hq hl hsel hslots (F := fun copy => (.ok, f (copy.getD 0 0) (copy.getD 1 0)))
    (fun copy => ?_) m
  rcases hf with ⟨l, hx, rfl⟩ | ⟨l, hx, rfl⟩ | ⟨l, hx, rfl⟩
  · exact freqV_combo hx
  · exact freqV_dkl hx
  · exact freqV_dpmn hx

/-- Settles O33: a denominator of 0 is what makes the two integer formulas fail. -/
theorem frequencyBus : Obligations.FrequencyBus := by
  intro s b x ss m hb hq hl hsel hslots F hF
  refine exec_frequencies hb hq hl hsel hslots (fun copy => ?_) m
  rcases hF with ⟨l, hx, rfl⟩ | ⟨l, c, blk, hx, hc20, rfl, rfl⟩
  · rw [freqV_c10 hx]
    by_cases hd : c10D l.fields copy = 0
    · exact (congrArg freqOfNat (if_pos hd)).trans (if_pos hd).symm
    · exact (congrArg freqOfNat (if_neg hd)).trans (if_neg hd).symm
  · rw [hc20, C20Regs.cache?_holding, freqV_c20 hx]
    by_cases hd : c.fracEn = 1 ∧ c20Word copy (c20Block l c.ctx).d = 0
    · exact (congrArg freqOfNat (if_pos hd)).trans (if_pos hd).symm
    · exact (congrArg freqOfNat (if_neg hd)).trans (if_neg hd).symm

end Sys2Proof.Machine
end

section
/-! A command whose pseudocode makes its accesses first and then writes registers of its bank, and one that fails at
these accesses (60_exceptions.md R371). -/

namespace Sys2Proof.Machine

variable {α : Type} {s t : State} {b : Bank} {i : Instr} {c : Code α} {f : α → Code Status} {a : α} {r : LaneRegs}

/-- The sequencer, on command `i` of the bank `b`, has run `c` from `s` and had the answer `a`; in `t` it goes on
with `f a`. -/
def Code.leadsTo (c : Code α) (f : α → Code Status) (i : Instr) (b : Bank) (s : State) (a : α) (t : State) : Prop :=
  ∃ hist, run (.seq s.cur (some i) b.core) [] (c fun a => f a Prog.ending) s =
    run (.seq s.cur (some i) b.core) hist (f a Prog.ending) t

theorem Code.endsIn.leadsTo {hist : List Resp} (h : c.endsIn (.seq s.cur (some i) b.core) [] s a hist t) :
    c.leadsTo f i b s a t := ⟨hist, h _⟩

theorem Code.ends.leadsTo (h : c.ends s a t) : c.leadsTo f i b s a t :=
  let ⟨_, e⟩ := h _ _
  Code.endsIn.leadsTo e

theorem Code.reaches.leadsTo {P : α → State → Prop} (h : c.reaches s P) (f : α → Code Status) (i : Instr) (b : Bank) :
    ∃ a t, P a t ∧ c.leadsTo f i b s a t :=
  let ⟨hist, a, t, hP, e⟩ := h _ _ _
  ⟨a, t, hP, hist, e⟩

/-- A command whose pseudocode is `c` and then `f` goes on from what `c` answers, wherever that leaves the machine. -/
theorem exec_of_leadsTo (hb : s.banks[s.cur]? = some b) (hl : legalityEntry i b.core.fsm = some none)
    (ho : ¬ badOperand s.plat i b.core) (hc : codeOf i s.plat b.core = c >>= f) (h : c.leadsTo f i b s a t) :
    ∃ hist, exec i s = .next (run (.seq s.cur (some i) b.core) hist (f a Prog.ending) t) := by
  obtain ⟨hist, e⟩ := h
  exact ⟨hist, by rw [exec_eq_run hb hl ho, hc, Code.bind_apply, e]⟩

/-- Where nothing is left to do after the accesses, the bank is as it was. -/
theorem exec_of_leadsTo_pure (hb : s.banks[s.cur]? = some b) (hl : legalityEntry i b.core.fsm = some none)
    (ho : ¬ badOperand s.plat i b.core) (hc : codeOf i s.plat b.core = c >>= f) (h : c.leadsTo f i b s a t) {st : Status}
    (hf : f a = pure st) (hbt : t.banks[s.cur]? = some b) (hq : t.quiet) :
    exec i s = .next (t.ended s.cur b b.core st) := by
  obtain ⟨hist, e⟩ := exec_of_leadsTo hb hl ho hc h
  rw [e, hf, Code.pure_apply, run_ending_of_bank hbt hq]

/-- A command that ends with its first accesses, three attempts at a PHY that never answers. -/
theorem failsAfter_of_tries_first (hb : s.banks[s.cur]? = some b) (hq : s.quiet)
    (hl : legalityEntry i b.core.fsm = some none) (ho : ¬ badOperand s.plat i b.core) (hi : returnsValue i = false)
    (hc : codeOf i s.plat b.core = c >>= f) (h : c.tries s r 3 a) (hf : f a = pure .busTimeout) :
    s.failsAfter i b r 3 :=
  failsAfter_of_tries hb hq hl ho hi (by rw [hc]; exact h.bind hf)

/-- What is seen of a command that has failed so and returns no value. -/
theorem State.failsAfter.bank_kept {attempts : Nat} (h : s.failsAfter i b r attempts) (hi : returnsValue i = false)
    (hb : s.banks[s.cur]? = some b) :
    ∃ t, exec i s = .next t ∧ t.phy = s.phy ∧ t.sram = s.sram ∧ t.uncommitted = s.uncommitted ∧
      t.count (.write r.ctl 0x00008000) = s.count (.write r.ctl 0x00008000) + attempts ∧
      t.banks[s.cur]? = some { b with seq := none, core := { b.core with code := .busTimeout, busy := false } } := by
  obtain ⟨t, -, e, hphy, hsram, hmarks, hcount, -, -, -, hbank⟩ := h.observed hb
  exact ⟨t, e, hphy, hsram, hmarks, hcount, by rw [hbank, hi]; rfl⟩

end Sys2Proof.Machine
end

section
/-! READ_REGISTERS (41_phy_datapath.md R201): what it does once its variant's capture has answered, and the capture of
each variant (R211, R221, R231, R241, R251). -/

namespace Sys2Proof.Machine

variable {s t : State} {b : Bank} {x : Selector} {r : LaneRegs} {slots : List Slot} {c20 : Option C20Cache} {plat : Platform}

/-! ### After the capture -/

/-- The frequency a capture is cached with: 0.0 where it has none (41_phy_datapath.md R201). -/
def capturedFreq (plat : Platform) (sel : Option Selector) (slots : List Slot) (c20 : Option C20Cache) : B64 :=
  if (freqV plat sel c20 (copyOf false slots)).1 = .ok then (freqV plat sel c20 (copyOf false slots)).2 else B64.zero

/-- The registers READ_REGISTERS leaves after a capture (41_phy_datapath.md R201). -/
def Core.capturedAs (c : Core) (plat : Platform) (slots : List Slot) (c20 : Option C20Cache) : Core :=
  { c with
    slots := some slots, filling := none, captured := true, appliedMod := false
    c20 := c20.elim c.c20 C20Regs.holding, fsm := .captured, pllFreqOrig := some (capturedFreq plat c.sel slots c20) }

/-- The pseudocode of READ_REGISTERS after the capture. -/
def afterCapture (plat : Platform) (sel : Option Selector) (y : Status × List Slot × Option C20Cache) : Code Status := do
  if y.1 ≠ .ok then return y.1
  performAll (fillWrites y.2.1)
  performAll ((y.2.2.elim [] C20Cache.writes).map .setC20)
  perform .setCaptured
  perform (.setApplied false)
  perform (.setFreqOrig (some (capturedFreq plat sel y.2.1 y.2.2)))
  perform (.setFsm .captured)
  return .ok

theorem readRegistersCode_eq {c : Core} (hc : c.captured = false) :
    readRegistersCode plat c = captureV plat c.sel >>= afterCapture plat c.sel := by
  rw [readRegistersCode, hc, if_neg Bool.false_ne_true]
  rfl

theorem readRegisters_entry (hf : b.core.fsm = .idle) : legalityEntry .readRegisters b.core.fsm = some none := by
  rw [hf]; rfl

/-- A capture that answers slots is recorded. -/
theorem exec_readRegisters_ok (hb : s.banks[s.cur]? = some b) (hf : b.core.fsm = .idle) (hc : b.core.captured = false)
    (hn : b.core.slots = none) (h : (captureV s.plat b.core.sel).leadsTo (afterCapture s.plat b.core.sel) .readRegisters
      b s (.ok, slots, c20) t) (hbt : t.banks[s.cur]? = some b) (hq : t.quiet) :
    exec .readRegisters s = .next (t.ended s.cur b (b.core.capturedAs s.plat slots c20) .ok) := by
  obtain ⟨hist, e⟩ := exec_of_leadsTo hb (readRegisters_entry hf) id (readRegistersCode_eq hc) h
  obtain ⟨hist', hrun⟩ := run_captureEnd (lt_of_bank hbt) hq hf hc hn (some .readRegisters) b.core hist slots c20
    (capturedFreq s.plat b.core.sel slots c20) fun _ => Prog.ending .ok
  rw [State.withCore_self hbt] at hrun
  exact e.trans (congrArg Host.Outcome.next (hrun.trans (run_end (lt_of_bank hbt) _ _ _ _ _ hq)))

/-- A capture that fails ends the command with its status. -/
theorem exec_readRegisters_fails (hb : s.banks[s.cur]? = some b) (hf : b.core.fsm = .idle)
    (hc : b.core.captured = false) {st : Status} (hst : st ≠ .ok)
    (h : (captureV s.plat b.core.sel).leadsTo (afterCapture s.plat b.core.sel) .readRegisters b s (st, slots, c20) t)
    (hbt : t.banks[s.cur]? = some b) (hq : t.quiet) :
    exec .readRegisters s = .next (t.ended s.cur b b.core st) :=
  exec_of_leadsTo_pure hb (readRegisters_entry hf) id (readRegistersCode_eq hc) h (if_pos hst) hbt hq

theorem capturedFreq_of_ok {sel : Option Selector} {f : B64} (h : freqV plat sel c20 (copyOf false slots) = (.ok, f)) :
    capturedFreq plat sel slots c20 = f := by rw [capturedFreq, h, if_pos rfl]

/-- An integer frequency is cached as a binary64 value, a failed division as 0.0. -/
theorem capturedFreq_of_int {sel : Option Selector} {y : Status × Nat}
    (h : freqV plat sel c20 (copyOf false slots) = freqOfNat y) :
    capturedFreq plat sel slots c20 = if y.1 = .ok then B64.ofNat y.2 else B64.zero := by
  rw [capturedFreq, h, freqOfNat]
  by_cases hy : y.1 = .ok
  · simp only [hy, if_true]
  · simp only [hy, if_false]

/-! ### MMIO variants -/

/-- A capture by MMIO reads, which leave the banks alone. -/
theorem exec_readRegisters_of_ends (hb : s.banks[s.cur]? = some b) (hq : s.quiet) (hf : b.core.fsm = .idle)
    (hc : b.core.captured = false) (hn : b.core.slots = none) {rs : List Record}
    (h : (captureV s.plat b.core.sel).ends s (.ok, slots, c20) (s.traced rs)) :
    exec .readRegisters s = .next ((s.traced rs).ended s.cur b (b.core.capturedAs s.plat slots c20) .ok) :=
  exec_readRegisters_ok hb hf hc hn h.leadsTo hb hq

theorem ends_twoReads {α : Type} (off off' : Word) (f : Word → Word → α) (hq : s.quiet) :
    (do let v ← memRead off; let v' ← memRead off'; return f v v' : Code α).ends s
      (f (s.mmioRead off) (s.mmioRead off'))
      (s.traced [.read off' (s.mmioRead off'), .read off (s.mmioRead off)]) := by
  have hq1 : (s.record (.read off (s.mmioRead off))).quiet := hq
  exact (ends_memRead off hq).bind ((ends_memRead off' hq1).bind (f := fun v' => pure (f (s.mmioRead off) v'))
    (Code.ends_pure _ _))

theorem ends_captureV_combo {l : ComboLayout} (hx : x.layout = .combo l) (hq : s.quiet) :
    (captureV s.plat (some x)).ends s
      (.ok, [newSlot l.cfg0.toNat (s.mmioRead l.cfg0) true, newSlot l.cfg1.toNat (s.mmioRead l.cfg1) false], none)
      (s.traced [.read l.cfg1 (s.mmioRead l.cfg1), .read l.cfg0 (s.mmioRead l.cfg0)]) := by
  simp only [captureV, layoutOf, Option.map_some, hx]
  exact ends_twoReads l.cfg0 l.cfg1
    (fun v0 v1 => (Status.ok, [newSlot l.cfg0.toNat v0 true, newSlot l.cfg1.toNat v1 false], none)) hq

theorem ends_captureV_dpmn {l : DpmnLayout} (hx : x.layout = .dpmn l) (hq : s.quiet) :
    (captureV s.plat (some x)).ends s
      (.ok, [newSlot l.m.toNat (s.mmioRead l.m) true, newSlot l.n.toNat (s.mmioRead l.n) false], none)
      (s.traced [.read l.n (s.mmioRead l.n), .read l.m (s.mmioRead l.m)]) := by
  simp only [captureV, layoutOf, Option.map_some, hx]
  exact ends_twoReads l.m l.n
    (fun v0 v1 => (Status.ok, [newSlot l.m.toNat v0 true, newSlot l.n.toNat v1 false], none)) hq

/-- Settles O28: two reads, and the registers that `Core.capturedAs` names. -/
theorem captureMmio : Obligations.CaptureMmio := by
  intro s b x hb hq hf hc hn hsel
  refine ⟨fun l v0 v1 hx h0 h1 => ?_, fun l v0 v1 hx h0 h1 => ?_⟩ <;> subst h0 h1
  · rw [exec_readRegisters_of_ends hb hq hf hc hn (hsel ▸ ends_captureV_combo hx hq), Core.capturedAs,
      capturedFreq_of_ok (hsel ▸ freqV_combo hx)]
    rfl
  · rw [exec_readRegisters_of_ends hb hq hf hc hn (hsel ▸ ends_captureV_dpmn hx hq), Core.capturedAs,
      capturedFreq_of_ok (hsel ▸ freqV_dpmn hx)]
    rfl

theorem ends_readOffsets (as : List Word) {s : State} (hq : s.quiet) :
    (readOffsets as).ends s (as.map s.mmioRead) (s.traced (as.map fun a => .read a (s.mmioRead a)).reverse) := by
  induction as generalizing s with
  | nil => exact Code.ends_pure _ _
  | cons a rest ih =>
    have h := ih (s := s.record (.read a (s.mmioRead a))) hq
    have e : (s.record (.read a (s.mmioRead a))).traced (rest.map fun o => .read o (s.mmioRead o)).reverse =
        s.traced ((a :: rest).map fun o => .read o (s.mmioRead o)).reverse := by
      simp [State.traced, State.record]
    exact e ▸ (ends_memRead a hq).bind (h.bind (Code.ends_pure _ _))

/-- DIV0 and BIAS are the first two slot registers of a DKL (10_state.md R34). -/
theorem dklRegs_eq_cons (l : DklLayout) : ∃ rest, l.regs = l.div0 :: l.bias :: rest := by
  have h : ∀ (aux : List AuxField) (acc : List Word), ∃ rest,
      aux.foldl (fun acc a => if acc.contains a.reg then acc else acc ++ [a.reg]) acc = acc ++ rest := by
    intro aux
    induction aux with
    | nil => exact fun acc => ⟨[], by simp⟩
    | cons a aux ih =>
      intro acc
      rw [List.foldl_cons]
      split
      · exact ih acc
      · obtain ⟨rest, e⟩ := ih (acc ++ [a.reg])
        exact ⟨a.reg :: rest, by rw [e, List.append_assoc]; rfl⟩
  exact h l.aux [l.div0, l.bias]

/-- The slots of a DKL capture, and HW_READ_ANOMALY where a value is all ones (41_phy_datapath.md R221). -/
theorem ends_captureV_dkl {l : DklLayout} (hx : x.layout = .dkl l) (hq : s.quiet) :
    (captureV s.plat (some x)).ends s
      (if (l.regs.map s.mmioRead).contains 0xFFFFFFFF#32 then (.hwReadAnomaly, [], none)
        else (.ok, l.regs.map fun a => newSlot a.toNat (s.mmioRead a) true, none))
      (s.traced (l.regs.map fun a => .read a (s.mmioRead a)).reverse) := by
  have hzip : List.zipWith (fun (a v : Word) => newSlot a.toNat v true) l.regs (l.regs.map s.mmioRead) =
      l.regs.map fun a => newSlot a.toNat (s.mmioRead a) true := by
    rw [List.zipWith_map_right, List.zipWith_self]
  simp only [captureV, layoutOf, Option.map_some, hx]
  refine (ends_readOffsets l.regs hq).bind ?_
  split
  · exact Code.ends_pure _ _
  · exact hzip ▸ Code.ends_pure _ _

/-- Settles O29: whether a value is all ones is seen after all the reads. -/
theorem captureDkl : Obligations.CaptureDkl := by
  intro s b x l hb hq hf hc hn hsel hx
  have h := ends_captureV_dkl hx hq
  rw [← hsel] at h
  refine ⟨fun ⟨a, ha, hones⟩ => ?_, fun hno => ?_⟩
  · rw [if_pos (List.contains_iff_mem.2 (List.mem_map.2 ⟨a, ha, hones⟩) :
      (l.regs.map s.mmioRead).contains 0xFFFFFFFF#32 = true)] at h
    exact exec_readRegisters_fails hb hf hc (by decide) h.leadsTo hb hq
  · rw [if_neg fun hm => by
      obtain ⟨a, ha, hones⟩ := List.mem_map.1 (List.contains_iff_mem.1 hm)
      exact hno a ha hones] at h
    rw [exec_readRegisters_of_ends hb hq hf hc hn h]
    obtain ⟨rest, hregs⟩ := dklRegs_eq_cons l
    rw [Core.capturedAs, capturedFreq_of_ok (hsel ▸ freqV_dkl hx), hregs]
    rfl

/-! ### Bus variants -/

/-- The original copy of slots that hold words is these words. -/
theorem copyOf_newSlots {α : Type} (g : α → Nat) (as : List α) {vs : List Word} (h : vs.length = as.length) :
    copyOf false (List.zipWith (fun (a : α) (v : Word) => newSlot (g a) v true) as vs) = vs := by
  induction as generalizing vs with
  | nil => exact (List.length_eq_zero_iff.1 h).symm
  | cons a as ih =>
    cases vs with
    | nil => cases h
    | cons v vs => exact congrArg (v :: ·) (ih (Nat.succ.inj h))

/-- A capture over the bus on a ready lane. -/
theorem exec_readRegisters_of_busOp {u : State} {p : Nat} {L : List Nat} (hb : s.banks[s.cur]? = some b) (hq : s.quiet)
    (hf : b.core.fsm = .idle) (hc : b.core.captured = false) (hn : b.core.slots = none) (hr : s.lanesReady p L)
    (h : BusOp s p L (captureV s.plat b.core.sel) (.ok, slots, c20) u) (hu : s.phyOnly u) :
    ∃ m tr, s.touched p L m ∧ exec .readRegisters s =
      .next ((u.after m tr).ended s.cur b (b.core.capturedAs s.plat slots c20) .ok) := by
  obtain ⟨y, t, ⟨rfl, m, tr, hm, rfl⟩, e⟩ := (h.reaches hu hr hq).leadsTo (afterCapture s.plat b.core.sel) .readRegisters b
  obtain ⟨hbanks, hqt⟩ := hu.after hq (m := m) (tr := tr)
  exact ⟨m, tr, hm, exec_readRegisters_ok hb hf hc hn e (hbanks ▸ hb) hqt⟩

/-- On a PHY that never answers the capture of a bus variant fails at its first read. -/
theorem failsAfter_readRegisters {l : Nat} (hb : s.banks[s.cur]? = some b) (hq : s.quiet) (hf : b.core.fsm = .idle)
    (hc : b.core.captured = false) (hsel : b.core.sel = some x) (hs : s.silentLane x l r)
    (hne : ∀ y, x.layout = .c10 y → y.slotAddr ≠ []) : s.failsAfter .readRegisters b r 3 :=
  failsAfter_of_tries_first hb hq (readRegisters_entry hf) id rfl (readRegistersCode_eq hc)
    (hsel ▸ Silent.captureV hs hq hne) rfl

theorem busOp_captureV_c10 {l : C10Layout} (hx : x.layout = .c10 l) :
    BusOp s l.port [lowestLane l.lanes] (captureV s.plat (some x))
      (.ok, List.zipWith (fun (a : BitVec 12) (v : Word) => newSlot a.toNat v true) l.slotAddr
        (l.slotAddr.map fun a => (s.phyRead l.port (lowestLane l.lanes) a).setWidth 32), none) s := by
  simp only [captureV, layoutOf, Option.map_some, hx]
  exact (busOp_readBusSlots (.head _) l.slotAddr).bind (busOp_pure _ _ _ _)

/-- Settles O30: the slots of a ready lane, a capture that fails, and one that nothing answers. -/
theorem captureC10 : Obligations.CaptureC10 := by
  refine ⟨fun s b x l vs hb hq hf hc hn hsel hx hr hvs => ?_, fun s t b st vals c20 hist hb hf hc hst h hqt hbt => ?_,
    fun s b x l lane r hb hq hf hc hsel hx hne hs => ?_⟩
  · obtain ⟨m, tr, hm, e⟩ := exec_readRegisters_of_busOp hb hq hf hc hn hr (hsel ▸ busOp_captureV_c10 hx) (.refl s)
    refine ⟨m, tr, hm, e.trans ?_⟩
    rw [← hvs, Core.capturedAs, capturedFreq_of_int (y := freqC10 s.plat.refclkC10Khz l.fields vs) (by
      rw [copyOf_newSlots BitVec.toNat _ (hvs ▸ List.length_map _), hsel, freqV_c10 hx])]
    rfl
  · exact exec_readRegisters_fails hb hf hc hst h.leadsTo hbt hqt
  · refine (failsAfter_readRegisters hb hq hf hc hsel hs fun y hy => ?_).bank_kept rfl hb
    rw [hx] at hy
    exact Layout.c10.inj hy ▸ hne

/-! ### C20 -/

theorem State.sramReads_length (s : State) (p l : Nat) (as : List (BitVec 16)) : (s.sramReads p l as).1.length = as.length := by
  induction as generalizing s with
  | nil => rfl
  | cons a rest ih => exact congrArg (· + 1) (ih _)

theorem State.phyOnly_sramReads (s : State) (p l : Nat) (as : List (BitVec 16)) : s.phyOnly (s.sramReads p l as).2 := by
  induction as generalizing s with
  | nil => exact .refl s
  | cons a rest ih => exact (s.phyOnly_sramSelect p l a).trans (ih _)

/-- The context a C20 lane selects (41_phy_datapath.md R240). -/
def State.c20Ctx (s : State) (l : C20Layout) : C20Ctx :=
  if (s.phyRead l.port (lowestLane l.lanes) l.ctxReg).getLsbD l.ctxBit then .mpllb else .mplla

theorem busOp_captureV_c20 {l : C20Layout} {blk : C20Block} (hx : x.layout = .c20 l)
    (hblk : blk = c20Block l (s.c20Ctx l)) :
    BusOp s l.port [lowestLane l.lanes] (captureV s.plat (some x))
      (.ok, List.zipWith (fun (a : BitVec 16) (v : Word) => newSlot a.toNat v true) blk.words
        (s.sramReads l.port (lowestLane l.lanes) blk.words).1,
        some (c20CacheOf (s.c20Ctx l) blk (s.sramReads l.port (lowestLane l.lanes) blk.words).1))
      (s.sramReads l.port (lowestLane l.lanes) blk.words).2 := by
  subst hblk
  simp only [captureV, layoutOf, Option.map_some, hx]
  refine (busOp_mbRead (.head _) l.ctxReg).bind ?_
  exact (busOp_readSramWords (.head _) _).bind (busOp_pure _ _ _ _)

/-- Settles O31: the context is read before the block's words, from the same lane. -/
theorem captureC20 : Obligations.CaptureC20 := by
  refine ⟨fun s b x l ctx blk vs hb hq hf hc hn hsel hx hr hctx hblk hvs => ?_,
    fun s b x l lane r hb hq hf hc hsel hx hs => ?_⟩
  · obtain rfl : ctx = s.c20Ctx l := hctx
    replace hblk : blk = c20Block l (s.c20Ctx l) := hblk.trans (by cases s.c20Ctx l <;> rfl)
    obtain ⟨m, tr, hm, e⟩ := exec_readRegisters_of_busOp hb hq hf hc hn hr (hsel ▸ busOp_captureV_c20 hx hblk)
      (s.phyOnly_sramReads ..)
    refine ⟨m, tr, hm, e.trans ?_⟩
    rw [← hvs, Core.capturedAs, capturedFreq_of_int
      (y := freqC20 s.plat.refclkC20Khz blk (c20CacheOf (s.c20Ctx l) blk vs) vs) (by
        rw [copyOf_newSlots BitVec.toNat _ (hvs ▸ s.sramReads_length ..), hsel, freqV_c20 hx, hblk]
        rfl)]
    rfl
  · refine (failsAfter_readRegisters hb hq hf hc hsel hs fun y hy => ?_).bank_kept rfl hb
    rw [hx] at hy
    cases hy

end Sys2Proof.Machine
end

section
/-! CALC_FEEDBACK_DIVIDERS (41_phy_datapath.md R203): the `mod` copy after an inverse (R213, R223, R233, R243, R253), and
the bits an inverse may write (R262). -/

namespace Sys2Proof.Machine

variable {s t : State} {b : Bank} {x : Selector} {ss : List Slot} {ms : List Word} {puts : List (Nat × Word)}
  {plat : Platform} {c20 : Option C20Cache} {f : B64}

/-! ### The inverse, variant by variant (41_phy_datapath.md R200) -/

theorem invPuts_of_combo {l : ComboLayout} (hx : x.layout = .combo l) :
    invPuts plat (some x) c20 ms f = (.ok, invCombo plat.refclkComboKhz l ms f) := by
  simp only [invPuts, layoutOf, Option.map_some, hx]

theorem invPuts_of_dkl {l : DklLayout} (hx : x.layout = .dkl l) :
    invPuts plat (some x) c20 ms f = invDkl plat.refclkDklMhz l ms f := by
  simp only [invPuts, layoutOf, Option.map_some, hx]

theorem invPuts_of_c10 {l : C10Layout} (hx : x.layout = .c10 l) :
    invPuts plat (some x) c20 ms f = invC10 plat.refclkC10Khz l.fields ms f := by
  simp only [invPuts, layoutOf, Option.map_some, hx]

theorem invPuts_of_c20 {l : C20Layout} (c : C20Cache) (hx : x.layout = .c20 l) :
    invPuts plat (some x) (some c) ms f = invC20 plat.refclkC20Khz (c20Block l c.ctx) c ms f := by
  simp only [invPuts, layoutOf, Option.map_some, hx]

theorem invPuts_of_c20_none {l : C20Layout} (hx : x.layout = .c20 l) :
    invPuts plat (some x) none ms f = (.invalidState, []) := by
  simp only [invPuts, layoutOf, Option.map_some, hx]

theorem invPuts_of_dpmn {l : DpmnLayout} (hx : x.layout = .dpmn l) :
    invPuts plat (some x) c20 ms f = (.ok, invDpmn l ms f) := by
  simp only [invPuts, layoutOf, Option.map_some, hx]

theorem copyWord_of_getElem? {k : Nat} {v : Word} (h : ms[k]? = some v) : copyWord ms k = v := by
  rw [copyWord, List.getD_eq_getElem?_getD, h, Option.getD_some]

/-! ### The command -/

theorem copyOf_true (ss : List Slot) : copyOf true ss = ss.map (·.mod) := rfl

theorem Core.withMods_mods {c : Core} (hslots : c.slots = some ss) :
    { c with slots := some (withMods ss (ss.map (·.mod))) } = c := by rw [withMods_self, ← hslots]

/-- CALC_FEEDBACK_DIVIDERS, its checks passed, writes what the inverse gives and ends with its status. -/
theorem run_feedback (hb : s.banks[s.cur]? = some b) (hq : s.quiet) (hsel : b.core.sel = some x)
    (hslots : b.core.slots = some ss) (hpos : B64.le b.core.arg0 B64.zero = false) {st : Status}
    (hinv : invPuts s.plat (some x) b.core.c20.cache? (ss.map (·.mod)) b.core.arg0 = (st, puts)) (cmd : Option Instr) :
    run (.seq s.cur cmd b.core) [] (calcFeedbackDividersCode s.plat b.core Prog.ending) s =
      s.ended s.cur b { b.core with slots := some (withMods ss (applyPuts (ss.map (·.mod)) puts)) } st := by
  have hlt := lt_of_bank hb
  obtain ⟨hist, e⟩ := run_writeMod (b := b) hq hlt cmd b.core [] puts (c := b.core)
    (by rw [withMods_self, hslots]) (List.length_map _) fun _ => Prog.ending st
  rw [State.withCore_self hb, run_end hlt _ _ _ _ _ hq] at e
  rw [calcFeedbackDividersCode, hpos, if_neg Bool.false_ne_true, Core.snapshot, hsel, hslots, Option.getD_some,
    copyOf_true, hinv]
  exact e

/-- The same where the operand is finite and greater than 0. -/
theorem exec_feedback (hb : s.banks[s.cur]? = some b) (hq : s.quiet) (hf : b.core.fsm = .captured ∨ b.core.fsm = .done)
    (hsel : b.core.sel = some x) (hslots : b.core.slots = some ss) (hfin : ¬ notFinite b.core.arg0)
    (hpos : B64.le b.core.arg0 B64.zero = false) {st : Status}
    (hinv : invPuts s.plat (some x) b.core.c20.cache? (ss.map (·.mod)) b.core.arg0 = (st, puts)) :
    exec .calcFeedbackDividers s = .next (s.ended s.cur b
      { b.core with slots := some (withMods ss (applyPuts (ss.map (·.mod)) puts)) } st) := by
  have hl : legalityEntry .calcFeedbackDividers b.core.fsm = some none := by rcases hf with h | h <;> rw [h] <;> rfl
  rw [exec_eq_run hb hl hfin]
  exact congrArg Host.Outcome.next (run_feedback hb hq hsel hslots hpos hinv _)

/-- An inverse that fails without a write leaves the bank alone. -/
theorem exec_feedback_fails (hb : s.banks[s.cur]? = some b) (hq : s.quiet)
    (hf : b.core.fsm = .captured ∨ b.core.fsm = .done) (hsel : b.core.sel = some x) (hslots : b.core.slots = some ss)
    (hfin : ¬ notFinite b.core.arg0) (hpos : B64.le b.core.arg0 B64.zero = false) {st : Status}
    (hinv : invPuts s.plat (some x) b.core.c20.cache? (ss.map (·.mod)) b.core.arg0 = (st, [])) :
    exec .calcFeedbackDividers s = .next (s.ended s.cur b b.core st) := by
  rw [exec_feedback hb hq hf hsel hslots hfin hpos hinv]
  exact congrArg (fun c => Host.Outcome.next (s.ended s.cur b c st)) (Core.withMods_mods hslots)

/-! ### Auxiliary fields of a DKL -/

theorem applyPuts_append (ms : List Word) (puts puts' : List (Nat × Word)) :
    applyPuts ms (puts ++ puts') = applyPuts (applyPuts ms puts) puts' := List.foldl_append

/-- A word for each slot of a list. -/
theorem getElem?_applyPuts_map (ks : List Nat) (g : Nat → Word) (ms : List Word) (j : Nat) :
    (applyPuts ms (ks.map fun k => (k, g k)))[j]? = if j ∈ ks then ms[j]?.map fun _ => g j else ms[j]? := by
  induction ks generalizing ms with
  | nil => simp [applyPuts]
  | cons k rest ih =>
    have h := ih (ms.set k (g k))
    rw [List.getElem?_set'] at h
    rw [List.map_cons]
    refine h.trans ?_
    by_cases hkj : k = j
    · subst hkj
      simp [Function.const_def]
    · simp [hkj, Ne.symm hkj]

theorem mem_dklSlotsOf {l : DklLayout} {reg : Word} {k : Nat} : k ∈ dklSlotsOf l reg ↔ l.regs[k]? = some reg := by
  simp only [dklSlotsOf, List.mem_filter, List.mem_range, beq_iff_eq, and_iff_right_iff_imp]
  exact fun h => (List.getElem?_eq_some_iff.1 h).1

/-- A word with an auxiliary field forced (41_phy_datapath.md R223). -/
def forcedBy (a : AuxField) (v : Word) : Word := (v &&& ~~~a.mask) ||| (a.value &&& a.mask)

/-- The writes that force one auxiliary field. -/
def auxPuts (l : DklLayout) (ms : List Word) (a : AuxField) : List (Nat × Word) :=
  (dklSlotsOf l a.reg).map fun k => (k, forcedBy a (copyWord ms k))

theorem forceAux_cons (l : DklLayout) (ms : List Word) (a : AuxField) (rest : List AuxField) :
    forceAux l ms (a :: rest) = auxPuts l ms a ++ forceAux l (applyPuts ms (auxPuts l ms a)) rest := rfl

/-- The slots with an auxiliary field forced in each that its register has. -/
def forceSlots (ss : List Slot) (a : AuxField) : List Slot :=
  ss.map fun w => if w.addr = a.reg.toNat then { w with mod := forcedBy a w.mod } else w

theorem getElem?_withMods (ss : List Slot) (ms : List Word) (k : Nat) :
    (withMods ss ms)[k]? = ss[k]?.bind fun y => ms[k]?.map fun v => { y with mod := v } := by
  rw [withMods, List.getElem?_zipWith]
  cases ss[k]? <;> cases ms[k]? <;> rfl

/-- The slots of the register, found by their numbers or by their addresses. -/
theorem withMods_auxPuts {l : DklLayout} (haddr : ss.map (·.addr) = l.regs.map BitVec.toNat) (ms : List Word)
    (a : AuxField) : withMods ss (applyPuts ms (auxPuts l ms a)) = forceSlots (withMods ss ms) a := by
  apply List.ext_getElem?
  intro k
  rw [forceSlots, List.getElem?_map, getElem?_withMods, getElem?_withMods, auxPuts, getElem?_applyPuts_map]
  cases hy : ss[k]? with
  | none => rfl
  | some y =>
    have hreg : k ∈ dklSlotsOf l a.reg ↔ y.addr = a.reg.toNat := by
      have h := congrArg (·[k]?) haddr
      simp only [List.getElem?_map, hy, Option.map_some] at h
      obtain ⟨reg, hr, he⟩ := Option.map_eq_some_iff.1 h.symm
      rw [mem_dklSlotsOf, hr, Option.some.injEq, ← he, BitVec.toNat_inj]
    cases hv : ms[k]? with
    | none => simp
    | some v =>
      have hcopy := copyWord_of_getElem? hv
      by_cases hk : y.addr = a.reg.toNat
      · simp [hreg, hk, hcopy]
      · simp [hreg, hk]

theorem withMods_forceAux {l : DklLayout} (haddr : ss.map (·.addr) = l.regs.map BitVec.toNat) (aux : List AuxField)
    (ms : List Word) : withMods ss (applyPuts ms (forceAux l ms aux)) = aux.foldl forceSlots (withMods ss ms) := by
  induction aux generalizing ms with
  | nil => rfl
  | cons a rest ih => rw [forceAux_cons, applyPuts_append, ih, withMods_auxPuts haddr, List.foldl_cons]

/-! ### The inverses of the MMIO variants -/

theorem withMods_cons (y : Slot) (ss : List Slot) (v : Word) (ms : List Word) :
    withMods (y :: ss) (v :: ms) = { y with mod := v } :: withMods ss ms := rfl

theorem applyPuts_first (v w w' : Word) (ms : List Word) : applyPuts (v :: ms) [(0, w), (0, w')] = w' :: ms := rfl

theorem invPuts_combo {l : ComboLayout} {t : B64} {i fr : Nat} (v : Word)
    (hx : x.layout = .combo l) (hi : i = B64.clampTo .floor 1023 (B64.div t (B64.ofNat plat.refclkComboKhz)))
    (hfr : fr = B64.clampTo .nearest 32767 (B64.div (B64.mul
      (B64.sub t (B64.mul (B64.ofNat i) (B64.ofNat plat.refclkComboKhz))) (B64.ofNat 16384))
      (B64.ofNat plat.refclkComboKhz))) :
    invPuts plat (some x) c20 (v :: ms) t = (.ok, [(0, fieldPut v (fieldMask l.intLo 10) l.intLo i),
      (0, fieldPut (fieldPut v (fieldMask l.intLo 10) l.intLo i) (fieldMask l.fracLo 15) l.fracLo fr)]) := by
  simp only [hfr, hi, invPuts_of_combo hx, invCombo, comboDividers, copyWord, List.getD_cons_zero]

theorem invPuts_dkl_zero {l : DklLayout} {t : B64} {v : Word}
    (hx : x.layout = .dkl l) (hp : fieldGet v l.predivLo 4 = 0) :
    invPuts plat (some x) c20 (v :: ms) t = (.dividerError, []) := by
  simp only [invPuts_of_dkl hx, invDkl, dklPrediv, copyWord, List.getD_cons_zero, hp, if_true]

theorem invPuts_dkl {l : DklLayout} {t f : B64} {i fr : Nat} {v w : Word}
    (hx : x.layout = .dkl l) (hp : fieldGet v l.predivLo 4 ≠ 0)
    (hf : f = B64.div t (B64.mul plat.refclkDklMhz (B64.ofNat (fieldGet v l.predivLo 4))))
    (hi : i = B64.clampTo .floor 255 f)
    (hfr : fr = B64.clampTo .nearest 0x3FFFFF (B64.mul (B64.sub f (B64.ofNat i)) (B64.ofNat 4194304))) :
    (invPuts plat (some x) c20 (v :: w :: ms) t).1 = .ok ∧
      applyPuts (v :: w :: ms) (invPuts plat (some x) c20 (v :: w :: ms) t).2 =
        applyPuts (fieldPut v (fieldMask l.intLo 8) l.intLo i :: fieldPut w (fieldMask l.fracLo 22) l.fracLo fr :: ms)
          (forceAux l
            (fieldPut v (fieldMask l.intLo 8) l.intLo i :: fieldPut w (fieldMask l.fracLo 22) l.fracLo fr :: ms) l.aux) := by
  simp only [hfr, hi, hf, invPuts_of_dkl hx, invDkl, dklPrediv, dklDividers, copyWord, List.getD_cons_zero,
    List.getD_cons_succ, hp, if_false, applyPuts_append, true_and]
  simp only [applyPuts, List.foldl_cons, List.foldl_nil, List.set_cons_zero, List.set_cons_succ]

theorem invPuts_dpmn {l : DpmnLayout} {t : B64} (v : Word)
    (hx : x.layout = .dpmn l) : invPuts plat (some x) c20 (v :: ms) t = (.ok, [(0, fieldPut v l.mMask (maskShift l.mMask)
      (B64.clampTo .trunc (l.mMask.toNat / 2 ^ maskShift l.mMask) t))]) := by
  simp only [invPuts_of_dpmn hx, invDpmn, dpmnValue, copyWord, List.getD_cons_zero]

/-- Settles O34: Combo and DP M/N write the first slot, a DKL the first two and then the auxiliary fields. -/
theorem feedbackMmio : Obligations.FeedbackMmio := by
  intro s b x y z rest t hb hq hf hsel hslots ht hfin hpos
  subst ht
  have hrest : ∀ (y : Slot) (v : Word), withMods (y :: z :: rest) (v :: (z :: rest).map (·.mod)) =
      { y with mod := v } :: z :: rest := fun y v => by rw [withMods_cons, withMods_self]
  have hput : ∀ {st puts} (v : Word), invPuts s.plat (some x) b.core.c20.cache? ((y :: z :: rest).map (·.mod))
      b.core.arg0 = (st, puts) → applyPuts ((y :: z :: rest).map (·.mod)) puts = v :: (z :: rest).map (·.mod) →
      exec .calcFeedbackDividers s = .next (s.ended s.cur b
        { b.core with slots := some ({ y with mod := v } :: z :: rest) } st) := fun v hinv hv => by
    rw [exec_feedback hb hq hf hsel hslots hfin hpos hinv, hv, hrest]
  refine ⟨fun l i fr hx hi hfr => ?_, fun l f i fr hx haddr => ⟨fun hp => ?_, fun hp hfq hi hfr => ?_⟩, fun l hx => ?_⟩
  · exact hput _ (invPuts_combo y.mod hx hi hfr) (applyPuts_first ..)
  · exact exec_feedback_fails hb hq hf hsel hslots hfin hpos (invPuts_dkl_zero hx hp)
  · obtain ⟨hst, hputs⟩ := invPuts_dkl (c20 := b.core.c20.cache?) (w := z.mod) (ms := rest.map (·.mod)) hx hp hfq hi hfr
    rw [exec_feedback hb hq hf hsel hslots hfin hpos (Prod.ext hst rfl)]
    simp only [List.map_cons, hputs]
    rw [withMods_forceAux haddr, withMods_cons, withMods_cons, withMods_self]
    rfl
  · exact hput _ (invPuts_dpmn y.mod hx) rfl

/-! ### The inverses of the bus variants -/

/-- Two words written into the `mod` copy; the second wins where both are for one slot. -/
theorem withMods_twoPuts (ss : List Slot) (j k : Nat) (v w : Word) :
    withMods ss (applyPuts (ss.map (·.mod)) [(j, v), (k, w)]) = ss.mapIdx fun n y =>
      if n = k then { y with mod := w } else if n = j then { y with mod := v } else y := by
  show withMods ss (((ss.map (·.mod)).set j v).set k w) = _
  rw [← withMods_set ss _ k w (by simp), ← withMods_set ss _ j v (by simp), withMods_self]
  apply List.ext_getElem?
  intro n
  rw [List.getElem?_modify, List.getElem?_modify, List.getElem?_mapIdx]
  cases ss[n]? with
  | none => split <;> split <;> rfl
  | some y =>
    by_cases hk : k = n
    · by_cases hj : j = n <;> simp [hk, hj]
    · by_cases hj : j = n <;> simp [hk, hj, Ne.symm]

/-- Settles O35: two writes where the denominator, the fraction and the reference allow an inverse, and none elsewhere. -/
theorem feedbackBus : Obligations.FeedbackBus := by
  intro s b x ss copy t hb hq hf hsel hslots hcopy ht hfin hpos
  subst hcopy ht
  refine ⟨fun l rt q hx => ⟨fun hd => ?_, fun hd hrt hq' => ?_⟩,
    fun l c blk ref f q r hx hc20 hblk href => ⟨fun h0 => ?_, fun hen hne hf' hq' hr => ?_⟩⟩
  · refine exec_feedback_fails hb hq hf hsel hslots hfin hpos ?_
    simp only [invPuts_of_c10 hx, invC10, hd, if_true]
  · rw [exec_feedback hb hq hf hsel hslots hfin hpos (st := .ok)
      (puts := [(l.fields.qLo, BitVec.ofNat 32 (q % 256)), (l.fields.qHi, BitVec.ofNat 32 (q / 256))]) (by
        simp only [invPuts_of_c10 hx, invC10, hd, if_false, hq', hrt, c10Quotient, roundQuot]),
      withMods_twoPuts]
  · refine exec_feedback_fails hb hq hf hsel hslots hfin hpos ?_
    simp only [hc20, C20Regs.cache?_holding, invPuts_of_c20 _ hx, invC20]
    by_cases hen : c.fracEn = 0
    · rw [if_pos hen]
    · rw [if_neg hen, c20Ref, ← href, if_pos (h0.resolve_left hen)]
  · have hen0 : c.fracEn ≠ 0 := by rw [hen]; decide
    replace hblk : blk = c20Block l c.ctx := hblk.trans (by cases c.ctx <;> rfl)
    rw [exec_feedback hb hq hf hsel hslots hfin hpos (st := .ok)
      (puts := [(blk.q, BitVec.ofNat 32 q), (blk.r, BitVec.ofNat 32 r)]) (by
        simp only [hc20, C20Regs.cache?_holding, invPuts_of_c20 _ hx, invC20, hen0, if_false]
        rw [c20Ref, ← href, if_neg hne]
        simp only [c20Fraction, c20Ref, ← href, ← hblk, hr, hq', hf', c20Word, copyWord]),
      withMods_twoPuts]

end Sys2Proof.Machine
end

section
/-! The bits an inverse may write (41_phy_datapath.md R262) and how wide what it writes is (10_state.md R34, R37). -/

namespace Sys2Proof.Machine

variable {s : State} {b : Bank} {x : Selector} {ss : List Slot} {ms : List Word}
  {puts : List (Nat × Word)} {bits : Nat → Word} {v w mask m m' : Word} {plat : Platform} {c20 : Option C20Cache} {f : B64}

/-! ### Masks -/

/-- Every bit of the one mask is a bit of the other. -/
def maskIn (m m' : Word) : Prop := m &&& ~~~m' = 0#32

theorem maskIn_refl (m : Word) : maskIn m m := BitVec.and_not_self m

theorem maskIn.or_left (h : maskIn mask m) (m' : Word) : maskIn mask (m ||| m') := by
  rw [maskIn, BitVec.not_or, ← BitVec.and_assoc, h, BitVec.zero_and]

theorem maskIn.or_right (h : maskIn mask m') (m : Word) : maskIn mask (m ||| m') := by
  rw [BitVec.or_comm]
  exact h.or_left m

/-- A field that is replaced leaves the bits outside a mask that has the field. -/
theorem replaced_and_not (h : maskIn mask m) (v w : Word) : ((v &&& ~~~mask) ||| (w &&& mask)) &&& ~~~m = v &&& ~~~m := by
  apply BitVec.eq_of_getLsbD_eq
  intro i hi
  have hbit := congrArg (fun y => BitVec.getLsbD y i) h
  simp only [BitVec.getLsbD_and, BitVec.getLsbD_not, BitVec.getLsbD_zero, hi, decide_true, Bool.true_and] at hbit
  simp only [BitVec.getLsbD_and, BitVec.getLsbD_or, BitVec.getLsbD_not, hi, decide_true, Bool.true_and]
  revert hbit
  cases mask.getLsbD i <;> cases m.getLsbD i <;> simp

theorem fieldPut_and_not (h : maskIn mask m) (v : Word) (sh n : Nat) :
    fieldPut v mask sh n &&& ~~~m = v &&& ~~~m := replaced_and_not h v _

theorem and_not_ones (v w : Word) : v &&& ~~~0xFFFFFFFF#32 = w &&& ~~~0xFFFFFFFF#32 := by
  rw [show ~~~0xFFFFFFFF#32 = 0#32 from rfl, BitVec.and_zero, BitVec.and_zero]

/-- Words that agree on a mask differ outside it only. -/
theorem xor_and_of_eq (h : v &&& m = w &&& m) : (v ^^^ w) &&& m = 0#32 := by
  apply BitVec.eq_of_getLsbD_eq
  intro i hi
  have hbit := congrArg (fun y => BitVec.getLsbD y i) h
  simp only [BitVec.getLsbD_and] at hbit
  simp only [BitVec.getLsbD_and, BitVec.getLsbD_xor, BitVec.getLsbD_zero]
  revert hbit
  cases v.getLsbD i <;> cases w.getLsbD i <;> simp

/-! ### Writes of a copy -/

/-- Each write leaves the bits of its slot that are not among `bits`. -/
def putsWithin (bits : Nat → Word) (ms : List Word) (puts : List (Nat × Word)) : Prop :=
  ∀ p ∈ puts, p.2 &&& ~~~bits p.1 = copyWord ms p.1 &&& ~~~bits p.1

theorem copyWord_set (ms : List Word) (k : Nat) (v : Word) (j : Nat) :
    copyWord (ms.set k v) j = copyWord ms j ∨ j = k ∧ copyWord (ms.set k v) j = v := by
  by_cases hk : k = j
  · subst hk
    by_cases hlt : k < ms.length
    · exact .inr ⟨rfl, by simp [copyWord, hlt]⟩
    · exact .inl (by simp [copyWord, Nat.not_lt.1 hlt])
  · exact .inl (by simp [copyWord, List.getD_eq_getElem?_getD, hk])

/-- Such writes one after the other leave these bits of the copy. -/
theorem putsWithin.copyWord_applyPuts (h : putsWithin bits ms puts) (k : Nat) :
    copyWord (applyPuts ms puts) k &&& ~~~bits k = copyWord ms k &&& ~~~bits k := by
  induction puts generalizing ms with
  | nil => rfl
  | cons p rest ih =>
    have hset : ∀ j, copyWord (ms.set p.1 p.2) j &&& ~~~bits j = copyWord ms j &&& ~~~bits j := fun j => by
      rcases copyWord_set ms p.1 p.2 j with e | ⟨rfl, e⟩ <;> rw [e]
      exact h p (.head _)
    exact (ih fun q hq => (h q (.tail _ hq)).trans (hset q.1).symm).trans (hset k)

theorem putsWithin.append {puts' : List (Nat × Word)} (h : putsWithin bits ms puts)
    (h' : putsWithin bits (applyPuts ms puts) puts') : putsWithin bits ms (puts ++ puts') := fun p hp =>
  (List.mem_append.1 hp).elim (h p) fun hp' => (h' p hp').trans (h.copyWord_applyPuts p.1)

/-- A word of the copy is as it was, or one of the words written. -/
theorem copyWord_applyPuts_cases (ms : List Word) (puts : List (Nat × Word)) (k : Nat) :
    copyWord (applyPuts ms puts) k = copyWord ms k ∨ ∃ p ∈ puts, copyWord (applyPuts ms puts) k = p.2 := by
  induction puts generalizing ms with
  | nil => exact .inl rfl
  | cons p rest ih =>
    rcases ih (ms.set p.1 p.2) with e | ⟨q, hq, e⟩
    · rcases copyWord_set ms p.1 p.2 k with e' | ⟨-, e'⟩
      · exact .inl (e.trans e')
      · exact .inr ⟨p, .head _, e.trans e'⟩
    · exact .inr ⟨q, .tail _ hq, e⟩

/-! ### The fields of each inverse -/

/-- The masks of the auxiliary fields that slot `k` has. -/
def auxMask (l : DklLayout) (k : Nat) (m : Word) (aux : List AuxField) : Word :=
  aux.foldl (fun m a => if l.regs[k]? = some a.reg then m ||| a.mask else m) m

theorem maskIn_auxMask (l : DklLayout) (k : Nat) (aux : List AuxField) (h : maskIn mask m) :
    maskIn mask (auxMask l k m aux) := by
  induction aux generalizing m with
  | nil => exact h
  | cons a rest ih =>
    refine ih (m := if l.regs[k]? = some a.reg then m ||| a.mask else m) ?_
    split
    · exact h.or_left _
    · exact h

theorem auxMask_of_mem {l : DklLayout} {k : Nat} {aux : List AuxField} {a : AuxField} (ha : a ∈ aux)
    (hk : l.regs[k]? = some a.reg) (m : Word) : maskIn a.mask (auxMask l k m aux) := by
  induction aux generalizing m with
  | nil => cases ha
  | cons c rest ih =>
    rcases List.mem_cons.1 ha with rfl | ha
    · refine maskIn_auxMask l k rest ?_
      dsimp only
      rw [if_pos hk]
      exact (maskIn_refl _).or_right _
    · exact ih ha _

theorem forceAux_within {l : DklLayout} (h : ∀ a ∈ l.aux, ∀ k, l.regs[k]? = some a.reg → maskIn a.mask (bits k))
    (aux : List AuxField) (haux : ∀ a ∈ aux, a ∈ l.aux) (ms : List Word) : putsWithin bits ms (forceAux l ms aux) := by
  induction aux generalizing ms with
  | nil => exact fun p hp => absurd hp List.not_mem_nil
  | cons a rest ih =>
    refine putsWithin.append (fun p hp => ?_) (ih (fun c hc => haux c (.tail _ hc)) _)
    obtain ⟨k, hk, rfl⟩ := List.mem_map.1 hp
    exact replaced_and_not (h a (haux a (.head _)) k (mem_dklSlotsOf.1 hk)) _ _

theorem putsWithin_pair {j k : Nat} (hv : v &&& ~~~bits j = copyWord ms j &&& ~~~bits j)
    (hw : w &&& ~~~bits k = copyWord ms k &&& ~~~bits k) : putsWithin bits ms [(j, v), (k, w)] := fun p hp => by
  rcases List.mem_cons.1 hp with rfl | hp
  · exact hv
  · rw [List.mem_singleton.1 hp]
    exact hw

/-- Every write of an inverse is of its variant's fields (41_phy_datapath.md R262). -/
theorem invPuts_within (plat : Platform) (x : Selector) (c20 : Option C20Cache) (ms : List Word) (f : B64) :
    putsWithin (inverseBits x c20) ms (invPuts plat (some x) c20 ms f).2 := by
  have hnil : ∀ {bits}, putsWithin bits ms [] := fun p hp => absurd hp List.not_mem_nil
  cases hx : x.layout with
  | combo l =>
    have hbits : inverseBits x c20 0 = fieldMask l.intLo 10 ||| fieldMask l.fracLo 15 := by
      simp only [inverseBits, hx, if_true]
    rw [invPuts_of_combo hx]
    have hint := fieldPut_and_not ((maskIn_refl (fieldMask l.intLo 10)).or_left (fieldMask l.fracLo 15))
    refine putsWithin_pair ?_ ?_ <;> rw [hbits]
    · exact hint ..
    · exact (fieldPut_and_not ((maskIn_refl _).or_right _) _ _ _).trans (hint ..)
  | dkl l =>
    have hbits : ∀ k, inverseBits x c20 k = ((if k = 0 then fieldMask l.intLo 8 else 0) |||
        (if k = 1 then fieldMask l.fracLo 22 else 0)) ||| auxMask l k 0 l.aux := fun k => by
      simp only [inverseBits, hx]
      rfl
    rw [invPuts_of_dkl hx, invDkl]
    split
    · exact hnil
    · refine putsWithin.append (putsWithin_pair ?_ ?_) (forceAux_within (fun a ha k hk => ?_) l.aux (fun _ h => h) _)
        <;> rw [hbits]
      · exact fieldPut_and_not (((maskIn_refl _).or_left _).or_left _) _ _ _
      · exact fieldPut_and_not (((maskIn_refl _).or_right _).or_left _) _ _ _
      · exact (auxMask_of_mem ha hk 0).or_right _
  | c10 l =>
    rw [invPuts_of_c10 hx, invC10]
    split
    · exact hnil
    · refine putsWithin_pair ?_ ?_ <;> simp only [inverseBits, hx, true_or, or_true, if_true]
      · exact and_not_ones _ _
      · exact and_not_ones _ _
  | c20 l =>
    cases c20 with
    | none =>
      rw [invPuts_of_c20_none hx]
      exact hnil
    | some c =>
      have hbits : ∀ k, inverseBits x (some c) k =
          if k = (c20Block l c.ctx).q ∨ k = (c20Block l c.ctx).r then 0xFFFFFFFF else 0 := fun k => by
        simp only [inverseBits, hx]
        cases c.ctx <;> rfl
      rw [invPuts_of_c20 c hx, invC20]
      split
      · exact hnil
      · split
        · exact hnil
        · refine putsWithin_pair ?_ ?_ <;> simp only [hbits, true_or, or_true, if_true]
          · exact and_not_ones _ _
          · exact and_not_ones _ _
  | dpmn l =>
    have hbits : inverseBits x c20 0 = l.mMask := by simp only [inverseBits, hx, if_true]
    rw [invPuts_of_dpmn hx]
    intro p hp
    rw [List.mem_singleton.1 hp, hbits]
    exact fieldPut_and_not (maskIn_refl _) _ _ _

/-! ### The width of what is written -/

theorem clampTo_le (r : B64.Rounding) (hi : Nat) (y : B64) : B64.clampTo r hi y ≤ hi := by
  unfold B64.clampTo
  split
  · exact Nat.lt_succ_iff.1 (Nat.mod_lt _ (Nat.succ_pos _))
  · split
    · split
      · exact Nat.zero_le _
      · exact le_refl _
    · exact min_le_left _ _

theorem c10Quotient_le (refclk : Nat) (l : C10Fields) (ms : List Word) (f : B64) : c10Quotient refclk l ms f ≤ 65535 := by
  simp only [c10Quotient, clampTo_le]

theorem c20Fraction_le (refclk : Nat) (blk : C20Block) (c : C20Cache) (ms : List Word) (f : B64) :
    (c20Fraction refclk blk c ms f).1 ≤ 65535 ∧ (c20Fraction refclk blk c ms f).2 ≤ 65535 := by
  simp only [c20Fraction, clampTo_le, and_self]

theorem toNat_ofNat_lt {n k : Nat} (h : n < k) : (BitVec.ofNat 32 n).toNat < k :=
  (BitVec.toNat_ofNat ..).trans_lt ((Nat.mod_le _ _).trans_lt h)

theorem mem_pair_lt {p : Nat × Word} {j k n n' w : Nat} (hn : n < w) (hn' : n' < w)
    (hp : p ∈ [(j, BitVec.ofNat 32 n), (k, BitVec.ofNat 32 n')]) : p.2.toNat < w := by
  rcases List.mem_cons.1 hp with rfl | hp
  · exact toNat_ofNat_lt hn
  · rw [List.mem_singleton.1 hp]
    exact toNat_ofNat_lt hn'

/-- No write of an inverse is wider than the slot (10_state.md R37). -/
theorem invPuts_width {p : Nat × Word} (hp : p ∈ (invPuts plat (some x) c20 ms f).2) : p.2.toNat < 2 ^ slotWidth x := by
  cases hx : x.layout with
  | combo l | dkl l | dpmn l =>
    simp only [slotWidth, hx]
    exact p.2.isLt
  | c10 l =>
    rw [invPuts_of_c10 hx, invC10] at hp
    simp only [slotWidth, hx]
    split at hp
    · exact absurd hp List.not_mem_nil
    · have hq := c10Quotient_le plat.refclkC10Khz l.fields ms f
      exact mem_pair_lt (Nat.mod_lt _ (by decide)) (by omega) hp
  | c20 l =>
    simp only [slotWidth, hx]
    cases c20 with
    | none =>
      rw [invPuts_of_c20_none hx] at hp
      exact absurd hp List.not_mem_nil
    | some c =>
      rw [invPuts_of_c20 c hx, invC20] at hp
      split at hp
      · exact absurd hp List.not_mem_nil
      · split at hp
        · exact absurd hp List.not_mem_nil
        · obtain ⟨hq, hr⟩ := c20Fraction_le plat.refclkC20Khz (c20Block l c.ctx) c ms f
          exact mem_pair_lt (by omega) (by omega) hp

/-! ### The command -/

/-- A command ends at its checks, or its pseudocode runs. -/
theorem guarded_cases (i : Instr) (code : Platform → Core → Code Status) (plat : Platform) (c : Core) :
    (∃ st, guarded i code plat c = .ending st) ∨ guarded i code plat c = code plat c Prog.ending := by
  unfold guarded
  cases legality i c.fsm with
  | invalidState | busy | noop => exact .inl ⟨_, rfl⟩
  | run =>
    by_cases ho : operandsOk plat i c = true
    · exact .inr (if_pos ho)
    · exact .inl ⟨_, if_neg ho⟩

/-- However CALC_FEEDBACK_DIVIDERS ends, it has made all the writes of the inverse or none. -/
theorem exec_feedback_cases (hb : s.banks[s.cur]? = some b) (hq : s.quiet) (hsel : b.core.sel = some x)
    (hslots : b.core.slots = some ss) :
    ∃ st puts, (puts = [] ∨ puts = (invPuts s.plat (some x) b.core.c20.cache? (ss.map (·.mod)) b.core.arg0).2) ∧
      exec .calcFeedbackDividers s = .next (s.ended s.cur b
        { b.core with slots := some (withMods ss (applyPuts (ss.map (·.mod)) puts)) } st) := by
  have hends : ∀ st hist, run (.seq s.cur (some .calcFeedbackDividers) b.core) hist (.ending st) s = s.ended s.cur b
      { b.core with slots := some (withMods ss (applyPuts (ss.map (·.mod)) [])) } st := fun st hist =>
    (run_ending_of_bank hb hq _ _ _ _).trans
      (congrArg (fun c => s.ended s.cur b c st) (Core.withMods_mods hslots).symm)
  rw [exec_host rfl, State.runCommand_of_bank hb]
  rcases guarded_cases .calcFeedbackDividers (codeOf .calcFeedbackDividers) s.plat b.core with ⟨st, e⟩ | e <;> rw [e]
  · exact ⟨st, [], .inl rfl, congrArg _ (hends st _)⟩
  · cases hpos : B64.le b.core.arg0 B64.zero with
    | true =>
      refine ⟨.invalidArgument, [], .inl rfl, congrArg _ ?_⟩
      rw [codeOf, calcFeedbackDividersCode, hpos, if_pos rfl]
      exact hends _ _
    | false => exact ⟨_, _, .inr rfl, congrArg _ (run_feedback hb hq hsel hslots hpos rfl _)⟩

/-- Settles O36: `invPuts_within` and `invPuts_width`, slot by slot. -/
theorem inverseFieldsOnly : Obligations.InverseFieldsOnly := by
  intro s t b x ss hb hq hsel hslots he
  obtain ⟨st, puts, hputs, e⟩ := exec_feedback_cases hb hq hsel hslots
  obtain rfl := Host.Outcome.next.inj (he.symm.trans e)
  have hwithin : putsWithin (inverseBits x b.core.c20.cache?) (ss.map (·.mod)) puts := by
    rcases hputs with rfl | rfl
    · exact fun p hp => absurd hp List.not_mem_nil
    · exact invPuts_within _ _ _ _ _
  have hwidth : ∀ p ∈ puts, p.2.toNat < 2 ^ slotWidth x := by
    rcases hputs with rfl | rfl
    · exact fun p hp => absurd hp List.not_mem_nil
    · exact fun p hp => invPuts_width hp
  refine ⟨_, _, List.getElem?_set_self (lt_of_bank hb), rfl, by simp [withMods], fun k y y' hy hy' => ?_⟩
  rw [getElem?_withMods, hy] at hy'
  obtain ⟨v, hv, rfl⟩ := Option.map_eq_some_iff.1 hy'
  have hnew := copyWord_of_getElem? hv
  have hold : copyWord (ss.map (·.mod)) k = y.mod := copyWord_of_getElem? (by rw [List.getElem?_map, hy]; rfl)
  refine ⟨rfl, rfl, rfl, ?_, ?_⟩
  · have h := hwithin.copyWord_applyPuts k
    rw [hnew, hold] at h
    exact xor_and_of_eq h
  · rcases copyWord_applyPuts_cases (ss.map (·.mod)) puts k with h | ⟨p, hp, h⟩ <;> rw [hnew] at h
    · exact .inl (by rw [h, hold])
    · exact .inr (h ▸ hwidth p hp)

end Sys2Proof.Machine
end

section
/-! PROGRAM_MMIO (41_phy_datapath.md R204): what it does once its variant's writes have answered, and why words that the
hardware holds change nothing of it (R261, 20_memory.md R87). -/

namespace Sys2Proof.Machine

variable {s t : State} {b : Bank} {x : Selector} {ss : List Slot} {r : LaneRegs} {m : Bool} {ws : List (Nat × Word)}
  {l : Nat}

/-! ### The command -/

/-- The pseudocode of PROGRAM_MMIO after the writes. -/
def afterWrite (m : Bool) (st : Status) : Code Status := do
  if st ≠ .ok then return st
  perform (.setApplied m)
  return .ok

/-- The writes of PROGRAM_MMIO. -/
def Core.writeCopy (c : Core) (plat : Platform) (m : Bool) : Code Status :=
  writeV plat c.sel (addressed c.snapshot (copyOf m c.snapshot))

theorem Core.writeCopy_of_bound {c : Core} (plat : Platform) (hsel : c.sel = some x) (hslots : c.slots = some ss)
    (m : Bool) : c.writeCopy plat m = writeV plat (some x) (addressed ss (copyOf m ss)) := by
  rw [Core.writeCopy, Core.snapshot, hsel, hslots, Option.getD_some]

theorem programMmioCode_eq (plat : Platform) (c : Core) (m : Bool) :
    codeOf (.programMmio m) plat c = c.writeCopy plat m >>= afterWrite m := rfl

theorem programMmio_entry (hf : b.core.fsm = .captured ∨ b.core.fsm = .done) (m : Bool) :
    legalityEntry (.programMmio m) b.core.fsm = some none := by
  rcases hf with h | h <;> rw [h] <;> rfl

/-- Writes that succeed are followed by that of `applied_mod` (10_state.md R38). -/
theorem exec_programMmio_ok (hb : s.banks[s.cur]? = some b) (hf : b.core.fsm = .captured ∨ b.core.fsm = .done)
    (h : (b.core.writeCopy s.plat m).leadsTo (afterWrite m) (.programMmio m) b s .ok t)
    (hbt : t.banks[s.cur]? = some b) (hq : t.quiet) :
    exec (.programMmio m) s = .next (t.ended s.cur b { b.core with appliedMod := m } .ok) := by
  obtain ⟨hist, e⟩ := exec_of_leadsTo hb (programMmio_entry hf m) id (programMmioCode_eq s.plat b.core m) h
  have hlt := lt_of_bank hbt
  have happlied := run_local_at (b := b) hlt b.core (some (.programMmio m)) b.core hist (.setApplied m)
    (fun _ => Prog.ending .ok) hq rfl
  rw [State.withCore_self hbt, run_end hlt _ _ _ _ _ hq] at happlied
  exact e.trans (congrArg Host.Outcome.next happlied)

/-- Writes that fail end the command with their status. -/
theorem exec_programMmio_fails (hb : s.banks[s.cur]? = some b) (hf : b.core.fsm = .captured ∨ b.core.fsm = .done)
    {st : Status} (hst : st ≠ .ok) (h : (b.core.writeCopy s.plat m).leadsTo (afterWrite m) (.programMmio m) b s st t)
    (hbt : t.banks[s.cur]? = some b) (hq : t.quiet) :
    exec (.programMmio m) s = .next (t.ended s.cur b b.core st) :=
  exec_of_leadsTo_pure hb (programMmio_entry hf m) id (programMmioCode_eq s.plat b.core m) h (if_pos hst) hbt hq

/-- The one write of a DP M/N (41_phy_datapath.md R254). -/
theorem ends_writeV_dpmn {lay : DpmnLayout} (hx : x.layout = .dpmn lay) (hq : s.quiet) (a : Nat) (v : Word)
    (rest : List (Nat × Word)) (hp : plainOffset s.plat (BitVec.ofNat 32 a) = true) :
    (writeV s.plat (some x) ((a, v) :: rest)).ends s .ok
      ((s.pokeWord (BitVec.ofNat 32 a) v).record (.write (BitVec.ofNat 32 a) v)) := by
  have h := ends_memWrite (BitVec.ofNat 32 a) v hq
  rw [State.mmioWrite_plain _ _ _ hp] at h
  have hone : (writeOffsets [(a, v)]).ends s ()
      ((s.pokeWord (BitVec.ofNat 32 a) v).record (.write (BitVec.ofNat 32 a) v)) := h.bind (Code.ends_pure () _)
  simp only [writeV, layoutOf, Option.map_some, hx, List.take_succ_cons, List.take_zero]
  exact hone.bind (Code.ends_pure _ _)

/-- Settles O38: of the two slots `write_v` takes the first. -/
theorem dpmnWritesOnlyM : Obligations.DpmnWritesOnlyM := by
  intro s b x l ym yn m v hb hq hf hsel hx hslots haddr hp hv hw
  have hoff : BitVec.ofNat 32 ym.addr = l.m := by rw [haddr, BitVec.ofNat_toNat, BitVec.setWidth_eq]
  have hends := ends_writeV_dpmn hx hq ym.addr v [(yn.addr, if m then yn.mod else yn.orig)] (hoff ▸ hp)
  have hcopy : b.core.writeCopy s.plat m =
      writeV s.plat (some x) [(ym.addr, v), (yn.addr, if m then yn.mod else yn.orig)] := by
    rw [Core.writeCopy_of_bound s.plat hsel hslots, hv]
    rfl
  rw [← hcopy, hoff] at hends
  have hexec := exec_programMmio_ok hb hf (t := (s.pokeWord l.m v).record (.write l.m v)) hends.leadsTo hb hq
  exact ⟨_, hexec, Memory.readWord_putWord_eq _ _ _ hw, rfl, fun a ha => Memory.read_putWord_ne _ _ _ _ ha, rfl, rfl,
    rfl, rfl, rfl⟩

/-! ### Bytes stored one after the other -/

/-- The store after these bytes have been written, the first one first. -/
def Memory.puts (mem : Memory) (bs : List (Nat × Byte)) : Memory := bs.foldl (fun mem y => mem.put y.1 y.2) mem

theorem Memory.puts_append (mem : Memory) (bs bs' : List (Nat × Byte)) : mem.puts (bs ++ bs') = (mem.puts bs).puts bs' :=
  List.foldl_append

theorem Memory.puts_wf {mem : Memory} (h : mem.wf = true) (bs : List (Nat × Byte)) : (mem.puts bs).wf = true := by
  induction bs generalizing mem with
  | nil => exact h
  | cons y rest ih => exact ih (Memory.put_wf _ _ _ h)

/-- Bytes that the store holds change nothing. -/
theorem Memory.puts_self {mem : Memory} (h : mem.wf = true) {bs : List (Nat × Byte)}
    (hbs : ∀ y ∈ bs, mem.read y.1 = y.2) : mem.puts bs = mem := by
  induction bs with
  | nil => rfl
  | cons y rest ih =>
    have hy : mem.put y.1 y.2 = mem := by rw [← hbs y (.head _), Memory.put_read_self _ _ h]
    calc mem.puts (y :: rest) = (mem.put y.1 y.2).puts rest := rfl
      _ = mem := by rw [hy, ih fun z hz => hbs z (.tail _ hz)]

/-- An address reads as the last byte written to it, and where there is none as before. -/
theorem Memory.read_puts (bs : List (Nat × Byte)) (a : Nat) :
    (∃ v, ∀ mem : Memory, mem.wf = true → (mem.puts bs).read a = v) ∨
      ∀ mem : Memory, mem.wf = true → (mem.puts bs).read a = mem.read a := by
  induction bs with
  | nil => exact .inr fun _ _ => rfl
  | cons y rest ih =>
    rcases ih with ⟨v, h⟩ | h
    · exact .inl ⟨v, fun mem hm => h _ (Memory.put_wf _ _ _ hm)⟩
    · by_cases ha : a = y.1
      · subst ha
        exact .inl ⟨y.2, fun mem hm => (h _ (Memory.put_wf _ _ _ hm)).trans (Memory.read_put_eq _ _ _ hm)⟩
      · exact .inr fun mem hm => (h _ (Memory.put_wf _ _ _ hm)).trans (Memory.read_put_ne _ _ _ _ ha)

/-- To write the same bytes again changes nothing. -/
theorem Memory.puts_puts {mem : Memory} (h : mem.wf = true) (bs : List (Nat × Byte)) :
    (mem.puts bs).puts bs = mem.puts bs := by
  have h1 := Memory.puts_wf h bs
  refine Memory.ext_read _ _ (Memory.puts_wf h1 bs) h1 fun a => ?_
  rcases Memory.read_puts bs a with ⟨v, hv⟩ | hkept
  · rw [hv _ h1, hv _ h]
  · exact hkept _ h1

theorem Memory.foldl_puts {β : Type} (f : β → List (Nat × Byte)) (ys : List β) (mem : Memory) :
    ys.foldl (fun mem y => mem.puts (f y)) mem = mem.puts (ys.flatMap f) := by
  induction ys generalizing mem with
  | nil => rfl
  | cons y rest ih => rw [List.foldl_cons, ih, List.flatMap_cons, Memory.puts_append]

/-! ### MMIO words -/

/-- The bytes of a word at an offset (20_memory.md R84). -/
def wordBytes (off v : Word) : List (Nat × Byte) :=
  [(byteAddr off 0, v.extractLsb' 0 8), (byteAddr off 1, v.extractLsb' 8 8), (byteAddr off 2, v.extractLsb' 16 8),
    (byteAddr off 3, v.extractLsb' 24 8)]

/-- The bytes of the words that a programming of an MMIO variant writes. -/
def mmioBytes (ws : List (Nat × Word)) : List (Nat × Byte) := ws.flatMap fun w => wordBytes (BitVec.ofNat 32 w.1) w.2

theorem mmioStored_eq_puts (mem : Memory) (ws : List (Nat × Word)) : mmioStored mem ws = mem.puts (mmioBytes ws) :=
  Memory.foldl_puts (fun w : Nat × Word => wordBytes (BitVec.ofNat 32 w.1) w.2) ws mem

theorem Memory.readWord_bytes (mem : Memory) (off : Word) {y : Nat × Byte} (hy : y ∈ wordBytes off (mem.readWord off)) :
    mem.read y.1 = y.2 := by
  have hbyte : ∀ a b c d : Byte, (place a 0 ||| place b 8 ||| place c 16 ||| place d 24).extractLsb' 0 8 = a ∧
      (place a 0 ||| place b 8 ||| place c 16 ||| place d 24).extractLsb' 8 8 = b ∧
      (place a 0 ||| place b 8 ||| place c 16 ||| place d 24).extractLsb' 16 8 = c ∧
      (place a 0 ||| place b 8 ||| place c 16 ||| place d 24).extractLsb' 24 8 = d := fun a b c d => by
    refine ⟨?_, ?_, ?_, ?_⟩ <;>
    · apply BitVec.eq_of_getLsbD_eq
      intro i hi
      interval_cases i <;> simp [place]
  obtain ⟨h0, h1, h2, h3⟩ := hbyte (mem.read (byteAddr off 0)) (mem.read (byteAddr off 1)) (mem.read (byteAddr off 2))
    (mem.read (byteAddr off 3))
  simp only [wordBytes, List.mem_cons, List.not_mem_nil, or_false] at hy
  rcases hy with rfl | rfl | rfl | rfl
  exacts [h0.symm, h1.symm, h2.symm, h3.symm]

/-- What is programmed of an MMIO variant holds the words, and to program words it holds changes nothing. -/
theorem programmed_stable_mmio (h : onMmio x = true) (hw : s.mmio.wf = true) (ws : List (Nat × Word)) :
    ((∀ w ∈ ws, s.mmioRead (BitVec.ofNat 32 w.1) = w.2) → s.programmed x ws = s) ∧
      (s.programmed x ws).programmed x ws = s.programmed x ws := by
  simp only [State.programmed_mmio h, mmioStored_eq_puts]
  refine ⟨fun hold => ?_, by rw [Memory.puts_puts hw]⟩
  rw [Memory.puts_self hw fun y hy => ?_]
  obtain ⟨w, hm, hy⟩ := List.mem_flatMap.1 hy
  exact Memory.readWord_bytes _ _ (by rwa [← hold w hm] at hy)

/-! ### PHY registers -/

/-- The registers of a lane that a programming of a C10 writes. -/
def phyBytes (q : Nat) (ws : List (Nat × Word)) (lane : Nat) : List (Nat × Byte) :=
  ws.map fun w => (phyKey q lane (BitVec.ofNat 12 w.1), w.2.setWidth 8)

/-- The state with another store of PHY registers. -/
def State.withPhy (s : State) (mem : Memory) : State := { s with phy := mem }

theorem phyStores_settled {q lane : Nat} (h : ∀ a, (q, lane, a) ∉ s.uncommitted) (ws : List (Nat × Word)) :
    State.phyStores q ws s lane = s.withPhy (s.phy.puts (phyBytes q ws lane)) := by
  induction ws generalizing s with
  | nil => rfl
  | cons w rest ih =>
    have hset := State.phyWrite_true_eq_setPhyReg h (BitVec.ofNat 12 w.1) (w.2.setWidth 8)
    calc State.phyStores q (w :: rest) s lane
        = State.phyStores q rest (s.setPhyReg q lane (BitVec.ofNat 12 w.1) (w.2.setWidth 8)) lane :=
          congrArg (fun t => State.phyStores q rest t lane) hset
      _ = _ := ih h

theorem phyStores_lanes {q : Nat} {lanes : List Nat} (h : ∀ lane ∈ lanes, ∀ a, (q, lane, a) ∉ s.uncommitted)
    (ws : List (Nat × Word)) :
    lanes.foldl (State.phyStores q ws) s = s.withPhy (s.phy.puts (lanes.flatMap (phyBytes q ws))) := by
  induction lanes generalizing s with
  | nil => rfl
  | cons lane rest ih =>
    have hrest := ih (s := s.withPhy (s.phy.puts (phyBytes q ws lane))) fun k hk => h k (.tail _ hk)
    rw [List.foldl_cons, phyStores_settled (h lane (.head _)), hrest, List.flatMap_cons, Memory.puts_append]
    rfl

/-- The same of a C10 on lanes where no uncommitted write is left over (log 8). -/
theorem programmed_stable_c10 {lay : C10Layout} (hx : x.layout = .c10 lay) (hw : s.phy.wf = true)
    (hset : ∀ lane ∈ setLanes lay.lanes, ∀ a, (lay.port, lane, a) ∉ s.uncommitted) (ws : List (Nat × Word)) :
    ((∀ lane ∈ setLanes lay.lanes, ∀ w ∈ ws, s.phyReg lay.port lane (BitVec.ofNat 12 w.1) = w.2.setWidth 8) →
        s.programmed x ws = s) ∧
      (s.programmed x ws).programmed x ws = s.programmed x ws := by
  have hprog : ∀ t : State, t.uncommitted = s.uncommitted → t.programmed x ws =
      t.withPhy (t.phy.puts ((setLanes lay.lanes).flatMap (phyBytes lay.port ws))) := fun t ht => by
    simp only [State.programmed, hx]
    exact phyStores_lanes (fun lane hl a => ht ▸ hset lane hl a) ws
  refine ⟨fun hold => ?_, ?_⟩
  · rw [hprog s rfl, Memory.puts_self hw fun y hy => ?_]
    · rfl
    obtain ⟨lane, hl, hy⟩ := List.mem_flatMap.1 hy
    obtain ⟨w, hm, rfl⟩ := List.mem_map.1 hy
    exact hold lane hl w hm
  · have hagain := hprog (s.withPhy (s.phy.puts ((setLanes lay.lanes).flatMap (phyBytes lay.port ws)))) rfl
    rw [hprog s rfl, hagain]
    exact congrArg s.withPhy (Memory.puts_puts hw _)

/-! ### SRAM words -/

/-- The SRAM bytes of a lane that a programming of a C20 writes. -/
def sramBytes (q : Nat) (ws : List (Nat × Word)) (lane : Nat) : List (Nat × Byte) :=
  ws.flatMap fun w => [(sramKey q lane (BitVec.ofNat 16 w.1), (w.2.setWidth 16).extractLsb' 0 8),
    (sramKey q lane (BitVec.ofNat 16 w.1) + 1, (w.2.setWidth 16).extractLsb' 8 8)]

/-- The SRAM after these bytes, on the same platform and in canonical form. -/
def State.sramPut (s : State) (bs : List (Nat × Byte)) (t : State) : Prop :=
  t.sram = s.sram.puts bs ∧ t.plat = s.plat ∧ t.StoresWf

theorem State.sramPut.trans {u : State} {bs bs' : List (Nat × Byte)} (h : s.sramPut bs t) (h' : t.sramPut bs' u) :
    s.sramPut (bs ++ bs') u := by
  obtain ⟨hm, hp, -⟩ := h
  obtain ⟨hm', hp', hw'⟩ := h'
  exact ⟨by rw [hm', hm, Memory.puts_append], hp'.trans hp, hw'⟩

theorem State.StoresWf.sramStore (hw : s.StoresWf) (q lane : Nat) (a v : BitVec 16) : (s.sramStore q lane a v).StoresWf := by
  have hstep := storesWf_keptByStores.phyWrite
  exact hstep _ _ _ _ _ _ (hstep _ _ _ _ _ _ (hstep _ _ _ _ _ _ (hstep _ _ _ _ _ _ hw)))

theorem sramPut_sramStores (hd : windowDistinct s.plat.c20Window) (hw : s.StoresWf) (q : Nat) (ws : List (Nat × Word))
    (lane : Nat) : s.sramPut (sramBytes q ws lane) (State.sramStores q ws s lane) := by
  induction ws generalizing s with
  | nil => exact ⟨rfl, rfl, hw⟩
  | cons w rest ih =>
    obtain ⟨-, hphy, -⟩ := id hw
    have hplat := s.sramStore_plat q lane (BitVec.ofNat 16 w.1) (w.2.setWidth 16)
    have hone : s.sramPut [(sramKey q lane (BitVec.ofNat 16 w.1), (w.2.setWidth 16).extractLsb' 0 8),
        (sramKey q lane (BitVec.ofNat 16 w.1) + 1, (w.2.setWidth 16).extractLsb' 8 8)]
        (s.sramStore q lane (BitVec.ofNat 16 w.1) (w.2.setWidth 16)) :=
      ⟨State.sramStore_sram hd hphy _ _, hplat, hw.sramStore ..⟩
    exact hone.trans (ih (hplat ▸ hd) (hw.sramStore ..))

theorem sramPut_lanes (hd : windowDistinct s.plat.c20Window) (hw : s.StoresWf) (q : Nat) (ws : List (Nat × Word))
    (lanes : List Nat) : s.sramPut (lanes.flatMap (sramBytes q ws)) (lanes.foldl (State.sramStores q ws) s) := by
  induction lanes generalizing s with
  | nil => exact ⟨rfl, rfl, hw⟩
  | cons lane rest ih =>
    have h := sramPut_sramStores hd hw q ws lane
    obtain ⟨-, hplat, hwf⟩ := id h
    exact h.trans (ih (hplat ▸ hd) hwf)

theorem joinBytes_eq_iff {hi lo : Byte} {v : BitVec 16} (h : joinBytes hi lo = v) :
    lo = v.extractLsb' 0 8 ∧ hi = v.extractLsb' 8 8 := by
  subst h
  constructor <;>
  · apply BitVec.eq_of_getLsbD_eq
    intro i hi
    interval_cases i <;> simp [joinBytes]

/-- The same of the SRAM of a C20 (20_memory.md R82). -/
theorem programmed_stable_c20 {lay : C20Layout} (hx : x.layout = .c20 lay) (hw : s.StoresWf)
    (hd : windowDistinct s.plat.c20Window) (ws : List (Nat × Word)) :
    ((∀ lane ∈ setLanes lay.lanes, ∀ w ∈ ws, s.sramWord lay.port lane (BitVec.ofNat 16 w.1) = w.2.setWidth 16) →
        (s.programmed x ws).sram = s.sram) ∧
      ((s.programmed x ws).programmed x ws).sram = (s.programmed x ws).sram := by
  have hprog : ∀ t : State, windowDistinct t.plat.c20Window → t.StoresWf →
      t.sramPut ((setLanes lay.lanes).flatMap (sramBytes lay.port ws)) (t.programmed x ws) := fun t hd hw => by
    simp only [State.programmed, hx]
    exact sramPut_lanes hd hw lay.port ws (setLanes lay.lanes)
  obtain ⟨hsram, hplat, hw'⟩ := hprog s hd hw
  obtain ⟨hsram', -, -⟩ := hprog _ (hplat ▸ hd) hw'
  obtain ⟨-, -, hwf⟩ := hw
  refine ⟨fun hold => ?_, by rw [hsram', hsram, Memory.puts_puts hwf]⟩
  rw [hsram, Memory.puts_self hwf fun y hy => ?_]
  obtain ⟨lane, hl, hy⟩ := List.mem_flatMap.1 hy
  obtain ⟨w, hm, hy⟩ := List.mem_flatMap.1 hy
  obtain ⟨hlo, hhi⟩ := joinBytes_eq_iff (hold lane hl w hm)
  rcases List.mem_cons.1 hy with rfl | hy
  · exact hlo
  · rw [List.mem_singleton.1 hy]
    exact hhi

/-! ### Every variant -/

theorem programmed_stable (hw : s.StoresWf) (hset : s.settled x) (ws : List (Nat × Word)) :
    (s.holdsWords x ws → s.sameHardware x (s.programmed x ws)) ∧
      (s.programmed x ws).sameHardware x ((s.programmed x ws).programmed x ws) := by
  obtain ⟨hmmio, hphy, -⟩ := id hw
  unfold State.settled at hset
  unfold State.holdsWords State.sameHardware
  cases hx : x.layout with
  | combo l | dkl l | dpmn l => exact programmed_stable_mmio (by simp only [onMmio, hx]) hmmio ws
  | c10 l =>
    rw [hx] at hset
    exact programmed_stable_c10 hx hphy hset ws
  | c20 l =>
    rw [hx] at hset
    exact programmed_stable_c20 hx hw hset ws

/-- `write_v` of a snapshot, on hardware that takes it, is followed by the write of `applied_mod`. -/
theorem exec_programMmio_writable (hb : s.banks[s.cur]? = some b) (hq : s.quiet)
    (hf : b.core.fsm = .captured ∨ b.core.fsm = .done) (hsel : b.core.sel = some x) (hslots : b.core.slots = some ss)
    (hw : s.writable x ss) : ∃ t, (s.programmed x (slotWrites x ss (copyOf m ss))).wrote x
        (mmioRecords (slotWrites x ss (copyOf m ss))) t ∧
      exec (.programMmio m) s = .next (t.ended s.cur b { b.core with appliedMod := m } .ok) := by
  obtain ⟨hist, t, hwrote, ht, e⟩ := run_writeV (hw.ready hq) (.seq s.cur (some (.programMmio m)) b.core) []
    (copyOf m ss) fun st => afterWrite m st Prog.ending
  rw [← Core.writeCopy_of_bound s.plat hsel hslots] at e
  obtain ⟨hbanks, -⟩ := State.wrote_core hwrote
  exact ⟨t, hwrote, exec_programMmio_ok hb hf ⟨hist, e⟩ (hbanks ▸ hb) ht.quiet⟩

/-- A PROGRAM_MMIO fails with the three attempts of its first write on a PHY that never answers. -/
theorem failsAfter_programMmio (hb : s.banks[s.cur]? = some b) (hq : s.quiet)
    (hf : b.core.fsm = .captured ∨ b.core.fsm = .done) (hsel : b.core.sel = some x) (hslots : b.core.slots = some ss)
    (hne : ss ≠ []) (hs : s.silentLane x l r) (m : Bool) : s.failsAfter (.programMmio m) b r 3 := by
  have hws : addressed ss (copyOf m ss) ≠ [] := by
    obtain ⟨y, rest, rfl⟩ := List.exists_cons_of_ne_nil hne
    exact List.cons_ne_nil _ _
  have htries := Silent.writeV hs hq hws
  rw [← Core.writeCopy_of_bound s.plat hsel hslots] at htries
  exact failsAfter_of_tries_first hb hq (programMmio_entry hf m) id rfl (programMmioCode_eq s.plat b.core m) htries rfl

/-- Settles O37: hardware that takes the writes, hardware that holds the words, writes that fail, and writes that nothing
answers. -/
theorem programsCopy : Obligations.ProgramsCopy := by
  refine ⟨fun s b x ss m ws hb hq hf hsel hslots hw hws => ?_, fun s x ws hw hset => programmed_stable hw hset ws,
    fun s t b m st hist hb hf hst h hqt hbt => exec_programMmio_fails hb hf hst h.leadsTo hbt hqt,
    fun s b x ss m l r hb hq hf hsel hslots hne hs =>
      (failsAfter_programMmio hb hq hf hsel hslots hne hs m).bank_kept rfl hb⟩
  rw [hws]
  exact exec_programMmio_writable hb hq hf hsel hslots hw

end Sys2Proof.Machine
end

section
/-! A command under way (70_reset_and_hazards.md R433), seen from its end: what it comes to from any point of its pseudocode,
where nothing else moves, or where nothing moves but `shutdown`, which rises before a visible action of a given number. -/

namespace Sys2Proof.Machine

variable {s t : State} {Q : State → Prop}

/-! ### A rise of `shutdown` -/

/-- The moves by which `shutdown` rises just before the visible action of this number, counted from 1; with 0 it has risen, and
with none it does not. -/
def shutdownBefore : Option Nat → List Event
  | none | some 0 => []
  | some (k + 1) => List.replicate k .go ++ [.shutdown true]

/-- The state with these moves scheduled. -/
def State.due (s : State) (clock : Option Nat) : State :=
  { s with sched := shutdownBefore clock, shutdown := clock == some 0 || s.shutdown }

theorem State.due_none (h : s.quiet) : s.due none = s := by
  unfold State.quiet at h
  cases s
  cases h
  rfl

/-- What moves before one visible action. -/
theorem State.due_interfere (s : State) (clock : Option Nat) : (s.due clock).interfere = s.due (clock.map (· - 1)) := by
  rcases clock with _ | _ | _ | k <;> rfl

/-! ### A command under way -/

/-- A command under way: its number, the bank it was accepted in, the machine but for the registers of that bank, these
registers, and the number of the visible action before which `shutdown` rises, if it does. -/
structure Scene where
  inst : Nat
  bank : Bank
  world : State
  core : Core
  clock : Option Nat := none

namespace Scene

variable (σ : Scene)

/-- The machine at this point. -/
def state : State := (σ.world.due σ.clock).withCore σ.inst σ.bank σ.core

/-- The bank exists, and beside `shutdown` nothing moves. -/
def ok : Prop := σ.world.quiet ∧ σ.inst < σ.world.banks.length

/-- After this many visible actions. -/
def tick (k : Nat) : Scene := { σ with clock := σ.clock.map (· - k) }

/-- After an action that writes the bank's own registers. -/
def did (r : Req) : Scene := { σ.tick 1 with core := r.effect σ.world.now σ.core }

/-- After such actions one after the other. -/
def didAll (rs : List Req) : Scene :=
  { σ.tick rs.length with core := rs.foldl (fun c r => r.effect σ.world.now c) σ.core }

/-- What a sample of `shutdown` answers next. -/
def down : Bool := (σ.world.due (σ.clock.map (· - 1))).shutdown

theorem tick_zero : σ.tick 0 = σ := by
  obtain ⟨n, b, s, c, _ | m⟩ := σ <;> rfl

theorem tick_tick (j k : Nat) : (σ.tick j).tick k = σ.tick (j + k) := by
  obtain ⟨n, b, s, c, _ | m⟩ := σ
  · rfl
  · simp only [tick, Option.map_some, Nat.sub_sub]

theorem didAll_nil : σ.didAll [] = σ := σ.tick_zero

theorem didAll_cons (r : Req) (rs : List Req) : σ.didAll (r :: rs) = (σ.did r).didAll rs := by
  have h : (σ.tick 1).tick rs.length = σ.tick (rs.length + 1) := by rw [tick_tick, Nat.add_comm]
  exact congrArg
    (fun τ : Scene =>
      { τ with core := rs.foldl (fun c (r : Req) => r.effect σ.world.now c) (r.effect σ.world.now σ.core) }) h.symm

theorem state_of_clock_none (h : σ.clock = none) (hq : σ.world.quiet) :
    σ.state = σ.world.withCore σ.inst σ.bank σ.core := by
  rw [state, h, State.due_none hq]

end Scene

/-- Run as the rest of a command from this point, the program leaves a state with the property. -/
def Prog.yields (p : Prog) (σ : Scene) (Q : State → Prop) : Prop :=
  σ.ok → ∀ cmd view hist, Q (run (.seq σ.inst cmd view) hist p σ.state)

variable {σ τ : Scene}

/-- One visible action. -/
theorem yields_act {r : Req} {k : Resp → Prog} {a : Resp} (hv : r.visible = true)
    (hp : σ.ok → performReq σ.inst r (σ.tick 1).state = (some a, τ.state)) (hi : τ.inst = σ.inst) (hok : σ.ok → τ.ok)
    (h : (k a).yields τ Q) : (Prog.act r k).yields σ Q := by
  intro ho cmd view hist
  have hstep := run_act_after (.seq σ.inst cmd view) hist k hv (s := σ.state) (t := (σ.tick 1).state)
    ((σ.world.withCore σ.inst σ.bank σ.core).due_interfere σ.clock) rfl (hp ho)
  rw [hstep, ← hi]
  exact h (hok ho) cmd view _

/-- An action that writes only registers of the bank. -/
theorem yields_perform {r : Req} {k : Unit → Prog} (hr : r.isLocal = true) (h : (k ()).yields (σ.did r) Q) :
    (perform r k).yields σ Q := by
  refine yields_act (τ := σ.did r) (a := .unit) ?_ (fun ho => ?_) rfl id h
  · cases r <;> first | rfl | cases hr
  · rw [performReq_local _ _ _ hr]
    exact congrArg _ (State.withCore_modifyCore (s := σ.world.due _) ho.2 _ _)

/-- Such actions one after the other. -/
theorem yields_performAll {rs : List Req} {k : Unit → Prog} (hr : ∀ r ∈ rs, r.isLocal = true)
    (h : (k ()).yields (σ.didAll rs) Q) : (performAll rs k).yields σ Q := by
  induction rs generalizing σ with
  | nil =>
    rw [Scene.didAll_nil] at h
    exact h
  | cons r rest ih =>
    rw [Scene.didAll_cons] at h
    exact yields_perform (k := fun _ => performAll rest k) (hr r (.head _)) (ih (fun y hy => hr y (.tail _ hy)) h)

theorem yields_sampleShutdown {k : Bool → Prog} (h : (k σ.down).yields (σ.tick 1) Q) : (sampleShutdown k).yields σ Q :=
  yields_act (τ := σ.tick 1) (a := .flag σ.down) rfl (fun _ => rfl) rfl id h

/-- A sleep belongs to the action before it: nothing moves in between (log 5). -/
theorem yields_sleepMs {d : Nat} {k : Unit → Prog} (h : (k ()).yields { σ with world := σ.world.sleep (d * 1000) } Q) :
    (sleepMs d k).yields σ Q := by
  intro ho cmd view hist
  rw [sleepMs_apply]
  unfold run
  simp only [Req.visible, Bool.false_eq_true, if_false, ne_eq, not_true_eq_false]
  exact h ho cmd view _

/-- Where `shutdown` rises no more, this speaks of a run in which nothing else moves. -/
theorem Prog.yields.quiet {p : Prog} (h : p.yields σ Q) (hc : σ.clock = none) (ho : σ.ok) (cmd : Option Instr) (view : Core)
    (hist : List Resp) : Q (run (.seq σ.inst cmd view) hist p (σ.world.withCore σ.inst σ.bank σ.core)) :=
  σ.state_of_clock_none hc ho.1 ▸ h ho cmd view hist

theorem yields_of_quiet {p : Prog} (hc : σ.clock = none) (h : σ.ok → ∀ cmd view hist,
    Q (run (.seq σ.inst cmd view) hist p (σ.world.withCore σ.inst σ.bank σ.core))) : p.yields σ Q := by
  intro ho
  rw [σ.state_of_clock_none hc ho.1]
  exact h ho

/-- The end of a command. -/
theorem yields_ending {st : Status} (hc : σ.clock = none) (h : Q (σ.world.ended σ.inst σ.bank σ.core st)) :
    (Prog.ending st).yields σ Q :=
  yields_of_quiet hc fun ho _ _ _ => (run_end ho.2 _ _ _ _ _ ho.1).symm ▸ h

/-- Where `shutdown` has risen, nothing more moves. -/
theorem yields_of_risen {p : Prog} (hc : σ.clock = some 0)
    (h : p.yields { σ with world := σ.world.due (some 0), clock := none } Q) : p.yields σ Q := by
  intro ho cmd view hist
  have hstate : σ.state = Scene.state { σ with world := σ.world.due (some 0), clock := none } := by
    rw [Scene.state, hc]
    rfl
  rw [hstate]
  exact h ⟨rfl, ho.2⟩ cmd view hist

/-! ### Commands -/

/-- The start of a command on the bank that accepts it. -/
def Scene.start (s : State) (b : Bank) : Scene := { inst := s.cur, bank := b, world := s, core := b.core }

variable {b : Bank} {i : Instr}

theorem exec_of_yields (hb : s.banks[s.cur]? = some b) (hl : legalityEntry i b.core.fsm = some none)
    (ho : ¬ badOperand s.plat i b.core) (hi : σ.inst = s.cur) (hs : σ.state = s) (hok : σ.ok)
    (h : (codeOf i s.plat b.core Prog.ending).yields σ Q) : ∃ t, exec i s = .next t ∧ Q t := by
  refine ⟨_, exec_eq_run hb hl ho, ?_⟩
  have hQ := h hok (some i) b.core []
  rwa [hi, hs] at hQ

/-- A command that the table runs, and whose operands are good, where nothing else moves. -/
theorem exec_yields (hb : s.banks[s.cur]? = some b) (hq : s.quiet) (hl : legalityEntry i b.core.fsm = some none)
    (ho : ¬ badOperand s.plat i b.core) (h : (codeOf i s.plat b.core Prog.ending).yields (Scene.start s b) Q) :
    ∃ t, exec i s = .next t ∧ Q t :=
  exec_of_yields hb hl ho rfl (((Scene.start s b).state_of_clock_none rfl hq).trans (State.withCore_self hb))
    ⟨hq, lt_of_bank hb⟩ h

theorem exec_eq_of_yields (hb : s.banks[s.cur]? = some b) (hq : s.quiet) (hl : legalityEntry i b.core.fsm = some none)
    (ho : ¬ badOperand s.plat i b.core) (h : (codeOf i s.plat b.core Prog.ending).yields (Scene.start s b) (· = t)) :
    exec i s = .next t := by
  obtain ⟨_, e, rfl⟩ := exec_yields hb hq hl ho h
  exact e

/-- A command of whose end a part is only known to exist. -/
theorem exec_exists_of_yields {P : State → Prop} {F : State → State} (hb : s.banks[s.cur]? = some b) (hq : s.quiet)
    (hl : legalityEntry i b.core.fsm = some none) (ho : ¬ badOperand s.plat i b.core)
    (h : (codeOf i s.plat b.core Prog.ending).yields (Scene.start s b) fun u => ∃ t, P t ∧ u = F t) :
    ∃ t, P t ∧ exec i s = .next (F t) := by
  obtain ⟨_, e, t, ht, rfl⟩ := exec_yields hb hq hl ho h
  exact ⟨t, ht, e⟩

end Sys2Proof.Machine
end

section
/-! The commands of 42_stepping_controller.md R270 to R278 that bind, unbind or look up: the legality table, the cached values,
CONSTRUCT and RELEASE. -/

namespace Sys2Proof.Machine

variable {s t : State} {b : Bank} {i : Instr} {Q : State → Prop} {σ : Scene}

/-! ### The legality table (R278) -/

/-- The status a command ends with where its rule does not run. -/
def Legal.status : Legal → Option Status
  | .run => none
  | .invalidState => some .invalidState
  | .busy => some .busy
  | .noop => some .ok

/-- The model's table agrees with that of R278 entry by entry. -/
theorem legality_status_of_entry {f : Fsm} {o : Option Status} (h : legalityEntry i f = some o) :
    (legality i f).status = o := by
  cases i <;> cases f <;> cases h <;> rfl

/-- A command whose rule does not run is nothing but its end. -/
theorem guarded_of_status {code : Platform → Core → Code Status} {plat : Platform} {c : Core} {st : Status}
    (h : (legality i c.fsm).status = some st) : guarded i code plat c = .ending st := by
  unfold guarded
  cases hl : legality i c.fsm <;> rw [hl] at h <;> cases h <;> rfl

/-- Settles O20: the state check comes before everything else of a command. -/
theorem legalityTable : Obligations.LegalityTable := by
  intro s b i st hb hq h
  rw [exec_host (isHost_of_entry h), State.runCommand_of_bank hb, guarded_of_status (legality_status_of_entry h)]
  exact congrArg Host.Outcome.next (run_ending_of_bank hb hq _ _ _ _)

/-! ### GET_CACHED (R276) -/

/-- A command whose pseudocode only gives a status. -/
theorem exec_of_pure (hb : s.banks[s.cur]? = some b) (hq : s.quiet) (hl : legalityEntry i b.core.fsm = some none)
    (ho : ¬ badOperand s.plat i b.core) {st : Status} (hc : codeOf i s.plat b.core = pure st) :
    exec i s = .next (s.ended s.cur b b.core st) :=
  exec_of_ends hb hl ho (hc ▸ Code.ends_pure st s) rfl hq

theorem codeOf_getCached (plat : Platform) (c : Core) (h : ¬ c.arg0.toNat > 2) :
    codeOf .getCached plat c = match c.cached c.arg0.toNat with
      | none => pure .invalidState
      | some x => do perform (.setResult x); return .ok :=
  if_neg h

/-- GET_CACHED of a number below 3 looks up the value. -/
theorem exec_getCached (hb : s.banks[s.cur]? = some b) (hq : s.quiet) (hl : legalityEntry .getCached b.core.fsm = some none)
    (h : b.core.arg0.toNat ≤ 2) {y : Option B64} (hy : b.core.cached b.core.arg0.toNat = y) :
    (∀ f, y = some f → exec .getCached s = .next (s.ended s.cur b { b.core with result := f } .ok)) ∧
      (y = none → exec .getCached s = .next (s.ended s.cur b b.core .invalidState)) := by
  have ho : ¬ badOperand s.plat .getCached b.core := by
    show ¬ 2 ^ 2 ≤ b.core.arg0.toNat
    omega
  have hcode := codeOf_getCached s.plat b.core (Nat.not_lt.2 h)
  rw [hy] at hcode
  refine ⟨?_, ?_⟩
  · rintro f rfl
    refine exec_eq_of_yields hb hq hl ho ?_
    rw [hcode]
    exact yields_perform rfl (yields_ending rfl rfl)
  · rintro rfl
    exact exec_of_pure hb hq hl ho hcode

/-- Settles O26: the three numbers and their values (30_encoding.md R114). -/
theorem cachedValues : Obligations.CachedValues := by
  rintro s b hb hq hl y (⟨h, rfl⟩ | ⟨h, rfl⟩ | ⟨h, rfl⟩)
  all_goals exact exec_getCached hb hq hl (by rw [h]; decide) (by rw [h]; rfl)

/-! ### CONSTRUCT (R271 to R273) -/

theorem yields_memRead {off : Word} {k : Word → Prog}
    (h : (k (σ.world.mmioRead off)).yields
      { σ.tick 1 with world := σ.world.record (.read off (σ.world.mmioRead off)) } Q) : (memRead off k).yields σ Q :=
  yields_act (τ := { σ.tick 1 with world := σ.world.record (.read off (σ.world.mmioRead off)) })
    (a := .word (σ.world.mmioRead off)) rfl (fun _ => rfl) rfl id h

/-- A claim of an index that is free binds the bank. -/
theorem yields_claim_free {sel : Selector} {j : Nat} {k : Bool → Prog} (hf : σ.core.fsm = .unbound)
    (hj : σ.world.enabled[j]? = some false)
    (h : (k true).yields { σ.tick 1 with world := σ.world.setEnabled j true, core := σ.core.bind sel j } Q) :
    (claim sel j k).yields σ Q := by
  refine yields_act (τ := { σ.tick 1 with world := σ.world.setEnabled j true, core := σ.core.bind sel j })
    (a := .flag true) rfl (fun ho => ?_) rfl id h
  have hcore : (σ.tick 1).state.core? σ.inst = some σ.core :=
    State.core?_of_bank (State.withCore_bank (s := σ.world.due (σ.clock.map (· - 1))) ho.2 _)
  have hfree : (σ.tick 1).state.isEnabled j = false := by
    show σ.world.enabled.getD j true = false
    rw [List.getD_eq_getElem?_getD, hj, Option.getD_some]
  show (some (Resp.flag (State.claim _ _ sel j).1), (State.claim _ _ sel j).2) = _
  rw [State.claim_of_core hcore, if_pos (State.wins_iff.2 ⟨hfree, hf⟩)]
  exact congrArg (fun t => (some (Resp.flag true), t))
    (State.withCore_modifyCore (s := (σ.world.setEnabled j true).due (σ.clock.map (· - 1))) ho.2 _ _)

/-- A claim of an index that is held changes nothing. -/
theorem yields_claim_held {sel : Selector} {j : Nat} {k : Bool → Prog} (hj : σ.world.enabled[j]? = some true)
    (h : (k false).yields (σ.tick 1) Q) : (claim sel j k).yields σ Q := by
  refine yields_act (τ := σ.tick 1) (a := .flag false) rfl (fun _ => ?_) rfl id h
  have hheld : (σ.tick 1).state.isEnabled j = true := by
    show σ.world.enabled.getD j true = true
    rw [List.getD_eq_getElem?_getD, hj, Option.getD_some]
  show (some (Resp.flag (State.claim _ _ sel j).1), (State.claim _ _ sel j).2) = _
  rw [State.claim, if_pos hheld]

/-- The selectors of an admissible configuration have different ids, none of them 0 (log 26). -/
theorem selector?_of_mem {plat : Platform} {x : Selector} (hv : plat.valid = true) (hx : x ∈ plat.selectors) :
    plat.selector? x.id = some x := by
  simp only [Platform.valid, Platform.selectorsOk, Bool.and_eq_true, List.all_eq_true] at hv
  obtain ⟨-, ⟨hall, hpair⟩, -⟩ := hv
  obtain ⟨⟨⟨hid, -⟩, -⟩, -⟩ := hall x hx
  rw [Platform.selector?, if_neg (by simpa using hid)]
  generalize plat.selectors = xs at hx hpair
  induction xs with
  | nil => cases hx
  | cons y rest ih =>
    simp only [noPair, Bool.and_eq_true, List.all_eq_true, Bool.not_eq_true', beq_eq_false_iff_ne] at hpair
    obtain ⟨hfirst, hrest⟩ := hpair
    rcases List.mem_cons.1 hx with rfl | hmem
    · exact List.find?_cons_of_pos (by simp)
    · rw [List.find?_cons_of_neg (by simpa using hfirst x hmem)]
      exact ih hmem hrest

theorem codeOf_construct {plat : Platform} {c : Core} {x : Selector} (h : plat.selector? c.arg0.toNat = some x) :
    codeOf .construct plat c = do
      let v ← memRead x.clkselReg
      let won ← claim x (Platform.pllDiscover x v)
      return if won then .ok else .resourceConflict := by
  show constructCode plat c = _
  rw [constructCode, h]

/-- A selector that does not exist ends CONSTRUCT before any access. -/
theorem exec_construct_unknown (hb : s.banks[s.cur]? = some b) (hq : s.quiet) (hf : b.core.fsm = .unbound)
    (h : s.plat.selector? b.core.arg0.toNat = none) :
    exec .construct s = .next (s.ended s.cur b b.core .invalidArgument) := by
  refine exec_of_pure hb hq (by rw [hf]; rfl) id ?_
  show constructCode s.plat b.core = _
  rw [constructCode, h]

/-- Settles O24: one read, then the atomic claim, which the entry of the table decides. -/
theorem constructClaims : Obligations.ConstructClaims := by
  intro s b x k hb hq hv hf hx hid hk
  subst hk
  have hl : legalityEntry .construct b.core.fsm = some none := by rw [hf]; rfl
  have hcode := codeOf_construct (c := b.core) (hid ▸ selector?_of_mem hv hx)
  refine ⟨fun hfree => ?_, fun hheld => ?_⟩ <;> refine exec_eq_of_yields hb hq hl id ?_ <;> rw [hcode]
  · exact yields_memRead (yields_claim_free hf hfree (yields_ending rfl rfl))
  · exact yields_memRead (yields_claim_held hheld (yields_ending rfl rfl))

/-! ### RELEASE (R274) -/

/-- The release and the writes after it, where R320 has a release. -/
theorem yields_release {j : Nat} {k : Unit → Prog} (hc : σ.clock = none) (hj : σ.core.pllIndex = some j)
    (hm : σ.core.fsm.mayRelease = true)
    (h : (k ()).yields { σ with world := { σ.world with enabled := σ.world.enabled.set j false }, core := σ.core.unbound } Q) :
    (perform .release fun _ => performAll unbindWrites k).yields σ Q := by
  refine yields_of_quiet hc fun ho cmd view hist => ?_
  obtain ⟨hist', e⟩ := run_release (b := σ.bank) ho.2 ho.1 hj hm cmd view hist k
  exact Eq.mpr (congrArg Q e) (h.quiet hc ho cmd view hist')

/-- Settles O25: there is nothing to restore, and the writes of `unbindWrites` follow the release. -/
theorem releaseUnbinds : Obligations.ReleaseUnbinds := by
  intro s b k hb hq hf hk
  have hl : legalityEntry .release b.core.fsm = some none := by rcases hf with h | h | h <;> rw [h] <;> rfl
  have hm : b.core.fsm.mayRelease = true := by rcases hf with h | h | h <;> rw [h] <;> rfl
  have hne : b.core.fsm ≠ .armedForRollback := by rcases hf with h | h | h <;> rw [h] <;> decide
  refine exec_eq_of_yields hb hq hl id ?_
  show Prog.yields (releaseCode s.plat b.core Prog.ending) _ _
  rw [releaseCode, if_neg hne]
  exact yields_release rfl hk hm (yields_ending rfl rfl)

end Sys2Proof.Machine
end

section
/-! Programming a copy in the course of a command (41_phy_datapath.md R214, R224, R234, R244, R254), and ROLLBACK and the
restores that are forced (42_stepping_controller.md R274, R312, R315; 43_rollback_scheduler.md R346 to R348). -/

namespace Sys2Proof.Machine

variable {s t : State} {b : Bank} {i : Instr} {x : Selector} {ss : List Slot} {ws : List (Nat × Word)} {Q : State → Prop}
  {σ : Scene} {l : Nat} {r : LaneRegs}

/-! ### `write_v` -/

/-- A write to an offset that is no message-bus register stores the word. -/
theorem yields_memWrite {off v : Word} {k : Unit → Prog} (hp : plainOffset σ.world.plat off = true)
    (h : (k ()).yields { σ.tick 1 with world := (σ.world.pokeWord off v).record (.write off v) } Q) :
    (memWrite off v k).yields σ Q := by
  refine yields_act (τ := { σ.tick 1 with world := (σ.world.pokeWord off v).record (.write off v) }) (a := .unit) rfl
    (fun _ => ?_) rfl id h
  show (some Resp.unit, (State.mmioWrite _ off v).record (.write off v)) = _
  rw [State.mmioWrite_plain (σ.tick 1).state off v hp]
  rfl

theorem yields_writeOffsets {k : Unit → Prog} (hp : ∀ w ∈ ws, plainOffset σ.world.plat (BitVec.ofNat 32 w.1) = true)
    (h : (k ()).yields { σ.tick ws.length with
      world := (σ.world.stored ws).after (σ.world.stored ws).mmio (mmioRecords ws).reverse } Q) :
    (writeOffsets ws k).yields σ Q := by
  induction ws generalizing σ with
  | nil =>
    rw [List.length_nil, Scene.tick_zero] at h
    exact h
  | cons w rest ih =>
    obtain ⟨a, v⟩ := w
    have hafter : ((σ.world.stored ((a, v) :: rest)).after (σ.world.stored ((a, v) :: rest)).mmio
          (mmioRecords ((a, v) :: rest)).reverse) =
        ((((σ.world.pokeWord (BitVec.ofNat 32 a) v).record (.write (BitVec.ofNat 32 a) v)).stored rest).after
          (((σ.world.pokeWord (BitVec.ofNat 32 a) v).record (.write (BitVec.ofNat 32 a) v)).stored rest).mmio
          (mmioRecords rest).reverse) := by
      simp [State.stored, State.after, mmioRecords, State.pokeWord, State.record]
    rw [List.length_cons, Nat.add_comm, ← Scene.tick_tick, hafter] at h
    exact yields_memWrite (k := fun _ => writeOffsets rest k) (hp (a, v) (.head _)) (ih (fun y hy => hp y (.tail _ hy)) h)

theorem writeV_of_mmio (plat : Platform) (h : onMmio x = true) (copy : List Word) :
    writeV plat (some x) (addressed ss copy) = do writeOffsets (slotWrites x ss copy); return .ok := by
  unfold onMmio at h
  unfold slotWrites
  cases hx : x.layout <;> rw [hx] at h <;> cases h <;> simp only [writeV, layoutOf, Option.map_some, hx] <;> rfl

/-- `write_v` of a copy on hardware that takes it; a rise of `shutdown` meanwhile is followed for the MMIO variants. -/
theorem yields_writeV (hW : Writable σ.world x ss) (hc : σ.clock = none ∨ onMmio x = true) {copy : List Word} {k : Status → Prog}
    (h : ∀ t, (σ.world.programmed x (slotWrites x ss copy)).wrote x (mmioRecords (slotWrites x ss copy)) t →
      Writable t x ss → (k .ok).yields { σ.tick (slotWrites x ss copy).length with world := t } Q) :
    (writeV σ.world.plat (some x) (addressed ss copy) k).yields σ Q := by
  cases hm : onMmio x with
  | false =>
    have hc : σ.clock = none := hc.resolve_right (by simp [hm])
    refine yields_of_quiet hc fun ho cmd view hist => ?_
    obtain ⟨hist', t, hwrote, ht, e⟩ := run_writeV_at hW σ.inst σ.bank σ.core (.seq σ.inst cmd view) hist copy k
    have hlen : t.banks = σ.world.banks := (State.wrote_core hwrote).1
    rw [e]
    exact (h t hwrote ht).quiet (by rw [Scene.tick, hc]; rfl) ⟨ht.quiet, by rw [hlen]; exact ho.2⟩ cmd view hist'
  | true =>
    rw [writeV_of_mmio _ hm]
    have hplain := hW.plain hm
    refine yields_writeOffsets (fun w hw => ?_) (h _ ?_ ⟨hW.quiet, fun _ => hplain, fun h' => absurd h' (by simp [hm])⟩)
    · obtain ⟨y, hy, e⟩ := mem_slotWrites hw
      exact e ▸ hplain y hy
    · rw [State.programmed_mmio hm, State.wrote, if_pos hm]
      rfl

theorem copyOf_false (ss : List Slot) : copyOf false ss = ss.map (·.orig) := rfl

/-- What a bank's originals are written with. -/
def Core.restore (c : Core) (plat : Platform) : Code Status := writeOrig plat c.sel c.snapshot

theorem Core.restore_of_bound {c : Core} (plat : Platform) (hsel : c.sel = some x) (hslots : c.slots = some ss) :
    c.restore plat = writeV plat (some x) (addressed ss (ss.map (·.orig))) := by
  rw [Core.restore, Core.snapshot, hsel, hslots, Option.getD_some, writeOrig, copyOf_false]

/-- The write of `applied_mod` after a restore (10_state.md R38). -/
def afterRestore (st : Status) : Code Status := do
  onlyIf (st = .ok) (perform (.setApplied false))
  return st

/-- A restore that succeeds. -/
theorem yields_restore {c : Core} (hsel : c.sel = some x) (hslots : c.slots = some ss) (hW : Writable σ.world x ss)
    (hc : σ.clock = none ∨ onMmio x = true) (hws : ws = slotWrites x ss (ss.map (·.orig))) {k : Status → Prog}
    (h : ∀ t, (σ.world.programmed x ws).wrote x (mmioRecords ws) t → Writable t x ss →
      (k .ok).yields { σ.tick (ws.length + 1) with world := t, core := { σ.core with appliedMod := false } } Q) :
    ((c.restore σ.world.plat >>= afterRestore) k).yields σ Q := by
  subst hws
  rw [Core.restore_of_bound _ hsel hslots]
  refine yields_writeV hW hc fun t hwrote ht => yields_perform (r := .setApplied false) (k := fun _ => k .ok) rfl ?_
  have hk := h t hwrote ht
  rw [← Scene.tick_tick] at hk
  exact hk

/-! ### ROLLBACK (R315) -/

theorem codeOf_rollback (plat : Platform) {c : Core} (hf : c.fsm = .captured ∨ c.fsm = .done) :
    codeOf .rollback plat c =
      c.restore plat >>= fun st => (do let st ← afterRestore st; perform (.setFsm .done); return st) := by
  have hne : ¬ (c.fsm = .armedForRollback ∨ c.fsm = .rollingBack) := by rcases hf with h | h <;> rw [h] <;> decide
  exact if_neg hne

theorem rollback_entry (hf : b.core.fsm = .captured ∨ b.core.fsm = .done) :
    legalityEntry .rollback b.core.fsm = some none := by rcases hf with h | h <;> rw [h] <;> rfl

/-- The states ROLLBACK writes its originals in go to DONE (R320). -/
theorem Core.enter_done {c : Core} (hf : c.fsm = .captured ∨ c.fsm = .done ∨ c.fsm = .stepping ∨ c.fsm = .targetComputed) :
    c.enter .done = { c with fsm := .done } := by
  refine Core.enter_of (Core.mayEnter_iff.2 ?_)
  rcases hf with h | h | h | h <;> simp [h, stepTransition]

/-- ROLLBACK with no rollback pending, on hardware that takes the writes. -/
theorem exec_rollback_ok (hb : s.banks[s.cur]? = some b) (hq : s.quiet) (hf : b.core.fsm = .captured ∨ b.core.fsm = .done)
    (hsel : b.core.sel = some x) (hslots : b.core.slots = some ss) (hw : s.writable x ss)
    (hws : ws = slotWrites x ss (ss.map (·.orig))) :
    ∃ t, (s.programmed x ws).wrote x (mmioRecords ws) t ∧
      exec .rollback s = .next (t.ended s.cur b { b.core with appliedMod := false, fsm := .done } .ok) := by
  refine exec_exists_of_yields hb hq (rollback_entry hf) id ?_
  rw [codeOf_rollback _ hf]
  refine yields_restore (σ := Scene.start s b) (k := fun st => perform (.setFsm .done) fun _ => Prog.ending st) hsel hslots
    (hw.ready hq) (.inl rfl) hws fun t hwrote ht => yields_perform rfl (yields_ending rfl ⟨t, hwrote, ?_⟩)
  exact congrArg (fun c => t.ended s.cur b c .ok)
    (Core.enter_done (c := { b.core with appliedMod := false }) (hf.imp_right .inl))

/-- A restore that fails leaves `applied_mod` (10_state.md R38). -/
theorem exec_rollback_fails (hb : s.banks[s.cur]? = some b) (hf : b.core.fsm = .captured ∨ b.core.fsm = .done) {st : Status}
    (hst : st ≠ .ok) (h : (b.core.restore s.plat).leadsTo
      (fun st => (do let st ← afterRestore st; perform (.setFsm .done); return st : Code Status)) .rollback b s st t)
    (hq : t.quiet) (hbt : t.banks[s.cur]? = some b) :
    exec .rollback s = .next (t.ended s.cur b { b.core with fsm := .done } st) := by
  obtain ⟨hist, e⟩ := exec_of_leadsTo hb (rollback_entry hf) id (codeOf_rollback s.plat hf) h
  have hlt := lt_of_bank hbt
  have hdone := run_local_at (b := b) hlt b.core (some .rollback) b.core hist (.setFsm .done) (fun _ => Prog.ending st) hq rfl
  rw [State.withCore_self hbt, run_end hlt _ _ _ _ _ hq] at hdone
  have hskip : ((do let st ← afterRestore st; perform (.setFsm .done); return st : Code Status) Prog.ending) =
      perform (.setFsm .done) fun _ => Prog.ending st := by
    rw [afterRestore, decide_eq_false hst]
    rfl
  rw [e, hskip, hdone]
  exact congrArg (fun c => Host.Outcome.next (t.ended s.cur b c st)) (Core.enter_done (hf.imp_right .inl))

/-- Settles O45: the restore succeeds, fails, or finds a PHY that never answers. -/
theorem rollbackDirect : Obligations.RollbackDirect := by
  refine ⟨fun s b x ss ws hb hq hf hsel hslots hw hws => exec_rollback_ok hb hq hf hsel hslots hw hws,
    fun s t b st hist hb hf hst h hqt hbt => exec_rollback_fails hb hf hst h.leadsTo hqt hbt,
    fun s b x ss l r hb hq hf hsel hslots hne hs => ?_⟩
  have hws : addressed ss (ss.map (·.orig)) ≠ [] := by
    obtain ⟨y, rest, rfl⟩ := List.exists_cons_of_ne_nil hne
    exact List.cons_ne_nil _ _
  obtain ⟨t, hends, htried⟩ := Silent.writeV hs hq hws
  rw [← Core.restore_of_bound s.plat hsel hslots] at hends
  obtain ⟨hbanks, hqt⟩ := htried.banks_quiet hq
  obtain ⟨-, -, hphy, hsram, hmarks, -, -, hcount⟩ := htried.keeps
  refine ⟨_, exec_rollback_fails hb hf (by decide) hends.leadsTo hqt (hbanks ▸ hb), hphy, hsram, hmarks, hcount, ?_⟩
  rw [State.ended_banks, hbanks, List.getElem?_set_self (lt_of_bank hb)]

/-! ### Restores that are forced (R274, R312, R315) -/

/-- `rollback_now` of a caller that wins the test-and-clear. -/
theorem yields_rollbackNow (hc : σ.clock = none) (hW : Writable σ.world x ss) (ha : σ.core.armed = true)
    (hsel : σ.core.sel = some x) (hslots : σ.core.slots = some ss) (hws : ws = slotWrites x ss (ss.map (·.orig)))
    {k : Status → Prog} (h : ∀ t, (σ.world.programmed x ws).wrote x (.cancel σ.inst :: mmioRecords ws) t →
      (k .ok).yields { σ with
        world := t
        core := { σ.core with
          armed := false, deadline := none, appliedMod := false, rbStatus := .ok, done := true, fsm := .done } } Q) :
    (rollbackNow false σ.world.plat k).yields σ Q := by
  subst hws
  refine yields_of_quiet hc fun ho cmd view hist => ?_
  obtain ⟨hist', t, hwrote, hq, hbanks, e⟩ := run_rollbackNow ho.2 hW ha hsel hslots cmd view hist k (b := σ.bank)
  rw [e]
  exact (h t hwrote).quiet hc ⟨hq, by rw [hbanks]; exact ho.2⟩ cmd view hist'

theorem yields_sampleDone {k : Bool → Prog} (h : (k σ.core.done).yields (σ.tick 1) Q) : (sampleDone k).yields σ Q :=
  yields_act (τ := σ.tick 1) (a := .flag σ.core.done) rfl (fun ho => by
    have hcore : (σ.tick 1).state.coreAt σ.inst = σ.core :=
      State.withCore_coreAt (s := σ.world.due (σ.clock.map (· - 1))) ho.2 _
    show (some (Resp.flag _), _) = _
    rw [hcore]) rfl id h

/-- WAIT_UNTIL_DONE, sample by sample (R310, log 29). -/
theorem waitUntilDoneCode_apply (plat : Platform) (c : Core) (k : Status → Prog) : waitUntilDoneCode plat c k =
    sampleDone fun done => if done then k .ok else sampleShutdown fun down => if down then rollbackNow false plat k
      else awaitDone true fun done => if done then readRbStatus k else pollShutdown fun _ => rollbackNow false plat k := by
  simp only [waitUntilDoneCode, Code.bind_apply, Code.ite_apply, Code.pure_apply]

/-- Settles O46: each of the three commands wins the test-and-clear. -/
theorem restoreForced : Obligations.RestoreForced := by
  intro s b x ss ws c' hb hq hf ha hd hsel hslots hw hws hc'
  subst hc'
  have hW := hw.ready hq
  refine ⟨?_, fun hdown => ?_, fun k hk => ?_⟩
  · refine exec_exists_of_yields hb hq (by rw [hf]; rfl) id ?_
    rw [show codeOf .rollback s.plat b.core = rollbackNow false s.plat from if_pos (.inl hf)]
    exact yields_rollbackNow (σ := Scene.start s b) rfl hW ha hsel hslots hws fun t hwrote =>
      yields_ending rfl ⟨t, hwrote, rfl⟩
  · refine exec_exists_of_yields hb hq (by rw [hf]; rfl) id ?_
    rw [codeOf, waitUntilDoneCode_apply]
    refine yields_sampleDone ?_
    rw [show (Scene.start s b).core.done = false from hd, if_neg Bool.false_ne_true]
    refine yields_sampleShutdown ?_
    rw [show ((Scene.start s b).tick 1).down = true from hdown, if_pos rfl]
    exact yields_rollbackNow (σ := Scene.start s b) rfl hW ha hsel hslots hws fun t hwrote =>
      yields_ending rfl ⟨t, hwrote, rfl⟩
  · refine exec_exists_of_yields hb hq (by rw [hf]; rfl) id ?_
    rw [codeOf, releaseCode, if_pos hf]
    refine yields_rollbackNow (σ := Scene.start s b) rfl hW ha hsel hslots hws fun t hwrote =>
      yields_release rfl hk rfl (yields_ending rfl ⟨t, hwrote, ?_⟩)
    obtain ⟨-, -, -, henabled⟩ := State.wrote_core hwrote
    exact congrArg (fun e : List Bool => ({ t with enabled := e.set k false } : State).ended s.cur b _ .ok) henabled

end Sys2Proof.Machine
end

section
/-! Waiting for the rollback path (42_stepping_controller.md R310, R315; 43_rollback_scheduler.md R346, R351): a command that is
left in the bank, and its moves. -/

namespace Sys2Proof.Machine

variable {s t u : State} {b : Bank} {i : Instr} {v : Core} {n : Nat} {hist : List Resp} {a : Resp} {r : Req}

/-! ### Suspended commands -/

theorem Prog.after_append (p : Prog) (h h' : List Resp) : p.after (h ++ h') = (p.after h).after h' := by
  induction h generalizing p with
  | nil => cases p <;> rfl
  | cons a rest ih =>
    cases p with
    | ret st => cases h' <;> rfl
    | act r k => exact ih (k a)

/-- The command of the bank is at this point of its pseudocode. -/
def State.waitsAt (s : State) (n : Nat) (b : Bank) (i : Instr) (v : Core) (hist : List Resp) (p : Prog) : Prop :=
  s.banks[n]? = some b ∧ b.seq = some ⟨some i, v, hist⟩ ∧ (commandProg s.plat (some i) v).after hist = p

theorem State.waitsAt.moveSeq {p : Prog} (h : s.waitsAt n b i v hist p) :
    s.moveSeq n = moveAgent (.seq n (some i) v) hist p s := by
  obtain ⟨hb, hseq, hp⟩ := h
  have hbank : (s.bank? n).bind (·.seq) = some ⟨some i, v, hist⟩ := by
    rw [State.bank?, hb]
    exact hseq
  rw [State.moveSeq, hbank, ← hp]

/-- A visible action that answers, with a visible one after it: the command waits there. -/
theorem State.waitsAt.moveSeq_act {k : Resp → Prog} {r' : Req} {k' : Resp → Prog} (h : s.waitsAt n b i v hist (.act r k))
    (hr : r.visible = true) (hp : performReq n r s = (some a, t)) (hk : k a = .act r' k') (hr' : r'.visible = true) :
    s.moveSeq n = t.suspend (.seq n (some i) v) (hist ++ [a]) := by
  rw [h.moveSeq, moveAgent]
  simp only [Runner.inst, hp, hr, if_true, hk, runInvisible, hr']

theorem State.suspend_of_bank (hb : s.banks[n]? = some b) :
    s.suspend (.seq n (some i) v) hist = { s with banks := s.banks.set n { b with seq := some ⟨some i, v, hist⟩ } } :=
  State.modifyBank_of_bank hb _

theorem State.waitsAt_suspend (hb : s.banks[n]? = some b) :
    (s.suspend (.seq n (some i) v) hist).waitsAt n { b with seq := some ⟨some i, v, hist⟩ } i v hist
      ((commandProg s.plat (some i) v).after hist) := by
  rw [State.suspend_of_bank hb]
  exact ⟨List.getElem?_set_self (lt_of_bank hb), rfl, rfl⟩

/-- A command that is left where it was. -/
theorem State.suspend_self (hb : s.banks[n]? = some b) (hseq : b.seq = some ⟨some i, v, hist⟩) :
    s.suspend (.seq n (some i) v) hist = s := by
  rw [State.suspend_of_bank hb, ← hseq]
  exact State.withCore_self hb

/-- The last two moves of a command. -/
theorem State.waitsAt.moveSeq_ending {st : Status} (h : s.waitsAt n b i v hist (.ending st)) :
    (s.moveSeq n).moveSeq n = s.ended n b b.core st := by
  obtain ⟨hb, -, hp⟩ := id h
  have hlt := lt_of_bank hb
  have hcode : performReq n (.setCode st) s = (some .unit, s.withCore n b (b.core.setCode st)) :=
    congrArg (some Resp.unit, ·) (State.modifyCore_of_bank hb _)
  have hafter : (commandProg s.plat (some i) v).after (hist ++ [.unit]) = .act .clearBusy fun _ => .ret st := by
    rw [Prog.after_append, hp]
    rfl
  rw [h.moveSeq_act rfl hcode rfl rfl]
  have hat := State.waitsAt_suspend (i := i) (v := v) (hist := hist ++ [.unit])
    (State.withCore_bank (s := s) (b := b) hlt (b.core.setCode st))
  rw [show (s.withCore n b (b.core.setCode st)).plat = s.plat from rfl, hafter] at hat
  obtain ⟨hb', -, -⟩ := id hat
  rw [hat.moveSeq, moveAgent]
  simp only [Runner.inst, performReq, Req.visible, if_true, runInvisible, State.finish]
  rw [State.modifyCore_of_bank hb', State.endCommand, State.modifyBank_of_bank (State.withCore_bank (lt_of_bank hb') _),
    State.suspend_of_bank (State.withCore_bank hlt _)]
  simp only [State.withCore, State.ended, List.set_set]
  rfl

/-! ### The wait -/

/-- One round of the wait sleeps first (R310). -/
def State.donePoll (s : State) : State := (s.later (s.plat.donePollMs * 1000)).traced [.sleep (s.plat.donePollMs * 1000)]

theorem performReq_awaitDone (hb : s.banks[n]? = some b) (orShutdown : Bool) :
    performReq n (.awaitDone orShutdown) s =
      (if b.core.done then some (.flag true) else if orShutdown then some (.flag false) else none, s.donePoll) := by
  show s.awaitDone n orShutdown = _
  rw [State.awaitDone, State.coreAt_of_bank hb]
  cases b.core.done <;> cases orShutdown <;> rfl

theorem performReq_awaitDone_none (hb : s.banks[n]? = some b) (hd : b.core.done = false) :
    performReq n (.awaitDone false) s = (none, s.donePoll) := by
  rw [performReq_awaitDone hb, hd]
  rfl

theorem performReq_awaitDone_false (hb : s.banks[n]? = some b) (hd : b.core.done = false) :
    performReq n (.awaitDone true) s = (some (.flag false), s.donePoll) := by
  rw [performReq_awaitDone hb, hd]
  rfl

theorem performReq_pollShutdown (hs : s.shutdown = false) : performReq n .pollShutdown s = (none, s) := by
  show (if s.shutdown then some Resp.unit else none, s) = _
  rw [hs]
  rfl

/-- A command that waits ends in three moves once `done` is 1. -/
theorem State.waitsAt.moveSeq_done {o : Bool} {k : Resp → Prog} (h : s.waitsAt n b i v hist (.act (.awaitDone o) k))
    (hk : k (.flag true) = readRbStatus Prog.ending) (hd : b.core.done = true) :
    ((s.moveSeq n).moveSeq n).moveSeq n = s.donePoll.ended n b b.core b.core.rbStatus := by
  obtain ⟨hb, -, hp⟩ := id h
  have hround : performReq n (.awaitDone o) s = (some (.flag true), s.donePoll) := by
    rw [performReq_awaitDone hb, hd, if_pos rfl]
  have hmove : s.moveSeq n =
      s.donePoll.suspend (.seq n (some i) v) (hist ++ [.flag true, .status b.core.rbStatus]) := by
    have hcore : s.donePoll.coreAt n = b.core := State.coreAt_of_bank hb
    rw [h.moveSeq, moveAgent]
    simp only [Runner.inst, hround, Req.visible, if_true, hk, readRbStatus_apply, runInvisible, Bool.false_eq_true, if_false]
    simp only [performReq, hcore, Resp.asStatus, Prog.ending, runInvisible, Req.visible, if_true, List.append_assoc]
    rfl
  have hafter : (commandProg s.plat (some i) v).after (hist ++ [.flag true, .status b.core.rbStatus]) =
      .ending b.core.rbStatus := by
    rw [Prog.after_append, hp]
    show ((k (.flag true)).after _) = _
    rw [hk]
    rfl
  have hat := State.waitsAt_suspend (i := i) (v := v) (hist := hist ++ [.flag true, .status b.core.rbStatus]) (s := s.donePoll) hb
  rw [show s.donePoll.plat = s.plat from rfl, hafter] at hat
  rw [hmove, hat.moveSeq_ending, State.suspend_of_bank (s := s.donePoll) hb]
  simp only [State.ended, List.set_set]

/-- ROLLBACK after its first samples. -/
theorem rollback_after (plat : Platform) (hf : v.fsm = .rollingBack) :
    (commandProg plat (some .rollback) v).after [.flag false, .flag false] =
      .act (.awaitDone false) fun _ => readRbStatus Prog.ending := by
  have hl : legalityEntry .rollback v.fsm = some none := by rw [hf]; rfl
  show (guarded _ _ plat v).after _ = _
  rw [guarded_run (legality_of_entry hl) ((operandsOk_iff _ _ _).2 id),
    show codeOf .rollback plat v = rollbackNow false plat from if_pos (.inr hf)]
  rfl

/-- WAIT_UNTIL_DONE after its first samples. -/
theorem waitUntilDone_after (plat : Platform) (hl : legalityEntry .waitUntilDone v.fsm = some none) :
    (commandProg plat (some .waitUntilDone) v).after [.flag false, .flag false] =
      .act (.awaitDone true) fun a =>
        if a.asFlag then readRbStatus Prog.ending else pollShutdown fun _ => rollbackNow false plat Prog.ending := by
  show (guarded _ _ plat v).after _ = _
  rw [guarded_run (legality_of_entry hl) ((operandsOk_iff _ _ _).2 id), codeOf, waitUntilDoneCode_apply]
  rfl

/-- A ROLLBACK whose round of the poll finds `done` at 0 stays where it is. -/
theorem State.waitsAt.moveSeq_waits {k : Resp → Prog} (h : s.waitsAt n b i v hist (.act (.awaitDone false) k))
    (hd : b.core.done = false) : s.moveSeq n = s.donePoll := by
  obtain ⟨hb, hseq, -⟩ := id h
  rw [h.moveSeq, moveAgent]
  simp only [Runner.inst, performReq_awaitDone_none hb hd]
  exact State.suspend_self hb hseq

/-- A WAIT_UNTIL_DONE that finds `done` and `shutdown` at 0 goes back to the sleep. -/
theorem State.waitsAt.moveSeq_waits_shutdown {k : Resp → Prog} {k' : Unit → Prog}
    (h : s.waitsAt n b i v hist (.act (.awaitDone true) k))
    (hk : k (.flag false) = pollShutdown k') (hd : b.core.done = false) (hs : s.shutdown = false) :
    (s.moveSeq n).moveSeq n = s.donePoll := by
  obtain ⟨hb, hseq, hp⟩ := id h
  have hafter : (commandProg s.plat (some i) v).after (hist ++ [.flag false]) = .act .pollShutdown fun _ => k' () := by
    rw [Prog.after_append, hp]
    show (k (.flag false)).after [] = _
    rw [hk]
    rfl
  have hat := State.waitsAt_suspend (i := i) (v := v) (hist := hist ++ [.flag false]) (s := s.donePoll) hb
  rw [show s.donePoll.plat = s.plat from rfl, hafter] at hat
  have hpoll := performReq_pollShutdown (n := n)
    (show (s.donePoll.suspend (.seq n (some i) v) (hist ++ [.flag false])).shutdown = false from hs)
  rw [h.moveSeq_act rfl (performReq_awaitDone_false hb hd) hk rfl, hat.moveSeq, moveAgent]
  simp only [Runner.inst, hpoll, Req.heldAt, List.dropLast_concat]
  rw [State.suspend_of_bank hat.1, State.suspend_of_bank (s := s.donePoll) hb]
  simp only [List.set_set]
  exact (State.suspend_of_bank (s := s.donePoll) hb).symm.trans (State.suspend_self (s := s.donePoll) hb hseq)

/-! ### ROLLBACK and WAIT_UNTIL_DONE -/

/-- A run that comes to the poll, where its first round does not answer. -/
theorem run_awaitDone_waits {k : Resp → Prog} (hb : s.banks[n]? = some b) (hq : s.quiet) (hd : b.core.done = false) :
    run (.seq n (some i) v) hist (.act (.awaitDone false) k) s =
      { s.donePoll with banks := s.banks.set n { b with seq := some ⟨some i, v, hist⟩ } } := by
  rw [run_act_none (.seq n (some i) v) _ _ _ hq (performReq_awaitDone_none hb hd)]
  exact State.suspend_of_bank (s := s.donePoll) hb

theorem run_rollbackNow_lost (hb : s.banks[n]? = some b) (hq : s.quiet) (hd : b.core.done = false) (ha : b.core.armed = false)
    (plat : Platform) (k : Status → Prog) : run (.seq n (some i) v) hist (rollbackNow false plat k) s =
      { s.donePoll with banks := s.banks.set n { b with seq := some ⟨some i, v, hist ++ [.flag false, .flag false]⟩ } } := by
  have hcore := State.coreAt_of_bank hb
  have hlost : performReq n (.testAndClear false) s = (some (.flag false), s) := by
    show (some (s.testAndClear n false).1, (s.testAndClear n false).2) = _
    simp [State.testAndClear, hcore, Core.canClear, ha]
  rw [rollbackNow, Code.bind_apply, testAndClear_apply, run_act_some (.seq n (some i) v) _ _ _ hq hlost]
  show run _ _ ((sampleDone >>= _) k) s = _
  rw [Code.bind_apply, run_sampleDone _ _ _ hq]
  simp only [Runner.inst, hcore, hd]
  rw [List.append_assoc]
  exact run_awaitDone_waits hb hq hd

/-- Both commands come to the poll after two samples that answer 0, and are left there. -/
theorem exec_waits (hb : s.banks[s.cur]? = some b) (hq : s.quiet) (hd : b.core.done = false)
    (h : (i = .rollback ∧ b.core.fsm = .rollingBack ∧ b.core.armed = false) ∨
      (i = .waitUntilDone ∧ legalityEntry i b.core.fsm = some none ∧ s.shutdown = false)) :
    exec i s = .next { s.donePoll with
      banks := s.banks.set s.cur { b with seq := some ⟨some i, b.core, [.flag false, .flag false]⟩ } } := by
  rcases h with ⟨rfl, hf, ha⟩ | ⟨rfl, hl, hs⟩
  · rw [exec_eq_run hb (by rw [hf]; rfl) id,
      show codeOf .rollback s.plat b.core = rollbackNow false s.plat from if_pos (.inr hf)]
    exact congrArg Host.Outcome.next (run_rollbackNow_lost hb hq hd ha _ _)
  · rw [exec_eq_run hb hl id, codeOf, waitUntilDoneCode_apply, run_sampleDone _ _ _ hq]
    simp only [Runner.inst, State.coreAt_of_bank hb, hd, Bool.false_eq_true, if_false]
    rw [run_sampleShutdown _ _ _ hq]
    simp only [hs, Bool.false_eq_true, if_false]
    rw [awaitDone_apply,
      run_act_some (.seq s.cur (some .waitUntilDone) b.core) _ _ _ hq (performReq_awaitDone_false hb hd)]
    show Host.Outcome.next (run _ _ (pollShutdown _) _) = _
    rw [pollShutdown_apply, run_act_none (.seq s.cur (some .waitUntilDone) b.core) _ _ _ (show s.donePoll.quiet from hq)
      (performReq_pollShutdown hs)]
    exact congrArg Host.Outcome.next (State.suspend_of_bank (s := s.donePoll) hb)

/-- Settles O47: the acceptance, then the rounds of the two polls. -/
theorem waitsForRestore : Obligations.WaitsForRestore := by
  refine ⟨fun s b i hb hq hd h => exec_waits hb hq hd h, fun s n rest hv hin => step_of_moved hv hin rfl, ?_⟩
  rintro s n b i v hb hseq (⟨rfl, hf⟩ | ⟨rfl, hl⟩)
  · have hat : s.waitsAt n b .rollback v _ _ := ⟨hb, hseq, rollback_after s.plat hf⟩
    exact ⟨fun hd => hat.moveSeq_done rfl hd, fun hd _ => hat.moveSeq_waits hd, fun _ h => (by cases h)⟩
  · have hat : s.waitsAt n b .waitUntilDone v _ _ := ⟨hb, hseq, waitUntilDone_after s.plat hl⟩
    exact ⟨fun hd => hat.moveSeq_done rfl hd, fun _ h => (by cases h), fun hd _ hs => hat.moveSeq_waits_shutdown rfl hd hs⟩

end Sys2Proof.Machine
end

section
/-! The start of a stepping (42_stepping_controller.md R280 to R291): the checks of its arguments, the plan, and the values of
PROGRAM_PHY. -/

namespace Sys2Proof.Machine

variable {s t : State} {b : Bank} {i : Instr} {Q : State → Prop} {σ : Scene} {plat : Platform} {view c : Core}
  {target shift cur size eff : B64} {wait n tms : Nat} {commit fromPhy reset : Bool} {st : Status}

/-! ### Ends -/

theorem Scene.tick_of_none (hc : σ.clock = none) (k : Nat) : σ.tick k = σ := by
  rw [Scene.tick, hc, Option.map_none, ← hc]

theorem Scene.tick_clock (hc : σ.clock = none) (k : Nat) : (σ.tick k).clock = none := by
  rw [Scene.tick_of_none hc, hc]

theorem raiseOrFail_true {α : Type} (st : Status) (k : α → Prog) :
    raiseOrFail true st k = perform (.setFsm .done) fun _ => Prog.ending st := rfl

theorem yields_raiseOrFail {α : Type} {k : α → Prog} (hc : σ.clock = none)
    (h : Q (σ.world.ended σ.inst σ.bank (if fromPhy then σ.core.enter .done else σ.core) st)) :
    (raiseOrFail fromPhy st k).yields σ Q := by
  cases fromPhy with
  | false => exact yields_ending hc h
  | true =>
    rw [raiseOrFail_true]
    exact yields_perform rfl (yields_ending (Scene.tick_clock hc 1) h)

/-- `fail` in the states of a stepping (R320). -/
theorem yields_fail {α : Type} {k : α → Prog} (hc : σ.clock = none) (hf : σ.core.fsm = .stepping)
    (h : Q (σ.world.ended σ.inst σ.bank { σ.core with fsm := .done } st)) : (fail st k).yields σ Q := by
  refine yields_raiseOrFail hc ?_
  rw [if_pos rfl, Core.enter_done (.inr (.inr (.inl hf)))]
  exact h

/-! ### The plan (R291 steps 2 and 3) -/

theorem stepCount_of_finite {q : B64} (hq : B64.isFinite q = true) (hn : B64.toInt .ceil (B64.abs q) = (n : Int))
    (hlt : n < 2 ^ 32) : stepCount q = some n := by
  rw [B64.isFinite, decide_eq_true_eq] at hq
  have hnan : B64.isNaN q = false := decide_eq_false (by omega)
  have hinf : B64.isInf q = false := decide_eq_false (by omega)
  rw [stepCount, hnan, hinf, hn, Int.toNat_natCast]
  exact if_pos (Nat.le_pred_of_lt hlt)

theorem stepCount_of_tooMany {q : B64} (h : tooManySteps q) : stepCount q = none := by
  obtain ⟨hnan, hinf | hmany⟩ := h
  · rw [stepCount, hnan, hinf]
    rfl
  · have hlt : ¬ (B64.toInt .ceil (B64.abs q)).toNat ≤ stepMax := by
      rw [stepMax]
      omega
    rw [stepCount, hnan, if_neg Bool.false_ne_true, if_neg hlt, ite_self]

theorem percentDiff_eq (cur target : B64) : percentDiff cur target = stepPercent cur target := rfl

/-- A shift that asks for more than one step. -/
theorem planSteps_of_far (h : B64.le (stepPercent cur target) shift = false) (hz : B64.eq shift B64.zero = false)
    (k : Nat × B64 → Prog) : planSteps fromPhy cur target shift k =
      perform (.setReg .ssize (stepFirst cur target shift)) fun _ =>
        match stepCount (B64.div (B64.sub target cur) (stepFirst cur target shift)) with
        | none => raiseOrFail fromPhy .invalidArgument k
        | some n => setPlan n (B64.div (B64.sub target cur) (B64.ofNat n)) k := by
  rw [planSteps, percentDiff_eq, h, if_neg Bool.false_ne_true, Code.bind_apply, onlyIf_apply, hz,
    if_neg Bool.false_ne_true]
  refine congrArg (perform _) (funext fun _ => ?_)
  show (match stepCount (B64.div (B64.sub target cur) (stepFirst cur target shift)) with
    | none => raiseOrFail fromPhy .invalidArgument
    | some n => setPlan n (B64.div (B64.sub target cur) (B64.ofNat n)) : Code (Nat × B64)) k = _
  cases stepCount (B64.div (B64.sub target cur) (stepFirst cur target shift)) <;> rfl

theorem planSteps_of_near (h : B64.le (stepPercent cur target) shift = true) :
    planSteps fromPhy cur target shift = setPlan 1 (B64.sub target cur) := by
  rw [planSteps, percentDiff_eq]
  exact if_pos h

theorem setPlan_apply (k : Nat × B64 → Prog) :
    setPlan n size k = performAll [.setCount .nsteps n, .setReg .ssize size] fun _ => k (n, size) := rfl

/-- The bank once `nsteps` and `ssize` are written. -/
def Core.planned (c : Core) (n : Nat) (size : B64) : Core :=
  { c with dp := { c.dp with nsteps := some (BitVec.ofNat 32 n), ssize := some size } }

/-- The plan takes three actions where there is more than one step. -/
theorem yields_planSteps {k : Nat × B64 → Prog} (hp : stepPlan cur target shift n size)
    (h : ∀ d, (1 < n → d = 3) → (k (n, size)).yields { σ.tick d with core := σ.core.planned n size } Q) :
    (planSteps fromPhy cur target shift k).yields σ Q := by
  rcases hp with ⟨hle, rfl, rfl⟩ | ⟨hle, hz, hlt, hfin, hcount, rfl⟩
  · rw [planSteps_of_near hle, setPlan_apply]
    exact yields_performAll (by simp [Req.isLocal]) (h 2 fun h => absurd h (by decide))
  · rw [planSteps_of_far hle hz]
    refine yields_perform rfl ?_
    rw [show stepCount (B64.div (B64.sub target cur) (stepFirst cur target shift)) = some n from
      stepCount_of_finite hfin hcount hlt]
    have hk := h 3 fun _ => rfl
    rw [← Scene.tick_tick σ 1 2] at hk
    show (setPlan _ _ k).yields _ _
    rw [setPlan_apply]
    exact yields_performAll (by simp [Req.isLocal]) hk

/-! ### `set_pll_clock` -/

/-- What follows the plan: the steps, and the end of a stepping that succeeds (R294). -/
def planned (plat : Platform) (r : StepRun) (cur : B64) : Code Unit := do
  performAll [.setFsm .targetComputed, .setFsm .stepping, .setReg .fi cur]
  stepFrom plat r cur (copyOf true r.view.snapshot) r.nsteps
  perform (.setFreqMod (some r.target))
  perform (.setFsm .done)

theorem setPllClock_badArgument (h : B64.le target B64.zero = true ∨ B64.lt shift B64.zero = true) (k : Unit → Prog) :
    setPllClock plat view target shift wait commit fromPhy k = raiseOrFail fromPhy .invalidArgument k := by
  rw [setPllClock, Code.bind_apply, onlyIf_apply, if_pos (by simpa using h)]
  rfl

theorem setPllClock_badFrequency (ht : B64.le target B64.zero = false) (hs : B64.lt shift B64.zero = false)
    (h : (view.pllClock plat).1 ≠ .ok) (k : Unit → Prog) :
    setPllClock plat view target shift wait commit fromPhy k = raiseOrFail fromPhy (view.pllClock plat).1 k := by
  rw [setPllClock, Code.bind_apply, onlyIf_apply, ht, hs]
  show (onlyIf (decide ((view.pllClock plat).1 ≠ .ok)) _ >>= _) k = _
  rw [Code.bind_apply, onlyIf_apply, if_pos (decide_eq_true h)]
  rfl

theorem setPllClock_notPositive (ht : B64.le target B64.zero = false) (hs : B64.lt shift B64.zero = false)
    (hpll : (view.pllClock plat).1 = .ok) (h : B64.le (view.pllClock plat).2 B64.zero = true) (k : Unit → Prog) :
    setPllClock plat view target shift wait commit fromPhy k = raiseOrFail fromPhy .invalidArgument k := by
  rw [setPllClock, Code.bind_apply, onlyIf_apply, ht, hs]
  show (onlyIf (decide ((view.pllClock plat).1 ≠ .ok)) _ >>= fun _ =>
    onlyIf (B64.le (view.pllClock plat).2 B64.zero) _ >>= _) k = _
  rw [hpll, h]
  rfl

/-- The arguments are good. -/
theorem setPllClock_good (ht : B64.le target B64.zero = false) (hs : B64.lt shift B64.zero = false)
    (hpll : view.pllClock plat = (.ok, cur)) (h : B64.le cur B64.zero = false) (k : Unit → Prog) :
    setPllClock plat view target shift wait commit fromPhy k =
      performAll [.setReg .cur cur, .setReg .tgt target, .setReg .pdiff (stepPercent cur target)] fun _ =>
        planSteps fromPhy cur target shift fun p => planned plat ⟨view, target, p.2, wait, commit, p.1⟩ cur k := by
  rw [setPllClock, Code.bind_apply, onlyIf_apply, ht, hs, hpll]
  show (onlyIf (B64.le cur B64.zero) _ >>= _) k = _
  rw [h]
  rfl

/-- The bank with the frequencies a stepping starts from. -/
def Core.aimed (c : Core) (cur target : B64) : Core :=
  { c with dp := { c.dp with cur := some cur, tgt := some target, pdiff := some (stepPercent cur target) } }

/-- The bank once the first step size is written. -/
def Core.sized (c : Core) (size : B64) : Core := { c with dp := { c.dp with ssize := some size } }

/-- The bank before the first step. -/
def Core.stepping (c : Core) (cur target size : B64) (n : Nat) : Core :=
  let p := (c.aimed cur target).planned n size
  { p with dp := { p.dp with fi := some cur }, fsm := .stepping }

theorem Core.enter_targetComputed {c : Core} (hf : c.fsm = .captured ∨ c.fsm = .done ∨ c.fsm = .targetComputed) :
    c.enter .targetComputed = { c with fsm := .targetComputed } := by
  refine Core.enter_of (Core.mayEnter_iff.2 ?_)
  rcases hf with h | h | h <;> simp [h, stepTransition]

theorem Core.enter_stepping {c : Core} (hf : c.fsm = .captured ∨ c.fsm = .done ∨ c.fsm = .targetComputed) :
    (c.enter .targetComputed).enter .stepping = { c with fsm := .stepping } := by
  rw [Core.enter_targetComputed hf]
  exact Core.enter_of (Core.mayEnter_iff.2 (by simp [stepTransition]))

theorem Scene.didAll_aim (σ : Scene) (cur target : B64) :
    σ.didAll [.setReg .cur cur, .setReg .tgt target, .setReg .pdiff (stepPercent cur target)] =
      { σ.tick 3 with core := σ.core.aimed cur target } := rfl

theorem Scene.didAll_begin (σ : Scene) (cur : B64)
    (hf : σ.core.fsm = .captured ∨ σ.core.fsm = .done ∨ σ.core.fsm = .targetComputed) :
    σ.didAll [.setFsm .targetComputed, .setFsm .stepping, .setReg .fi cur] =
      { σ.tick 3 with core := { σ.core with dp := { σ.core.dp with fi := some cur }, fsm := .stepping } } := by
  have hcore := congrArg (Req.effect (.setReg .fi cur) σ.world.now) (Core.enter_stepping hf)
  exact congrArg (fun c => { σ.tick 3 with core := c }) hcore

/-- A stepping with good arguments comes to its first step: of the atomic actions before it (70_reset_and_hazards.md R433)
there are nine where it has a second one. -/
theorem yields_setPllClock (ht : B64.le target B64.zero = false) (hs : B64.lt shift B64.zero = false)
    (hpll : view.pllClock plat = (.ok, cur)) (hcur : B64.le cur B64.zero = false) (hp : stepPlan cur target shift n size)
    (hf : σ.core.fsm = .captured ∨ σ.core.fsm = .done ∨ σ.core.fsm = .targetComputed) {k : Unit → Prog}
    (h : ∀ d, (1 < n → d = 9) → (stepFrom plat ⟨view, target, size, wait, commit, n⟩ cur (copyOf true view.snapshot) n fun _ =>
        performAll [.setFreqMod (some target), .setFsm .done] k).yields
      { σ.tick d with core := σ.core.stepping cur target size n } Q) :
    (setPllClock plat view target shift wait commit fromPhy k).yields σ Q := by
  rw [setPllClock_good ht hs hpll hcur]
  refine yields_performAll (by simp [Req.isLocal]) ?_
  rw [Scene.didAll_aim]
  refine yields_planSteps hp fun d hd => ?_
  refine yields_performAll (rs := [.setFsm .targetComputed, .setFsm .stepping, .setReg .fi cur])
    (k := fun _ => stepFrom plat ⟨view, target, size, wait, commit, n⟩ cur (copyOf true view.snapshot) n fun _ =>
      performAll [.setFreqMod (some target), .setFsm .done] k) (by simp [Req.isLocal]) ?_
  have hk := h (3 + d + 3) fun hn => by rw [hd hn]
  rw [← Scene.tick_tick, ← Scene.tick_tick] at hk
  rw [Scene.didAll_begin]
  · exact hk
  · exact hf

/-! ### PROGRAM_PHY (R280 to R284) -/

/-- The effective shift and the timer duration (R281, R282). -/
def Core.nudges (c : Core) (eff : B64) (tms : Nat) : Prop :=
  eff = effectiveShift c.arg0 (B64.abs c.arg1) (B64.abs c.arg2) (B64.ofNat c.arg3.toNat) ∧ tms = timerMs c.arg0 eff

theorem effectiveShift_eq (td sh fs thr : B64) : effectiveShift td sh fs thr =
    if B64.eq fs B64.zero = false ∧ B64.le thr (B64.mul (B64.abs td) (B64.ofNat 1000)) = true then fs else sh := by
  simp only [effectiveShift, Bool.and_eq_true, Bool.not_eq_true']

/-- The effective shift is a magnitude. -/
theorem B64.lt_abs_zero (x : B64) : B64.lt (B64.abs x) B64.zero = false := by
  have hlt : B64.mag x < 2 ^ 63 := Nat.mod_lt _ (by decide)
  have hnat : (B64.abs x).toNat = B64.mag x := by
    show ((if False then 2 ^ 63 else 0) + B64.mag x) % 2 ^ 64 = _
    rw [if_neg id, Nat.zero_add, Nat.mod_eq_of_lt (by omega)]
  have hsign : B64.sign (B64.abs x) = false := by
    rw [B64.sign, BitVec.getLsbD, hnat, Nat.testBit_lt_two_pow hlt]
  have hkey : B64.key (B64.abs x) = B64.mag (B64.abs x) := by
    rw [B64.key, hsign, if_neg Bool.false_ne_true]
  have hzero : B64.key B64.zero = 0 := by decide
  rw [B64.lt, hkey, hzero, decide_eq_false (Int.not_lt.2 (Int.natCast_nonneg _)), Bool.and_false]

/-- What follows the values of a PROGRAM_PHY (R284, R285). -/
def nudge (commit reset : Bool) (plat : Platform) (c : Core) (target eff : B64) (tms : Nat) : Code Status := do
  if !commit || tms = 0 then
    perform (.setFsm .done)
    return .ok
  setPllClock plat c target eff c.arg4.toNat true true
  onlyIf reset (perform (.arm tms))
  return .ok

/-- The bank with the first values of a PROGRAM_PHY. -/
def Core.shifted (c : Core) (eff : B64) (tms : Nat) (cur : B64) : Core :=
  { c with dp := { c.dp with
      s := some (B64.abs c.arg1), fs := some (B64.abs c.arg2), eff := some eff, tms := some (BitVec.ofNat 32 tms)
      cur := some cur } }

/-- The bank with all of them. -/
def Core.nudged (c : Core) (eff : B64) (tms : Nat) (cur : B64) : Core :=
  { c with
    dp := { (c.shifted eff tms cur).dp with
      delta := some (nudgeDelta c.arg0 eff cur), tgt := some (B64.add cur (nudgeDelta c.arg0 eff cur)) }
    usedShift := some eff, fsm := .targetComputed }

theorem programPhyCode_apply {c : Core} (h : c.nudges eff tms) (hpll : c.pllClock plat = (st, cur)) (k : Status → Prog) :
    programPhyCode commit reset plat c k =
      performAll [.setReg .s (B64.abs c.arg1), .setReg .fs (B64.abs c.arg2), .setReg .eff eff, .setCount .tms tms,
        .setReg .cur cur] fun _ =>
        if st ≠ .ok then k st
        else if B64.le cur B64.zero = true then k .invalidArgument
        else performAll [.setReg .delta (nudgeDelta c.arg0 eff cur), .setReg .tgt (B64.add cur (nudgeDelta c.arg0 eff cur)),
          .setUsedShift (some eff), .setFsm .targetComputed] fun _ =>
          nudge commit reset plat c (B64.add cur (nudgeDelta c.arg0 eff cur)) eff tms k := by
  obtain ⟨rfl, rfl⟩ := h
  unfold programPhyCode
  rw [hpll]
  simp only [Code.bind_apply, Code.ite_apply, Code.pure_apply, nudge]

theorem Scene.didAll_shift (σ : Scene) (sh fs eff : B64) (tms : Nat) (cur : B64) :
    σ.didAll [.setReg .s sh, .setReg .fs fs, .setReg .eff eff, .setCount .tms tms, .setReg .cur cur] =
      { σ.tick 5 with core := { σ.core with dp := { σ.core.dp with
          s := some sh, fs := some fs, eff := some eff, tms := some (BitVec.ofNat 32 tms), cur := some cur } } } := by
  simp only [Scene.didAll, List.foldl_cons, List.foldl_nil, Req.effect, Datapath.put, Datapath.putCount]
  rfl

/-- The present frequency cannot be had, or is not positive. -/
theorem yields_programPhy_refused (h : σ.core.nudges eff tms) (hpll : σ.core.pllClock plat = (st, cur))
    (hbad : st ≠ .ok ∨ B64.le cur B64.zero = true) (hc : σ.clock = none)
    (hQ : Q (σ.world.ended σ.inst σ.bank (σ.core.shifted eff tms cur) (if st = .ok then .invalidArgument else st))) :
    (programPhyCode commit reset plat σ.core Prog.ending).yields σ Q := by
  rw [programPhyCode_apply h hpll]
  refine yields_performAll (by simp [Req.isLocal]) ?_
  rw [Scene.didAll_shift, Scene.tick_of_none hc]
  by_cases hst : st = .ok
  · rw [if_neg (not_not.2 hst), if_pos (hbad.resolve_left (not_not.2 hst))]
    rw [if_pos hst] at hQ
    exact yields_ending hc hQ
  · rw [if_pos hst]
    rw [if_neg hst] at hQ
    exact yields_ending hc hQ

theorem Scene.didAll_nudge (σ : Scene) (delta : B64) (hf : σ.core.fsm = .captured ∨ σ.core.fsm = .done) :
    σ.didAll [.setReg .delta delta, .setReg .tgt target, .setUsedShift (some eff), .setFsm .targetComputed] =
      { σ.tick 4 with core := { σ.core with
          dp := { σ.core.dp with delta := some delta, tgt := some target }, usedShift := some eff, fsm := .targetComputed } } :=
  congrArg (fun c => { σ.tick 4 with core := c }) (Core.enter_targetComputed
    (c := { σ.core with dp := { σ.core.dp with delta := some delta, tgt := some target }, usedShift := some eff })
    (hf.imp_right .inl))

/-- All values are had: nine atomic actions (70_reset_and_hazards.md R433). -/
theorem yields_programPhy (h : σ.core.nudges eff tms) (hpll : σ.core.pllClock plat = (.ok, cur))
    (hcur : B64.le cur B64.zero = false) (hf : σ.core.fsm = .captured ∨ σ.core.fsm = .done) {k : Status → Prog}
    (hk : (nudge commit reset plat σ.core (B64.add cur (nudgeDelta σ.core.arg0 eff cur)) eff tms k).yields
      { σ.tick 9 with core := σ.core.nudged eff tms cur } Q) :
    (programPhyCode commit reset plat σ.core k).yields σ Q := by
  rw [programPhyCode_apply h hpll]
  refine yields_performAll (by simp [Req.isLocal]) ?_
  rw [Scene.didAll_shift, if_neg (not_not.2 rfl), hcur, if_neg Bool.false_ne_true]
  refine yields_performAll (by simp [Req.isLocal]) ?_
  rw [← Scene.tick_tick σ 5 4] at hk
  rw [Scene.didAll_nudge]
  · exact hk
  · exact hf

theorem nudge_gated (h : commit = false ∨ tms = 0) (k : Status → Prog) :
    nudge commit reset plat c target eff tms k = perform (.setFsm .done) fun _ => k .ok := by
  have hgate : (!commit || decide (tms = 0)) = true := by simpa using h
  rw [nudge, hgate]
  rfl

theorem nudge_committed (h : 0 < tms) (k : Status → Prog) :
    nudge true reset plat c target eff tms k =
      setPllClock plat c target eff c.arg4.toNat true true fun _ => onlyIf reset (perform (.arm tms)) fun _ => k .ok := by
  have hgate : (!true || decide (tms = 0)) = false := by simpa using Nat.ne_of_gt h
  rw [nudge, hgate]
  rfl

/-! ### Acceptance -/

theorem Core.nudges_of {td sh fs : B64} (htd : td = c.arg0) (hsh : sh = B64.abs c.arg1) (hfs : fs = B64.abs c.arg2)
    (heff : eff = if B64.eq fs B64.zero = false ∧
        B64.le (B64.ofNat c.arg3.toNat) (B64.mul (B64.abs td) (B64.ofNat 1000)) = true then fs else sh)
    (htms : tms = if B64.eq eff B64.zero = true then 0
      else B64.clampTo .floor (2 ^ 32 - 1) (B64.div (B64.mul (B64.abs td) (B64.ofNat 100)) eff)) : c.nudges eff tms := by
  subst htd hsh hfs
  exact ⟨heff.trans (effectiveShift_eq _ _ _ _).symm, htms⟩

/-- The same where the effective shift is not 0. -/
theorem Core.nudges_of_ne {td sh fs : B64} (htd : td = c.arg0) (hsh : sh = B64.abs c.arg1) (hfs : fs = B64.abs c.arg2)
    (heff : eff = if B64.eq fs B64.zero = false ∧
        B64.le (B64.ofNat c.arg3.toNat) (B64.mul (B64.abs td) (B64.ofNat 1000)) = true then fs else sh)
    (hz : B64.eq eff B64.zero = false)
    (htms : tms = B64.clampTo .floor (2 ^ 32 - 1) (B64.div (B64.mul (B64.abs td) (B64.ofNat 100)) eff)) : c.nudges eff tms :=
  Core.nudges_of htd hsh hfs heff (by rw [hz, if_neg Bool.false_ne_true]; exact htms)

/-- The effective shift is never below 0. -/
theorem Core.lt_zero_of_nudges (h : c.nudges eff tms) : B64.lt eff B64.zero = false := by
  obtain ⟨rfl, -⟩ := h
  rw [effectiveShift_eq]
  split
  · exact B64.lt_abs_zero _
  · exact B64.lt_abs_zero _

theorem programPhy_entry (hf : b.core.fsm = .captured ∨ b.core.fsm = .done) :
    legalityEntry (.programPhy commit reset) b.core.fsm = some none := by rcases hf with h | h <;> rw [h] <;> rfl

theorem setPllClock_entry (hf : b.core.fsm = .captured ∨ b.core.fsm = .done) :
    legalityEntry (.setPllClock commit) b.core.fsm = some none := by rcases hf with h | h <;> rw [h] <;> rfl

theorem programPhy_operands (h0 : ¬ notFinite c.arg0) (h1 : ¬ notFinite c.arg1) (h2 : ¬ notFinite c.arg2) :
    ¬ badOperand plat (.programPhy commit reset) c := by
  rintro (h | h | h)
  exacts [h0 h, h1 h, h2 h]

theorem setPllClock_operands (h0 : ¬ notFinite c.arg0) (h1 : ¬ notFinite c.arg1) :
    ¬ badOperand plat (.setPllClock commit) c := by
  rintro (h | h)
  exacts [h0 h, h1 h]

/-- Settles O39: the frequency is refused, or the values are written and the command is over. -/
theorem programPhyGated : Obligations.ProgramPhyGated := by
  intro s b commit reset td sh fs eff cur st tms hb hq hf htd h0 h1 h2 hsh hfs heff htms hpll
  have hn := Core.nudges_of htd hsh hfs heff htms
  have ho : ¬ badOperand s.plat (.programPhy commit reset) b.core := programPhy_operands h0 h1 h2
  subst htd hsh hfs
  refine ⟨fun hbad => ?_, ?_⟩
  · exact exec_eq_of_yields hb hq (programPhy_entry hf) ho
      (yields_programPhy_refused (σ := Scene.start s b) hn hpll.symm hbad rfl rfl)
  · rintro rfl hcur hgate delta rfl
    refine exec_eq_of_yields hb hq (programPhy_entry hf) ho
      (yields_programPhy (σ := Scene.start s b) hn hpll.symm hcur hf ?_)
    rw [nudge_gated hgate]
    refine yields_perform rfl (yields_ending rfl ?_)
    exact congrArg (fun c => s.ended s.cur b c .ok) (Core.enter_done (c := b.core.nudged eff tms cur) (.inr (.inr (.inr rfl))))

/-! ### Arguments that are refused (R271, R276, R291, R292) -/

theorem exec_setPllClock_of_yields (hb : s.banks[s.cur]? = some b) (hq : s.quiet)
    (hf : b.core.fsm = .captured ∨ b.core.fsm = .done) (h0 : ¬ notFinite b.core.arg0) (h1 : ¬ notFinite b.core.arg1)
    (h : (setPllClock s.plat b.core b.core.arg0 b.core.arg1 b.core.arg2.toNat commit false fun _ => Prog.ending .ok).yields
      (Scene.start s b) (· = t)) : exec (.setPllClock commit) s = .next t :=
  exec_eq_of_yields hb hq (setPllClock_entry hf) (setPllClock_operands h0 h1) h

/-- A shift of 0 that has to make steps, and too many steps. -/
theorem yields_setPllClock_refused (ht : B64.le target B64.zero = false) (hs : B64.lt shift B64.zero = false)
    (hpll : view.pllClock plat = (.ok, cur)) (hcur : B64.le cur B64.zero = false)
    (hfar : B64.le (stepPercent cur target) shift = false) (hc : σ.clock = none) {k : Unit → Prog} {c : Core}
    (hbad : (B64.eq shift B64.zero = true ∧ c = σ.core.aimed cur target) ∨
      (B64.eq shift B64.zero = false ∧ tooManySteps (B64.div (B64.sub target cur) (stepFirst cur target shift)) ∧
        c = (σ.core.aimed cur target).sized (stepFirst cur target shift)))
    (hQ : Q (σ.world.ended σ.inst σ.bank (if fromPhy then c.enter .done else c) .invalidArgument)) :
    (setPllClock plat view target shift wait commit fromPhy k).yields σ Q := by
  rw [setPllClock_good ht hs hpll hcur]
  refine yields_performAll (by simp [Req.isLocal]) ?_
  rw [Scene.didAll_aim, Scene.tick_of_none hc]
  rcases hbad with ⟨hz, rfl⟩ | ⟨hz, hmany, rfl⟩
  · rw [planSteps, percentDiff_eq, hfar, if_neg Bool.false_ne_true, Code.bind_apply, onlyIf_apply, hz, if_pos rfl]
    exact yields_raiseOrFail hc hQ
  · rw [planSteps_of_far hfar hz]
    refine yields_perform rfl ?_
    rw [stepCount_of_tooMany hmany]
    exact yields_raiseOrFail (σ := Scene.did _ _) (Scene.tick_clock hc 1) hQ

theorem selector?_of_none {id : Nat} (h : id = 0 ∨ ∀ x ∈ plat.selectors, x.id ≠ id) : plat.selector? id = none := by
  rw [Platform.selector?]
  split
  · rfl
  · next hne => exact List.find?_eq_none.2 fun x hx => by simpa using h.resolve_left hne x hx

/-- A command whose rule refuses its argument, whether or not the operand check refuses it before. -/
theorem exec_of_invalidArgument (hb : s.banks[s.cur]? = some b) (hq : s.quiet) (hl : legalityEntry i b.core.fsm = some none)
    (hc : codeOf i s.plat b.core = pure .invalidArgument) : exec i s = .next (s.ended s.cur b b.core .invalidArgument) := by
  by_cases ho : badOperand s.plat i b.core
  · exact operandChecks s b i hb hq hl ho
  · exact exec_of_pure hb hq hl ho hc

/-- Settles O22: each check in the order of the pseudocode. -/
theorem argumentChecks : Obligations.ArgumentChecks := by
  intro s b hb hq
  refine ⟨fun hf hid => exec_construct_unknown hb hq hf (selector?_of_none (hid.imp_left fun h => by rw [h]; rfl)),
    fun hl h3 => exec_of_invalidArgument hb hq hl (if_pos (by rw [h3]; decide)),
    fun hf hle => exec_of_invalidArgument hb hq (by rcases hf with h | h <;> rw [h] <;> rfl) (if_pos hle),
    fun commit hf h0 h1 => ⟨fun hbad => ?_, fun ht hs hpll => ?_, ?_, ?_⟩⟩
  · refine exec_setPllClock_of_yields hb hq hf h0 h1 ?_
    by_cases harg : B64.le b.core.arg0 B64.zero = true ∨ B64.lt b.core.arg1 B64.zero = true
    · rw [setPllClock_badArgument harg]
      exact yields_raiseOrFail rfl rfl
    · obtain ⟨ht, hs⟩ := not_or.1 harg
      obtain ⟨hpll, hcur⟩ := (hbad.resolve_left ht).resolve_left hs
      rw [setPllClock_notPositive (Bool.eq_false_iff.2 ht) (Bool.eq_false_iff.2 hs) hpll hcur]
      exact yields_raiseOrFail rfl rfl
  · refine exec_setPllClock_of_yields hb hq hf h0 h1 ?_
    rw [setPllClock_badFrequency ht hs hpll]
    exact yields_raiseOrFail rfl rfl
  · rintro target shift cur first dp rfl rfl ht hs hpll hcur hfar rfl
    refine ⟨fun hz => ?_, fun hz hfirst hmany => ?_⟩ <;> refine exec_setPllClock_of_yields hb hq hf h0 h1 ?_
    · exact yields_setPllClock_refused ht hs hpll hcur hfar rfl (.inl ⟨hz, rfl⟩) rfl
    · subst hfirst
      exact yields_setPllClock_refused ht hs hpll hcur hfar rfl (.inr ⟨hz, hmany, rfl⟩) rfl
  · rintro td sh fs eff cur target first tms dp h2 htd hsh hfs heff hz htms hpos hpll hcur htarget rfl
    have hn := Core.nudges_of_ne htd hsh hfs heff hz htms
    subst htd hsh hfs htarget
    have hstart {t : State} (h : (setPllClock s.plat b.core (B64.add cur (nudgeDelta b.core.arg0 eff cur)) eff b.core.arg4.toNat
        true true fun _ => onlyIf commit (perform (.arm tms)) fun _ => Prog.ending .ok).yields
          { Scene.start s b with core := b.core.nudged eff tms cur } (· = t)) :
        exec (.programPhy true commit) s = .next t :=
      exec_eq_of_yields hb hq (programPhy_entry hf) (programPhy_operands h0 h1 h2)
        (yields_programPhy (σ := Scene.start s b) hn hpll hcur hf (by rw [nudge_committed hpos]; exact h))
    refine ⟨fun ht => hstart ?_, fun ht hfar hfirst hmany => hstart ?_⟩
    · rw [setPllClock_badArgument (.inl ht)]
      refine yields_raiseOrFail rfl ?_
      exact congrArg (fun c => s.ended s.cur b c .invalidArgument)
        (Core.enter_done (c := b.core.nudged eff tms cur) (.inr (.inr (.inr rfl))))
    · subst hfirst
      refine yields_setPllClock_refused ht (Core.lt_zero_of_nudges hn) hpll hcur hfar rfl (.inr ⟨hz, hmany, rfl⟩) ?_
      exact congrArg (fun c => s.ended s.cur b c .invalidArgument)
        (Core.enter_done (c := ((b.core.nudged eff tms cur).aimed cur _).sized _) (.inr (.inr (.inr rfl))))

end Sys2Proof.Machine
end

section
/-! The steps of a stepping (42_stepping_controller.md R291 step 4, R294, R295): one step, several in a row, and all of them. -/

namespace Sys2Proof.Machine

variable {s t u : State} {b : Bank} {i : Instr} {Q : State → Prop} {σ : Scene} {plat : Platform} {x : Selector} {ss : List Slot}
  {r : StepRun} {fi f : B64} {mods mods' : List Word} {left : Nat} {st : Status} {k : Unit → Prog} {c20 : Option C20Cache}

/-! ### The inverse: how many words it writes (R203) -/

/-- The writes of `mod` of an inverse that does not fail. -/
def invWrites (x : Selector) : Nat :=
  match x.layout with
  | .combo _ | .c10 _ | .c20 _ => 2
  | .dkl l => 2 + (l.aux.map fun a => (dklSlotsOf l a.reg).length).sum
  | .dpmn _ => 1

theorem forceAux_length (l : DklLayout) (ms : List Word) (aux : List AuxField) :
    (forceAux l ms aux).length = (aux.map fun a => (dklSlotsOf l a.reg).length).sum := by
  induction aux generalizing ms with
  | nil => rfl
  | cons a rest ih => rw [forceAux_cons, List.length_append, ih, auxPuts, List.length_map, List.map_cons, List.sum_cons]

theorem invPuts_length (h : (invPuts plat (some x) c20 mods f).1 = .ok) :
    (invPuts plat (some x) c20 mods f).2.length = invWrites x := by
  unfold invWrites
  cases hx : x.layout with
  | combo l =>
    rw [invPuts_of_combo hx]
    rfl
  | dkl l =>
    rw [invPuts_of_dkl hx, invDkl] at h ⊢
    split at h
    · cases h
    · next hp =>
      rw [if_neg hp]
      simp only [List.length_append, forceAux_length, List.length_cons, List.length_nil]
  | c10 l =>
    rw [invPuts_of_c10 hx, invC10] at h ⊢
    split at h
    · cases h
    · next hd =>
      rw [if_neg hd]
      rfl
  | c20 l =>
    cases c20 with
    | none =>
      rw [invPuts_of_c20_none hx] at h
      cases h
    | some c =>
      rw [invPuts_of_c20 c hx, invC20] at h ⊢
      split at h
      · cases h
      · next he =>
        split at h
        · cases h
        · next hr =>
          rw [if_neg he, if_neg hr]
          rfl
  | dpmn l =>
    rw [invPuts_of_dpmn hx]
    rfl

/-- Whether an inverse fails does not depend on its target. -/
theorem invPuts_status (f f' : B64) : (invPuts plat (some x) c20 mods f).1 = (invPuts plat (some x) c20 mods f').1 := by
  cases hx : x.layout with
  | combo l => rw [invPuts_of_combo hx, invPuts_of_combo hx]
  | dkl l =>
    rw [invPuts_of_dkl hx, invPuts_of_dkl hx, invDkl, invDkl]
    split <;> rfl
  | c10 l =>
    rw [invPuts_of_c10 hx, invPuts_of_c10 hx, invC10, invC10]
    split <;> rfl
  | c20 l =>
    cases c20 with
    | none => rw [invPuts_of_c20_none hx, invPuts_of_c20_none hx]
    | some c =>
      rw [invPuts_of_c20 c hx, invPuts_of_c20 c hx, invC20, invC20]
      split
      · rfl
      · split <;> rfl
  | dpmn l => rw [invPuts_of_dpmn hx, invPuts_of_dpmn hx]

/-! ### One step, up to its writes -/

/-- The bank in step `j`. -/
def Core.inStep (c : Core) (j : Nat) (f : B64) (ss : List Slot) : Core :=
  { c with dp := { c.dp with istep := some (BitVec.ofNat 32 j), fi := some f }, slots := some ss }

/-- What a step does once its inverse has given a status and a copy. -/
def stepRest (plat : Platform) (r : StepRun) (f : B64) (mods : List Word) (st : Status) (left : Nat) : Code Unit := do
  onlyIf (st ≠ .ok) (fail st)
  onlyIf r.commit (commitStep plat r mods)
  onlyIf (left ≠ 0) (sleepMs r.wait)
  stepFrom plat r f mods left

theorem stepFrom_succ (hf : f = if left = 0 then r.target else B64.add fi r.ssize) :
    stepFrom plat r fi mods (left + 1) k =
      perform (.setCount .istep (r.nsteps - left)) fun _ => sampleShutdown fun down =>
        if down then cancelStepping plat r.view k
        else perform (.setReg .fi f) fun _ => writeMod (invPuts plat r.view.sel r.view.c20.cache? mods f).2 fun _ =>
          stepRest plat r f (invV plat r.view.sel r.view.c20.cache? mods f).2
            (invV plat r.view.sel r.view.c20.cache? mods f).1 left k := by
  subst hf
  rw [stepFrom.eq_2]
  refine congrArg (perform _) (funext fun _ => congrArg sampleShutdown (funext fun down => ?_))
  cases down <;> rfl

theorem yields_writeMod {puts : List (Nat × Word)} (hslots : σ.core.slots = some (withMods ss mods))
    (hlen : mods.length = ss.length) (h : (k ()).yields
      { σ.tick puts.length with core := { σ.core with slots := some (withMods ss (applyPuts mods puts)) } } Q) :
    (writeMod puts k).yields σ Q := by
  have hlocal : ∀ q ∈ puts.map fun p => Req.setMod p.1 p.2, q.isLocal = true := by
    rintro q hq
    obtain ⟨p, -, rfl⟩ := List.mem_map.1 hq
    rfl
  refine yields_performAll hlocal ?_
  rw [Scene.didAll, foldl_setMod σ.world.now puts hslots hlen, List.length_map]
  exact h

/-- A step whose sample of `shutdown` is 0 comes to what its inverse gives. -/
theorem yields_stepFrom (hdown : (σ.tick 1).down = false) (hslots : σ.core.slots = some (withMods ss mods))
    (hlen : mods.length = ss.length) (hf : f = if left = 0 then r.target else B64.add fi r.ssize)
    (hi : invV plat r.view.sel r.view.c20.cache? mods f = (st, mods'))
    (h : (stepRest plat r f mods' st left k).yields
      { σ.tick (3 + (invPuts plat r.view.sel r.view.c20.cache? mods f).2.length) with
        core := σ.core.inStep (r.nsteps - left) f (withMods ss mods') } Q) :
    (stepFrom plat r fi mods (left + 1) k).yields σ Q := by
  rw [stepFrom_succ hf, hi]
  refine yields_perform rfl (yields_sampleShutdown ?_)
  rw [show Scene.down (σ.did _) = false from hdown, if_neg Bool.false_ne_true]
  refine yields_perform rfl (yields_writeMod (ss := ss) hslots hlen ?_)
  obtain ⟨-, rfl⟩ := Prod.mk.inj hi
  rw [← Scene.tick_tick, ← Scene.tick_tick σ 2 1, ← Scene.tick_tick σ 1 1] at h
  exact h

/-! ### A step that succeeds -/

/-- The point before a step, with all that the steps after it need: the snapshot and its `mod` copy, the intermediate
frequency, hardware that takes the copies if they are programmed, and no `shutdown` so far. -/
structure Scene.atStep (σ : Scene) (plat : Platform) (r : StepRun) (x : Selector) (ss : List Slot) (fi : B64) (mods : List Word) :
    Prop where
  plat_eq : σ.world.plat = plat
  sel : r.view.sel = some x
  snapshot : r.view.snapshot = ss
  up : σ.world.shutdown = false
  writable : r.commit = true → Writable σ.world x ss
  clock : σ.clock = none ∨ (r.commit = true → onMmio x = true)
  slots : σ.core.slots = some (withMods ss mods)
  length : mods.length = ss.length
  fi_eq : σ.core.dp.fi = some fi
  fsm : σ.core.fsm = .stepping

/-- What one step does beside the bank: the copy is programmed, or nothing happens. -/
def State.stepsTo (u : State) (commit : Bool) (x : Selector) (ss : List Slot) (mods : List Word) (t : State) : Prop :=
  if commit then (u.programmed x (slotWrites x ss mods)).wrote x (mmioRecords (slotWrites x ss mods)) t ∧ Writable t x ss
  else t = u

theorem State.stepsTo.keeps {commit : Bool} (h : u.stepsTo commit x ss mods t) :
    t.banks = u.banks ∧ t.shutdown = u.shutdown ∧ t.plat = u.plat := by
  cases commit with
  | false =>
    cases (show t = u from h)
    exact ⟨rfl, rfl, rfl⟩
  | true =>
    obtain ⟨hwrote, -⟩ := (show _ ∧ _ from h)
    obtain ⟨hbanks, hup, hplat, -⟩ := State.wrote_core hwrote
    exact ⟨hbanks, hup, hplat⟩

theorem State.stepsTo.writable (h : u.stepsTo true x ss mods t) : Writable t x ss := (show _ ∧ _ from h).2

/-- The number of words a copy is programmed with depends on the snapshot only. -/
theorem slotWrites_length (h : mods.length = ss.length) (x : Selector) :
    (slotWrites x ss mods).length = (slotWrites x ss (ss.map (·.orig))).length := by
  unfold slotWrites
  cases x.layout <;> simp [h]

/-- The atomic actions of one step (70_reset_and_hazards.md R433). -/
def StepRun.actions (r : StepRun) (x : Selector) (ss : List Slot) : Nat :=
  3 + invWrites x + if r.commit then (slotWrites x ss (ss.map (·.orig))).length + 1 else 0

/-- The point after a step. -/
def Scene.stepped (σ : Scene) (r : StepRun) (x : Selector) (ss : List Slot) (left : Nat) (f : B64) (mods : List Word)
    (t : State) : Scene :=
  { σ.tick (r.actions x ss) with
    world := t
    core := { σ.core.inStep (r.nsteps - left) f (withMods ss mods) with appliedMod := r.commit || σ.core.appliedMod } }

theorem Scene.down_false (hs : σ.world.shutdown = false) (h : ∀ m, σ.clock = some m → 2 < m) : (σ.tick 1).down = false := by
  cases hc : σ.clock with
  | none =>
    rw [Scene.down, Scene.tick, hc]
    exact hs
  | some m =>
    have hm := h m hc
    rw [Scene.down, Scene.tick, hc]
    show ((some (m - 1 - 1) == some 0) || σ.world.shutdown) = false
    rw [hs, Bool.or_false, beq_eq_false_iff_ne, ne_eq, Option.some.injEq]
    omega

theorem Scene.tick_clock_or {p : Prop} (h : σ.clock = none ∨ p) (k : Nat) : (σ.tick k).clock = none ∨ p :=
  h.imp_left fun hc => Scene.tick_clock hc k

theorem Scene.atStep.next (h : σ.atStep plat r x ss fi mods) (hlen : mods'.length = ss.length)
    (ht : σ.world.stepsTo r.commit x ss mods' t) : (σ.stepped r x ss left f mods' t).atStep plat r x ss f mods' := by
  obtain ⟨-, hup, hplat⟩ := ht.keeps
  exact
    { plat_eq := hplat.trans h.plat_eq
      sel := h.sel
      snapshot := h.snapshot
      up := hup.trans h.up
      writable := fun hc => by
        rw [hc] at ht
        exact ht.writable
      clock := Scene.tick_clock_or h.clock _
      slots := rfl
      length := hlen
      fi_eq := rfl
      fsm := h.fsm }

/-- The commit of a step, on hardware that takes the copy. -/
theorem yields_commitStep {k : Unit → Prog} (hW : Writable σ.world x ss) (hc : σ.clock = none ∨ onMmio x = true)
    (hsel : r.view.sel = some x) (hsn : r.view.snapshot = ss)
    (h : ∀ t, σ.world.stepsTo true x ss mods t → (k ()).yields
      { σ.tick ((slotWrites x ss mods).length + 1) with world := t, core := { σ.core with appliedMod := true } } Q) :
    (commitStep σ.world.plat r mods k).yields σ Q := by
  rw [commitStep, Code.bind_apply, hsel, hsn]
  refine yields_writeV hW hc fun t hwrote ht => yields_perform (r := .setApplied true) (k := k) rfl ?_
  have hk := h t ⟨hwrote, ht⟩
  rw [← Scene.tick_tick] at hk
  exact hk

/-- A step that succeeds comes to the sleep after it. -/
theorem yields_step (h : σ.atStep plat r x ss fi mods) (hclk : ∀ m, σ.clock = some m → 2 < m)
    (hf : f = if left = 0 then r.target else B64.add fi r.ssize)
    (hi : invV plat (some x) r.view.c20.cache? mods f = (.ok, mods'))
    (hk : ∀ t, σ.world.stepsTo r.commit x ss mods' t → (σ.stepped r x ss left f mods' t).atStep plat r x ss f mods' →
      ((do onlyIf (left ≠ 0) (sleepMs r.wait); stepFrom plat r f mods' left : Code Unit) k).yields
        (σ.stepped r x ss left f mods' t) Q) :
    (stepFrom plat r fi mods (left + 1) k).yields σ Q := by
  have hlen : mods'.length = ss.length := by
    rw [← h.length, ← invV_length plat (some x) r.view.c20.cache? mods f, hi]
  rw [← h.sel] at hi
  have hputs : (invPuts plat r.view.sel r.view.c20.cache? mods f).2.length = invWrites x := by
    rw [h.sel]
    refine invPuts_length ?_
    rw [← h.sel]
    exact congrArg Prod.fst hi
  refine yields_stepFrom (Scene.down_false h.up hclk) h.slots h.length hf hi ?_
  rw [hputs]
  have hskip : stepRest plat r f mods' .ok left k = onlyIf r.commit (commitStep plat r mods')
      fun _ => (do onlyIf (left ≠ 0) (sleepMs r.wait); stepFrom plat r f mods' left : Code Unit) k := rfl
  rw [hskip, onlyIf_apply]
  cases hcommit : r.commit with
  | false =>
    have ht : σ.world.stepsTo r.commit x ss mods' σ.world := by
      rw [hcommit]
      rfl
    have hk := hk _ ht (h.next hlen ht)
    rw [Scene.stepped, StepRun.actions, hcommit] at hk
    exact hk
  | true =>
    rw [if_pos rfl, ← h.plat_eq]
    refine yields_commitStep (h.writable hcommit) (Scene.tick_clock_or (h.clock.imp_right (· hcommit)) _) h.sel h.snapshot
      fun t ht => ?_
    have ht' : σ.world.stepsTo r.commit x ss mods' t := by
      rw [hcommit]
      exact ht
    have hk := hk t ht' (h.next hlen ht')
    rw [Scene.stepped, StepRun.actions, hcommit, if_pos rfl, ← slotWrites_length hlen x, ← Scene.tick_tick] at hk
    rw [h.plat_eq]
    exact hk

/-! ### Several steps, each followed by a sleep -/

/-- What steps with a sleep after each do beside the bank. -/
def State.sweeps (u : State) (commit : Bool) (x : Selector) (ss : List Slot) (us : Time) (copies : List (List Word)) (t : State) :
    Prop :=
  if commit then
    ((copies.foldl (fun (u : State) ms => u.programmed x (slotWrites x ss ms)) u).later (copies.length * us)).wrote x
      (copies.map fun ms => mmioRecords (slotWrites x ss ms) ++ [Record.sleep us]).flatten t
  else t = (u.later (copies.length * us)).traced (List.replicate copies.length (.sleep us))

theorem State.later_later (u : State) (d e : Time) : (u.later d).later e = u.later (d + e) :=
  congrArg (fun now => ({ u with now := now } : State)) (Nat.add_assoc ..)

theorem Writable.stored (h : Writable u x ss) : onMmio x = true ∨ u.mmio.wf = true := by
  cases hm : onMmio x with
  | true => exact .inl rfl
  | false => exact .inr (h.lanes hm).store.1

theorem State.sweeps_nil {commit : Bool} (us : Time) (hW : commit = true → Writable u x ss) : u.sweeps commit x ss us [] u := by
  cases commit with
  | false => rw [State.sweeps, List.length_nil, Nat.zero_mul]; rfl
  | true =>
    rw [State.sweeps, if_pos rfl, List.length_nil, Nat.zero_mul]
    exact State.wrote_refl (hW rfl).stored

theorem State.sweeps_cons {commit : Bool} {us : Time} {copies : List (List Word)} {v : State}
    (h : u.stepsTo commit x ss mods t) (h' : (t.sleep us).sweeps commit x ss us copies v) :
    u.sweeps commit x ss us (mods :: copies) v := by
  unfold State.sweeps at h' ⊢
  have htime : us + copies.length * us = (mods :: copies).length * us := by rw [List.length_cons, Nat.succ_mul, Nat.add_comm]
  cases commit with
  | false =>
    cases (show t = u from h)
    have htrace : List.replicate copies.length (Record.sleep us) ++ Record.sleep us :: t.trace =
        List.replicate (mods :: copies).length (.sleep us) ++ t.trace := by
      rw [List.length_cons, List.replicate_succ', List.append_assoc, List.singleton_append]
    rw [if_neg Bool.false_ne_true] at h' ⊢
    rw [h', ← htime, ← State.later_later]
    exact congrArg (fun tr => ({ (t.later us).later (copies.length * us) with trace := tr } : State)) htrace
  | true =>
    obtain ⟨hwrote, -⟩ := (show _ ∧ _ from h)
    rw [if_pos rfl] at h' ⊢
    have hlift := State.wrote_later (State.wrote_foldl (State.wrote_sleep hwrote us) (copies.map fun ms => slotWrites x ss ms))
      (copies.length * us)
    rw [State.later_foldl_programmed, State.later_later, htime, List.foldl_map, List.foldl_map] at hlift
    exact State.wrote_trans hlift h'

/-- The point after `j` such steps. -/
def Scene.swept (σ : Scene) (r : StepRun) (x : Selector) (ss : List Slot) (j : Nat) (e : Option (BitVec 32)) (f : B64)
    (mods : List Word) (t : State) : Scene :=
  { σ.tick (j * r.actions x ss) with
    world := t
    core := { σ.core with
      dp := { σ.core.dp with istep := e, fi := some f }
      slots := some (withMods ss mods), appliedMod := (r.commit && decide (0 < j)) || σ.core.appliedMod } }

theorem Scene.swept_clock (hc : σ.clock = none) (j : Nat) (e : Option (BitVec 32)) (f : B64) (mods : List Word) (t : State) :
    (σ.swept r x ss j e f mods t).clock = none := Scene.tick_clock hc _

/-- The point after a step and the sleep. -/
def Scene.slept (σ : Scene) (d : Time) : Scene := { σ with world := σ.world.sleep d }

theorem Scene.atStep.slept (h : σ.atStep plat r x ss fi mods) (d : Time) : (σ.slept d).atStep plat r x ss fi mods :=
  { h with
    plat_eq := h.plat_eq
    up := h.up
    writable := fun hc => (h.writable hc).sleep d }

theorem Scene.swept_zero (h : σ.atStep plat r x ss fi mods) : σ.swept r x ss 0 σ.core.dp.istep fi mods σ.world = σ := by
  obtain ⟨n, b, w, c, clock⟩ := σ
  have hslots : c.slots = some (withMods ss mods) := h.slots
  have hfi : c.dp.fi = some fi := h.fi_eq
  rw [Scene.swept, Nat.zero_mul, Scene.tick_zero, ← hslots, ← hfi, decide_eq_false (Nat.lt_irrefl 0), Bool.and_false,
    Bool.false_or]

theorem Scene.swept_succ (σ : Scene) (us : Time) (t v : State) (j n : Nat) (e : Option (BitVec 32)) (f' : B64)
    (last : List Word) :
    ((σ.stepped r x ss n f mods t).slept us).swept r x ss j e f' last v = σ.swept r x ss (j + 1) e f' last v := by
  have happlied : ((r.commit && decide (0 < j)) || (r.commit || σ.core.appliedMod)) =
      ((r.commit && decide (0 < j + 1)) || σ.core.appliedMod) := by
    rw [decide_eq_true (Nat.succ_pos j)]
    cases r.commit <;> simp
  have htick : (σ.tick (r.actions x ss)).tick (j * r.actions x ss) = σ.tick ((j + 1) * r.actions x ss) := by
    rw [Scene.tick_tick, Nat.succ_mul, Nat.add_comm]
  unfold Scene.swept
  rw [← htick, ← happlied]
  rfl

theorem three_le_actions (r : StepRun) (x : Selector) (ss : List Slot) : 3 ≤ r.actions x ss := by
  unfold StepRun.actions
  omega

/-- Steps that succeed come to the next one. -/
theorem yields_steps (hleft : 0 < left) (j : Nat) {copies : List (List Word)} (h : σ.atStep plat r x ss fi mods)
    (hclk : ∀ m, σ.clock = some m → j * r.actions x ss + 2 < m + r.actions x ss)
    (hcopies : stepCopies plat (some x) r.view.c20.cache? mods ((stepTargets r.target r.ssize fi (j + left)).take j) =
      some copies)
    (hk : ∀ t e f last, f = ((stepTargets r.target r.ssize fi (j + left)).take j).getLastD fi → last = copies.getLastD mods →
      σ.world.sweeps r.commit x ss (r.wait * 1000) copies t → (σ.swept r x ss j e f last t).atStep plat r x ss f last →
      (stepFrom plat r f last left k).yields (σ.swept r x ss j e f last t) Q) :
    (stepFrom plat r fi mods (j + left) k).yields σ Q := by
  induction j generalizing σ fi mods copies with
  | zero =>
    rw [List.take_zero, stepCopies, Option.some.injEq] at hcopies
    subst hcopies
    have hend := hk σ.world σ.core.dp.istep fi mods rfl rfl (State.sweeps_nil _ h.writable)
    rw [Scene.swept_zero h] at hend
    rw [Nat.zero_add]
    exact hend h
  | succ j ih =>
    obtain ⟨n, rfl⟩ : ∃ n, left = n + 1 := ⟨left - 1, by omega⟩
    rw [show j + 1 + (n + 1) = (j + n) + 2 by omega, stepTargets, List.take_succ_cons, stepCopies] at hcopies
    split at hcopies
    · next mods' hinv =>
      obtain ⟨rest, hrest, rfl⟩ := Option.map_eq_some_iff.1 hcopies
      rw [show j + 1 + (n + 1) = (j + (n + 1)) + 1 by omega]
      have h3 := three_le_actions r x ss
      rw [Nat.succ_mul] at hclk
      refine yields_step h (fun m hm => by have := hclk m hm; omega) (if_neg (by omega)).symm hinv fun t ht hnext => ?_
      rw [Code.bind_apply, onlyIf_apply, decide_eq_true (show j + (n + 1) ≠ 0 by omega), if_pos rfl]
      refine yields_sleepMs (ih (σ := (σ.stepped r x ss _ _ mods' t).slept (r.wait * 1000)) (hnext.slept _) ?_ hrest
        fun v e f last hf hlast hv hat => ?_)
      · intro m hm
        obtain ⟨m', hm', rfl⟩ := Option.map_eq_some_iff.1 (show σ.clock.map (· - r.actions x ss) = some m from hm)
        have := hclk m' hm'
        rcases j with _ | j
        · omega
        · rw [Nat.succ_mul] at this ⊢
          omega
      · rw [Scene.swept_succ] at hat ⊢
        refine hk v e f last ?_ ?_ (State.sweeps_cons ht hv) hat
        · rw [hf, show j + 1 + (n + 1) = (j + n) + 2 by omega, stepTargets, List.take_succ_cons, List.getLastD_cons]
          rfl
        · rw [hlast, List.getLastD_cons]
    · cases hcopies

/-! ### All steps (R294, R295) -/

theorem stepTargets_length (target size : B64) (n : Nat) : (stepTargets target size f n).length = n := by
  induction n generalizing f with
  | zero => rfl
  | succ n ih =>
    cases n with
    | zero => rfl
    | succ n => rw [stepTargets, List.length_cons, ih]

/-- The last intermediate frequency is the target. -/
theorem stepTargets_succ (target size : B64) (j : Nat) :
    stepTargets target size f (j + 1) = (stepTargets target size f (j + 1)).take j ++ [target] := by
  induction j generalizing f with
  | zero => rfl
  | succ j ih =>
    rw [stepTargets, List.take_succ_cons, List.cons_append]
    exact congrArg (_ :: ·) ih

theorem stepCopies_length {fs : List B64} {copies : List (List Word)} (h : stepCopies plat (some x) c20 mods fs = some copies) :
    copies.length = fs.length := by
  induction fs generalizing mods copies with
  | nil =>
    cases h
    rfl
  | cons f fs ih =>
    rw [stepCopies] at h
    split at h
    · obtain ⟨rest, hrest, rfl⟩ := Option.map_eq_some_iff.1 h
      rw [List.length_cons, List.length_cons, ih hrest]
    · cases h

/-- The copies before the last, and the inverse that gives the last. -/
theorem stepCopies_concat {fs : List B64} {copies : List (List Word)}
    (h : stepCopies plat (some x) c20 mods (fs ++ [f]) = some copies) :
    ∃ cs last, stepCopies plat (some x) c20 mods fs = some cs ∧ invV plat (some x) c20 (cs.getLastD mods) f = (.ok, last) ∧
      copies = cs ++ [last] := by
  induction fs generalizing mods copies with
  | nil =>
    rw [List.nil_append, stepCopies] at h
    split at h
    · next last hinv =>
      cases h
      exact ⟨[], last, rfl, hinv, rfl⟩
    · cases h
  | cons g fs ih =>
    rw [List.cons_append, stepCopies] at h
    split at h
    · next mods' hinv =>
      obtain ⟨rest, hrest, rfl⟩ := Option.map_eq_some_iff.1 h
      obtain ⟨cs, last, hcs, hlast, rfl⟩ := ih hrest
      refine ⟨mods' :: cs, last, ?_, by rwa [List.getLastD_cons], rfl⟩
      rw [stepCopies, hinv]
      exact congrArg (Option.map _) hcs
    · cases h

theorem stepRecords_concat (us : Time) (l : List (List (Nat × Word))) (ws : List (Nat × Word)) :
    stepRecords us (l ++ [ws]) = (l.map fun ws => mmioRecords ws ++ [Record.sleep us]).flatten ++ mmioRecords ws := by
  induction l with
  | nil => rfl
  | cons w l ih =>
    rw [List.map_cons, List.flatten_cons, List.append_assoc, ← ih, List.append_assoc]
    cases l <;> rfl

/-- What all the steps of a stepping do beside the bank: a sleep between two steps, none after the last. -/
def State.completes (u : State) (commit : Bool) (x : Selector) (ss : List Slot) (us : Time) (copies : List (List Word))
    (t : State) : Prop :=
  if commit then
    ((copies.foldl (fun (u : State) ms => u.programmed x (slotWrites x ss ms)) u).later ((copies.length - 1) * us)).wrote x
      (stepRecords us (copies.map fun ms => slotWrites x ss ms)) t
  else t = (u.later ((copies.length - 1) * us)).traced (List.replicate (copies.length - 1) (.sleep us))

theorem State.completes_of_sweeps {commit : Bool} {us : Time} {copies : List (List Word)} {v : State}
    (h : u.sweeps commit x ss us copies t) (h' : t.stepsTo commit x ss mods v) :
    u.completes commit x ss us (copies ++ [mods]) v := by
  unfold State.sweeps at h
  unfold State.completes
  rw [List.length_append, List.length_singleton, Nat.add_sub_cancel]
  cases commit with
  | false =>
    cases (show v = t from h')
    exact h
  | true =>
    obtain ⟨hwrote, -⟩ := (show _ ∧ _ from h')
    rw [if_pos rfl] at h ⊢
    have hall := State.wrote_more h hwrote
    rw [State.later_programmed] at hall
    rw [List.foldl_append, List.map_append, List.map_singleton, stepRecords_concat, List.map_map]
    exact hall

/-- All steps succeed. -/
theorem yields_allSteps {n : Nat} {copies : List (List Word)} {last : List Word} (h : σ.atStep plat r x ss fi mods)
    (hc : σ.clock = none) (hn : 0 < n) (hr : r.nsteps = n)
    (hcopies : stepCopies plat (some x) r.view.c20.cache? mods (stepTargets r.target r.ssize fi n) = some copies)
    (hlast : copies.getLast? = some last)
    (hk : ∀ t, σ.world.completes r.commit x ss (r.wait * 1000) copies t → (k ()).yields
      { σ with
        world := t
        core := { σ.core.inStep n r.target (withMods ss last) with appliedMod := r.commit || σ.core.appliedMod } } Q) :
    (stepFrom plat r fi mods n k).yields σ Q := by
  obtain ⟨j, rfl⟩ : ∃ j, n = j + 1 := ⟨n - 1, by omega⟩
  rw [stepTargets_succ] at hcopies
  obtain ⟨cs, ms, hcs, hinv, rfl⟩ := stepCopies_concat hcopies
  rw [List.getLast?_append, List.getLast?_singleton, Option.some_or, Option.some.injEq] at hlast
  subst hlast
  refine yields_steps Nat.one_pos j h (fun m hm => by rw [hc] at hm; cases hm) hcs fun t e f last hf hl hsweeps hat => ?_
  subst hl
  refine yields_step hat (fun m hm => ?_) (if_pos rfl).symm hinv fun v hv hat' => ?_
  · rw [Scene.swept_clock hc] at hm
    cases hm
  have happlied : (r.commit || ((r.commit && decide (0 < j)) || σ.core.appliedMod)) = (r.commit || σ.core.appliedMod) := by
    cases r.commit <;> simp
  have hscene : (σ.swept r x ss j e f (cs.getLastD mods) t).stepped r x ss 0 r.target ms v =
      { σ with
        world := v
        core := { σ.core.inStep (j + 1) r.target (withMods ss ms) with appliedMod := r.commit || σ.core.appliedMod } } := by
    rw [Scene.stepped, Scene.tick_of_none (Scene.swept_clock hc ..), ← happlied, ← hr]
    unfold Scene.swept
    rw [Scene.tick_of_none hc]
    rfl
  rw [hscene]
  exact hk v (State.completes_of_sweeps hsweeps hv)

end Sys2Proof.Machine
end

section
/-! SET_PLL_CLOCK and PROGRAM_PHY whose steps all succeed (42_stepping_controller.md R280, R285, R290, R291, R294, R295). -/

namespace Sys2Proof.Machine

variable {s t u : State} {b : Bank} {i : Instr} {Q : State → Prop} {σ : Scene} {x : Selector} {ss : List Slot} {view c : Core}
  {target shift cur size : B64} {wait n : Nat} {commit fromPhy : Bool} {copies : List (List Word)} {last : List Word}
  {clock : Option Nat} {y : Stepping}

/-! ### The start of the steps -/

/-- The hardware takes the copies, if they are programmed. -/
def State.takes (s : State) (commit : Bool) (x : Selector) (ss : List Slot) : Prop := commit = true → s.writable x ss

theorem Scene.atStep_stepping (hsel : view.sel = some x) (hview : view.slots = some ss) (hslots : σ.core.slots = some ss)
    (hq : σ.world.quiet) (hup : σ.world.shutdown = false) (hw : σ.world.takes commit x ss)
    (hc : σ.clock = none ∨ (commit = true → onMmio x = true)) (d : Nat) :
    ({ σ.tick d with core := σ.core.stepping cur target size n } : Scene).atStep σ.world.plat
      ⟨view, target, size, wait, commit, n⟩ x ss cur (ss.map (·.mod)) where
  plat_eq := rfl
  sel := hsel
  snapshot := by rw [Core.snapshot, hview, Option.getD_some]
  up := hup
  writable := fun h => (hw h).ready hq
  clock := Scene.tick_clock_or hc d
  slots := by
    rw [withMods_self]
    exact hslots
  length := List.length_map _
  fi_eq := rfl
  fsm := rfl

theorem Scene.didAll_arrive (hf : σ.core.fsm = .stepping) (hc : σ.clock = none) (target : B64) :
    σ.didAll [.setFreqMod (some target), .setFsm .done] =
      { σ with core := { σ.core with pllFreqMod := some target, fsm := .done } } := by
  rw [Scene.didAll, Scene.tick_of_none hc]
  exact congrArg (fun c => { σ with core := c })
    (Core.enter_done (c := { σ.core with pllFreqMod := some target }) (.inr (.inr (.inl hf))))

theorem yields_arrive {k : Unit → Prog} (hf : σ.core.fsm = .stepping) (hc : σ.clock = none)
    (h : (k ()).yields { σ with core := { σ.core with pllFreqMod := some target, fsm := .done } } Q) :
    (performAll [.setFreqMod (some target), .setFsm .done] k).yields σ Q := by
  refine yields_performAll (by simp [Req.isLocal]) ?_
  rw [Scene.didAll_arrive hf hc]
  exact h

/-- `set_pll_clock` whose steps all succeed, where nothing else moves: the bank it leaves in DONE. -/
def Core.arrived (c : Core) (cur target size : B64) (n : Nat) (ss : List Slot) (commit : Bool) : Core :=
  { (c.stepping cur target size n).inStep n target ss with
    appliedMod := commit || c.appliedMod, pllFreqMod := some target, fsm := .done }

theorem yields_setPllClock_completes (ht : B64.le target B64.zero = false) (hs : B64.lt shift B64.zero = false)
    (hpll : view.pllClock σ.world.plat = (.ok, cur)) (hcur : B64.le cur B64.zero = false)
    (hp : stepPlan cur target shift n size) (hn : 0 < n)
    (hf : σ.core.fsm = .captured ∨ σ.core.fsm = .done ∨ σ.core.fsm = .targetComputed)
    (hsel : view.sel = some x) (hview : view.slots = some ss) (hslots : σ.core.slots = some ss)
    (hq : σ.world.quiet) (hup : σ.world.shutdown = false) (hw : σ.world.takes commit x ss) (hc : σ.clock = none)
    (hcopies : stepCopies σ.world.plat (some x) view.c20.cache? (ss.map (·.mod)) (stepTargets target size cur n) = some copies)
    (hlast : copies.getLast? = some last) {k : Unit → Prog}
    (h : ∀ t, σ.world.completes commit x ss (wait * 1000) copies t → (k ()).yields
      { σ with world := t, core := σ.core.arrived cur target size n (withMods ss last) commit } Q) :
    (setPllClock σ.world.plat view target shift wait commit fromPhy k).yields σ Q := by
  refine yields_setPllClock ht hs hpll hcur hp hf fun d _ => ?_
  have hat := Scene.atStep_stepping (wait := wait) (n := n) (cur := cur) (target := target) (size := size) hsel hview hslots
    hq hup hw (.inl hc) d
  rw [Scene.tick_of_none hc] at hat ⊢
  rw [Core.snapshot, hview, Option.getD_some, copyOf_true]
  refine yields_allSteps hat hc hn rfl hcopies hlast fun t ht => ?_
  exact yields_arrive (k := k) rfl hc (h t ht)

theorem completes_true {us : Time} (h : s.completes true x ss us copies t) (hlen : copies.length = n) :
    ((copies.foldl (fun (u : State) ms => u.programmed x (slotWrites x ss ms)) s).later ((n - 1) * us)).wrote x
      (stepRecords us (copies.map fun ms => slotWrites x ss ms)) t := hlen ▸ h

theorem completes_false {us : Time} (h : s.completes false x ss us copies t) (hlen : copies.length = n) :
    t = (s.later ((n - 1) * us)).traced (List.replicate (n - 1) (.sleep us)) := hlen ▸ h

theorem length_of_stepCopies {plat : Platform} {c20 : Option C20Cache} {mods : List Word}
    (h : stepCopies plat (some x) c20 mods (stepTargets target size cur n) = some copies) : copies.length = n := by
  rw [stepCopies_length h, stepTargets_length]

/-! ### SET_PLL_CLOCK (R290) -/

/-- With or without COMMIT; without it no hardware is asked for. -/
theorem exec_setPllClock (hb : s.banks[s.cur]? = some b) (hq : s.quiet) (hup : s.shutdown = false)
    (hf : b.core.fsm = .captured ∨ b.core.fsm = .done) (hsel : b.core.sel = some x) (hslots : b.core.slots = some ss)
    (hw : s.takes commit x ss) (htarget : target = b.core.arg0) (h0 : ¬ notFinite b.core.arg0) (h1 : ¬ notFinite b.core.arg1)
    (ht : B64.le target B64.zero = false) (hs : B64.lt b.core.arg1 B64.zero = false)
    (hpll : b.core.pllClock s.plat = (.ok, cur)) (hcur : B64.le cur B64.zero = false)
    (hp : stepPlan cur target b.core.arg1 n size) (hn : 0 < n)
    (hcopies : stepCopies s.plat (some x) b.core.c20.cache? (ss.map (·.mod)) (stepTargets target size cur n) = some copies)
    (hlast : copies.getLast? = some last) :
    ∃ t, s.completes commit x ss (b.core.arg2.toNat * 1000) copies t ∧ exec (.setPllClock commit) s =
      .next (t.ended s.cur b (b.core.arrived cur target size n (withMods ss last) commit) .ok) := by
  subst htarget
  refine exec_exists_of_yields hb hq (setPllClock_entry hf) (setPllClock_operands h0 h1) ?_
  exact yields_setPllClock_completes (σ := Scene.start s b) (k := fun _ => Prog.ending .ok) ht hs hpll hcur hp hn
    (hf.imp_right .inl) hsel hslots hslots hq hup hw rfl hcopies hlast fun t hdone => yields_ending rfl ⟨t, hdone, rfl⟩

/-- Settles O41: the steps with COMMIT. -/
theorem setPllClockSteps : Obligations.SetPllClockSteps := by
  intro s b x ss target cur size n copies last hb hq hup hf hsel hslots hw htarget h0 h1 ht hs hpll hcur hp hn hcopies hlast
  obtain ⟨t, hdone, e⟩ := exec_setPllClock (commit := true) hb hq hup hf hsel hslots (fun _ => hw) htarget h0 h1 ht hs hpll hcur
    hp hn hcopies hlast
  exact ⟨t, completes_true hdone (length_of_stepCopies hcopies), e⟩

/-- Settles O42: the same steps without COMMIT. -/
theorem setPllClockUncommitted : Obligations.SetPllClockUncommitted := by
  intro s b x ss target cur size n copies last hb hq hup hf hsel hslots htarget h0 h1 ht hs hpll hcur hp hn hcopies hlast
  obtain ⟨t, hdone, e⟩ := exec_setPllClock (commit := false) hb hq hup hf hsel hslots (fun h => by cases h) htarget h0 h1 ht hs
    hpll hcur hp hn hcopies hlast
  rw [e, completes_false hdone (length_of_stepCopies hcopies)]
  rfl

/-! ### PROGRAM_PHY (R285) -/

/-- An arming in DONE (43_rollback_scheduler.md R342, R353). -/
theorem yields_arm {tms : Nat} {k : Unit → Prog} (hf : σ.core.fsm = .done)
    (h : (k ()).yields { σ.tick 1 with
      world := σ.world.record (.arm σ.inst tms)
      core := { σ.core with
        armed := true, deadline := some (σ.world.now + tms * 1000), done := false, fsm := .armedForRollback } } Q) :
    (perform (.arm tms) k).yields σ Q := by
  refine yields_act (τ := { σ.tick 1 with
    world := σ.world.record (.arm σ.inst tms)
    core := { σ.core with
      armed := true, deadline := some (σ.world.now + tms * 1000), done := false, fsm := .armedForRollback } })
    (a := .unit) rfl (fun ho => ?_) rfl id h
  have hcore : σ.core.arm σ.world.now tms = { σ.core with
      armed := true, deadline := some (σ.world.now + tms * 1000), done := false, fsm := .armedForRollback } := if_pos hf
  rw [← hcore]
  exact congrArg (fun t => (some Resp.unit, t.record (.arm σ.inst tms)))
    (State.withCore_modifyCore (s := σ.world.due (σ.clock.map (· - 1))) ho.2 _ _)

/-- What AUTO_RESET adds to the end of a PROGRAM_PHY. -/
def State.endedArmed (t : State) (n : Nat) (b : Bank) (c : Core) (reset : Bool) (tms : Nat) : State :=
  if reset then
    (t.traced [.arm n tms]).ended n b
      { c with armed := true, deadline := some (t.now + tms * 1000), done := false, fsm := .armedForRollback } .ok
  else t.ended n b c .ok

theorem yields_onlyIf_arm {reset : Bool} {tms : Nat} (hf : σ.core.fsm = .done) (hc : σ.clock = none)
    (h : Q (σ.world.endedArmed σ.inst σ.bank σ.core reset tms)) :
    (onlyIf reset (perform (.arm tms)) fun _ => Prog.ending .ok).yields σ Q := by
  cases reset with
  | false => exact yields_ending hc h
  | true => exact yields_arm (k := fun _ => Prog.ending .ok) hf (yields_ending (Scene.tick_clock hc 1) h)

/-- PROGRAM_PHY with COMMIT that steps to its target. -/
theorem exec_programPhy {reset : Bool} {eff : B64} {tms : Nat} (hb : s.banks[s.cur]? = some b) (hq : s.quiet)
    (hup : s.shutdown = false) (hf : b.core.fsm = .captured ∨ b.core.fsm = .done) (hsel : b.core.sel = some x)
    (hslots : b.core.slots = some ss) (hw : s.writable x ss)
    (ho : ¬ badOperand s.plat (.programPhy true reset) b.core) (hnudges : b.core.nudges eff tms) (hpos : 0 < tms)
    (hpll : b.core.pllClock s.plat = (.ok, cur)) (hcur : B64.le cur B64.zero = false)
    (htarget : target = B64.add cur (nudgeDelta b.core.arg0 eff cur)) (ht : B64.le target B64.zero = false)
    (hp : stepPlan cur target eff n size) (hn : 0 < n)
    (hcopies : stepCopies s.plat (some x) b.core.c20.cache? (ss.map (·.mod)) (stepTargets target size cur n) = some copies)
    (hlast : copies.getLast? = some last) :
    ∃ t, s.completes true x ss (b.core.arg4.toNat * 1000) copies t ∧ exec (.programPhy true reset) s = .next
      (t.endedArmed s.cur b ((b.core.nudged eff tms cur).arrived cur target size n (withMods ss last) true) reset tms) := by
  subst htarget
  refine exec_exists_of_yields hb hq (programPhy_entry hf) ho
    (yields_programPhy (σ := Scene.start s b) hnudges hpll hcur hf ?_)
  rw [nudge_committed hpos]
  exact yields_setPllClock_completes (σ := { Scene.start s b with core := b.core.nudged eff tms cur })
    (k := fun _ => onlyIf reset (perform (.arm tms)) fun _ => Prog.ending .ok) ht (Core.lt_zero_of_nudges hnudges) hpll hcur hp hn
    (.inr (.inr rfl)) hsel hslots hslots hq hup (fun _ => hw) rfl hcopies hlast
    fun t hdone => yields_onlyIf_arm rfl rfl ⟨t, hdone, rfl⟩

/-- Settles O40: the stepping of SET_PLL_CLOCK, and then the arming. -/
theorem programPhyCommitted : Obligations.ProgramPhyCommitted := by
  intro s b x ss reset td sh fs eff cur delta target size tms n copies last hb hq hup hf hsel hslots hw htd h0 h1 h2 hsh hfs heff
    hz htms hpos hpll hcur hdelta htarget ht hp hn hcopies hlast
  have hnudges := Core.nudges_of_ne htd hsh hfs heff hz htms
  subst htd hsh hfs hdelta
  obtain ⟨t, hdone, e⟩ := exec_programPhy (reset := reset) hb hq hup hf hsel hslots hw (programPhy_operands h0 h1 h2) hnudges hpos
    hpll hcur htarget ht hp hn hcopies hlast
  subst htarget
  exact ⟨t, completes_true hdone (length_of_stepCopies hcopies), fun c' hc' => hc' ▸ e⟩

end Sys2Proof.Machine
end

section
/-! Steppings that are cancelled, and steppings that fail (42_stepping_controller.md R285, R290, R291, R296, R300, R301). -/

namespace Sys2Proof.Machine

variable {s t u : State} {b : Bank} {i : Instr} {Q : State → Prop} {σ : Scene} {plat : Platform} {x : Selector} {ss : List Slot}
  {r : StepRun} {fi f size : B64} {mods mods' : List Word} {left n : Nat} {st : Status} {k : Unit → Prog} {clock : Option Nat}
  {y : Stepping} {ws : List (Nat × Word)}

/-! ### A stepping of either command -/

/-- What a stepping works with, for a plan. -/
def Stepping.run (y : Stepping) (view : Core) (n : Nat) (size : B64) : StepRun := ⟨view, y.target, size, y.wait, y.commit, n⟩

/-- The bank before the first step. -/
def Stepping.entry (y : Stepping) (c : Core) (n : Nat) (size : B64) : Core :=
  Core.stepping { c with dp := y.dp, usedShift := y.usedShift } y.cur y.target size n

/-- The point before the first step, after so many atomic actions. -/
def Stepping.begin (y : Stepping) (u : State) (clock : Option Nat) (b : Bank) (n : Nat) (size : B64) (d : Nat) : Scene :=
  { ({ Scene.start u b with clock := clock } : Scene).tick d with core := y.entry b.core n size }

/-- Both commands come to their first step; of the atomic actions before it there are `lead` and nine where it has a second
one. -/
theorem exec_of_steps (hs : u.due clock = s) (hu : u.quiet) (hb : s.banks[s.cur]? = some b) (hy : b.core.steps s.plat i y)
    (hp : stepPlan y.cur y.target y.shift n size)
    (h : ∀ d k, (1 < n → d = y.lead + 9) →
      (stepFrom s.plat (y.run b.core n size) y.cur (copyOf true b.core.snapshot) n k).yields (y.begin u clock b n size d) Q) :
    ∃ t, exec i s = .next t ∧ Q t := by
  subst hs
  have hlt : u.cur < u.banks.length := lt_of_bank hb
  have hstate : ({ Scene.start u b with clock := clock } : Scene).state = u.due clock := State.withCore_self hb
  obtain ⟨hf, h0, h1, hpll, hcur, ht, ⟨commit, rfl, hshift, hset⟩ | ⟨reset, eff, tms, rfl, h2, heff, hz, htms, hpos, hset⟩⟩ := hy
  · refine exec_of_yields hb (setPllClock_entry hf) (setPllClock_operands h0 h1) rfl hstate ⟨hu, hlt⟩ ?_
    rw [hset] at h hp ht
    exact yields_setPllClock (k := fun _ => Prog.ending .ok) ht hshift hpll hcur hp (hf.imp_right .inl) fun d hd =>
      h d _ fun hn => by rw [hd hn]; rfl
  · have hnudges := Core.nudges_of_ne rfl rfl rfl heff hz htms
    refine exec_of_yields hb (programPhy_entry hf) (programPhy_operands h0 h1 h2) rfl hstate ⟨hu, hlt⟩ ?_
    refine yields_programPhy (σ := { Scene.start u b with clock := clock }) hnudges hpll hcur hf ?_
    rw [nudge_committed hpos]
    rw [hset] at h hp ht
    refine yields_setPllClock
      (σ := { ({ Scene.start u b with clock := clock } : Scene).tick 9 with core := b.core.nudged eff tms y.cur })
      (k := fun _ => onlyIf reset (perform (.arm tms)) fun _ => Prog.ending .ok) ht
      (Core.lt_zero_of_nudges hnudges) hpll hcur hp (.inr (.inr rfl)) fun d hd => ?_
    have hk := h (9 + d) (fun _ => performAll [.setFreqMod (some y.target), .setFsm .done] fun _ =>
      onlyIf reset (perform (.arm tms)) fun _ => Prog.ending .ok) fun hn => by rw [hd hn]; rfl
    rw [Stepping.begin, ← Scene.tick_tick] at hk
    rw [hset] at hk
    exact hk

/-- A stepping of whose end a part is only known to exist. -/
theorem exec_exists_of_steps {P : State → Prop} {F : State → State} (hs : u.due clock = s) (hu : u.quiet)
    (hb : s.banks[s.cur]? = some b) (hy : b.core.steps s.plat i y) (hp : stepPlan y.cur y.target y.shift n size)
    (h : ∀ d k, (1 < n → d = y.lead + 9) →
      (stepFrom s.plat (y.run b.core n size) y.cur (copyOf true b.core.snapshot) n k).yields (y.begin u clock b n size d)
        fun v => ∃ t, P t ∧ v = F t) : ∃ t, P t ∧ exec i s = .next (F t) := by
  obtain ⟨_, e, t, ht, rfl⟩ := exec_of_steps hs hu hb hy hp h
  exact ⟨t, ht, e⟩

theorem Stepping.begin_atStep (hsel : b.core.sel = some x) (hslots : b.core.slots = some ss) (hu : u.quiet)
    (hup : u.shutdown = false) (hw : u.takes y.commit x ss) (hc : clock = none ∨ (y.commit = true → onMmio x = true)) (d : Nat) :
    (y.begin u clock b n size d).atStep u.plat (y.run b.core n size) x ss y.cur (ss.map (·.mod)) :=
  Scene.atStep_stepping (σ := { inst := u.cur, bank := b, world := u
                                core := { b.core with dp := y.dp, usedShift := y.usedShift }, clock := clock })
    hsel hslots hslots hu hup hw hc d

theorem copyOf_snapshot (hslots : b.core.slots = some ss) : copyOf true b.core.snapshot = ss.map (·.mod) := by
  rw [Core.snapshot, hslots, Option.getD_some, copyOf_true]

/-! ### Cancelled (R300, R301) -/

/-- The restore of a stepping that is cancelled. -/
theorem yields_cancelStepping (hc : σ.clock = none) (hf : σ.core.fsm = .stepping) (hsel : r.view.sel = some x)
    (hslots : r.view.slots = some ss) (hplat : σ.world.plat = plat) (hW : Writable σ.world x ss)
    (hws : ws = slotWrites x ss (ss.map (·.orig)))
    (h : ∀ t, (σ.world.programmed x ws).wrote x (mmioRecords ws) t →
      Q (t.ended σ.inst σ.bank { σ.core with appliedMod := false, fsm := .done } .cancelled)) :
    (cancelStepping plat r.view k).yields σ Q := by
  subst hplat
  have hcode : cancelStepping σ.world.plat r.view k =
      (r.view.restore σ.world.plat >>= afterRestore) fun _ => fail .cancelled k := rfl
  rw [hcode]
  exact yields_restore (k := fun _ => fail .cancelled k) hsel hslots hW (.inl hc) hws fun t hwrote _ =>
    yields_fail (Scene.tick_clock hc _) hf (h t hwrote)

/-- A step whose sample of `shutdown` is 1. -/
theorem yields_stepFrom_down (hdown : (σ.tick 1).down = true)
    (h : (cancelStepping plat r.view k).yields
      { σ.tick 2 with core := { σ.core with dp := { σ.core.dp with istep := some (BitVec.ofNat 32 (r.nsteps - left)) } } } Q) :
    (stepFrom plat r fi mods (left + 1) k).yields σ Q := by
  rw [stepFrom_succ rfl]
  refine yields_perform rfl (yields_sampleShutdown ?_)
  rw [show Scene.down (σ.did _) = true from hdown, if_pos rfl]
  rw [← Scene.tick_tick σ 1 1] at h
  exact h

/-- A stepping that finds `shutdown` at 1. -/
theorem exec_steps_down (hb : s.banks[s.cur]? = some b) (hq : s.quiet) (hup : s.shutdown = true)
    (hy : b.core.steps s.plat i y) (hsel : b.core.sel = some x) (hslots : b.core.slots = some ss) (hw : s.writable x ss)
    (hp : stepPlan y.cur y.target y.shift n size) (hn : 0 < n) (hws : ws = slotWrites x ss (ss.map (·.orig))) :
    ∃ t, (s.programmed x ws).wrote x (mmioRecords ws) t ∧
      exec i s = .next (t.ended s.cur b
        { b.core with
          dp := y.regs n size 1 y.cur, usedShift := y.usedShift, appliedMod := false, fsm := .done } .cancelled) := by
  obtain ⟨n, rfl⟩ : ∃ m, n = m + 1 := ⟨n - 1, by omega⟩
  refine exec_exists_of_steps (State.due_none hq) hq hb hy hp fun d k _ => yields_stepFrom_down hup ?_
  rw [show (y.run b.core (n + 1) size).nsteps - n = 1 from Nat.add_sub_cancel_left ..]
  exact yields_cancelStepping rfl rfl hsel hslots rfl (hw.ready hq) hws fun t hwrote => ⟨t, hwrote, rfl⟩

/-! ### Cancelled at a later step -/

/-- The scheduled rise of `shutdown` as a number of visible actions. -/
theorem State.due_rise {m : Nat} (hsched : s.sched = List.replicate m .go ++ [.shutdown true]) :
    ({ s with sched := [] } : State).due (some (m + 1)) = s := by
  rw [State.due, shutdownBefore, ← hsched]
  rfl

theorem Writable.due (h : Writable u x ss) : Writable (u.due (some 0)) x ss :=
  ⟨rfl, h.plain, fun hm =>
    let hh := h.lanes hm
    ⟨rfl, hh.auto, hh.facts, hh.store, hh.idle⟩⟩

theorem State.programmed_due (hm : onMmio x = true) (copies : List (List Word)) :
    copies.foldl (fun (u : State) ms => u.programmed x (slotWrites x ss ms)) (u.due clock) =
      (copies.foldl (fun (u : State) ms => u.programmed x (slotWrites x ss ms)) u).due clock := by
  induction copies generalizing u with
  | nil => rfl
  | cons ms rest ih =>
    have hone : (u.due clock).programmed x (slotWrites x ss ms) = (u.programmed x (slotWrites x ss ms)).due clock := by
      rw [State.programmed_mmio hm, State.programmed_mmio hm]
      rfl
    rw [List.foldl_cons, hone, ih, List.foldl_cons]

theorem State.sweeps_due {commit : Bool} {us : Time} {copies : List (List Word)} (hm : commit = true → onMmio x = true)
    (h : u.sweeps commit x ss us copies t) : (u.due clock).sweeps commit x ss us copies (t.due clock) := by
  unfold State.sweeps at h ⊢
  cases commit with
  | false =>
    cases h
    rfl
  | true =>
    rw [if_pos rfl] at h ⊢
    rw [State.programmed_due (hm rfl)]
    unfold State.wrote at h ⊢
    rw [if_pos (hm rfl)] at h ⊢
    cases h
    rfl

theorem State.wrote_traced (h : onMmio x = true ∨ u.mmio.wf = true) (rs : List Record) :
    u.wrote x rs (u.traced rs.reverse) := by
  unfold State.wrote
  split
  · rfl
  · next hm => exact ⟨u.mmio, rs.reverse, ⟨h.resolve_left hm, fun _ _ => rfl⟩, rfl⟩

/-- The steps before a restore, and the restore. -/
theorem State.sweeps_restored {commit : Bool} {us : Time} {copies : List (List Word)} {v : State} {rs : List Record}
    (h : u.sweeps commit x ss us copies t) (hW : Writable t x ss) (h' : (t.programmed x ws).wrote x rs v) :
    (((if commit then copies.foldl (fun (u : State) ms => u.programmed x (slotWrites x ss ms)) u else u).programmed x ws).later
        (copies.length * us)).wrote x
      ((if commit then (copies.map fun ms => mmioRecords (slotWrites x ss ms) ++ [Record.sleep us]).flatten
        else List.replicate copies.length (Record.sleep us)) ++ rs) v := by
  rw [← State.later_programmed]
  refine State.wrote_more (t := t) ?_ h'
  unfold State.sweeps at h
  cases commit with
  | false =>
    cases h
    have htraced := State.wrote_traced (u := u.later (copies.length * us)) (x := x) hW.stored
      (List.replicate copies.length (.sleep us))
    rwa [List.reverse_replicate] at htraced
  | true => exact h

/-- Where the first inverse succeeds, any inverse of the same copy does. -/
theorem invPuts_ok_of_stepCopies {c20 : Option C20Cache} {fs : List B64} {copies : List (List Word)} (hne : fs ≠ [])
    (h : stepCopies plat (some x) c20 mods fs = some copies) (g : B64) : (invPuts plat (some x) c20 mods g).1 = .ok := by
  obtain ⟨f, rest, rfl⟩ := List.exists_cons_of_ne_nil hne
  rw [stepCopies] at h
  split at h
  · next mods' hinv => exact (invPuts_status g f).trans (congrArg Prod.fst hinv)
  · cases h

theorem stepTargets_take_ne_nil {target size : B64} {j : Nat} (hj : 0 < j) (hn : j < n) :
    (stepTargets target size f n).take j ≠ [] := by
  intro h
  have hlen := congrArg List.length h
  rw [List.length_take, stepTargets_length, List.length_nil] at hlen
  omega

theorem getLastD_take {α : Type} {l : List α} {j : Nat} {a d : α} (hj : 0 < j) (h : l[j - 1]? = some a) :
    (l.take j).getLastD d = a := by
  obtain ⟨j, rfl⟩ : ∃ i, j = i + 1 := ⟨j - 1, by omega⟩
  rw [Nat.add_sub_cancel] at h
  rw [List.take_add_one, h, Option.toList_some, List.getLastD_eq_getLast?, List.getLast?_append, List.getLast?_singleton]
  rfl

theorem getLastD_of_getLast? {α : Type} {l : List α} {a d : α} (h : l.getLast? = some a) : l.getLastD d = a := by
  rw [List.getLastD_eq_getLast?, h]
  rfl

/-- A step before whose sample `shutdown` rises. -/
theorem yields_stepFrom_rises {q : Nat} (h : σ.atStep plat r x ss fi mods) (hclock : σ.clock = some q) (hq : q ≤ 2)
    (hview : r.view.slots = some ss) (hW : Writable σ.world x ss) (hws : ws = slotWrites x ss (ss.map (·.orig)))
    (hQ : ∀ t, ((σ.world.due (some 0)).programmed x ws).wrote x (mmioRecords ws) t →
      Q (t.ended σ.inst σ.bank
        { σ.core with
          dp := { σ.core.dp with istep := some (BitVec.ofNat 32 (r.nsteps - left)) }
          appliedMod := false, fsm := .done } .cancelled)) :
    (stepFrom plat r fi mods (left + 1) k).yields σ Q := by
  have hrisen : (σ.tick 2).clock = some 0 := by
    rw [Scene.tick, hclock]
    exact congrArg some (Nat.sub_eq_zero_of_le hq)
  have hdown : (σ.tick 1).down = true := by
    rw [Scene.down, show (σ.tick 1).clock.map (· - 1) = (σ.tick 2).clock from congrArg Scene.clock (σ.tick_tick 1 1), hrisen]
    rfl
  exact yields_stepFrom_down hdown (yields_of_risen hrisen
    (yields_cancelStepping rfl h.fsm h.sel hview h.plat_eq hW.due hws hQ))

/-- A stepping in whose step `j` `shutdown` rises. -/
theorem exec_steps_cancelled {j m puts per : Nat} {us : Time} {copies : List (List Word)} {last : List Word}
    (hb : s.banks[s.cur]? = some b) (hup : s.shutdown = false) (hsched : s.sched = List.replicate m .go ++ [.shutdown true])
    (hy : b.core.steps s.plat i y) (hsel : b.core.sel = some x) (hslots : b.core.slots = some ss) (hw : s.writable x ss)
    (hmmio : y.commit = true → onMmio x = true) (hp : stepPlan y.cur y.target y.shift n size)
    (hws : ws = slotWrites x ss (ss.map (·.orig)))
    (hputs : puts = (invPuts s.plat (some x) b.core.c20.cache? (ss.map (·.mod)) y.target).2.length)
    (hper : per = 3 + puts + if y.commit then ws.length + 1 else 0) (hj : 0 < j) (hjn : j < n)
    (hlo : y.lead + 10 + (j - 1) * per < m) (hhi : m ≤ y.lead + 10 + j * per)
    (hcopies : stepCopies s.plat (some x) b.core.c20.cache? (ss.map (·.mod)) ((stepTargets y.target size y.cur n).take j) =
      some copies)
    (hlast : copies.getLast? = some last) (hf : (stepTargets y.target size y.cur n)[j - 1]? = some f) (hus : us = y.wait * 1000) :
    ∃ t, (((if y.commit then copies.foldl (fun (u : State) ms => u.programmed x (slotWrites x ss ms))
              ({ s with sched := [], shutdown := true } : State)
            else { s with sched := [], shutdown := true }).programmed x ws).later (j * us)).wrote x
        ((if y.commit then (copies.map fun ms => mmioRecords (slotWrites x ss ms) ++ [Record.sleep us]).flatten
          else List.replicate j (Record.sleep us)) ++ mmioRecords ws) t ∧
      exec i s = .next (t.ended s.cur b
        { b.core with
          dp := y.regs n size (j + 1) f, usedShift := y.usedShift
          slots := some (withMods ss last), appliedMod := false, fsm := .done } .cancelled) := by
  have hactions : per = (y.run b.core n size).actions x ss := by
    rw [hper, hputs, hws, invPuts_length (invPuts_ok_of_stepCopies (stepTargets_take_ne_nil hj hjn) hcopies y.target)]
    rfl
  have hcount : copies.length = j := by
    rw [stepCopies_length hcopies, List.length_take, stepTargets_length, Nat.min_eq_left (Nat.le_of_lt hjn)]
  obtain ⟨l, rfl⟩ : ∃ l, n = j + (l + 1) := ⟨n - j - 1, by omega⟩
  subst hus
  refine exec_exists_of_steps (State.due_rise hsched) rfl hb hy hp fun d k hd => ?_
  obtain rfl := hd (by omega)
  rw [copyOf_snapshot hslots]
  have hsum : j * per = (j - 1) * per + per := by
    rw [← Nat.succ_mul, Nat.succ_eq_add_one, Nat.sub_add_cancel hj]
  have hat := Stepping.begin_atStep (u := { s with sched := [] }) (clock := some (m + 1)) (n := j + (l + 1)) (size := size) hsel
    hslots rfl hup (fun _ => hw) (.inr hmmio) (y.lead + 9)
  refine yields_steps (Nat.succ_pos l) j hat (fun m' hm' => ?_) hcopies fun t e f' last' hf' hlast' hsweeps hat => ?_
  · obtain rfl := Option.some.inj (show some (m + 1 - (y.lead + 9)) = some m' from hm')
    rw [← hactions]
    omega
  have hW : Writable t x ss := by
    cases hcommit : y.commit with
    | false =>
      rw [show (y.run b.core (j + (l + 1)) size).commit = false from hcommit] at hsweeps
      cases hsweeps
      exact State.writable.ready (sel := x) (slots := ss) (s := (State.later _ _).traced _) hw rfl
    | true => exact hat.writable hcommit
  obtain rfl : f' = f := hf'.trans (getLastD_take hj hf)
  obtain rfl : last' = last := hlast'.trans (getLastD_of_getLast? hlast)
  have hdue : ({ s with sched := [], shutdown := true } : State).sweeps y.commit x ss (y.wait * 1000) copies (t.due (some 0)) :=
    State.sweeps_due (u := { s with sched := [] }) (clock := some 0) hmmio hsweeps
  refine yields_stepFrom_rises (q := m + 1 - (y.lead + 9) - j * per) hat (by rw [hactions]; rfl) (by omega) hslots hW hws
    fun v hv => ⟨v, ?_, ?_⟩
  · rw [← hcount]
    exact State.sweeps_restored hdue hW.due hv
  · rw [show (y.run b.core (j + (l + 1)) size).nsteps - l = j + 1 by show j + (l + 1) - l = _; omega]
    rfl

/-- Settles O43: at the first step, and at a later one. -/
theorem setPllClockCancelled : Obligations.SetPllClockCancelled := by
  refine ⟨?_, ?_⟩
  · intro s b i y x ss size n ws hb hq hup hy hsel hslots hw hp hn hws
    exact exec_steps_down hb hq hup hy hsel hslots hw hp hn hws
  · intro s b i y x ss size f n j m puts per us copies last ws hb hup hsched hy hsel hslots hw hmmio hp hws hputs hper hj hjn
      hlo hhi hcopies hlast hf hus
    exact exec_steps_cancelled hb hup hsched hy hsel hslots hw hmmio hp hws hputs hper hj hjn hlo hhi hcopies hlast hf hus

end Sys2Proof.Machine
end

section
/-! Steppings that fail: their inverse, or the programming of a copy (42_stepping_controller.md R296). -/

namespace Sys2Proof.Machine

variable {s t : State} {b : Bank} {i : Instr} {Q : State → Prop} {σ : Scene} {plat : Platform} {x : Selector} {ss : List Slot}
  {r : StepRun} {fi f size : B64} {mods mods' : List Word} {left n l : Nat} {st : Status} {k : Unit → Prog} {y : Stepping}
  {lane : LaneRegs}

/-! ### The inverse fails -/

theorem yields_stepRest_fails (hst : st ≠ .ok) (hc : σ.clock = none) (hf : σ.core.fsm = .stepping)
    (h : Q (σ.world.ended σ.inst σ.bank { σ.core with fsm := .done } st)) : (stepRest plat r f mods st left k).yields σ Q := by
  rw [stepRest, Code.bind_apply, onlyIf_apply, if_pos (decide_eq_true hst)]
  exact yields_fail hc hf h

theorem exec_eq_of_steps (hq : s.quiet) (hb : s.banks[s.cur]? = some b) (hy : b.core.steps s.plat i y)
    (hp : stepPlan y.cur y.target y.shift n size)
    (h : ∀ d k, (stepFrom s.plat (y.run b.core n size) y.cur (copyOf true b.core.snapshot) n k).yields
      (y.begin s none b n size d) (· = t)) : exec i s = .next t := by
  obtain ⟨_, e, rfl⟩ := exec_of_steps (State.due_none hq) hq hb hy hp fun d k _ => h d k
  exact e

/-- The inverse of the first step fails. -/
theorem exec_steps_inverse_fails_first (hb : s.banks[s.cur]? = some b) (hq : s.quiet) (hup : s.shutdown = false)
    (hy : b.core.steps s.plat i y) (hslots : b.core.slots = some ss) (hp : stepPlan y.cur y.target y.shift n size) (hn : 0 < n)
    (hf : f = if n = 1 then y.target else B64.add y.cur size)
    (hinv : invV s.plat b.core.sel b.core.c20.cache? (ss.map (·.mod)) f = (st, mods)) (hst : st ≠ .ok) :
    exec i s = .next (s.ended s.cur b
      { b.core with
        dp := y.regs n size 1 f, usedShift := y.usedShift, slots := some (withMods ss mods), fsm := .done } st) := by
  obtain ⟨n, rfl⟩ : ∃ m, n = m + 1 := ⟨n - 1, by omega⟩
  have htarget : f = if n = 0 then y.target else B64.add y.cur size := by simpa using hf
  refine exec_eq_of_steps hq hb hy hp fun d k => ?_
  rw [copyOf_snapshot hslots]
  refine yields_stepFrom (ss := ss) (Scene.down_false hup fun m hm => by cases hm) ?_ (List.length_map _) htarget hinv ?_
  · rw [withMods_self]
    exact hslots
  · refine yields_stepRest_fails hst rfl rfl ?_
    rw [show (y.run b.core (n + 1) size).nsteps - n = 1 from Nat.add_sub_cancel_left ..]
    rfl

/-- The intermediate frequency of a step, from the one before. -/
theorem stepTargets_next {target size g : B64} {j : Nat} (h : (stepTargets target size f (j + (left + 1)))[j]? = some g) :
    g = if left = 0 then target else B64.add (((stepTargets target size f (j + (left + 1))).take j).getLastD f) size := by
  induction j generalizing f with
  | zero =>
    rw [Nat.zero_add] at h ⊢
    cases left with
    | zero => simpa [stepTargets] using h.symm
    | succ n => simpa [stepTargets] using h.symm
  | succ j ih =>
    rw [show j + 1 + (left + 1) = (j + left) + 2 by omega, stepTargets] at h ⊢
    rw [List.take_succ_cons, List.getLastD_cons]
    exact ih h

/-- The inverse of a later step fails, with the copies of the steps before on the hardware. -/
theorem exec_steps_inverse_fails_later {j : Nat} {us : Time} {copies : List (List Word)} {last : List Word}
    (hb : s.banks[s.cur]? = some b) (hq : s.quiet) (hup : s.shutdown = false) (hy : b.core.steps s.plat i y)
    (hsel : b.core.sel = some x) (hslots : b.core.slots = some ss) (hw : s.writable x ss)
    (hp : stepPlan y.cur y.target y.shift n size) (hj : 0 < j) (hjn : j < n)
    (hcopies : stepCopies s.plat (some x) b.core.c20.cache? (ss.map (·.mod)) ((stepTargets y.target size y.cur n).take j) =
      some copies)
    (hlast : copies.getLast? = some last) (hf : (stepTargets y.target size y.cur n)[j]? = some f)
    (hinv : invV s.plat (some x) b.core.c20.cache? last f = (st, mods)) (hst : st ≠ .ok) (hus : us = y.wait * 1000) :
    ∃ t, (if y.commit then
          ((copies.foldl (fun (u : State) ms => u.programmed x (slotWrites x ss ms)) s).later (j * us)).wrote x
            (copies.map fun ms => mmioRecords (slotWrites x ss ms) ++ [Record.sleep us]).flatten t
        else t = (s.later (j * us)).traced (List.replicate j (.sleep us))) ∧
      exec i s = .next (t.ended s.cur b
        { b.core with
          dp := y.regs n size (j + 1) f, usedShift := y.usedShift, slots := some (withMods ss mods)
          appliedMod := y.commit || b.core.appliedMod, fsm := .done } st) := by
  have hcount : copies.length = j := by
    rw [stepCopies_length hcopies, List.length_take, stepTargets_length, Nat.min_eq_left (Nat.le_of_lt hjn)]
  obtain ⟨l, rfl⟩ : ∃ l, n = j + (l + 1) := ⟨n - j - 1, by omega⟩
  subst hus
  refine exec_exists_of_steps (State.due_none hq) hq hb hy hp fun d k _ => ?_
  rw [copyOf_snapshot hslots]
  have hat := Stepping.begin_atStep (clock := none) (y := y) (n := j + (l + 1)) (size := size) hsel hslots hq hup
    (fun _ => hw) (.inl rfl) d
  refine yields_steps (Nat.succ_pos l) j hat (fun m hm => by cases hm) hcopies fun t e f' last' hf' hlast' hsweeps hat => ?_
  obtain rfl : last' = last := hlast'.trans (getLastD_of_getLast? hlast)
  have htarget : f = if l = 0 then y.target else B64.add f' size := hf' ▸ stepTargets_next hf
  rw [← hsel] at hinv
  refine yields_stepFrom (Scene.down_false hat.up fun m hm => by cases hm) hat.slots hat.length htarget hinv ?_
  · refine yields_stepRest_fails hst rfl rfl ⟨t, ?_, ?_⟩
    · rw [← hcount]
      exact hsweeps
    · rw [show (y.run b.core (j + (l + 1)) size).nsteps - l = j + 1 by show j + (l + 1) - l = _; omega,
        ← Bool.and_true y.commit, ← decide_eq_true hj]
      rfl

/-! ### The programming fails -/

theorem run_fail {α : Type} {k : α → Prog} (hb : t.banks[n]? = some b) (hq : t.quiet) (hf : b.core.fsm = .stepping)
    (cmd : Option Instr) (view : Core) (hist : List Resp) (st : Status) :
    run (.seq n cmd view) hist (fail st k) t = t.ended n b { b.core with fsm := .done } st := by
  have hyields : (fail st k).yields { inst := n, bank := b, world := t, core := b.core }
      (· = t.ended n b { b.core with fsm := .done } st) := yields_fail rfl hf rfl
  have hrun := hyields.quiet rfl ⟨hq, lt_of_bank hb⟩ cmd view hist
  rwa [State.withCore_self hb] at hrun

/-- A commit whose `write_v` fails. -/
theorem run_commitStep_fails {cmd : Option Instr} {view : Core} {hist hist' : List Resp} (hst : st ≠ .ok)
    (h : (writeV s.plat r.view.sel (addressed r.view.snapshot mods)).endsIn (.seq n cmd view) hist s st hist' t)
    (hq : t.quiet) (hb : t.banks[n]? = some b) (hf : b.core.fsm = .stepping) :
    run (.seq n cmd view) hist (commitStep s.plat r mods k) s = t.ended n b { b.core with fsm := .done } st := by
  rw [commitStep, Code.bind_apply, h, Code.bind_apply, onlyIf_apply, if_pos (decide_eq_true hst)]
  exact run_fail hb hq hf cmd view hist' st

/-- What a stepping leaves that fails on a silent PHY: the three attempts of one write, and the bank in DONE. -/
def State.timesOutIn (s : State) (n : Nat) (b : Bank) (c : Core) (lane : LaneRegs) (t : State) : Prop :=
  t.phy = s.phy ∧ t.sram = s.sram ∧ t.count (.write lane.ctl 0x00008000) = s.count (.write lane.ctl 0x00008000) + 3 ∧
    t.banks[n]? = some { b with seq := none, core := { c with fsm := .done, code := .busTimeout, busy := false } }

theorem yields_commitStep_silent (hc : σ.clock = none) (hf : σ.core.fsm = .stepping) (hplat : σ.world.plat = plat)
    (hsel : r.view.sel = some x) (hview : r.view.snapshot = ss) (hne : ss ≠ []) (hs : σ.world.silentLane x l lane)
    (hlen : mods.length = ss.length) :
    (commitStep plat r mods k).yields σ (σ.world.timesOutIn σ.inst σ.bank σ.core lane) := by
  subst hplat
  refine yields_of_quiet hc fun ho cmd view hist => ?_
  obtain ⟨hq, hlt⟩ := ho
  have hws : addressed ss mods ≠ [] := by
    rw [← List.length_pos_iff, addressed, List.length_zipWith, hlen, Nat.min_self]
    exact List.length_pos_iff.2 hne
  obtain ⟨t, hends, htried⟩ := Silent.writeV (s := σ.world.withCore σ.inst σ.bank σ.core) hs hq hws
  obtain ⟨hist', hin⟩ := hends (.seq σ.inst cmd view) hist
  rw [← hsel, ← hview] at hin
  obtain ⟨hbanks, hqt⟩ := htried.banks_quiet hq
  obtain ⟨-, -, hphy, hsram, -, -, -, hcount⟩ := htried.keeps
  have hbt : t.banks[σ.inst]? = some { σ.bank with core := σ.core } := by
    rw [hbanks]
    exact State.withCore_bank hlt _
  rw [show σ.world.plat = (σ.world.withCore σ.inst σ.bank σ.core).plat from rfl, run_commitStep_fails (by decide) hin hqt hbt hf]
  refine ⟨hphy, hsram, hcount, ?_⟩
  rw [State.ended_banks, List.getElem?_set_self (lt_of_bank hbt)]

/-- A step on a PHY that never answers. -/
theorem yields_stepFrom_silent (hc : σ.clock = none) (hup : σ.world.shutdown = false) (hf : σ.core.fsm = .stepping)
    (hplat : σ.world.plat = plat) (hcommit : r.commit = true) (hsel : r.view.sel = some x) (hview : r.view.slots = some ss)
    (hne : ss ≠ []) (hs : σ.world.silentLane x l lane) (hlen : mods.length = ss.length)
    (hslots : σ.core.slots = some (withMods ss mods)) (htarget : f = if left = 0 then r.target else B64.add fi r.ssize)
    (hinv : invV plat (some x) r.view.c20.cache? mods f = (.ok, mods')) :
    (stepFrom plat r fi mods (left + 1) k).yields σ (σ.world.timesOutIn σ.inst σ.bank
      (σ.core.inStep (r.nsteps - left) f (withMods ss mods')) lane) := by
  have hlen' : mods'.length = ss.length := by
    rw [← hlen, ← invV_length plat (some x) r.view.c20.cache? mods f, hinv]
  rw [← hsel] at hinv
  refine yields_stepFrom (Scene.down_false hup fun m hm => by rw [hc] at hm; cases hm) hslots hlen htarget hinv ?_
  have hskip : stepRest plat r f mods' .ok left k = commitStep plat r mods'
      fun _ => (do onlyIf (left ≠ 0) (sleepMs r.wait); stepFrom plat r f mods' left : Code Unit) k := by
    rw [stepRest, hcommit]
    rfl
  rw [hskip]
  exact yields_commitStep_silent (σ := { σ.tick _ with core := σ.core.inStep (r.nsteps - left) f (withMods ss mods') })
    (Scene.tick_clock hc _) hf hplat hsel (by rw [Core.snapshot, hview, Option.getD_some]) hne hs hlen'

/-- The first step on a PHY that never answers. -/
theorem exec_steps_silent (hb : s.banks[s.cur]? = some b) (hq : s.quiet) (hup : s.shutdown = false)
    (hy : b.core.steps s.plat i y) (hcommit : y.commit = true) (hsel : b.core.sel = some x) (hslots : b.core.slots = some ss)
    (hne : ss ≠ []) (hs : s.silentLane x l lane) (hp : stepPlan y.cur y.target y.shift n size) (hn : 0 < n)
    (hf : f = if n = 1 then y.target else B64.add y.cur size)
    (hinv : invV s.plat (some x) b.core.c20.cache? (ss.map (·.mod)) f = (.ok, mods)) :
    ∃ t, exec i s = .next t ∧ s.timesOutIn s.cur b
      { b.core with dp := y.regs n size 1 f, usedShift := y.usedShift, slots := some (withMods ss mods) } lane t := by
  obtain ⟨n, rfl⟩ : ∃ m, n = m + 1 := ⟨n - 1, by omega⟩
  have htarget : f = if n = 0 then y.target else B64.add y.cur size := by simpa using hf
  refine exec_of_steps (State.due_none hq) hq hb hy hp fun d k _ => ?_
  have hyields := yields_stepFrom_silent (σ := y.begin s none b (n + 1) size d) (r := y.run b.core (n + 1) size) (k := k) rfl hup
    rfl rfl hcommit hsel hslots hne hs (List.length_map _) (by rw [withMods_self]; exact hslots) htarget hinv
  rw [show (y.run b.core (n + 1) size).nsteps - n = 1 from Nat.add_sub_cancel_left ..] at hyields
  rw [copyOf_snapshot hslots]
  exact hyields

/-- Settles O44: the inverse fails at the first or at a later step, or the programming of a copy fails. -/
theorem setPllClockStepFails : Obligations.SetPllClockStepFails := by
  refine ⟨?_, ?_, ?_, ?_, ?_⟩
  · intro s b i y ss size f n st mods hb hq hup hy hslots hp hn hf hinv hst
    exact exec_steps_inverse_fails_first hb hq hup hy hslots hp hn hf hinv hst
  · intro s b i y x ss size f n j us copies last mods st hb hq hup hy hsel hslots hw hp hj hjn hcopies hlast hf hinv hst hus
    exact exec_steps_inverse_fails_later hb hq hup hy hsel hslots hw hp hj hjn hcopies hlast hf hinv hst hus
  · intro s b i y x ss size f n l mods r hb hq hup hy hcommit hsel hslots hne hs hp hn hf hinv
    obtain ⟨t, e, hphy, hsram, hcount, hbank⟩ :=
      exec_steps_silent hb hq hup hy hcommit hsel hslots hne hs hp hn hf hinv
    exact ⟨t, e, hphy, hsram, hcount, hbank⟩
  · intro s n l left b i v hist x r run' ss fi f mods mods' k hb hq hup hfsm hcommit hsel hview hne hs hlen hslots hf hinv
    have hyields := yields_stepFrom_silent (σ := { inst := n, bank := b, world := s, core := b.core }) (k := k) rfl hup hfsm rfl
      hcommit hsel hview hne hs hlen hslots hf hinv
    have hrun := hyields.quiet rfl ⟨hq, lt_of_bank hb⟩ i v hist
    rw [State.withCore_self hb] at hrun
    obtain ⟨hphy, hsram, hcount, hbank⟩ := hrun
    exact ⟨_, rfl, hphy, hsram, hcount, hbank⟩
  · intro s t n b i v hist hist' run' mods st k hst h hq hb hf
    exact run_commitStep_fails hst h hq hb hf

end Sys2Proof.Machine
end

section
/-! The timer (43_rollback_scheduler.md): no timer is cleared more often than it is armed (R349), and what the internal
operations TIMER_ARM, TIMER_CANCEL and TIMER_FIRE do (R342, R343, R345). -/

namespace Sys2Proof.Machine

variable {s t u : State} {n m : Nat} {b : Bank} {c c' : Core} {r : Req}

/-! ### The balance of armings and clears (R349) -/

/-- The records that count in the balance of R349. -/
def Record.setsTimer : Record → Bool
  | .arm _ _ | .cancel _ => true
  | .read _ _ | .write _ _ | .sleep _ | .fire _ => false

/-- The clears of a bank's timer in a record, with the one still to come where the timer is armed. -/
def clears (m : Nat) (rs : List Record) (armed : Bool) : Nat :=
  (rs.countP fun y => y == .cancel m) + if armed then 1 else 0

/-- The armings of a bank's timer in a record. -/
def armings (m : Nat) (rs : List Record) : Nat := rs.countP (Record.isArm m)

/-- Of this bank, clears and armings are in balance, as R349 asks. -/
def balanced (m : Nat) (rs : List Record) (armed : Bool) : Prop := clears m rs armed ≤ armings m rs

theorem State.restoresBalanced_iff :
    s.RestoresBalanced ↔ ∀ m c, s.core? m = some c → balanced m s.trace c.armed := Iff.rfl

/-- A timer that is no longer armed only lowers what is owed. -/
theorem balanced.disarm {rs : List Record} {a a' : Bool} (h : balanced m rs a) (ha : a' = true → a = true) :
    balanced m rs a' := by
  refine le_trans (Nat.add_le_add_left ?_ _) h
  cases a' with
  | false => exact Nat.zero_le _
  | true => rw [ha rfl]

/-- A record of something else does not count. -/
theorem balanced.other {rs : List Record} {a : Bool} {y : Record} (h : balanced m rs a) (hy : y.setsTimer = false) :
    balanced m (y :: rs) a := by
  unfold balanced clears armings at *
  cases y
  case arm | cancel => cases hy
  all_goals simpa [Record.isArm] using h

/-- An arming allows one clear more. -/
theorem balanced.arm {rs : List Record} {a : Bool} (h : balanced m rs a) (ms : Nat) (a' : Bool)
    (ha : m ≠ n → a' = a) : balanced m (.arm n ms :: rs) a' := by
  unfold balanced clears armings at *
  by_cases hn : n = m
  · have hle : (if a' = true then 1 else 0) ≤ 1 := by split <;> decide
    simp [Record.isArm, hn]
    omega
  · rw [ha (Ne.symm hn)]
    simpa [Record.isArm, hn] using h

/-- The clear of an armed timer is the one that was still to come. -/
theorem balanced.cancel {rs : List Record} {a a' : Bool} (h : balanced m rs a)
    (ha : m = n → a = true ∧ a' = false) (hne : m ≠ n → a' = a) : balanced m (.cancel n :: rs) a' := by
  unfold balanced clears armings at *
  by_cases hn : m = n
  · obtain ⟨rfl, rfl⟩ := ha hn
    subst hn
    simpa [Record.isArm] using h
  · rw [hne hn]
    simpa [Record.isArm, Ne.symm hn] using h

/-- The two actions of an agent that count: an arming and a test-and-clear. -/
def Req.setsTimer : Req → Bool
  | .arm _ | .testAndClear _ => true
  | _ => false

/-- Any other action records at most something else. -/
theorem performReq_trace (n : Nat) (s : State) (hr : r.setsTimer = false) :
    (performReq n r s).2.trace = s.trace ∨
      ∃ y : Record, y.setsTimer = false ∧ (performReq n r s).2.trace = y :: s.trace := by
  cases r
  case arm | testAndClear => cases hr
  case read off => exact .inr ⟨.read off (s.mmioRead off), rfl, rfl⟩
  case write off v =>
    obtain ⟨mm, ph, sr, un, e⟩ := s.storesOnly_mmioWrite off v
    exact .inr ⟨.write off v, rfl, by simp [performReq, e]⟩
  case sleep d => exact .inr ⟨.sleep d, rfl, rfl⟩
  case awaitDone o =>
    refine .inr ⟨.sleep (s.plat.donePollMs * 1000), rfl, ?_⟩
    show (s.awaitDone n o).2.trace = _
    rw [State.awaitDone_snd]
    rfl
  case claim sel k =>
    left
    show (s.claim n sel k).2.trace = _
    unfold State.claim
    repeat' split
    all_goals rfl
  case release =>
    left
    show (s.tryRelease n).2.trace = _
    rw [State.tryRelease_snd]
    unfold State.release
    repeat' split
    all_goals rfl
  all_goals exact .inl rfl

/-- No other action arms a timer. -/
theorem State.coreAfter_armed (hr : r.setsTimer = false) (h : (s.coreAfter r c).armed = true) : c.armed = true := by
  cases r
  case arm | testAndClear => cases hr
  case claim sel k =>
    simp only [State.coreAfter] at h
    split at h
    · cases h
    · exact h
  case release =>
    simp only [State.coreAfter] at h
    split at h <;> exact h
  case dropArmed =>
    simp only [State.coreAfter, Req.effect, Core.dropArmed] at h
    split at h
    · cases h
    · exact h
  case setFsm | setDone | addOrig | setCaptured | dropSel | dropSlots | dropCaptured =>
    simp only [State.coreAfter, Req.effect, Core.enter, Core.setDone, Core.addOrig, Core.setCaptured, Core.dropSel,
      Core.dropSlots, Core.dropCaptured] at h
    split at h <;> exact h
  case addMod v =>
    simp only [State.coreAfter, Req.effect, Core.addMod] at h
    split at h
    · split at h <;> exact h
    · exact h
  all_goals exact h

theorem Core.armed_of_canClear {now : Time} {fired : Bool} (h : c.canClear now fired = true) : c.armed = true := by
  cases fired
  · exact h
  · exact (Bool.and_eq_true _ _ ▸ h : _ ∧ _).1

/-- The test-and-clear records a clear exactly where it takes an armed timer. -/
theorem State.testAndClear_trace (hc : s.core? n = some c) (fired : Bool) : (s.testAndClear n fired).2.trace =
    if c.canClear s.now fired then .cancel n :: s.trace else s.trace := by
  unfold State.testAndClear
  simp only [show s.coreAt n = c by simp [State.coreAt, hc]]
  split <;> rfl

/-- An agent without a bank clears no timer. -/
theorem State.testAndClear_of_none (hc : s.core? n = none) (fired : Bool) : s.testAndClear n fired = (.flag false, s) := by
  unfold State.testAndClear
  cases fired <;> simp [State.coreAt, hc, Core.canClear, Core.timerDue]

namespace State.RestoresBalanced

/-- The balance holds where of every bank it follows from what held of it before. -/
theorem of_core? (h : s.RestoresBalanced)
    (ht : ∀ m c', t.core? m = some c' →
      ∃ c, s.core? m = some c ∧ (balanced m s.trace c.armed → balanced m t.trace c'.armed)) :
    t.RestoresBalanced := State.restoresBalanced_iff.2 fun m c' hc' =>
  let ⟨c, hc, himp⟩ := ht m c' hc'
  himp (State.restoresBalanced_iff.1 h m c hc)

/-- An arming of one bank's timer. -/
theorem arming (h : s.RestoresBalanced) (f : Core → Core) {ms : Nat} (hb : t.banks = (s.modifyCore n f).banks)
    (ht : t.trace = .arm n ms :: s.trace) : t.RestoresBalanced := by
  refine h.of_core? fun m c' hc' => ?_
  rw [State.core?_congr hb, State.core?_modifyCore] at hc'
  split at hc'
  next hn =>
    obtain ⟨c, hc, -⟩ := Option.map_eq_some_iff.1 hc'
    exact ⟨c, hc, fun hbal => ht ▸ hbal.arm ms _ fun hm => absurd hn.symm hm⟩
  next => exact ⟨c', hc', fun hbal => ht ▸ hbal.arm ms _ fun _ => rfl⟩

/-- A clear of one bank's timer, which was armed. -/
theorem clearing (h : s.RestoresBalanced) {f : Core → Core} (hf : ∀ c, (f c).armed = false)
    (ha : ∀ c, s.core? n = some c → c.armed = true) (hb : t.banks = (s.modifyCore n f).banks)
    (ht : t.trace = .cancel n :: s.trace) : t.RestoresBalanced := by
  refine h.of_core? fun m c' hc' => ?_
  rw [State.core?_congr hb, State.core?_modifyCore] at hc'
  split at hc'
  next hn =>
    subst hn
    obtain ⟨c, hc, rfl⟩ := Option.map_eq_some_iff.1 hc'
    exact ⟨c, hc, fun hbal => ht ▸ hbal.cancel (fun _ => ⟨ha c hc, hf c⟩) fun hm => absurd rfl hm⟩
  next hn => exact ⟨c', hc', fun hbal => ht ▸ hbal.cancel (fun hm => absurd hm.symm hn) fun _ => rfl⟩

/-- Something else, which arms no timer. -/
theorem otherwise (h : s.RestoresBalanced)
    (ht : t.trace = s.trace ∨ ∃ y : Record, y.setsTimer = false ∧ t.trace = y :: s.trace)
    (hc : ∀ m c', t.core? m = some c' → ∃ c, s.core? m = some c ∧ (c'.armed = true → c.armed = true)) :
    t.RestoresBalanced := by
  refine h.of_core? fun m c' hc' => ?_
  obtain ⟨c, hcm, ha⟩ := hc m c' hc'
  refine ⟨c, hcm, fun hbal => ?_⟩
  rcases ht with e | ⟨y, hy, e⟩
  · exact e ▸ hbal.disarm ha
  · exact e ▸ (hbal.disarm ha).other hy

/-- Every atomic action keeps the balance: an arming adds one that may be cleared, a test-and-clear is won only by a caller
that finds the timer armed, and no other action arms one. -/
theorem act (h : s.RestoresBalanced) (n : Nat) (r : Req) : (performReq n r s).2.RestoresBalanced := by
  cases hr : r.setsTimer
  · refine h.otherwise (performReq_trace n s hr) fun m c' hc' => ?_
    rcases performReq_core?_cases hc' with h' | ⟨-, c, hc, rfl⟩
    · exact ⟨c', h', id⟩
    · exact ⟨c, hc, State.coreAfter_armed hr⟩
  · cases r
    case arm ms => exact h.arming _ (performReq_banks n (.arm ms) s) rfl
    case testAndClear fired =>
      cases hc : s.core? n with
      | none =>
        show (s.testAndClear n fired).2.RestoresBalanced
        rwa [State.testAndClear_of_none hc]
      | some c =>
        have htrace := State.testAndClear_trace hc fired
        by_cases ha : c.canClear s.now fired = true
        · rw [if_pos ha] at htrace
          refine h.clearing (n := n) (f := Core.startRestore) (fun _ => rfl) (fun d hd => ?_) ?_ htrace
          · cases hc.symm.trans hd
            exact Core.armed_of_canClear ha
          · rw [performReq_banks, State.modifyCore_congr (g := Core.startRestore)]
            intro d hd
            cases hc.symm.trans hd
            simp [State.coreAfter, ha]
        · rw [if_neg ha] at htrace
          refine h.otherwise (.inl htrace) fun m c' hc' => ?_
          rcases performReq_core?_cases hc' with h' | ⟨rfl, d, hd, rfl⟩
          · exact ⟨c', h', id⟩
          · cases hc.symm.trans hd
            exact ⟨c, hc, by simp [State.coreAfter, ha]⟩
    all_goals cases hr

theorem portOnly (h : s.RestoresBalanced) (n : Nat) {f : Bank → Bank} (hf : portOnly f) :
    (s.modifyBank n f).RestoresBalanced := by
  refine h.otherwise (.inl rfl) fun m c' hc' => ?_
  rw [State.core?_modifyBank] at hc'
  split at hc'
  next =>
    obtain ⟨b, hb, rfl⟩ := Option.map_eq_some_iff.1 hc'
    obtain ⟨cmd, a0, a1, a2, a3, a4, st, busy, ov, e⟩ := hf b
    exact ⟨b.core, State.core?_of_bank hb, by rw [e]; exact id⟩
  next => exact ⟨c', hc', id⟩

theorem timerFire (h : s.RestoresBalanced) (n : Nat) : (s.timerFire n).RestoresBalanced := by
  refine h.otherwise ?_ fun m c' hc' => ⟨c', s.timerFire_core? n m ▸ hc', id⟩
  unfold State.timerFire
  split
  · split
    · exact .inr ⟨.fire n, rfl, rfl⟩
    · exact .inl rfl
  · exact .inl rfl

theorem timerArm (h : s.RestoresBalanced) (n : Nat) : (s.timerArm n).RestoresBalanced := by
  unfold State.timerArm
  split
  next ms _ =>
    split
    · exact h
    · exact h.arming (n := n) (ms := ms.toNat) _ rfl rfl
  next => exact h

theorem timerCancel (h : s.RestoresBalanced) (n : Nat) : (s.timerCancel n).RestoresBalanced := by
  unfold State.timerCancel
  split
  next ha =>
    exact h.clearing (n := n) (f := Core.timerCancel) (fun _ => rfl) (fun c hc => by simpa [hc] using ha) rfl rfl
  next => exact h

/-- A block reset gives every bank that there was a timer that is not armed. -/
theorem blockReset (h : s.RestoresBalanced) (hs : s.Sized) : s.blockReset.RestoresBalanced := by
  refine h.otherwise (.inl rfl) fun m c' hc' => ?_
  rw [State.core?_eq, show s.blockReset.banks = List.replicate s.plat.numInstances {} from rfl, List.getElem?_replicate] at hc'
  split at hc'
  next hm =>
    cases hc'
    obtain ⟨b, hb⟩ : ∃ b, s.banks[m]? = some b := ⟨_, List.getElem?_eq_getElem (hs.1 ▸ hm)⟩
    exact ⟨b.core, State.core?_of_bank hb, nofun⟩
  next => cases hc'

end State.RestoresBalanced

/-- What has the sizes of the configuration keeps them where neither changes. -/
theorem State.Sized.congr (h : s.Sized) (hp : t.plat = s.plat) (hb : t.banks.length = s.banks.length)
    (he : t.enabled.length = s.enabled.length) : t.Sized := ⟨hb.trans (hp ▸ h.1), he.trans (hp ▸ h.2)⟩

theorem State.Sized.act (h : s.Sized) (n : Nat) (r : Req) : (performReq n r s).2.Sized := by
  obtain ⟨-, -, hplat, -, -, -, -, -, -, hbanks, henabled⟩ := performReq_keeps n r s
  exact h.congr hplat hbanks henabled

theorem State.Sized.timerFire (h : s.Sized) (n : Nat) : (s.timerFire n).Sized := by
  unfold State.timerFire
  split
  · split
    · exact h.congr rfl (by simp) rfl
    · exact h
  · exact h

theorem State.Sized.timerArm (h : s.Sized) (n : Nat) : (s.timerArm n).Sized := by
  unfold State.timerArm
  split
  · split
    · exact h
    · exact h.congr rfl (by simp) rfl
  · exact h

theorem State.Sized.timerCancel (h : s.Sized) (n : Nat) : (s.timerCancel n).Sized := by
  unfold State.timerCancel
  split
  · exact h.congr rfl (by simp) rfl
  · exact h

/-- Every elementary change keeps the sizes and the balance. -/
theorem restoresBalanced_kept : Kept (fun s => s.Sized ∧ s.RestoresBalanced) True where
  poke _ _ _ h := h
  phyReg _ _ _ _ _ h := h
  sramWord _ _ _ _ _ h := h
  marks _ _ h := h
  act n r _ h := ⟨h.1.act n r, h.2.act n r⟩
  port _ n _ h hf := ⟨h.1.congr rfl (by simp) rfl, h.2.portOnly n hf⟩
  time _ _ h := h
  down _ _ h := h
  fired _ n h := ⟨h.1.timerFire n, h.2.timerFire n⟩
  reset s h := ⟨⟨List.length_replicate, List.length_replicate⟩, h.2.blockReset h.1⟩
  arm _ _ n h := ⟨h.1.timerArm n, h.2.timerArm n⟩
  cancel _ _ n h := ⟨h.1.timerCancel n, h.2.timerCancel n⟩
  queues _ _ _ _ _ _ _ h _ _ := h

/-- Settles O16: an induction over what a step can do, whose case for an atomic action is
`State.RestoresBalanced.act`. -/
theorem restoresKept : Obligations.RestoresKept :=
  fun s t hs hb e => restoresBalanced_kept.step s t (fun _ _ => .inl trivial) ⟨hs, hb⟩ e

/-! ### The internal operations -/

theorem State.timerArm_of_bank (hb : s.banks[n]? = some b) {ms : BitVec 32} (hms : b.core.dp.tms = some ms) (h0 : ms ≠ 0) :
    s.timerArm n = (s.withCore n b (b.core.timerArm s.now ms.toNat)).record (.arm n ms.toNat) := by
  rw [State.timerArm, State.core?_of_bank hb, Option.bind_some, hms]
  simp only [if_neg h0, State.modifyCore_of_bank hb]

theorem State.timerArm_of_no_duration (hb : s.banks[n]? = some b) (h : b.core.dp.tms = none ∨ b.core.dp.tms = some 0) :
    s.timerArm n = s := by
  rw [State.timerArm, State.core?_of_bank hb, Option.bind_some]
  rcases h with h | h
  · rw [h]
  · simp only [h, if_pos]

theorem State.timerCancel_of_bank (hb : s.banks[n]? = some b) :
    s.timerCancel n = if b.core.armed then (s.withCore n b b.core.timerCancel).record (.cancel n) else s := by
  rw [State.timerCancel, State.core?_of_bank hb, State.modifyCore_of_bank hb]
  rfl

theorem State.timerFire_of_bank (hb : s.banks[n]? = some b) : s.timerFire n =
    if b.fires s.now then { s.traced [.fire n] with banks := s.banks.set n { b with path := some [] } } else s := by
  rw [State.timerFire, State.bank?, hb, State.modifyBank_of_bank hb]
  rfl

/-- A timer is due where it is armed and its deadline has come (R345). -/
theorem Core.timerDue_iff {now : Time} : c.timerDue now = true ↔ c.armed = true ∧ ∃ d, c.deadline = some d ∧ d ≤ now := by
  unfold Core.timerDue
  cases c.deadline <;> simp

theorem Core.not_timerDue {now : Time}
    (h : c.armed = false ∨ c.deadline = none ∨ ∃ d, c.deadline = some d ∧ now < d) : c.timerDue now = false := by
  rw [Bool.eq_false_iff, Ne, Core.timerDue_iff]
  rintro ⟨ha, d, hd, hle⟩
  rcases h with h | h | ⟨d', hd', hlt⟩
  · simp [ha] at h
  · simp [hd] at h
  · cases hd.symm.trans hd'
    exact absurd hle (Nat.not_le.2 hlt)

/-- An internal operation acts on the bank it is issued for (log 18). -/
theorem State.onInstance_of_bank (hb : s.banks[s.cur]? = some b) (f : State → Nat → State) :
    s.onInstance f = .next (f s s.cur) := if_pos (lt_of_bank hb)

/-- Settles O48: each of the two operations on the bank it is issued for. -/
theorem timerArmAndCancel : Obligations.TimerArmAndCancel := by
  intro s b hb
  have harm : exec .timerArm s = .next (s.timerArm s.cur) := State.onInstance_of_bank hb _
  have hcancel : exec .timerCancel s = .next (s.timerCancel s.cur) := State.onInstance_of_bank hb _
  refine ⟨fun ms hms h0 => ?_, fun h => ?_, fun ha => ?_, fun ha => ?_⟩
  · rw [harm, State.timerArm_of_bank hb hms h0]
    rfl
  · rw [harm, State.timerArm_of_no_duration hb h]
  · rw [hcancel, State.timerCancel_of_bank hb, if_pos ha]
    rfl
  · rw [hcancel, State.timerCancel_of_bank hb, if_neg (Bool.eq_false_iff.1 ha)]

/-- Settles O49: the timer fires where it is due, and once for each arming. -/
theorem timerFires : Obligations.TimerFires := by
  intro s b hb
  have hfire : exec .timerFire s = .next (s.timerFire s.cur) := State.onInstance_of_bank hb _
  refine ⟨fun d ha hd hle hp => ?_, fun h => ?_⟩
  · have hdue : b.fires s.now = true := by
      rw [Bank.fires, Core.timerDue_iff.2 ⟨ha, d, hd, hle⟩]
      exact bne_iff_ne.2 hp
    rw [hfire, State.timerFire_of_bank hb, if_pos hdue]
  · have hno : b.fires s.now = false := by
      rw [Bank.fires, Bool.and_eq_false_iff]
      rcases h with h | h | h | h
      · exact .inl (Core.not_timerDue (.inl h))
      · exact .inl (Core.not_timerDue (.inr (.inl h)))
      · exact .inl (Core.not_timerDue (.inr (.inr h)))
      · exact .inr (by simp [h])
    rw [hfire, State.timerFire_of_bank hb, if_neg (Bool.eq_false_iff.1 hno)]

end Sys2Proof.Machine
end

section
/-! The moves of a rollback path (43_rollback_scheduler.md R345 to R350), counted: a path that is moved to its end leaves what
its program leaves where nothing else moves, and until its last move the bank is in ROLLING_BACK. -/

namespace Sys2Proof.Machine

variable {s t u : State} {n j : Nat} {b : Bank} {c : Core} {r : Req} {p : Prog} {hist h : List Resp} {a : Resp}

/-! ### An access looks at no bank -/

theorem State.phyWrite_withBanks (s : State) (bs : List Bank) (p l : Nat) (a : BitVec 12) (d : Byte) (k : Bool) :
    ({ s with banks := bs } : State).phyWrite p l a d k = { s.phyWrite p l a d k with banks := bs } := by
  have hbeside := State.phyWrite_beside (s := s) bs s.mmio s.trace s.now p l a d k
  obtain ⟨ph, sr, un, e⟩ := s.phyWrite_eq p l a d k
  rw [e] at hbeside ⊢
  exact hbeside

theorem State.phyTake_withBanks (s : State) (bs : List Bank) (p l : Nat) (r : LaneRegs) :
    ({ s with banks := bs } : State).phyTake p l r = { s.phyTake p l r with banks := bs } := by
  unfold State.phyTake
  dsimp only
  generalize decodeM2p (s.mmio.readWord r.ctl) = o
  rcases o with _ | i
  · rfl
  cases i
  case m2pWriteCommitted a d =>
    exact congrArg (·.postResponse r 5 0) (State.phyWrite_withBanks (s.clearPending r (m2pWord 2 a d)) bs p l a d true)
  case m2pWriteUncommitted a d => exact State.phyWrite_withBanks (s.clearPending r (m2pWord 1 a d)) bs p l a d false
  all_goals rfl

theorem State.mmioWrite_withBanks (s : State) (bs : List Bank) (off v : Word) :
    ({ s with banks := bs } : State).mmioWrite off v = { s.mmioWrite off v with banks := bs } := by
  unfold State.mmioWrite
  dsimp only
  split
  · split
    · exact State.phyTake_withBanks (s.pokeWord off (s.written off v)) bs _ _ _
    · rfl
  · rfl

/-! ### Where a path stands -/

/-- The actions a restore makes before `fsm <- DONE` (43_rollback_scheduler.md R346 to R348): accesses with their waits, and
the writes that record the outcome. -/
def Req.restores : Req → Bool
  | .read _ | .write _ _ | .time | .sleep _ | .setApplied _ | .setRbStatus _ | .setDone => true
  | _ => false

/-- Such an action, and `fsm <- DONE`, act the same wherever the path stands. -/
theorem performReq_suspend (hr : r.restores = true ∨ r = .setFsm .done) :
    performReq n r (s.suspend (.path n) h) = ((performReq n r s).1, (performReq n r s).2.suspend (.path n) h) := by
  have hlocal : ∀ f : Core → Core, (s.suspend (.path n) h).modifyCore n f = (s.modifyCore n f).suspend (.path n) h := by
    intro f
    simp only [State.suspend, State.modifyCore, State.modifyBank, List.modify_modify_eq]
    rfl
  rcases hr with hr | rfl
  · cases r
    case write off v =>
      have hbanks : (s.mmioWrite off v).banks = s.banks := by
        obtain ⟨m, ph, sr, un, e⟩ := s.storesOnly_mmioWrite off v
        rw [e]
      show (some Resp.unit, (State.mmioWrite _ off v).record (.write off v)) = _
      rw [State.suspend, State.modifyBank, State.mmioWrite_withBanks, ← hbanks]
      rfl
    case setApplied | setRbStatus | setDone => exact congrArg (some Resp.unit, ·) (hlocal _)
    case read | time | sleep => rfl
    all_goals cases hr
  · exact congrArg (some Resp.unit, ·) (hlocal _)

theorem State.suspend_suspend : (s.suspend (.path n) h).suspend (.path n) hist = s.suspend (.path n) hist := by
  simp only [State.suspend, State.modifyBank, List.modify_modify_eq]
  rfl

theorem State.finish_suspend : (s.suspend (.path n) h).finish (.path n) = s.finish (.path n) := by
  simp only [State.suspend, State.finish, State.modifyBank, List.modify_modify_eq]
  rfl

/-- The rest of a restore: actions that leave the bank in ROLLING_BACK, and `fsm <- DONE` as the last of all. -/
inductive Prog.Restores : Prog → Prop
  | last (st : Status) : Prog.Restores (.act (.setFsm .done) fun _ => .ret st)
  | act {r : Req} {k : Resp → Prog} (hr : r.restores = true) (hk : ∀ a, Prog.Restores (k a)) : Prog.Restores (.act r k)

theorem Req.not_mayWait_of_restores (hr : r.restores = true) : r.mayWait = false := by
  cases r
  case read | write | time | sleep | setApplied | setRbStatus | setDone => rfl
  all_goals cases hr

/-- An agent stops before a visible action. -/
theorem runInvisible_of_visible {who : Runner} {k : Resp → Prog} (hv : r.visible = true) :
    runInvisible who hist (.act r k) s = s.suspend who hist := by rw [runInvisible, if_pos hv]

/-- The invisible actions at the head of a restore overwrite where the path stands. -/
theorem runInvisible_suspend (hp : p.Restores) :
    runInvisible (.path n) hist p (s.suspend (.path n) h) = runInvisible (.path n) hist p s := by
  induction hp generalizing s hist with
  | last st => exact State.suspend_suspend
  | @act r k hr hk ih =>
    unfold runInvisible
    split
    · exact State.suspend_suspend
    · obtain ⟨a, t, e⟩ := performReq_answers n r s (Req.not_mayWait_of_restores hr)
      simp only [Runner.inst, performReq_suspend (.inl hr), e]
      exact ih a

/-- The registers are those of ROLLING_BACK, with no timer armed (R350). -/
def Core.rolling (c : Core) : Prop := c.fsm = .rollingBack ∧ c.armed = false ∧ c.deadline = none

theorem Core.startRestore_rolling (c : Core) : c.startRestore.rolling := ⟨rfl, rfl, rfl⟩

/-- A restore leaves them so until its last action. -/
theorem Core.rolling.after (hc : c.rolling) (hr : r.restores = true) : (s.coreAfter r c).rolling := by
  cases r
  case setDone =>
    simp only [State.coreAfter, Req.effect, Core.setDone]
    split <;> exact hc
  case read | write | time | sleep | setApplied | setRbStatus => exact hc
  all_goals cases hr

/-- There is such a bank, and it is in ROLLING_BACK. -/
def State.rolling (s : State) (n : Nat) : Prop := ∃ b, s.banks[n]? = some b ∧ b.core.rolling

theorem State.rolling.act (hs : s.rolling n) (hr : r.restores = true) : (performReq n r s).2.rolling n := by
  obtain ⟨b, hb, hc⟩ := hs
  refine ⟨{ b with core := s.coreAfter r b.core }, ?_, hc.after hr⟩
  rw [performReq_banks, State.modifyCore_of_bank hb]
  exact State.withCore_bank (lt_of_bank hb) _

/-- What `State.rollsBack` says of one state: the path is under way, and its bank is in ROLLING_BACK. -/
def State.midway (s : State) (n : Nat) : Prop :=
  ∃ b, s.banks[n]? = some b ∧ b.core.fsm = .rollingBack ∧ b.core.armed = false ∧ b.core.deadline = none ∧ b.path ≠ none

theorem State.rollsBack_iff :
    s.rollsBack n j ↔ ∀ i, 0 < i → i < j → ((fun t : State => t.movePath n)^[i] s).midway n := Iff.rfl

theorem State.suspend_path_of_bank (hb : s.banks[n]? = some b) :
    s.suspend (.path n) hist = { s with banks := s.banks.set n { b with path := some hist } } :=
  State.modifyBank_of_bank hb _

theorem State.suspend_path_bank (hb : s.banks[n]? = some b) :
    (s.suspend (.path n) hist).banks[n]? = some { b with path := some hist } := by
  rw [State.suspend_path_of_bank hb]
  exact List.getElem?_set_self (lt_of_bank hb)

theorem State.rolling.midway (hs : s.rolling n) : (s.suspend (.path n) hist).midway n :=
  let ⟨_, hb, hfsm, harmed, hdeadline⟩ := hs
  ⟨_, State.suspend_path_bank hb, hfsm, harmed, hdeadline, nofun⟩

/-- A path that has had these answers makes its next action. -/
theorem State.movePath_of_bank (hb : s.banks[n]? = some b) (hpath : b.path = some hist) :
    s.movePath n = moveAgent (.path n) hist ((pathProg s.plat).after hist) s := by
  have hbank : (s.bank? n).bind (·.path) = some hist := by rw [State.bank?, hb]; exact hpath
  rw [State.movePath, hbank]

/-- The path that has had these answers has this much of its restore before it. -/
structure State.restoringAt (s : State) (n : Nat) (hist : List Resp) (p : Prog) : Prop where
  rolling : s.rolling n
  after : (pathProg s.plat).after hist = p
  rest : p.Restores

/-- An action of the restore that is not the last leads to another point of it. -/
theorem State.restoringAt.act {k : Resp → Prog} (h : s.restoringAt n hist (.act r k)) (hr : r.restores = true)
    (hk : (k a).Restores) (hact : performReq n r s = (some a, t)) : t.restoringAt n (hist ++ [a]) (k a) := by
  have hrolling := h.rolling.act hr
  have hplat := (performReq_keeps n r s).2.2.1
  rw [hact] at hrolling hplat
  refine ⟨hrolling, ?_, hk⟩
  rw [hplat, Prog.after_append, h.after]
  show (k a).after [] = k a
  cases k a <;> rfl

/-! ### Moves and runs -/

/-- Run as a rollback path with nothing else moving, the program makes `j` visible actions, each with an answer, and leaves the
second state. -/
inductive Prog.goes (n : Nat) : Prog → State → Nat → State → Prop
  | ret (st : Status) (s : State) : Prog.goes n (.ret st) s 0 (s.finish (.path n))
  | visible {r : Req} {k : Resp → Prog} {s t u : State} {a : Resp} {j : Nat} (hv : r.visible = true)
      (hp : performReq n r s = (some a, t)) (h : Prog.goes n (k a) t j u) : Prog.goes n (.act r k) s (j + 1) u
  | invisible {r : Req} {k : Resp → Prog} {s t u : State} {a : Resp} {j : Nat} (hv : r.visible = false)
      (hp : performReq n r s = (some a, t)) (h : Prog.goes n (k a) t j u) : Prog.goes n (.act r k) s j u

/-- One visible action of a path, with what follows it up to the next one. -/
theorem moveAgent_restores {k : Resp → Prog} (hv : r.visible = true) (hr : r.restores = true ∨ r = .setFsm .done)
    (hp : performReq n r s = (some a, t)) :
    moveAgent (.path n) hist (.act r k) (s.suspend (.path n) h) =
      runInvisible (.path n) (hist ++ [a]) (k a) (t.suspend (.path n) h) := by
  rw [moveAgent]
  simp only [Runner.inst, performReq_suspend hr, hp, hv, if_true]

/-- A restore that is moved step by step leaves what it leaves when it is run, and is midway before each of its moves. -/
theorem Prog.goes.moves (hg : p.goes n s j u) (h : s.restoringAt n hist p) :
    (fun t : State => t.movePath n)^[j] (runInvisible (.path n) hist p s) = u ∧
      ∀ i < j, ((fun t : State => t.movePath n)^[i] (runInvisible (.path n) hist p s)).midway n := by
  induction hg generalizing hist with
  | ret st s => cases h.rest
  | @visible r k s t u a j hv hact hg ih =>
    have hmove (hr : r.restores = true ∨ r = .setFsm .done) : (s.suspend (.path n) hist).movePath n =
        runInvisible (.path n) (hist ++ [a]) (k a) (t.suspend (.path n) hist) := by
      obtain ⟨b, hb, -⟩ := h.rolling
      have hafter : (pathProg (s.suspend (.path n) hist).plat).after hist = .act r k := h.after
      rw [State.movePath_of_bank (State.suspend_path_bank hb) rfl, hafter, moveAgent_restores hv hr hact]
    rw [runInvisible_of_visible hv]
    cases h.rest with
    | last st =>
      cases hg
      refine ⟨(hmove (.inr rfl)).trans (State.finish_suspend (s := t)), fun i hi => ?_⟩
      obtain rfl : i = 0 := by omega
      exact h.rolling.midway
    | act hr hk =>
      have hnext := (hmove (.inl hr)).trans (runInvisible_suspend (hk a))
      obtain ⟨hend, hmid⟩ := ih (h.act hr (hk a) hact)
      refine ⟨by rw [Function.iterate_succ_apply, hnext, hend], fun i hi => ?_⟩
      cases i with
      | zero => exact h.rolling.midway
      | succ i =>
        rw [Function.iterate_succ_apply, hnext]
        exact hmid i (Nat.lt_of_succ_lt_succ hi)
  | @invisible r k s t u a j hv hact hg ih =>
    cases h.rest with
    | last st => cases hv
    | act hr hk =>
      have hhere : runInvisible (.path n) hist (.act r k) s = runInvisible (.path n) (hist ++ [a]) (k a) t := by
        rw [runInvisible, if_neg (Bool.eq_false_iff.1 hv)]
        simp only [Runner.inst, hact]
      rw [hhere]
      exact ih (h.act hr (hk a) hact)

theorem performReq_quiet_of (hq : s.quiet) (hact : performReq n r s = (some a, t)) : t.quiet := by
  have h := performReq_quiet n r s hq
  rwa [hact] at h

/-- What a path comes to is what its run leaves. -/
theorem Prog.goes.run_eq (hg : p.goes n s j u) (hq : s.quiet) (hist : List Resp) : run (.path n) hist p s = u := by
  induction hg generalizing hist with
  | ret st s => rfl
  | visible _ hact _ ih | invisible _ hact _ ih =>
    rw [run_act_some (.path n) _ _ _ hq hact]
    exact ih (performReq_quiet_of hq hact) _

/-- Where nothing else moves a restore comes to its end. -/
theorem Prog.Restores.goes (hp : p.Restores) (hq : s.quiet) (hist : List Resp) :
    ∃ j, p.goes n s j (run (.path n) hist p s) := by
  induction hp generalizing s hist with
  | last st =>
    rw [run_act_some (.path n) hist (.setFsm .done) _ hq (a := .unit) (t := s.modifyCore n (·.enter .done)) rfl]
    exact ⟨1, .visible rfl rfl (.ret st _)⟩
  | @act r k hr hk ih =>
    obtain ⟨a, t, hact⟩ := performReq_answers n r s (Req.not_mayWait_of_restores hr)
    obtain ⟨j, hg⟩ := ih a (performReq_quiet_of hq hact) (hist ++ [a])
    rw [run_act_some (.path n) _ _ _ hq hact]
    cases hv : r.visible
    · exact ⟨j, .invisible hv hact hg⟩
    · exact ⟨j + 1, .visible hv hact hg⟩

end Sys2Proof.Machine
end

section
/-! The rollback path (43_rollback_scheduler.md R345 to R351): one that wins the test-and-clear and restores the originals, and
one that loses it. -/

namespace Sys2Proof.Machine

variable {s t u : State} {n j : Nat} {b : Bank} {c : Core} {x : Selector} {ss : List Slot} {ws : List (Nat × Word)}
  {l : Nat} {r : LaneRegs} {h : List Resp}

/-! ### The actions of a restore -/

/-- Before the rest of a restore the code is a part of it. -/
structure Code.Restores {α : Type} (c : Code α) : Prop where
  rest : ∀ k : α → Prog, (∀ a, (k a).Restores) → (c k).Restores

namespace Code.Restores

variable {α β : Type}

theorem pure (a : α) : Code.Restores (Pure.pure a : Code α) := ⟨fun _ hk => hk a⟩

theorem bind {x : Code α} {f : α → Code β} (hx : x.Restores) (hf : ∀ a, (f a).Restores) : (x >>= f).Restores :=
  ⟨fun k hk => hx.rest _ fun a => (hf a).rest k hk⟩

theorem ite {c : Prop} [Decidable c] {x y : Code α} (hx : x.Restores) (hy : y.Restores) :
    (if c then x else y).Restores := by
  split
  · exact hx
  · exact hy

/-- An action whose answer is passed on. -/
theorem act {r : Req} {f : Resp → α} (h : r.restores = true) : Code.Restores (fun k => .act r fun a => k (f a)) :=
  ⟨fun _ hk => .act h fun a => hk (f a)⟩

end Code.Restores

section

variable (plat : Platform) (p l : Nat)

theorem memRead_restores (off : Word) : (memRead off).Restores := .act rfl
theorem memWrite_restores (off v : Word) : (memWrite off v).Restores := .act (f := fun _ => ()) rfl
theorem readTime_restores : readTime.Restores := .act rfl
theorem sleepUs_restores (d : Time) : (sleepUs d).Restores := .act (f := fun _ => ()) rfl

theorem waitClearFrom_restores (reg mask : Word) (timeout t0 : Time) (n : Nat) :
    (waitClearFrom plat reg mask timeout t0 n).Restores := by
  induction n with
  | zero => exact .pure _
  | succ n ih =>
    exact .bind (memRead_restores _) fun _ => .ite (.pure _) <|
      .bind readTime_restores fun _ => .ite (.pure _) <| .bind (sleepUs_restores _) fun _ => ih

theorem waitClear_restores (reg mask : Word) (timeout : Time) : (waitClear plat reg mask timeout).Restores :=
  .bind readTime_restores fun _ => waitClearFrom_restores ..

theorem waitAckFrom_restores (sts : Word) (expected : Nat) (t0 : Time) (n : Nat) :
    (waitAckFrom plat sts expected t0 n).Restores := by
  induction n with
  | zero => exact .pure _
  | succ n ih =>
    exact .bind (memRead_restores _) fun _ => .ite (.pure _) <|
      .bind readTime_restores fun _ => .ite (.pure _) <| .bind (sleepUs_restores _) fun _ => ih

theorem waitAck_restores (expected : Nat) : (waitAck plat p l expected).Restores :=
  .bind readTime_restores fun _ => waitAckFrom_restores ..

theorem clearResponse_restores : (clearResponse plat p l).Restores := memWrite_restores ..

theorem busReset_restores : (busReset plat p l).Restores :=
  .bind (memWrite_restores ..) fun _ => .bind (waitClear_restores ..) fun _ => clearResponse_restores ..

/-- An attempt that fails resets the bus first (R157). -/
theorem failed_restores {α : Type} (a : α) : (do busReset plat p l; return a : Code α).Restores :=
  .bind (busReset_restores ..) fun _ => .pure a

/-- One that succeeds clears the response (R166). -/
theorem succeeded_restores {α : Type} (a : α) : (do clearResponse plat p l; return a : Code α).Restores :=
  .bind (clearResponse_restores ..) fun _ => .pure a

theorem writeAttempt_restores (a : BitVec 12) (d : Byte) (committed : Bool) :
    (writeAttempt plat p l a d committed).Restores :=
  .bind (waitClear_restores ..) fun _ => .ite (failed_restores ..) <|
    .bind (clearResponse_restores ..) fun _ => .bind (memWrite_restores ..) fun _ => .bind (waitClear_restores ..) fun _ =>
      .ite (failed_restores ..) <| .ite
        (.bind (waitAck_restores ..) fun _ => .ite (failed_restores ..) (succeeded_restores ..))
        (.bind (memRead_restores _) fun _ => .ite (failed_restores ..) (succeeded_restores ..))

theorem mbWriteFrom_restores (a : BitVec 12) (d : Byte) (committed : Bool) (n : Nat) :
    (mbWriteFrom plat p l a d committed n).Restores := by
  induction n with
  | zero => exact writeAttempt_restores ..
  | succ n ih => exact .bind (writeAttempt_restores ..) fun _ => .ite (.pure _) ih

theorem mbWrite_restores (a : BitVec 12) (d : Byte) (committed : Bool) : (mbWrite plat p l a d committed).Restores :=
  mbWriteFrom_restores ..

theorem sramWrite_restores (addr data : BitVec 16) : (sramWrite plat p l addr data).Restores :=
  .bind (mbWrite_restores ..) fun _ => .ite (.pure _) <| .bind (mbWrite_restores ..) fun _ => .ite (.pure _) <|
    .bind (mbWrite_restores ..) fun _ => .ite (.pure _) (mbWrite_restores ..)

theorem onLanes_restores {op : Nat → Code Status} (h : ∀ l, (op l).Restores) (ls : List Nat) : (onLanes op ls).Restores := by
  induction ls with
  | nil => exact .pure _
  | cons l rest ih => exact .bind (h l) fun _ => .ite (.pure _) ih

theorem writeOffsets_restores (ws : List (Nat × Word)) : (writeOffsets ws).Restores := by
  induction ws with
  | nil => exact .pure _
  | cons w rest ih => exact .bind (memWrite_restores ..) fun _ => ih

theorem writeBusSlots_restores (ws : List (Nat × Word)) : (writeBusSlots plat p l ws).Restores := by
  induction ws with
  | nil => exact .pure _
  | cons w rest ih => exact .bind (mbWrite_restores ..) fun _ => .ite (.pure _) ih

theorem writeSramWords_restores (ws : List (Nat × Word)) : (writeSramWords plat p l ws).Restores := by
  induction ws with
  | nil => exact .pure _
  | cons w rest ih => exact .bind (sramWrite_restores ..) fun _ => .ite (.pure _) ih

theorem writeV_restores (sel : Option Selector) (copy : List (Nat × Word)) : (writeV plat sel copy).Restores := by
  unfold writeV
  split
  · exact .bind (writeOffsets_restores _) fun _ => .pure _
  · exact .bind (writeOffsets_restores _) fun _ => .pure _
  · exact onLanes_restores (fun _ => writeBusSlots_restores ..) _
  · exact onLanes_restores (fun _ => writeSramWords_restores ..) _
  · exact .bind (writeOffsets_restores _) fun _ => .pure _
  · exact .pure _

end

/-! ### The program of the path -/

/-- The writes that follow the restore (R346, R348). -/
def restoreWrites (st : Status) : List Req :=
  (if st = .ok then [.setApplied false] else []) ++ [.setRbStatus st, .setDone, .setFsm .done]

/-- The end of a restore that gave this status. -/
def restoreEnd (st : Status) : Prog := performAll (restoreWrites st) fun _ => .ret st

/-- A path that has lost the test-and-clear, once it has sampled `done`: it waits where that is 0 (R346, R351). -/
def lostAfter : Bool → Prog
  | true => readRbStatus .ret
  | false => awaitDone false fun _ => readRbStatus .ret

/-- The path after its test-and-clear: with the selector and snapshot it restores, or with none. -/
def pathAfter (plat : Platform) : Option (Option Selector × List Slot) → Prog
  | some (sel, slots) => writeOrig plat sel slots restoreEnd
  | none => sampleDone lostAfter

theorem pathProg_eq (plat : Platform) : pathProg plat = testAndClear true (pathAfter plat) := by
  rw [pathProg, rollbackPathCode, rollbackNow, Code.bind_apply]
  congr 1
  funext o
  rcases o with _ | ⟨sel, slots⟩
  · show (sampleDone >>= _ : Code Status) .ret = sampleDone lostAfter
    rw [Code.bind_apply]
    congr 1
    funext done
    cases done <;> rfl
  · show (writeOrig plat sel slots >>= _ : Code Status) .ret = writeOrig plat sel slots restoreEnd
    rw [Code.bind_apply]
    congr 1
    funext st
    rw [restoreEnd, restoreWrites]
    by_cases h : st = .ok
    · rw [if_pos h, decide_eq_true h]
      rfl
    · rw [if_neg h, decide_eq_false h]
      rfl

theorem restoreEnd_restores (st : Status) : (restoreEnd st).Restores := by
  have hrecords : (performAll [.setRbStatus st, .setDone, .setFsm .done] fun _ => .ret st).Restores :=
    .act rfl fun _ => .act rfl fun _ => .last st
  unfold restoreEnd restoreWrites
  split
  · exact .act rfl fun _ => hrecords
  · exact hrecords

theorem pathAfter_restores (plat : Platform) (sel : Option Selector) (slots : List Slot) :
    (pathAfter plat (some (sel, slots))).Restores :=
  (writeV_restores plat _ _).rest _ restoreEnd_restores

/-! ### The test-and-clear -/

/-- The first move of a path is its test-and-clear (R346). -/
theorem State.movePath_testAndClear (hb : s.banks[n]? = some b) (hp : b.path = some []) : s.movePath n =
    runInvisible (.path n) [(s.testAndClear n true).1] (pathAfter s.plat (s.testAndClear n true).1.asOwner)
      (s.testAndClear n true).2 := by
  rw [State.movePath_of_bank hb hp, pathProg_eq, testAndClear_apply]
  rfl

/-- A path whose timer is due wins the test-and-clear (R346). -/
theorem State.testAndClear_won (hb : s.banks[n]? = some b) (hdue : b.core.timerDue s.now = true) :
    s.testAndClear n true = (.owner b.core.sel b.core.snapshot, (s.record (.cancel n)).withCore n b b.core.startRestore) := by
  rw [State.testAndClear, State.coreAt_of_bank hb, State.modifyCore_of_bank hb]
  exact if_pos hdue

theorem State.testAndClear_lost (hb : s.banks[n]? = some b) (hdue : b.core.timerDue s.now = false) :
    s.testAndClear n true = (.flag false, s) := by
  rw [State.testAndClear, State.coreAt_of_bank hb]
  exact if_neg (Bool.eq_false_iff.1 hdue)

/-- A path that wins leaves what its restore leaves, and is in ROLLING_BACK from its first move to its last (R350). -/
theorem State.movePath_restores (hb : s.banks[n]? = some b) (hp : b.path = some []) (hdue : b.core.timerDue s.now = true)
    (hg : (pathAfter s.plat (some (b.core.sel, b.core.snapshot))).goes n
      ((s.record (.cancel n)).withCore n b b.core.startRestore) j u) :
    (fun t : State => t.movePath n)^[j + 1] s = u ∧ s.rollsBack n (j + 1) := by
  have hfirst := State.movePath_testAndClear hb hp
  rw [State.testAndClear_won hb hdue] at hfirst
  have hat : ((s.record (.cancel n)).withCore n b b.core.startRestore).restoringAt n [.owner b.core.sel b.core.snapshot]
      (pathAfter s.plat (some (b.core.sel, b.core.snapshot))) := by
    have hbank := State.withCore_bank (s := s.record (.cancel n)) (b := b) (lt_of_bank hb) b.core.startRestore
    refine ⟨⟨_, hbank, b.core.startRestore_rolling⟩, ?_, pathAfter_restores ..⟩
    show (pathProg s.plat).after _ = _
    rw [pathProg_eq]
    show (pathAfter s.plat (some _)).after [] = _
    cases pathAfter s.plat (some (b.core.sel, b.core.snapshot)) <;> rfl
  obtain ⟨hend, hmid⟩ := hg.moves hat
  refine ⟨by rw [Function.iterate_succ_apply, hfirst]; exact hend, State.rollsBack_iff.2 fun i hi hij => ?_⟩
  obtain ⟨i, rfl⟩ := Nat.exists_eq_add_of_le' hi
  rw [Function.iterate_succ_apply, hfirst]
  exact hmid i (Nat.lt_of_succ_lt_succ hij)

/-! ### The restore -/

/-- The registers after a restore that gave this status (R346, R348). -/
def Core.restored (st : Status) (c : Core) : Core :=
  { c with
    armed := false, deadline := none, appliedMod := if st = .ok then false else c.appliedMod, rbStatus := st, done := true
    fsm := .done }

theorem foldl_restoreWrites (now : Time) (st : Status) (c : Core) :
    (restoreWrites st).foldl (fun c r => r.effect now c) c.startRestore = c.restored st := by
  by_cases h : st = .ok <;>
    simp [restoreWrites, h, Req.effect, Core.restored, Core.startRestore, Core.timerCancel, Core.setDone, Core.enter,
      Core.mayEnter, stepTransition]

theorem Req.visible_of_isLocal {r : Req} (hr : r.isLocal = true) : r.visible = true := by
  cases r
  case read | write | time | sleep | sampleShutdown | sampleDone | awaitDone | pollShutdown | readRbStatus | claim | release |
    testAndClear | arm => cases hr
  all_goals rfl

/-- Writes of the path's own bank, one after the other. -/
theorem goes_performAll {rs : List Req} {k : Unit → Prog} (hn : n < s.banks.length) (hrs : ∀ r ∈ rs, r.isLocal = true)
    (hg : (k ()).goes n (s.withCore n b (rs.foldl (fun c r => r.effect s.now c) c)) j u) :
    (performAll rs k).goes n (s.withCore n b c) (j + rs.length) u := by
  induction rs generalizing c with
  | nil => exact hg
  | cons r rest ih =>
    have hr : r.isLocal = true := hrs r (.head _)
    have hact : performReq n r (s.withCore n b c) = (some .unit, s.withCore n b (r.effect s.now c)) := by
      rw [performReq_local _ _ _ hr, State.withCore_modifyCore hn]
      rfl
    exact .visible (Req.visible_of_isLocal hr) hact (ih (fun y hy => hrs y (.tail _ hy)) hg)

/-- The end of a restore. -/
theorem goes_restoreEnd (hn : n < s.banks.length) (st : Status) :
    (restoreEnd st).goes n (s.withCore n b c.startRestore) (restoreWrites st).length
      { s with banks := s.banks.set n { b with path := none, core := c.restored st } } := by
  have hlocal : ∀ r ∈ restoreWrites st, r.isLocal = true := by
    unfold restoreWrites
    split <;> simp [Req.isLocal]
  have hfinish : (s.withCore n b (c.restored st)).finish (.path n) =
      { s with banks := s.banks.set n { b with path := none, core := c.restored st } } := by
    rw [State.finish, State.modifyBank_of_bank (State.withCore_bank hn _)]
    simp only [State.withCore, List.set_set]
  have hg := goes_performAll (b := b) (c := c.startRestore) hn hlocal (k := fun _ => .ret st) (.ret st _)
  rwa [foldl_restoreWrites, hfinish, Nat.zero_add] at hg

/-- MMIO writes that only store their words. -/
theorem goes_writeOffsets {k : Unit → Prog} (hp : ∀ w ∈ ws, plainOffset s.plat (BitVec.ofNat 32 w.1) = true)
    (hg : (k ()).goes n ((s.stored ws).after (s.stored ws).mmio (mmioRecords ws).reverse) j u) :
    (writeOffsets ws k).goes n s (j + ws.length) u := by
  induction ws generalizing s with
  | nil => exact hg
  | cons w rest ih =>
    obtain ⟨a, v⟩ := w
    have hafter : (s.stored ((a, v) :: rest)).after (s.stored ((a, v) :: rest)).mmio (mmioRecords ((a, v) :: rest)).reverse =
        ((((s.pokeWord (BitVec.ofNat 32 a) v).record (.write (BitVec.ofNat 32 a) v)).stored rest).after
          (((s.pokeWord (BitVec.ofNat 32 a) v).record (.write (BitVec.ofNat 32 a) v)).stored rest).mmio
          (mmioRecords rest).reverse) := by
      simp [State.stored, State.after, mmioRecords, State.pokeWord, State.record]
    rw [hafter] at hg
    have hact : performReq n (.write (BitVec.ofNat 32 a) v) s =
        (some .unit, (s.pokeWord (BitVec.ofNat 32 a) v).record (.write (BitVec.ofNat 32 a) v)) := by
      rw [← State.mmioWrite_plain s _ v (hp (a, v) (.head _))]
      rfl
    exact .visible rfl hact (ih (fun w hw => hp w (.tail _ hw)) hg)

/-- The path's restore writes the originals of the bank's snapshot (R347). -/
theorem pathAfter_of_bound (plat : Platform) (hsel : c.sel = some x) (hslots : c.slots = some ss) :
    pathAfter plat (some (c.sel, c.snapshot)) = writeV plat (some x) (addressed ss (ss.map (·.orig))) restoreEnd :=
  congrFun (Core.restore_of_bound plat hsel hslots) restoreEnd

/-- The restore of an MMIO variant, write by write. -/
theorem goes_restore_mmio (hn : n < s.banks.length) (hm : onMmio x = true) (hw : s.writable x ss) (hsel : c.sel = some x)
    (hslots : c.slots = some ss) (hws : ws = slotWrites x ss (ss.map (·.orig))) :
    (pathAfter s.plat (some (c.sel, c.snapshot))).goes n ((s.record (.cancel n)).withCore n b c.startRestore) (4 + ws.length)
      { (s.programmed x ws).traced (.cancel n :: mmioRecords ws).reverse with
        banks := s.banks.set n { b with path := none, core := c.restored .ok } } := by
  have hplain : ∀ w ∈ ws, plainOffset s.plat (BitVec.ofNat 32 w.1) = true := fun w hw' => by
    rw [State.writable, if_pos hm] at hw
    obtain ⟨y, hy, e⟩ := mem_slotWrites (hws ▸ hw')
    exact e ▸ hw y hy
  rw [pathAfter_of_bound _ hsel hslots, writeV_of_mmio _ hm, ← hws]
  refine goes_writeOffsets (k := fun _ => restoreEnd .ok) hplain ?_
  have hend := goes_restoreEnd (s := { s.programmed x ws with trace := (mmioRecords ws).reverse ++ .cancel n :: s.trace })
    (n := n) (b := b) (c := c) (by rw [State.programmed_mmio hm]; exact hn) .ok
  rw [State.programmed_mmio hm] at hend ⊢
  rw [List.reverse_cons, State.traced, List.append_assoc]
  exact hend

/-- The restore of a bus variant, where nothing else moves. -/
theorem goes_restore_bus (hn : n < s.banks.length) (hm : onMmio x = false) (hq : s.quiet) (hw : s.writable x ss)
    (hsel : c.sel = some x) (hslots : c.slots = some ss) (hws : ws = slotWrites x ss (ss.map (·.orig))) :
    ∃ (j : Nat) (t : State), (s.programmed x ws).wrote x [] t ∧
      (pathAfter s.plat (some (c.sel, c.snapshot))).goes n ((s.record (.cancel n)).withCore n b c.startRestore) j
        { t with banks := s.banks.set n { b with path := none, core := c.restored .ok } } := by
  subst hws
  obtain ⟨-, hplain, hlanes⟩ := hw.ready hq
  have hcancel : s.wrote x [] (s.record (.cancel n)) := by
    rw [State.wrote, if_neg (by simp [hm])]
    exact ⟨s.mmio, [.cancel n], ⟨(hlanes hm).store.1, fun _ _ => rfl⟩, rfl⟩
  have hW : Writable (s.record (.cancel n)) x ss :=
    ⟨hq, hplain, fun hm => let hh := hlanes hm; ⟨hh.quiet, hh.auto, hh.facts, hh.store, hh.idle⟩⟩
  obtain ⟨hist, t, hwrote, ht, e⟩ := run_writeV_at hW n b c.startRestore (.path n) [] (ss.map (·.orig)) restoreEnd
  have hbanks : t.banks = s.banks := (State.wrote_core hwrote).1
  obtain ⟨j, hg⟩ := (pathAfter_restores s.plat c.sel c.snapshot).goes (n := n)
    (s := (s.record (.cancel n)).withCore n b c.startRestore) hq []
  have hend := goes_restoreEnd (s := t) (b := b) (c := c) (hbanks.symm ▸ hn) .ok
  rw [pathAfter_of_bound _ hsel hslots] at hg ⊢
  rw [show run (.path n) [] (writeV s.plat (some x) _ restoreEnd) _ = _ from e, hend.run_eq ht.quiet, hbanks] at hg
  refine ⟨j, t, ?_, hg⟩
  have hall := State.wrote_more hcancel hwrote
  rw [State.wrote, if_neg (by simp [hm])] at hall ⊢
  exact hall

/-- The restore on a PHY that never answers ends with its first write (R348). -/
theorem goes_restore_silent (hb : s.banks[n]? = some b) (hq : s.quiet) (hne : ss ≠ []) (hs : s.silentLane x l r)
    (hsel : b.core.sel = some x) (hslots : b.core.slots = some ss) :
    ∃ (j : Nat) (t : State), t.phy = s.phy ∧ t.sram = s.sram ∧
      t.count (.write r.ctl 0x00008000) = s.count (.write r.ctl 0x00008000) + 3 ∧ t.banks = s.banks ∧
      (pathAfter s.plat (some (b.core.sel, b.core.snapshot))).goes n
        ((s.record (.cancel n)).withCore n b b.core.startRestore) j
        { t with banks := s.banks.set n { b with path := none, core := b.core.restored .busTimeout } } := by
  have hcopy : addressed ss (ss.map (·.orig)) ≠ [] := by
    obtain ⟨y, rest, rfl⟩ := List.exists_cons_of_ne_nil hne
    exact List.cons_ne_nil _ _
  have hn := lt_of_bank hb
  obtain ⟨v, hends, htried⟩ := Silent.writeV
    (show ((s.record (.cancel n)).withCore n b b.core.startRestore).silentLane x l r from hs) hq hcopy
  obtain ⟨hbanks, hqv⟩ := htried.banks_quiet hq
  obtain ⟨-, -, hphy, hsram, -, -, -, hcount⟩ := htried.keeps
  obtain ⟨hist, e⟩ := hends (.path n) []
  obtain ⟨j, hg⟩ := (pathAfter_restores s.plat b.core.sel b.core.snapshot).goes (n := n)
    (s := (s.record (.cancel n)).withCore n b b.core.startRestore) hq []
  have hself : v = ({ v with banks := s.banks } : State).withCore n b b.core.startRestore := by
    cases v
    cases hbanks
    rfl
  have hend := goes_restoreEnd (s := { v with banks := s.banks }) (b := b) (c := b.core) hn .busTimeout
  rw [← hself] at hend
  rw [pathAfter_of_bound _ hsel hslots] at hg ⊢
  rw [show run (.path n) [] (writeV s.plat (some x) _ restoreEnd) _ = _ from e restoreEnd, hend.run_eq hqv] at hg
  refine ⟨j, { v with banks := s.banks }, hphy, hsram, hcount.trans ?_, rfl, hg⟩
  show List.countP _ (.cancel n :: s.trace) + 3 = _
  rfl

/-! ### A path that loses the test-and-clear -/

theorem pathProg_after_lost (plat : Platform) (hist : List Resp) :
    (pathProg plat).after (.flag false :: hist) = (sampleDone lostAfter).after hist := by
  rw [pathProg_eq]
  rfl

/-- It samples `done` next. -/
theorem State.movePath_lost (hb : s.banks[n]? = some b) (hp : b.path = some []) (hdue : b.core.timerDue s.now = false) :
    s.movePath n = s.suspend (.path n) [.flag false] := by
  rw [State.movePath_testAndClear hb hp, State.testAndClear_lost hb hdue]
  rfl

theorem performReq_sampleDone (hb : s.banks[n]? = some b) :
    performReq n .sampleDone s = (some (.flag b.core.done), s) := by
  rw [performReq, State.coreAt_of_bank hb]

/-- The second move of a path that has lost samples `done`. -/
theorem State.movePath_sampleDone (hb : s.banks[n]? = some b) (hp : b.path = some [.flag false]) : s.movePath n =
    if b.core.done then s.finish (.path n) else s.suspend (.path n) [.flag false, .flag false] := by
  have hmove : s.movePath n = runInvisible (.path n) [.flag false, .flag b.core.done] (lostAfter b.core.done) s := by
    rw [State.movePath_of_bank hb hp, pathProg_after_lost]
    show moveAgent _ _ (.act .sampleDone fun a => lostAfter a.asFlag) s = _
    rw [moveAgent]
    simp only [Runner.inst, performReq_sampleDone hb]
    rfl
  rw [hmove]
  cases b.core.done with
  | true => rfl
  | false => exact runInvisible_of_visible (r := .awaitDone false) rfl

/-- Two moves of a path that loses: it ends where `done` is 1, and waits where it is 0 (R351). -/
theorem State.movePath_lost_twice (hb : s.banks[n]? = some b) (hp : b.path = some []) (hdue : b.core.timerDue s.now = false) :
    (s.movePath n).movePath n =
      if b.core.done then s.finish (.path n) else s.suspend (.path n) [.flag false, .flag false] := by
  rw [State.movePath_lost hb hp hdue, State.movePath_sampleDone (State.suspend_path_bank hb) rfl, State.finish_suspend,
    State.suspend_suspend]

/-- A round of the wait that finds `done` at 0 leaves the path where it is. -/
theorem State.movePath_waits (hb : s.banks[n]? = some b) (hp : b.path = some [.flag false, .flag false])
    (hd : b.core.done = false) : s.movePath n = s.donePoll := by
  rw [State.movePath_of_bank hb hp, pathProg_after_lost]
  show moveAgent _ _ (.act (.awaitDone false) _) s = _
  rw [moveAgent]
  simp only [Runner.inst, performReq_awaitDone_none hb hd]
  show s.donePoll.suspend (.path n) [.flag false, .flag false] = _
  rw [State.suspend_path_of_bank (s := s.donePoll) hb, ← hp]
  exact State.withCore_self (s := s.donePoll) hb

/-- Since `s` nothing but time has passed, apart from the banks, and no access was made. -/
def State.waitedFrom (s t : State) : Prop :=
  ∃ (d : Time) (rs : List Record) (bs : List Bank), (∀ y ∈ rs, y.isAccess = false) ∧
    t = { (s.later d).traced rs with banks := bs }

theorem State.waitedFrom_suspend : s.waitedFrom (s.suspend (.path n) h) := ⟨0, [], _, nofun, rfl⟩

theorem State.waitedFrom.donePoll (hw : s.waitedFrom t) : s.waitedFrom t.donePoll := by
  obtain ⟨d, rs, bs, hrs, rfl⟩ := hw
  refine ⟨d + s.plat.donePollMs * 1000, .sleep (s.plat.donePollMs * 1000) :: rs, bs, ?_, ?_⟩
  · rintro y (_ | ⟨_, hy⟩)
    · rfl
    · exact hrs y hy
  · simp [State.donePoll, State.later, State.traced, Nat.add_assoc]

/-- How much time has passed is what the clock says. -/
theorem State.waitedFrom.eq (hw : s.waitedFrom t) : ∃ rs : List Record, (∀ y ∈ rs, y.isAccess = false) ∧
    t = { (s.later (t.now - s.now)).traced rs with banks := t.banks } := by
  obtain ⟨d, rs, bs, hrs, rfl⟩ := hw
  refine ⟨rs, hrs, ?_⟩
  show _ = { (s.later (s.now + d - s.now)).traced rs with banks := bs }
  rw [Nat.add_sub_cancel_left]

/-- A path that waits goes on waiting. -/
theorem State.movePath_waits_iterate (hb : s.banks[n]? = some b) (hp : b.path = some [.flag false, .flag false])
    (hd : b.core.done = false) (hw : u.waitedFrom s) (k : Nat) :
    u.waitedFrom ((fun t : State => t.movePath n)^[k] s) ∧ ((fun t : State => t.movePath n)^[k] s).banks = s.banks := by
  induction k generalizing s with
  | zero => exact ⟨hw, rfl⟩
  | succ k ih =>
    rw [Function.iterate_succ_apply, State.movePath_waits hb hp hd]
    exact ih (s := s.donePoll) hb hw.donePoll

/-! ### Both paths -/

/-- Settles O50: the path that wins, on each kind of hardware, and the path that loses. -/
theorem rollbackPathRestores : Obligations.RollbackPathRestores := by
  refine ⟨fun s n rest hv hin => step_of_moved hv hin rfl, fun s n b hb hp => ⟨?_, fun hlost => ?_⟩⟩
  · rintro x ss ws d _ ha hd hle hsel hslots hws rfl
    have hn := lt_of_bank hb
    have hdue : b.core.timerDue s.now = true := Core.timerDue_iff.2 ⟨ha, d, hd, hle⟩
    refine ⟨fun hm hw => ?_, fun hm hq hw => ?_, fun l r hq hne hs => ?_⟩
    · have hend := State.movePath_restores hb hp hdue (goes_restore_mmio hn hm hw hsel hslots hws)
      rwa [show 4 + ws.length + 1 = ws.length + 5 by omega] at hend
    · obtain ⟨j, t, hwrote, hg⟩ := goes_restore_bus hn hm hq hw hsel hslots hws
      obtain ⟨hend, hrolls⟩ := State.movePath_restores hb hp hdue hg
      exact ⟨j + 1, t, hwrote, hrolls, hend⟩
    · obtain ⟨j, t, hphy, hsram, hcount, hbanks, hg⟩ := goes_restore_silent hb hq hne hs hsel hslots
      obtain ⟨hend, hrolls⟩ := State.movePath_restores hb hp hdue hg
      exact ⟨j + 1, _, hrolls, hend, hphy, hsram, hcount, List.getElem?_set_self hn⟩
  · have htwice := State.movePath_lost_twice hb hp (Core.not_timerDue hlost)
    refine ⟨fun hd => ?_, fun hd k => ?_⟩
    · rw [hd, if_pos rfl] at htwice
      exact htwice.trans (State.modifyBank_of_bank hb _)
    · rw [hd, if_neg Bool.false_ne_true] at htwice
      have hb' := State.suspend_path_bank (hist := [.flag false, .flag false]) hb
      have hend : (fun t : State => t.movePath n)^[k + 2] s =
          (fun t : State => t.movePath n)^[k] (s.suspend (.path n) [.flag false, .flag false]) := by
        rw [Function.iterate_add_apply]
        exact congrArg _ htwice
      obtain ⟨hw, hbanks⟩ := State.movePath_waits_iterate hb' rfl hd (State.waitedFrom_suspend (s := s)) k
      obtain ⟨rs, hrs, e⟩ := hw.eq
      exact ⟨_, rs, hend, by rw [hbanks, hb'], hrs, e⟩

end Sys2Proof.Machine
end

section
/-! The configuration along a run (60_exceptions.md R397, 10_state.md R30, R50), and the order of time (00_scope.md R14). -/

namespace Sys2Proof.Machine

variable {s t u : State}

/-- What holds between a state and every later one: the configuration stands, what has its sizes keeps them, and neither
time nor the count of the resets goes back. -/
structure State.Continues (s t : State) : Prop where
  plat : t.plat = s.plat
  sized : s.Sized → t.Sized
  now : s.now ≤ t.now
  epoch : s.epoch ≤ t.epoch

theorem State.Continues.refl (s : State) : s.Continues s := ⟨rfl, id, le_rfl, le_rfl⟩

theorem State.Continues.trans (h : s.Continues t) (h' : t.Continues u) : s.Continues u :=
  ⟨h'.plat.trans h.plat, h'.sized ∘ h.sized, h.now.trans h'.now, h.epoch.trans h'.epoch⟩

/-! ### The elementary changes -/

theorem State.continues_act (s : State) (n : Nat) (r : Req) : s.Continues (performReq n r s).2 := by
  obtain ⟨-, -, hplat, -, -, hepoch, -, -, hnow, -, -⟩ := performReq_keeps n r s
  exact ⟨hplat, fun hs => hs.act n r, hnow, hepoch.ge⟩

theorem State.continues_modifyBank (s : State) (n : Nat) (f : Bank → Bank) : s.Continues (s.modifyBank n f) :=
  ⟨rfl, fun hs => hs.congr rfl (by simp) rfl, le_rfl, le_rfl⟩

/-- A record says what was done, and changes nothing else (log 17). -/
theorem State.Continues.record (h : s.Continues t) (r : Record) : s.Continues (t.record r) :=
  h.trans ⟨rfl, id, le_rfl, le_rfl⟩

/-- A block reset gives the banks and the table the sizes of the configuration, which it leaves, as it leaves the time
(log 27). -/
theorem State.continues_blockReset (s : State) : s.Continues s.blockReset :=
  ⟨rfl, fun _ => ⟨List.length_replicate, List.length_replicate⟩, le_rfl, Nat.le_succ _⟩

theorem State.continues_timerFire (s : State) (n : Nat) : s.Continues (s.timerFire n) := by
  unfold State.timerFire
  split
  · split
    · exact (s.continues_modifyBank n _).record _
    · exact .refl s
  · exact .refl s

theorem State.continues_timerArm (s : State) (n : Nat) : s.Continues (s.timerArm n) := by
  unfold State.timerArm
  split
  · split
    · exact .refl s
    · exact (s.continues_modifyBank n _).record _
  · exact .refl s

theorem State.continues_timerCancel (s : State) (n : Nat) : s.Continues (s.timerCancel n) := by
  unfold State.timerCancel
  split
  · exact (s.continues_modifyBank n _).record _
  · exact .refl s

/-! ### A step -/

/-- Every elementary change goes on from where the run stands. -/
theorem continues_kept (s : State) : Kept s.Continues True where
  poke _ _ _ h := h.trans ⟨rfl, id, le_rfl, le_rfl⟩
  phyReg _ _ _ _ _ h := h.trans ⟨rfl, id, le_rfl, le_rfl⟩
  sramWord _ _ _ _ _ h := h.trans ⟨rfl, id, le_rfl, le_rfl⟩
  marks _ _ h := h.trans ⟨rfl, id, le_rfl, le_rfl⟩
  act n r t h := h.trans (t.continues_act n r)
  port t n f h _ := h.trans (t.continues_modifyBank n f)
  time _ d h := h.trans ⟨rfl, id, Nat.le_add_right _ d, le_rfl⟩
  down _ _ h := h.trans ⟨rfl, id, le_rfl, le_rfl⟩
  fired t n h := h.trans (t.continues_timerFire n)
  reset t h := h.trans t.continues_blockReset
  arm _ t n h := h.trans (t.continues_timerArm n)
  cancel _ t n h := h.trans (t.continues_timerCancel n)
  queues _ _ _ _ _ _ _ h _ _ := h.trans ⟨rfl, id, le_rfl, le_rfl⟩

/-- Settles O17: the states that go on from `s` are closed under everything a step can do, and `s` is one of them. -/
theorem configurationKept : Obligations.ConfigurationKept := by
  intro s t e
  obtain ⟨hplat, hsized, hnow, hepoch⟩ := (continues_kept s).step s t (fun _ _ => .inl trivial) (.refl s) e
  exact ⟨hplat, hsized, hnow, hepoch⟩

end Sys2Proof.Machine
end

section
/-! Reset (70_reset_and_hazards.md R410): the reset values, which the state after reset and a reset event share, and the
invariants there. The configuration check at reset (R412): what an admissible configuration says of its ports, its
selectors and their layouts, check by check. -/

namespace Sys2Proof.Machine

variable {s : State} {b : Bank} {n : Nat} {p : Platform}

/-! ### The reset values (R410) -/

/-- A bank of a machine whose banks all have their reset values has them. -/
theorem bank_eq_of_replicate {l : Nat} (hs : s.banks = List.replicate l {}) (hb : s.banks[n]? = some b) : b = {} :=
  List.eq_of_mem_replicate (hs ▸ List.mem_of_getElem? hb)

/-- Banks and an ownership table at their reset values are all that R410 asks for. -/
theorem State.afterReset_of_replicate (hs : s.banks = List.replicate p.numInstances {})
    (he : s.enabled = List.replicate p.numPll false) : s.afterReset p := by
  refine ⟨by rw [hs, List.length_replicate], by rw [he, List.length_replicate], fun k hk => ?_, fun n b hb => ?_⟩
  · exact Bool.noConfusion (List.eq_of_mem_replicate (he ▸ List.mem_of_getElem? hk))
  · obtain rfl := bank_eq_of_replicate hs hb
    and_intros <;> rfl

/-- Settles O11: the state after reset and a block reset both give the banks and the table their reset values, and a
block reset leaves the environment and the record (log 27). -/
theorem resetValues : Obligations.ResetValues := by
  refine ⟨fun p => State.afterReset_of_replicate rfl rfl, fun s rest hv hin => ?_⟩
  have hstep : step s = .next { s with inputs := rest }.blockReset := step_of_moved hv hin rfl
  exact ⟨_, hstep, State.afterReset_of_replicate rfl rfl, rfl, rfl, rfl, rfl, rfl, rfl, rfl⟩

/-! ### The invariants after reset -/

/-- Where no timer is armed and nothing is recorded, no clear of a timer lacks its arming (R349). -/
theorem State.RestoresBalanced.reset {l : Nat} (hs : s.banks = List.replicate l {}) (ht : s.trace = []) :
    s.RestoresBalanced := by
  intro n c hc
  rw [State.core?_eq] at hc
  obtain ⟨b, hb, rfl⟩ := Option.map_eq_some_iff.1 hc
  obtain rfl := bank_eq_of_replicate hs hb
  rw [State.count, ht]
  rfl

/-- Settles O12: the stores and the queues are empty, and every bank and the table have their reset values. -/
theorem resetMeetsInvariants : Obligations.ResetMeetsInvariants := fun _ =>
  ⟨⟨rfl, rfl, rfl⟩, State.SingleOwner.reset rfl rfl, State.Lifecycle.reset rfl, nofun,
    ⟨List.length_replicate, List.length_replicate⟩, State.RestoresBalanced.reset rfl rfl⟩

/-! ### A configuration that is not admissible (R412) -/

/-- The block does not leave reset (log 20). -/
theorem step_of_not_valid (h : s.plat.valid = false) : step s = .refused .badConfiguration := by
  rw [step, State.fetch, if_neg (by simp [h])]

/-! ### Ports and selectors of an admissible configuration -/

theorem alignedOffset_iff (w : Word) : alignedOffset w = true ↔ w.toNat % 4 = 0 := beq_iff_eq

/-- The four registers of a port are aligned (20_memory.md R85). -/
theorem port_aligned {r : PortRegs} (hv : p.valid = true) (hr : p.busPorts[n]? = some r) :
    ∀ o ∈ ([r.lane0.ctl, r.lane0.sts, r.lane1.ctl, r.lane1.sts] : List Word), o.toNat % 4 = 0 := by
  have h0 := laneFacts p hv n 0 r.lane0 (by rw [Platform.laneRegs?, hr]; rfl)
  have h1 := laneFacts p hv n 1 r.lane1 (by rw [Platform.laneRegs?, hr]; rfl)
  simpa [← alignedOffset_iff] using ⟨h0.ctlAligned, h0.stsAligned, h1.ctlAligned, h1.stsAligned⟩

/-- The checks on one selector. -/
theorem selector_checked {x : Selector} (hv : p.valid = true) (hx : x ∈ p.selectors) :
    x.clkselReg.toNat % 4 = 0 ∧ x.layout.valid p.numPorts = true ∧ ∀ k ∈ x.indices, k < p.numPll := by
  simp only [Platform.valid, Platform.selectorsOk, Bool.and_eq_true, List.all_eq_true, decide_eq_true_eq] at hv
  obtain ⟨-, ⟨hall, -⟩, -⟩ := hv
  obtain ⟨⟨⟨-, haligned⟩, hlayout⟩, hindices⟩ := hall x hx
  exact ⟨(alignedOffset_iff _).1 haligned, hlayout, hindices⟩

theorem noPair_iff_pairwise {α : Type} (r : α → α → Bool) (l : List α) :
    noPair r l = true ↔ l.Pairwise fun a b => r a b = false := by
  induction l with
  | nil => simp [noPair]
  | cons a rest ih => simp [noPair, ih]

/-- With two instances no two selectors of the table share a lane while both may be bound (R436, log 26). -/
theorem selectors_apart {i j : Nat} {x y : Selector} (hv : p.valid = true) (h2 : 2 ≤ p.numInstances) (hij : i < j)
    (hx : p.selectors[i]? = some x) (hy : p.selectors[j]? = some y) : x.sharesLane y = false := by
  simp only [Platform.valid, Platform.selectorsOk, Bool.and_eq_true, Bool.or_eq_true, decide_eq_true_eq] at hv
  obtain ⟨-, -, hpairs⟩ := hv
  have hpairwise := (noPair_iff_pairwise _ _).1 (hpairs.resolve_left (Nat.not_lt.2 h2))
  obtain ⟨hi, rfl⟩ := List.getElem?_eq_some_iff.1 hx
  obtain ⟨hj, rfl⟩ := List.getElem?_eq_some_iff.1 hy
  exact List.pairwise_iff_getElem.1 hpairwise i j hi hj hij

/-- Two selectors on a common lane of one port that can discover two different PLL indices share that lane. -/
theorem sharesLane_of_lanes {x y : Selector} {u v : Nat × BitVec 2} {k k' : Nat} (hx : x.layout.lanes? = some u)
    (hy : y.layout.lanes? = some v) (hport : u.1 = v.1) (hlane : u.2 &&& v.2 ≠ 0#2) (hk : k ∈ x.indices)
    (hk' : k' ∈ y.indices) (hne : k ≠ k') : x.sharesLane y = true := by
  have hbind : x.mayBothBind y = true := by
    simp only [Selector.mayBothBind, List.any_eq_true, bne_iff_ne]
    exact ⟨k, hk, k', hk', hne⟩
  simp [Selector.sharesLane, hx, hy, hport, hlane, hbind]

/-! ### Layouts of an admissible configuration -/

theorem combo_aligned {m : Nat} {l : ComboLayout} (h : (Layout.combo l).valid m = true) :
    l.cfg0.toNat % 4 = 0 ∧ l.cfg1.toNat % 4 = 0 := by
  simp only [Layout.valid, Bool.and_eq_true, alignedOffset_iff] at h
  obtain ⟨⟨haligned, -⟩, -⟩ := h
  exact haligned

theorem dpmn_aligned {m : Nat} {l : DpmnLayout} (h : (Layout.dpmn l).valid m = true) :
    l.m.toNat % 4 = 0 ∧ l.n.toNat % 4 = 0 := by
  simp only [Layout.valid, Bool.and_eq_true, alignedOffset_iff] at h
  obtain ⟨haligned, -⟩ := h
  exact haligned

theorem c10_lanes_ne_zero {m : Nat} {l : C10Layout} (h : (Layout.c10 l).valid m = true) : l.lanes ≠ 0#2 := by
  simp only [Layout.valid, Bool.and_eq_true, bne_iff_ne] at h
  obtain ⟨⟨⟨-, hlanes⟩, -⟩, -⟩ := h
  exact hlanes

theorem c20_lanes_ne_zero {m : Nat} {l : C20Layout} (h : (Layout.c20 l).valid m = true) : l.lanes ≠ 0#2 := by
  simp only [Layout.valid, Bool.and_eq_true, bne_iff_ne] at h
  obtain ⟨⟨⟨⟨⟨-, hlanes⟩, -⟩, -⟩, -⟩, -⟩ := h
  exact hlanes

/-- Collecting the registers of aux fields after others misses none and adds no other. -/
theorem mem_collectRegs (o : Word) (aux : List AuxField) (acc : List Word) :
    o ∈ aux.foldl (fun acc a => if acc.contains a.reg then acc else acc ++ [a.reg]) acc ↔
      o ∈ acc ∨ ∃ a ∈ aux, a.reg = o := by
  induction aux generalizing acc with
  | nil => simp
  | cons a aux ih =>
    simp only [List.foldl_cons, ih, List.mem_cons, exists_eq_or_imp]
    split
    next hmem =>
      have hold : a.reg = o → o ∈ acc := fun e => e ▸ List.contains_iff_mem.1 hmem
      tauto
    next => rw [List.mem_append, List.mem_singleton, eq_comm (a := o), or_assoc]

/-- The slot registers of a DKL are DIV0, BIAS and the registers of the aux fields (10_state.md R34). -/
theorem mem_dklRegs (l : DklLayout) (o : Word) : o ∈ l.regs ↔ o = l.div0 ∨ o = l.bias ∨ ∃ a ∈ l.aux, a.reg = o := by
  rw [DklLayout.regs, mem_collectRegs]
  simp [or_assoc]

/-- The slot registers of a DKL are aligned, and no aux mask meets a divider field of its register. -/
theorem dkl_checked {m : Nat} {l : DklLayout} (h : (Layout.dkl l).valid m = true) :
    (∀ o ∈ l.regs, o.toNat % 4 = 0) ∧ ∀ a ∈ l.aux, a.mask &&& l.dividerMask a.reg = 0#32 := by
  simp only [Layout.valid, Bool.and_eq_true, List.all_eq_true, alignedOffset_iff, beq_iff_eq] at h
  obtain ⟨⟨⟨⟨⟨haligned, -⟩, -⟩, -⟩, -⟩, hclear⟩ := h
  exact ⟨haligned, hclear⟩

/-- A word has no bit of a union exactly if it has none of either part. -/
theorem and_or_eq_zero_iff (x y z : Word) : x &&& (y ||| z) = 0#32 ↔ x &&& y = 0#32 ∧ x &&& z = 0#32 := by
  rw [BitVec.and_or_distrib_left, BitVec.or_eq_zero_iff]

/-- An aux field in DIV0 is clear of the prediv and the integer, one in BIAS of the fraction (41_phy_datapath.md R220). -/
theorem dkl_aux_clear {l : DklLayout} {a : AuxField} (h : a.mask &&& l.dividerMask a.reg = 0#32) :
    (a.reg = l.div0 → a.mask &&& (fieldMask l.predivLo 4 ||| fieldMask l.intLo 8) = 0#32) ∧
      (a.reg = l.bias → a.mask &&& fieldMask l.fracLo 22 = 0#32) := by
  obtain ⟨hdiv, hbias⟩ := (and_or_eq_zero_iff _ _ _).1 h
  exact ⟨fun e => by rwa [if_pos e] at hdiv, fun e => by rwa [if_pos e] at hbias⟩

/-! ### The checks together -/

/-- An admissible configuration breaks no check of R412. -/
theorem not_breaksCheck_of_valid (hv : p.valid = true) : ¬ breaksCheck p := by
  rintro (⟨n, r, hr, o, ho, hbad⟩ | ⟨x, hx, hbad⟩ |
    ⟨h2, i, j, x, y, u, v, hij, hx, hy, hu, hv', hport, hlane, k, hk, k', hk', hne⟩)
  · exact hbad (port_aligned hv hr o ho)
  · obtain ⟨hreg, hlayout, hindices⟩ := selector_checked hv hx
    rcases hbad with hbad | ⟨k, hk, hbad⟩ | hbad
    · exact hbad hreg
    · exact Nat.not_lt.2 hbad (hindices k hk)
    · split at hbad
      next l hl =>
        obtain ⟨h0, h1⟩ := combo_aligned (hl ▸ hlayout)
        exact hbad.elim (· h0) (· h1)
      next l hl =>
        obtain ⟨hm, hn⟩ := dpmn_aligned (hl ▸ hlayout)
        exact hbad.elim (· hm) (· hn)
      next l hl =>
        obtain ⟨haligned, hclear⟩ := dkl_checked (hl ▸ hlayout)
        rcases hbad with hbad | hbad | ⟨a, ha, hbad | ⟨e, hbad⟩ | ⟨e, hbad⟩⟩
        · exact hbad (haligned _ ((mem_dklRegs l _).2 (.inl rfl)))
        · exact hbad (haligned _ ((mem_dklRegs l _).2 (.inr (.inl rfl))))
        · exact hbad (haligned _ ((mem_dklRegs l _).2 (.inr (.inr ⟨a, ha, rfl⟩))))
        · exact hbad ((dkl_aux_clear (hclear a ha)).1 e)
        · exact hbad ((dkl_aux_clear (hclear a ha)).2 e)
      next l hl => exact c10_lanes_ne_zero (hl ▸ hlayout) hbad
      next l hl => exact c20_lanes_ne_zero (hl ▸ hlayout) hbad
  · have hshare := sharesLane_of_lanes hu hv' hport hlane hk hk' hne
    rw [selectors_apart hv h2 hij hx hy] at hshare
    cases hshare

/-- Settles O9: what breaks a check is not admissible, and a configuration that is not is refused by every step. -/
theorem badConfigurationRefused : Obligations.BadConfigurationRefused := fun _ hbad =>
  step_of_not_valid (Bool.eq_false_iff.2 fun hv => not_breaksCheck_of_valid hv hbad)

end Sys2Proof.Machine
end
